-- ==== Sys2Proof/Word.lean ====
section
/-!
DEFINITION. The word types of the Kular: what the spec treats as bits.
-/
namespace Sys2Proof

/-- A scalar register, an address, a control register (04 R74, 06 R130). -/
abbrev Word := BitVec 64

/-- The smallest addressable unit of memory (00 R2). -/
abbrev Byte := BitVec 8

/-- A hart: cluster * 4 + hart (14 R373). -/
abbrev HartId := Fin 512

/-- A cluster: die * 32 + row * 8 + column (01 R6). -/
abbrev ClusterId := Fin 128

/-- A die of the package (01 R4). -/
abbrev DieId := Fin 4

/-- The cluster of a hart. -/
def HartId.cluster (h : HartId) : ClusterId := ⟨h.val / 4, by omega⟩

/-- The die of a cluster (01 R6). -/
def ClusterId.die (c : ClusterId) : DieId := ⟨c.val / 32, by omega⟩

/-- The die of a hart. -/
def HartId.die (h : HartId) : DieId := h.cluster.die

/-- Hart `k` of cluster `c`. -/
def hartOf (c : ClusterId) (k : Fin 4) : HartId := ⟨c.val * 4 + k.val, by omega⟩

/-- A hart's number within its cluster (HARTID, 14 Table 14.3). -/
def HartId.local (h : HartId) : Fin 4 := ⟨h.val % 4, by omega⟩

end Sys2Proof
end

