-- ==== Sys2Proof/Config.lean ====
section
/-!
DEFINITION. What the spec leaves to the implementation: constants with no body, applied to a counter of the state or to
operands, so that no statement can rest on a value of theirs.
-/

namespace Sys2Proof.Config

/-- The sign of the NaN that overflow gives in E4M3 with SAT8 = 0 (03 Table 3.5 states none), by the exact result's sign,
mantissa and exponent: whether it is negative (DESIGN CHOICE, log 4 and 20). -/
opaque overflowNaN : Bool → Nat → Int → Bool

/-- What an infinite result of an operation that is no conversion, such as a division by zero, becomes in E4M3, which has no
infinity (03 R56 states none), by SAT8 and sign (DESIGN CHOICE, log 4 and 20). -/
opaque noInfinity : Bool → Bool → Byte

/-- The element code that a NaN or an infinity leaves in an MXFP4 block with X = 0xFF (03 R46 states none), by its index, whether
it is a NaN, and its sign (DESIGN CHOICE, log 4 and 21). -/
opaque mxBadCode : Nat → Bool → Bool → BitVec 4

/-- The bytes of a node's image in a save area (09 R256: valid only on the part itself), by draw and position
(DESIGN CHOICE, log 4 and 50). -/
opaque nodeImage : Nat → Nat → Byte

/-- How many units in the last place a table function of 09 R241 may lie from the correctly rounded result, by function
and input: added to the result's bits within the stated error (DESIGN CHOICE, log 4 and 46). -/
opaque tableOffset : Nat → Nat → Int

/-- Which of NX, UF and OF a table function of 09 R241 raises on an input, by function and input
(DESIGN CHOICE, log 4 and 46). -/
opaque tableFlags : Nat → Nat → BitVec 5

/-- Which of the versions a tile element has had since its last drained update an MPEEK returns (10 R281), by draw and
position: 0 is the newest (DESIGN CHOICE, log 4 and 27). -/
opaque peekAge : Nat → Nat → Nat

/-- One less than the tokens that the hart port of a handle holds before it is full (09 R265)
(DESIGN CHOICE, log 4, in part DEDUCED, log 23). -/
opaque portDepth : Nat

/-- The shared exponent and the micro-exponents of the elements that a hart port carries in a grist type, whose block the spec
does not give (09 R265), by type (DESIGN CHOICE, log 4, in part DEDUCED, log 21). -/
opaque gristScale : Nat → BitVec 16

/-- The first two bytes of a grist block that an OUT fills with elements of an IN's different blocks, unchanged (15 R378 gives
the elements and not their scale), by node and element index (DESIGN CHOICE, log 4 and 49). -/
opaque mixedScale : Nat → Nat → BitVec 16

/-- The exponent of a frame that an OUT fills with mantissas of an IN's frames of unlike exponents, unchanged (15 R378 gives
the mantissas and not their exponent), by node and element index (DESIGN CHOICE, log 4 and 49). -/
opaque mixedExp : Nat → Nat → BitVec 16

/-- A byte of a factor buffer that no load of its table has filled (09 R230, R263 state none), by node and position
(DESIGN CHOICE, log 4 and 44). -/
opaque bufferByte : Nat → Nat → Byte

/-- What a block of the lees stack holds above the top when it is written to memory (11 R291 states none), by draw and
position (DESIGN CHOICE, log 4, in part DEDUCED, log 28). -/
opaque leesFill : Nat → Nat → Byte

/-- LEN in the header of an open lees frame (11 R303 states none), by draw
(DESIGN CHOICE, log 4, in part DEDUCED, log 28). -/
opaque openLen : Nat → Nat

/-- The BOOKSTART that CALRD.task returns for a number whose task has none (08 R226 states none), by draw
(DESIGN CHOICE, log 4, in part DEDUCED, log 41). -/
opaque noBookStart : Nat → BitVec 48

/-- What a load of a control-space word that is only written reads (13 Table 13.7, 14 Tables 14.5 and 14.7 state none), by
draw (DESIGN CHOICE, log 4 and 19). -/
opaque writeOnly : Nat → BitVec 64

/-- What a collective's step reads beyond the end of a Cellar slice (13 R340 states no bound and no result), by cluster and
offset (DESIGN CHOICE, log 4, in part DEDUCED, log 53). -/
opaque beyondSlice : Nat → Nat → Byte

/-- GAPEXP, HKEXP and HLEXP of a hint-audit record (02 Table 2.6), which rest on the latencies that the model leaves out, by draw
(DESIGN CHOICE, log 4 and 7). -/
opaque auditHint : Nat → BitVec 8

/-- The measured delay, in slots, of the link on which a slot-sync flit reaches a die (13 R335) (DESIGN CHOICE, log 4). -/
opaque linkDelay : Nat → Nat

end Sys2Proof.Config
end

