-- ==== Sys2Proof/Syntax.lean ====
section
/-!
DEFINITION. The syntax of the machine: the fields of the 128-bit instruction word (02 Table 2.1), and `Instr`, one
constructor per row of spec/opcode_table.json. The first 266 are forms of the 250 class and op pairs and hold the
word's fields; the rest are steps that another agent of the device takes, and hold what names the step.
-/

namespace Sys2Proof

/-- The scheduling fields [111:96] of the word (02 Table 2.1, Table 2.4). -/
structure Hints where
  gap  : BitVec 3
  rank : BitVec 2
  ce   : Bool
  ck   : BitVec 2
  cr   : Bool
  hk   : BitVec 2
  hl   : BitVec 3
  keep : BitVec 2
  deriving DecidableEq, Repr

/-- No hint: bits [111:96] all zero. -/
def Hints.none : Hints := ⟨0, 0, false, 0, false, 0, 0, 0⟩

/-- The operand fields of the word (02 Table 2.1) beside OPC, which the constructor of `Instr` stands for. Bit `j` of
`mod` is bit 40 + j of the word, so MOD[40] is `mod` bit 0. -/
structure Fields where
  d   : BitVec 5
  a   : BitVec 5
  b   : BitVec 5
  c   : BitVec 5
  p   : BitVec 4
  w   : BitVec 4
  mod : BitVec 8
  x   : BitVec 16
  imm : BitVec 32
  hints : Hints
  deriving DecidableEq, Repr

/-- Every field zero. -/
def Fields.zero : Fields := ⟨0, 0, 0, 0, 0, 0, 0, 0, 0, Hints.none⟩

/-- What a mis-hint measured (02 Table 2.6): the cycles, and what the hazards would have asked for. The cycles are
timing, so the record comes with the step. -/
structure AuditRecord where
  kind   : Bool
  cycles : BitVec 8
  gapExp : BitVec 3
  hkExp  : BitVec 2
  hlExp  : BitVec 3
  deriving DecidableEq, Repr

/-- A flit that reaches a receiver (13 R334, R337): the line it carries, the physical address it is for, and whether
the first and the second attempt arrive with a CRC error. -/
structure Flit where
  pa     : Nat
  data   : List Byte
  err1   : Bool
  err2   : Bool
  deriving DecidableEq, Repr

/-- One constructor per row of spec/opcode_table.json, in the table's order. -/
inductive Instr where
  /-- ADD (R77): Scalar add modulo 2^64 of A and B or a sign-extended immediate. -/
  | add (f : Fields)
  /-- SUB (R77): Scalar subtract modulo 2^64. -/
  | sub (f : Fields)
  /-- MUL (R77): Low 64 bits of the scalar product. -/
  | mul (f : Fields)
  /-- MULH (R77): High 64 bits of the product, signedness by MOD[43:42]. -/
  | mulh (f : Fields)
  /-- DIV (R78): Scalar division on the per-hart divider; never traps. -/
  | div (f : Fields)
  /-- REM (R78): Scalar remainder on the per-hart divider; never traps. -/
  | rem (f : Fields)
  /-- AND (R77): Bitwise and. -/
  | and (f : Fields)
  /-- OR (R77): Bitwise or. -/
  | or (f : Fields)
  /-- XOR (R77): Bitwise exclusive or. -/
  | xor (f : Fields)
  /-- ANDN (R77): A and not B. -/
  | andn (f : Fields)
  /-- SHL (R77): Left shift by the whole unsigned amount, zero at 64 or more. -/
  | shl (f : Fields)
  /-- SHR (R77): Logical or arithmetic right shift by the whole unsigned amount. -/
  | shr (f : Fields)
  /-- ROT (R77): Rotate left or right by the amount modulo 64. -/
  | rot (f : Fields)
  /-- MIN (R77): Signed or unsigned minimum. -/
  | min (f : Fields)
  /-- MAX (R77): Signed or unsigned maximum. -/
  | max (f : Fields)
  /-- CMP (R77): Writes 1 or 0 by the condition code of Table 4.4. -/
  | cmp (f : Fields)
  /-- SEL (R77): Selects A when C is nonzero, otherwise B. -/
  | sel (f : Fields)
  /-- CLZ (R79): Count of leading zero bits. -/
  | clz (f : Fields)
  /-- CTZ (R79): Count of trailing zero bits. -/
  | ctz (f : Fields)
  /-- POPC (R79): Number of one bits. -/
  | popc (f : Fields)
  /-- BFX (R79): Extracts a bit field, zero- or sign-extended. -/
  | bfx (f : Fields)
  /-- BFI (R79): Inserts a bit field of A into D. -/
  | bfi (f : Fields)
  /-- LI (R80): Loads an immediate sign-extended, zero-extended or into the high half. -/
  | li (f : Fields)
  /-- LEA (R80): Computes base plus scaled index plus offset without accessing memory. -/
  | lea (f : Fields)
  /-- LEA_PC (R80): PC-relative form of LEA. -/
  | leaPc (f : Fields)
  /-- LD (R82): Scalar load of 1 to 8 bytes with the checks of Table 4.6a. -/
  | ld (f : Fields)
  /-- ST (R82): Scalar store of 1 to 8 bytes with the checks of Table 4.6a. -/
  | st (f : Fields)
  /-- EXT (R79): Sign- or zero-extends the low w bits. -/
  | ext (f : Fields)
  /-- MULADD (R77): A times B plus C modulo 2^64. -/
  | muladd (f : Fields)
  /-- CLAMP (R77): Clamps A between B and C. -/
  | clamp (f : Fields)
  /-- BREV (R79): Reverses the low n bits. -/
  | brev (f : Fields)
  /-- MODMUL (R81): Modular product of reduced residues. -/
  | modmul (f : Fields)
  /-- MODADD (R81): Modular sum or difference of reduced residues. -/
  | modadd (f : Fields)
  /-- BR (R86): Conditional branch on a comparison of two scalars. -/
  | br (f : Fields)
  /-- BZ (R86): Branch when the scalar is zero. -/
  | bz (f : Fields)
  /-- BNZ (R86): Branch when the scalar is nonzero. -/
  | bnz (f : Fields)
  /-- JMP (R86): PC-relative jump. -/
  | jmp (f : Fields)
  /-- JMPR (R86): Jump to register plus offset. -/
  | jmpr (f : Fields)
  /-- CALL (R86): PC-relative call writing the link and pushing the return stack. -/
  | call (f : Fields)
  /-- CALLR (R86): Register call writing the link. -/
  | callr (f : Fields)
  /-- RET (R86): Jump to the address in A, popping the return stack. -/
  | ret (f : Fields)
  /-- LOOP (R86): Decrements the count and branches while it stays nonzero. -/
  | loop (f : Fields)
  /-- BMASK (R87): Branch on the count of set mask elements below VL. -/
  | bmask (f : Fields)
  /-- NOP (R88): Takes an issue slot and changes nothing. -/
  | nop (f : Fields)
  /-- HALT (R88): At system level completes issued work and stops the hart. -/
  | halt (f : Fields)
  /-- VADD (R109): Element-wise integer add. -/
  | vadd (f : Fields)
  /-- VSUB (R109): Element-wise integer subtract. -/
  | vsub (f : Fields)
  /-- VRSUB (R109): Element-wise reverse subtract. -/
  | vrsub (f : Fields)
  /-- VMUL (R109): Element-wise low product. -/
  | vmul (f : Fields)
  /-- VMULH (R109): Element-wise high product. -/
  | vmulh (f : Fields)
  /-- VDIV (R109): Element-wise division as R78. -/
  | vdiv (f : Fields)
  /-- VREM (R109): Element-wise remainder as R78. -/
  | vrem (f : Fields)
  /-- VMIN (R109): Element-wise minimum. -/
  | vmin (f : Fields)
  /-- VMAX (R109): Element-wise maximum. -/
  | vmax (f : Fields)
  /-- VAND (R109): Element-wise and. -/
  | vand (f : Fields)
  /-- VOR (R109): Element-wise or. -/
  | vor (f : Fields)
  /-- VXOR (R109): Element-wise xor. -/
  | vxor (f : Fields)
  /-- VSHL (R109): Element-wise left shift. -/
  | vshl (f : Fields)
  /-- VSHR (R109): Element-wise logical or arithmetic right shift. -/
  | vshr (f : Fields)
  /-- VSADD (R109): Element-wise saturating add. -/
  | vsadd (f : Fields)
  /-- VSSUB (R109): Element-wise saturating subtract. -/
  | vssub (f : Fields)
  /-- VAVG (R109): Element-wise average with optional rounding. -/
  | vavg (f : Fields)
  /-- VABSD (R109): Element-wise absolute difference. -/
  | vabsd (f : Fields)
  /-- VWADD (R110): Widening add into a double-width group. -/
  | vwadd (f : Fields)
  /-- VWMUL (R110): Widening product into a double-width group. -/
  | vwmul (f : Fields)
  /-- VNSHR (R110): Narrowing right shift with rounding and saturation options. -/
  | vnshr (f : Fields)
  /-- VMODADD (R111): Element-wise modular add by MODP or MODQ. -/
  | vmodadd (f : Fields)
  /-- VMODSUB (R111): Element-wise modular subtract. -/
  | vmodsub (f : Fields)
  /-- VMODMUL (R111): Element-wise modular product. -/
  | vmodmul (f : Fields)
  /-- VCLZ (R109): Element-wise leading-zero count. -/
  | vclz (f : Fields)
  /-- VPOPC (R109): Element-wise population count. -/
  | vpopc (f : Fields)
  /-- VFADD (R114): Element-wise floating add, rounded once. -/
  | vfadd (f : Fields)
  /-- VFSUB (R114): Element-wise floating subtract. -/
  | vfsub (f : Fields)
  /-- VFMUL (R114): Element-wise floating product. -/
  | vfmul (f : Fields)
  /-- VFDIV (R114): Element-wise floating division. -/
  | vfdiv (f : Fields)
  /-- VFMA (R114): Element-wise fused multiply-add with sign options. -/
  | vfma (f : Fields)
  /-- VFWMA (R115): Widening fused multiply-add. -/
  | vfwma (f : Fields)
  /-- VFMIN (R114): Element-wise minimumNumber. -/
  | vfmin (f : Fields)
  /-- VFMAX (R114): Element-wise maximumNumber. -/
  | vfmax (f : Fields)
  /-- VFSQRT (R114): Element-wise square root. -/
  | vfsqrt (f : Fields)
  /-- VFRSQ (R114): Element-wise reciprocal square root. -/
  | vfrsq (f : Fields)
  /-- VFRCP (R114): Element-wise reciprocal. -/
  | vfrcp (f : Fields)
  /-- VFEXP (R114): Element-wise 2 to the power a. -/
  | vfexp (f : Fields)
  /-- VFSGN (R114): Element-wise sign injection without rounding. -/
  | vfsgn (f : Fields)
  /-- VFCLASS (R117): Writes a mask of elements in the selected classes. -/
  | vfclass (f : Fields)
  /-- VFCVT (R116): Converts elements between float, integer, grist formats. -/
  | vfcvt (f : Fields)
  /-- VFSCALE (R114): Element-wise scaling by a power of two. -/
  | vfscale (f : Fields)
  /-- VFRND (R114): Element-wise round to integral value. -/
  | vfrnd (f : Fields)
  /-- VFNF (R118): ORs non-finite findings into NFFLAG, optionally writing a mask. -/
  | vfnf (f : Fields)
  /-- VSETL (R99): Sets VTYPE, VLROW and VLCOL and returns the granted length. -/
  | vsetl (f : Fields)
  /-- VSETL_PROGRESS (R100): VSETL progress form reading a progress cell and parking while it is empty. -/
  | vsetlProgress (f : Fields)
  /-- VSETDIM (R101): Writes a dimension length and stride register. -/
  | vsetdim (f : Fields)
  /-- VCMP (R120): Integer compare writing a mask. -/
  | vcmp (f : Fields)
  /-- VFCMP (R120): Floating compare writing a mask. -/
  | vfcmp (f : Fields)
  /-- MLOGIC (R121): Bitwise logic between two masks. -/
  | mlogic (f : Fields)
  /-- MPOPC (R121): Counts active set mask bits. -/
  | mpopc (f : Fields)
  /-- MFFS (R121): Finds the lowest active set mask bit. -/
  | mffs (f : Fields)
  /-- MSET (R121): Sets a mask to ones, zeros or a before-first pattern. -/
  | mset (f : Fields)
  /-- MTOLIST (R121): Converts a mask to an index list when it has at most 512 bits set. -/
  | mtolist (f : Fields)
  /-- MTOBITS (R121): Converts a mask to a bitmap. -/
  | mtobits (f : Fields)
  /-- VIOTA (R122): Writes the prefix count of enabled set mask bits. -/
  | viota (f : Fields)
  /-- VID (R122): Writes the ordinal, column, row or position of each element. -/
  | vid (f : Fields)
  /-- VCOMPRESS (R123): Packs active elements to the front. -/
  | vcompress (f : Fields)
  /-- VEXPAND (R123): Spreads packed elements to active positions. -/
  | vexpand (f : Fields)
  /-- VPERM (R124): Gathers elements by index within the body or row. -/
  | vperm (f : Fields)
  /-- VSLIDE (R124): Slides elements up or down by an offset. -/
  | vslide (f : Fields)
  /-- VSPLAT (R125): Writes a scalar or immediate to every active element. -/
  | vsplat (f : Fields)
  /-- VMVSX (R125): Writes a scalar to storage position 0 of a vector. -/
  | vmvsx (f : Fields)
  /-- VMVXS (R125): Reads storage position 0 of a vector into a scalar. -/
  | vmvxs (f : Fields)
  /-- VREDSUM (R126): Sum reduction, ordered or tree, optionally per row. -/
  | vredsum (f : Fields)
  /-- VREDMAX (R126): Maximum reduction. -/
  | vredmax (f : Fields)
  /-- VREDMIN (R126): Minimum reduction. -/
  | vredmin (f : Fields)
  /-- VREDLOG (R126): Logical and, or or xor reduction. -/
  | vredlog (f : Fields)
  /-- VSCAN (R127): Inclusive prefix scan from a scalar seed. -/
  | vscan (f : Fields)
  /-- VCHAIN (R128): Carries an affine or sum recurrence element to element. -/
  | vchain (f : Fields)
  /-- VTRANS8 (R129): Transposes the body of eight registers in place. -/
  | vtrans8 (f : Fields)
  /-- VMERGE (R125): Selects B or A per element by the predicate. -/
  | vmerge (f : Fields)
  /-- VMV (R125): Copies active elements of A to D. -/
  | vmv (f : Fields)
  /-- VMV_WHOLE (R125): Copies a whole register group bit for bit. -/
  | vmvWhole (f : Fields)
  /-- VLD (R152): Contiguous vector load with batched faults. -/
  | vld (f : Fields)
  /-- VST (R152): Contiguous vector store with batched faults. -/
  | vst (f : Fields)
  /-- VLDS (R158): Strided tile load. -/
  | vlds (f : Fields)
  /-- VSTS (R158): Strided tile store. -/
  | vsts (f : Fields)
  /-- VLDX (R159): Indexed gather load. -/
  | vldx (f : Fields)
  /-- VSTX (R159): Indexed scatter store. -/
  | vstx (f : Fields)
  /-- VLDFF (R160): Fault-only-first load that trims VL at the first unusable element. -/
  | vldff (f : Fields)
  /-- VLDSEG (R163): Segment load of nf fields. -/
  | vldseg (f : Fields)
  /-- VSTSEG (R163): Segment store of nf fields. -/
  | vstseg (f : Fields)
  /-- VLDMD (R161): Multi-dimensional sweep load. -/
  | vldmd (f : Fields)
  /-- VSTMD (R161): Multi-dimensional sweep store. -/
  | vstmd (f : Fields)
  /-- VLDR (R162): Whole-register load of K registers. -/
  | vldr (f : Fields)
  /-- VSTR (R162): Whole-register store of K registers. -/
  | vstr (f : Fields)
  /-- VLDBC (R158): Loads one row and broadcasts it to every body row. -/
  | vldbc (f : Fields)
  /-- VPREF (R164): Prefetch hint into L1 or memory-side cache. -/
  | vpref (f : Fields)
  /-- VBIND (R165): Binds a vector group to a stream handle. -/
  | vbind (f : Fields)
  /-- VUNBIND (R165): Removes a vector group binding. -/
  | vunbind (f : Fields)
  /-- SPROG (R262): Loads a stream program image into the shadow and waits. -/
  | sprog (f : Fields)
  /-- SSWAP (R262): Exchanges active and shadow configurations. -/
  | sswap (f : Fields)
  /-- SPREF (R262): Starts the configuration prefetcher. -/
  | spref (f : Fields)
  /-- SBIND (R262): Reads, checks and binds a stream descriptor to a handle. -/
  | sbind (f : Fields)
  /-- SUNBIND (R262): Unbinds a stream handle. -/
  | sunbind (f : Fields)
  /-- SRUN (R250): Starts the active configuration and makes the hart its owner. -/
  | srun (f : Fields)
  /-- SDRAIN (R251): Holds the owner until the program ends and acquires its egress writes. -/
  | sdrain (f : Fields)
  /-- SSTAT (R262): Reads the status of a handle. -/
  | sstat (f : Fields)
  /-- SSTAT_CFG (R262): Reads the status of the configurations. -/
  | sstatCfg (f : Fields)
  /-- STWID (R263): Reloads a node's resident factor table. -/
  | stwid (f : Fields)
  /-- SMOD (R264): Checks primality and sets MODP, MODQ and MODOK. -/
  | smod (f : Fields)
  /-- SSCALE (R264): Sets a handle's BFP exponent bias. -/
  | sscale (f : Fields)
  /-- SPATCH (R263): Writes one word of a node record. -/
  | spatch (f : Fields)
  /-- SINJ (R265): Sends one token into a hart-port stream lane. -/
  | sinj (f : Fields)
  /-- SEXT (R265): Takes one token from a hart-port stream. -/
  | sext (f : Fields)
  /-- SEOS (R265): Closes this hart's lane of a stream. -/
  | seos (f : Fields)
  /-- SMARK (R258): Injects pre-empt markers and saves the region image. -/
  | smark (f : Fields)
  /-- SRESUME (R255): Sends a resume token to a held generator. -/
  | sresume (f : Fields)
  /-- SRESUME_IMG (R266): Restores a saved region image and restarts it. -/
  | sresumeImg (f : Fields)
  /-- MMA (R276): Dense matrix product of a vector A and a weight slot into a tile. -/
  | mma (f : Fields)
  /-- MMAX (R279): Matrix product with A read from memory in chunks. -/
  | mmax (f : Fields)
  /-- MMAS (R276): Matrix product with per-row scales. -/
  | mmas (f : Fields)
  /-- MZERO (R283): Zeroes rows of a tile. -/
  | mzero (f : Fields)
  /-- MLDACC (R284): Loads tile rows from memory with conversion. -/
  | mldacc (f : Fields)
  /-- MSTACC (R284): Stores tile rows to memory with conversion. -/
  | mstacc (f : Fields)
  /-- MSAVEA (R284): Spills tile rows as raw 64-bit words. -/
  | msavea (f : Fields)
  /-- MRESTA (R284): Refills tile rows from raw 64-bit words. -/
  | mresta (f : Fields)
  /-- MMV (R282): Moves a tile window to a vector group after the chain drains. -/
  | mmv (f : Fields)
  /-- MMV_TOACC (R282): Moves a vector body into a tile window. -/
  | mmvToacc (f : Fields)
  /-- MPEEK (R281): Reads a tile window without waiting for the chain. -/
  | mpeek (f : Fields)
  /-- MCVT (R283): Converts a tile between AW64 and binary64 with scaling. -/
  | mcvt (f : Fields)
  /-- MWLOAD (R285): Loads a weight slot image into the factor buffers. -/
  | mwload (f : Fields)
  /-- MCFG (R286): Writes MXCFG, taking and releasing tiles and groups. -/
  | mcfg (f : Fields)
  /-- MCFG_RD (R286): Reads MXCFG. -/
  | mcfgRd (f : Fields)
  /-- RVADD (R299): Reversible add pushing its remainder frame. -/
  | rvadd (f : Fields)
  /-- RVSUB (R299): Reversible subtract pushing its remainder frame. -/
  | rvsub (f : Fields)
  /-- RVMUL (R299): Reversible multiply pushing its remainder frame. -/
  | rvmul (f : Fields)
  /-- RVFMA (R299): Reversible fused multiply-add. -/
  | rvfma (f : Fields)
  /-- RVNARROW (R300): Reversible narrowing keeping the low half and increment. -/
  | rvnarrow (f : Fields)
  /-- RVSHR (R299): Reversible right shift keeping shifted-out bits. -/
  | rvshr (f : Fields)
  /-- RVRELU (R302): Reversible ReLU recording replaced elements. -/
  | rvrelu (f : Fields)
  /-- RVSCALE (R299): Reversible power-of-two scaling. -/
  | rvscale (f : Fields)
  /-- RVCVT (R301): Reversible quantising conversion recording residuals. -/
  | rvcvt (f : Fields)
  /-- LPUSH (R305): Pushes a scalar as a control frame. -/
  | lpush (f : Fields)
  /-- LPOP (R305): Pops an LPUSH frame into a scalar. -/
  | lpop (f : Fields)
  /-- LMARK (R305): Pushes a mark frame. -/
  | lmark (f : Fields)
  /-- LCHK (R305): Tests and optionally pops a mark frame. -/
  | lchk (f : Fields)
  /-- LSPILL (R292): Writes every held lees block to memory and empties the window. -/
  | lspill (f : Fields)
  /-- UNADD (R304): Undoes RVADD from its frame. -/
  | unadd (f : Fields)
  /-- UNSUB (R304): Undoes RVSUB. -/
  | unsub (f : Fields)
  /-- UNMUL (R304): Undoes RVMUL. -/
  | unmul (f : Fields)
  /-- UNFMA (R304): Undoes RVFMA. -/
  | unfma (f : Fields)
  /-- UNNARROW (R300): Undoes RVNARROW. -/
  | unnarrow (f : Fields)
  /-- UNSHR (R304): Undoes RVSHR. -/
  | unshr (f : Fields)
  /-- UNRELU (R304): Undoes RVRELU. -/
  | unrelu (f : Fields)
  /-- UNSCALE (R304): Undoes RVSCALE. -/
  | unscale (f : Fields)
  /-- UNCVT (R304): Undoes RVCVT. -/
  | uncvt (f : Fields)
  /-- KPROJ (R327): Loads a projection slot and steps the table version. -/
  | kproj (f : Fields)
  /-- KPROJ_DESC (R327): Registers a head from its descriptor. -/
  | kprojDesc (f : Fields)
  /-- KSTORE (R321): Stores keys and links tokens into their buckets. -/
  | kstore (f : Fields)
  /-- KSIG (R325): Writes signatures of vector rows. -/
  | ksig (f : Fields)
  /-- KQUERY (R322): Gathers candidate tokens for a query with defined fallback. -/
  | kquery (f : Fields)
  /-- KCOUNT (R325): Returns an upper bound on the candidate count. -/
  | kcount (f : Fields)
  /-- KRESET (R328): Clears every table of a head eagerly or lazily. -/
  | kreset (f : Fields)
  /-- KMODE (R326): Writes KMODE and KLIMIT. -/
  | kmode (f : Fields)
  /-- KMODE_DENSE (R326): Sets the dense mark of a head. -/
  | kmodeDense (f : Fields)
  /-- KTRIM (R329): Raises WBASE and frees old cask blocks. -/
  | ktrim (f : Fields)
  /-- BOOK (R226): Checks and books a task directly from a minimum start. -/
  | book (f : Fields)
  /-- BOOKQ (R226): Returns the slot a task would be booked at, booking nothing. -/
  | bookq (f : Fields)
  /-- UNBOOK (R226): Cancels a task and ends it with code 0x09. -/
  | unbook (f : Fields)
  /-- COMPACT (R226): Runs compaction and returns the bookings moved. -/
  | compact (f : Fields)
  /-- LAUNCH (R226): Enqueues a task header on its home die and returns its number. -/
  | launch (f : Fields)
  /-- GBAR (R226): Gang barrier with MBAR semantics. -/
  | gbar (f : Fields)
  /-- TDONE (R226): Member leaves its gang; the last one ends the task. -/
  | tdone (f : Fields)
  /-- SLACKRD (R226): Reads remaining gang slack or own charge. -/
  | slackrd (f : Fields)
  /-- CALRD_SLOT (R226): Reads CALSLOT. -/
  | calrdSlot (f : Fields)
  /-- CALRD_OCC (R226): Reads 64 slots of booking occupancy of a resource. -/
  | calrdOcc (f : Fields)
  /-- CALRD_TASK (R226): Reads the state, code and start of a task. -/
  | calrdTask (f : Fields)
  /-- YIELDT (R226): Releases the gang's remaining claims of selected classes. -/
  | yieldt (f : Fields)
  /-- RKCOPY (R174): Queues a pitched row copy on a Racker channel. -/
  | rkcopy (f : Fields)
  /-- RKXPOSE (R174): Queues a transposing copy. -/
  | rkxpose (f : Fields)
  /-- RKCONV (R175): Queues a format-converting copy. -/
  | rkconv (f : Fields)
  /-- RKFILL (R174): Queues a fill with an 8-byte pattern. -/
  | rkfill (f : Fields)
  /-- RKGATHER (R174): Queues a row gather through an index table. -/
  | rkgather (f : Fields)
  /-- RKRED (R176): Queues a reduce-store into a Cellar destination. -/
  | rkred (f : Fields)
  /-- TWAITANY (R181): Waits until any masked tag is done or none is busy. -/
  | twaitany (f : Fields)
  /-- TWAITALL (R181): Waits until no masked tag is busy. -/
  | twaitall (f : Fields)
  /-- TFIRST (R181): Returns the lowest done masked tag. -/
  | tfirst (f : Fields)
  /-- TCLR (R181): Frees done tags in the mask. -/
  | tclr (f : Fields)
  /-- TCLR_CANCEL (R181): Cancels busy copies in the mask and frees their tags. -/
  | tclrCancel (f : Fields)
  /-- LDA (R194): Load with acquire at its scope. -/
  | lda (f : Fields)
  /-- STREL (R194): Store with release at its scope. -/
  | strel (f : Fields)
  /-- FENCE (R195): Orders predecessor kinds before successor kinds at a scope. -/
  | fence (f : Fields)
  /-- AMO (R196): Indivisible read-modify-write of 4 or 8 bytes. -/
  | amo (f : Fields)
  /-- CAS (R196): Indivisible compare-and-swap. -/
  | cas (f : Fields)
  /-- FUTRD (R197): Reads a presence-tagged word, parking while it is empty. -/
  | futrd (f : Fields)
  /-- FUTWR (R197): Fills an empty presence-tagged word and wakes waiters. -/
  | futwr (f : Fields)
  /-- FUTCLR (R197): Zeroes a presence-tagged word and marks it empty. -/
  | futclr (f : Fields)
  /-- QPUSH (R200): Appends to a cluster queue, waiting while it is full. -/
  | qpush (f : Fields)
  /-- QPOP (R200): Removes the head of a cluster queue, waiting while it is empty. -/
  | qpop (f : Fields)
  /-- QTRY (R200): Pops the queue head if present, without waiting. -/
  | qtry (f : Fields)
  /-- QTRY_PUSH (R200): Pushes to the queue if there is room, without waiting. -/
  | qtryPush (f : Fields)
  /-- QFENCE (R200): Orders the hart's earlier queue pushes before later ones. -/
  | qfence (f : Fields)
  /-- PUBHW (R201): Raises a progress cell's high-water count and wakes waiters. -/
  | pubhw (f : Fields)
  /-- READHW (R201): Reads the available count of a progress cell. -/
  | readhw (f : Fields)
  /-- MBAR (R195): Holds until every earlier access is performed and tags are idle. -/
  | mbar (f : Fields)
  /-- GLOAD (R347): Loads and starts a graph. -/
  | gload (f : Fields)
  /-- GBIND (R347): Binds a collective descriptor to a slot. -/
  | gbind (f : Fields)
  /-- GBIND_FREE (R347): Frees a collective slot. -/
  | gbindFree (f : Fields)
  /-- CSTART (R347): Fixes the flag contribution and joins the step barrier. -/
  | cstart (f : Fields)
  /-- CPOLL (R347): Reads a collective slot's state and step. -/
  | cpoll (f : Fields)
  /-- CFLAGRD (R347): Waits for completion and reads the final flag word. -/
  | cflagrd (f : Fields)
  /-- CFLAGSET (R347): ORs bits into the rank's flag contribution. -/
  | cflagset (f : Fields)
  /-- CABORT (R347): Aborts a running collective. -/
  | cabort (f : Fields)
  /-- XSEND (R345): Posts a point-to-point send. -/
  | xsend (f : Fields)
  /-- XRECV (R345): Posts a point-to-point receive. -/
  | xrecv (f : Fields)
  /-- TRAP (R372): Raises Software trap. -/
  | trap (f : Fields)
  /-- ERET (R358): Returns from a trap, restoring level, IE and MFR. -/
  | eret (f : Fields)
  /-- CRR (R372): Reads a control register. -/
  | crr (f : Fields)
  /-- CRW (R372): Writes, sets or clears a control register and returns the old value. -/
  | crw (f : Fields)
  /-- WAITEV (R373): Consumes selected pending events, parking while none. -/
  | waitev (f : Fields)
  /-- SIGEV (R373): Signals events to a hart or an MSI-X vector to a host. -/
  | sigev (f : Fields)
  /-- HSPAWN (R373): Starts a stopped hart in fresh state. -/
  | hspawn (f : Fields)
  /-- HSPAWN_KEEP (R373): Resumes a stopped hart with its own state. -/
  | hspawnKeep (f : Fields)
  /-- HSTOP (R373): Stops a free hart at its next grant point. -/
  | hstop (f : Fields)
  /-- VSAVE (R365): Saves selected dirty vector and mask registers. -/
  | vsave (f : Fields)
  /-- VREST (R365): Restores selected vector and mask registers. -/
  | vrest (f : Fields)
  /-- TLBINV (R374): Removes translations from translation caches. -/
  | tlbinv (f : Fields)
  /-- CFLUSH (R374): Writes back and optionally invalidates cached lines. -/
  | cflush (f : Fields)
  /-- BRK (R372): Raises Breakpoint. -/
  | brk (f : Fields)
  /-- HINT_AUDIT (R32): The first mis-hint under AUDIT raises cause 0x1D. -/
  | hintAudit (h : HartId) (r : AuditRecord)
  /-- FUTURE_POLL (R198): A hart that found the wait table full rereads the word after its backoff interval. -/
  | futurePoll (h : HartId)
  /-- RDUP_INVALIDATION_ACK (R142): A holder acknowledges invalidation and the RDUP store leaves the store buffer. -/
  | rdupInvalidationAck (h : HartId) (n : Nat) (observer : Option HartId)
  /-- COPY_START (R189): A queued copy starts once earlier stores of its hart are performed. -/
  | copyStart (c : ClusterId) (ch : Fin 4)
  /-- COPY_COMPLETE (R170): Every destination write is performed; the tag becomes Done with release. -/
  | copyComplete (c : ClusterId) (ch : Fin 4)
  /-- DISPATCH_CHECK (R211): The dispatcher reads and checks a header reaching the first 8 FIFO positions. -/
  | dispatchCheck (d : DieId) (task : Nat)
  /-- READY_SET_ENTRY (R212): A checked task whose inputs are resident enters the ready set. -/
  | readySetEntry (d : DieId) (task : Nat)
  /-- QUEUE_AGE_PROMOTION (R210): An entry waiting 4,096 slots moves one priority level up. -/
  | queueAgePromotion (d : DieId) (task : Nat)
  /-- CALENDAR_PASS (R213): At a slot boundary the calendar searches each ready task once. -/
  | calendarPass (d : DieId)
  /-- ROLLING_OCCURRENCE_RESERVE (R214): A rolling occurrence is reserved as it enters the horizon. -/
  | rollingOccurrenceReserve (d : DieId)
  /-- XDIE_PREPARE (R216): A remote calendar receives a prepare and holds tentative slots. -/
  | xdiePrepare (home : DieId) (task : Nat) (remote : DieId)
  /-- XDIE_REPLY (R216): The home calendar receives accept or refuse from a remote die. -/
  | xdieReply (home : DieId) (task : Nat) (remote : DieId)
  /-- XDIE_COMMIT (R216): A remote calendar receives commit and books the held slots. -/
  | xdieCommit (home : DieId) (task : Nat) (remote : DieId)
  /-- XDIE_ABORT (R216): A remote calendar receives abort and releases tentative holds. -/
  | xdieAbort (home : DieId) (task : Nat) (remote : DieId)
  /-- GANG_START (R217): At BOOKSTART the calendar releases the gang with its initial state. -/
  | gangStart (d : DieId) (task : Nat)
  /-- BOOKED_OCCURRENCE_CONFLICT (R250): An occurrence begins on a group still occupied by another gang's stream. -/
  | bookedOccurrenceConflict (c : ClusterId) (group : Fin 16)
  /-- OVERRUN (R221): CALSLOT reaches BOOKEND or slack goes negative; the leader takes cause 0x0E. -/
  | overrun (d : DieId) (task : Nat)
  /-- COMPACTION (R223): Movable bookings are searched again and moved earlier. -/
  | compaction (d : DieId)
  /-- PREFETCH_LOAD_COMPLETE (R247): The configuration prefetcher finishes loading the shadow. -/
  | prefetchLoadComplete (c : ClusterId)
  /-- NODE_IN (R243): An address generator reads the next element into the program. -/
  | nodeIn (c : ClusterId) (node : Nat)
  /-- NODE_OUT (R243): An egress writes a token to its destination. -/
  | nodeOut (c : ClusterId) (node : Nat)
  /-- NODE_STAGE (R229): A stage maps a run of b elements through its factor block. -/
  | nodeStage (c : ClusterId) (node : Nat)
  /-- NODE_PERM (R231): A permutation unit permutes a segment or window. -/
  | nodePerm (c : ClusterId) (node : Nat)
  /-- NODE_XPERM (R232): A large stride permutation runs through Cellar scratch. -/
  | nodeXperm (c : ClusterId) (node : Nat)
  /-- NODE_POINT (R240): A pointwise unit applies its operation to one token or pair. -/
  | nodePoint (c : ClusterId) (node : Nat)
  /-- NODE_STEER (R248): A STEER routes a token to its T or F arm. -/
  | nodeSteer (c : ClusterId) (node : Nat)
  /-- NODE_MERGE (R248): A MERGE emits arm tokens in record-index order. -/
  | nodeMerge (c : ClusterId) (node : Nat)
  /-- NODE_CARRY (R248): A CARRY emits INIT or the back-edge token. -/
  | nodeCarry (c : ClusterId) (node : Nat)
  /-- NODE_INV (R248): An INV emits the current value per pacing token. -/
  | nodeInv (c : ClusterId) (node : Nat)
  /-- NODE_XCHG (R259): An XCHG sends and receives parts of an all-to-all round. -/
  | nodeXchg (c : ClusterId) (node : Nat)
  /-- END_OF_STREAM (R248): End of stream passes through a node after its last output. -/
  | endOfStream (c : ClusterId) (node : Nat)
  /-- PREEMPT_MARKER (R258): A node that has the marker on all inputs saves state and forwards it. -/
  | preemptMarker (c : ClusterId) (node : Nat)
  /-- STREAM_GENERATOR_HOLD (R253): A virtual generator fails a check, holds, and writes the stream fault record. -/
  | streamGeneratorHold (c : ClusterId) (handle : Fin 32)
  /-- STREAM_FAULT (R253): The owner takes Stream fault at its next instruction boundary. -/
  | streamFault (h : HartId)
  /-- PROGRAM_END (R251): Every OUT has passed end of stream and every node is idle. -/
  | programEnd (c : ClusterId)
  /-- DRAIN_POINT (R257): The program reaches a drain point and a pending pre-emption freezes it. -/
  | drainPoint (c : ClusterId)
  /-- CONTEXT_SEQUENCER_SWAP (R343): At a claimed occurrence a gateway swaps in the collective's shadow configuration. -/
  | contextSequencerSwap (c : ClusterId) (slot : Fin 8)
  /-- COLLECTIVE_STEP (R341): A collective step begins once every rank is ready and folds contributions. -/
  | collectiveStep (c : ClusterId) (slot : Fin 8)
  /-- COLLECTIVE_COMPLETE (R344): Completion releases DST writes and ORs the final flags. -/
  | collectiveComplete (c : ClusterId) (slot : Fin 8)
  /-- COLLECTIVE_GRACE_EXPIRY (R343): An absent rank's grace expires and every owning hart takes cause 0x15. -/
  | collectiveGraceExpiry (c : ClusterId) (slot : Fin 8)
  /-- MESSAGE_MATCH (R345): A posted send and receive match and transfer begins. -/
  | messageMatch (src dst : ClusterId) (mtag : BitVec 16)
  /-- MESSAGE_TRANSFER_COMPLETE (R345): The transfer ends and both completion tags are set. -/
  | messageTransferComplete (src dst : ClusterId) (mtag : BitVec 16)
  /-- GRAPH_NODE_LAUNCH (R339): A node whose predecessors ended normally is launched. -/
  | graphNodeLaunch (d : DieId) (graph : Fin 16) (node : Nat)
  /-- GRAPH_PENDING_RETRY (R339): Once per slot pending graph nodes retry the queue. -/
  | graphPendingRetry (d : DieId) (graph : Fin 16)
  /-- GRAPH_COMPLETE (R339): The graph completes and writes its cell. -/
  | graphComplete (d : DieId) (graph : Fin 16)
  /-- FLIT_RECEIVE (R334): A Corzu or die-to-die flit arrives. -/
  | flitReceive (f : Flit)
  /-- SLOT_SYNC_SEND (R335): The sync master sends a slot-sync flit every 256 slots. -/
  | slotSyncSend (d : DieId)
  /-- SLOT_SYNC_RECEIVE (R335): A package forwards the sync flit and stretches slots when ahead. -/
  | slotSyncReceive (d : DieId) (count : Word)
  /-- HOST_HDM_ACCESS (R348): A host reads or writes device memory through CXL.mem. -/
  | hostHdmAccess (port : Fin 2) (pa : Nat) (data : Option (List Byte))
  /-- GSADDR_WRITE (R349): A write to GSADDR performs GLOAD on the die. -/
  | gsaddrWrite (d : DieId) (va : Word)
  /-- HSEM_ACQUIRE (R350): Read of HSEMACQ takes the semaphore if free. -/
  | hsemAcquire (id : BitVec 8)
  /-- HSEM_RELEASE (R350): Write of HSEMREL by the owner frees the semaphore. -/
  | hsemRelease (id : BitVec 8)
  /-- HSEM_RENEW (R350): Write of HSEMRENEW by the owner renews the lease. -/
  | hsemRenew (id : BitVec 8)
  /-- HSEM_LEASE_EXPIRY (R350): The lease counts down to zero and the owner is dropped. -/
  | hsemLeaseExpiry 
  /-- PREQ_WRITE (R360): A write to PREQ requests pre-emption of the hart. -/
  | preqWrite (h : HartId) (id : BitVec 8)
  /-- EVSET_WRITE (R360): A write ORs bits into EVPEND. -/
  | evsetWrite (h : HartId) (v : Word)
  /-- HISET_WRITE (R360): A write ORs bits into HIPEND. -/
  | hisetWrite (h : HartId) (v : Word)
  /-- PREEMPT_GRANT (R361): At a grant point the hart takes cause 0x1A. -/
  | preemptGrant (h : HartId)
  /-- HOST_INTERRUPT (R361): A pending host interrupt is taken as cause 0x1C. -/
  | hostInterrupt (h : HartId)
  /-- EVENT (R361): Pending events with EVE set raise cause 0x1B. -/
  | event (h : HartId)
  /-- REGISTER_WRITE (R353): A write to a register with no row of its own. -/
  | registerWrite (offset : Nat) (v : Word)
  /-- POWER_ON_RESET (R368): Power-on reset runs the five bring-up steps. -/
  | powerOnReset 
  /-- DEVCTL_RUN (R369): The first RUN write after reset starts hart 0 of every cluster at BOOTPC. -/
  | devctlRun 
  /-- DEVCTL_WARM (R368): A WARM write performs a warm reset keeping HBM. -/
  | devctlWarm 
  /-- STRETCH_LEVEL_CHANGE (R370): The power or thermal controller changes the stretch level in force. -/
  | stretchLevelChange (power thermal : BitVec 4)
  /-- THERMAL_TRIP (R370): At 115 degrees every hart stops until reset. -/
  | thermalTrip 
  /-- COPY_LINE_WRITE (R179): A running Racker copy performs one destination line, clearing its not-present marks and releasing its ownership of that line. -/
  | copyLineWrite (c : ClusterId) (ch : Fin 4)
  deriving DecidableEq, Repr

end Sys2Proof
end

