-- ==== Sys2Proof/Machine/Encoding.lean ====
section
/-!
DEFINITION. The encoding tables: for each instruction its class and op (02 Table 2.8), the fields its entry uses, the
kind of each register field, and what its entry says of option values (the encoding tables of 04 to 14). Steps 4 and 5
of 02 Table 2.7 are read off them, so far as they need the word alone.
-/

namespace Sys2Proof

/-- Bit `j` of MOD as the manual numbers it, 40 to 47. -/
def Fields.modBit (f : Fields) (j : Nat) : Bool := f.mod.getLsbD (j - 40)

/-- MOD[hi:lo], manual numbers, as a number. -/
def Fields.modField (f : Fields) (hi lo : Nat) : Nat := (f.mod.toNat >>> (lo - 40)) % 2 ^ (hi - lo + 1)

/-- X[hi:lo] as a number. -/
def Fields.xField (f : Fields) (hi lo : Nat) : Nat := (f.x.toNat >>> lo) % 2 ^ (hi - lo + 1)

/-- IMM[hi:lo] as a number. -/
def Fields.immField (f : Fields) (hi lo : Nat) : Nat := (f.imm.toNat >>> lo) % 2 ^ (hi - lo + 1)

/-- MOD[40]: IMM replaces operand B (02 R23). -/
def Fields.immB (f : Fields) : Bool := f.modBit 40

/-- MOD[47] in the classes whose B may name a scalar (05 R108, R112). -/
def Fields.scalarB (f : Fields) : Bool := f.modBit 47

/-- P[35]: predicate enable (02 R21). -/
def Fields.predOn (f : Fields) : Bool := f.p.getLsbD 3

/-- The kind of register a field names (02 Table 2.2, 10 R275). `none`: the entry does not use the field. -/
inductive Kind where
  | none | scalar | vector | mask | maskDst | acc | handle | queue | slot
  deriving DecidableEq, Repr

/-- Whether a field value is legal for its kind (02 R18, 10 R275). Group alignment depends on VTYPE (R19). -/
def Kind.legal (k : Kind) (v : BitVec 5) : Bool :=
  match k with
  | .none => true
  | .scalar => true
  | .vector => true
  | .handle => true
  | .mask => v.toNat ≤ 8
  | .maskDst => v.toNat ≤ 7
  | .acc => v.toNat ≤ 7
  | .queue => v.toNat ≤ 7
  | .slot => v.toNat ≤ 1

/-- What an entry says of its fields. `wset` bit c: W code c is accepted, 0 when the entry has no type operand;
`mods`, `xs`, `imms`: the used bits of MOD[47:42] (numbered as in MOD), X and IMM; `immB`: IMM may replace B (R23);
`unusedIn`: a field that only other forms use is nonzero (R24); `badValue`: an option value outside the entry's set. -/
structure Entry where
  d : Kind := .none
  a : Kind := .none
  b : Kind := .none
  c : Kind := .none
  immB : Bool := false
  pred : Bool := false
  wset : BitVec 16 := 0
  mods : BitVec 8 := 0
  xs : BitVec 16 := 0
  imms : BitVec 32 := 0
  unusedIn : Fields → Bool := fun _ => false
  badValue : Fields → Bool := fun _ => false

/-- One row: class and op, the word's fields, the entry, and whether the fields select this row's form where several
rows share a class and op. -/
structure Row where
  opc : BitVec 12
  f : Fields
  e : Entry
  form : Bool := true

/-- Step 4 of 02 Table 2.7 (R21, R23, R24, R25): a field that the entry, or this form of it, does not use is
nonzero (in part DEDUCED, log 15). -/
def Row.unusedField (r : Row) : Bool :=
  let f := r.f
  let e := r.e
  (e.d == .none && f.d != 0) || (e.a == .none && f.a != 0) || (e.b == .none && f.b != 0) ||
  (e.c == .none && f.c != 0) ||
  (if e.pred then !f.predOn && (f.p != 0 || f.modBit 41) else f.p != 0 || f.modBit 41) ||
  (e.wset == 0 && f.w != 0) ||
  (f.mod &&& ~~~(e.mods ||| 3#8)) != 0 ||
  (f.x &&& ~~~e.xs) != 0 ||
  (e.immB && f.immB && f.b != 0) ||
  (if e.immB then e.imms == 0 && !f.immB && f.imm != 0 else (f.imm &&& ~~~e.imms) != 0) ||
  e.unusedIn f

/-- The part of step 5 of 02 Table 2.7 that needs the word alone: register values (R18), W codes (R22), MOD[40] on an
entry that does not take it (R23), reserved values and entry rules (R24) (in part DEDUCED, log 15). -/
def Row.badOperand (r : Row) : Bool :=
  let f := r.f
  let e := r.e
  !e.d.legal f.d || !e.a.legal f.a || !(e.b.legal f.b) || !e.c.legal f.c ||
  (e.wset != 0 && !e.wset.getLsbD f.w.toNat) ||
  (!e.immB && f.immB) ||
  e.badValue f

/-! W code sets (02 Table 2.3): bit c of a set is code c. -/

/-- Integer column, with type from VTYPE: codes 0 to 6. -/
def wInt : BitVec 16 := 0x007F
/-- Floating column of class 0x3 outside VFCVT (05 R112): 0, 3 to 8. -/
def wFloat : BitVec 16 := 0x01F9
/-- Any code 0 to 10. -/
def wAny : BitVec 16 := 0x07FF
/-- Codes 3 to 6: 8, 16, 32 and 64 bits (04 R82). -/
def wMem : BitVec 16 := 0x0078

/-- Whether the code is in the set. -/
def wIn (s : BitVec 16) (n : Nat) : Bool := s.getLsbD n

/-- The rounding field MOD[44:42] holds the reserved code 6 (03 R54). -/
def rm6 (f : Fields) : Bool := f.modField 44 42 == 6
/-- The rounding field MOD[46:44] of class 0x7 holds code 6. -/
def rm6m (f : Fields) : Bool := f.modField 46 44 == 6
/-- MOD[40] and MOD[47] both set (05 R108, R112), in every form that takes both (in part DEDUCED, log 15). -/
def bothB (f : Fields) : Bool := f.immB && f.scalarB

/-! Shapes of entries shared by several rows. -/

/-- `op sD, sA, sB|imm` of class 0x0 (04 Table 4.3). -/
def eAlu (mods : BitVec 8 := 0) (bad : Fields → Bool := fun _ => false) : Entry :=
  { d := .scalar, a := .scalar, b := .scalar, immB := true, mods := mods, badValue := bad }
/-- As `eAlu` with a third source. -/
def eAlu3 (mods : BitVec 8 := 0) (bad : Fields → Bool := fun _ => false)
    (unused : Fields → Bool := fun _ => false) : Entry :=
  { d := .scalar, a := .scalar, b := .scalar, c := .scalar, immB := true, mods := mods, badValue := bad,
    unusedIn := unused }
/-- `op sD, sA`. -/
def eDA : Entry := { d := .scalar, a := .scalar }
/-- `op sA`. -/
def eA : Entry := { a := .scalar }
/-- No field. -/
def eNone : Entry := {}
/-- Modular ops (04 R81): C only in form 2. -/
def eModular (mods : BitVec 8) : Entry :=
  eAlu3 mods (fun f => f.modField 43 42 == 3) (fun f => f.modField 43 42 ≤ 1 && f.c != 0)
/-- Binary op of class 0x2 (05 R108). -/
def eVInt (mods : BitVec 8 := 0x80) (bad : Fields → Bool := fun _ => false) : Entry :=
  { d := .vector, a := .vector, b := .vector, immB := true, pred := true, wset := wInt, mods := mods,
    badValue := fun f => bothB f || bad f }
/-- Unary op of class 0x2. -/
def eVInt1 : Entry := { d := .vector, a := .vector, pred := true, wset := wInt }
/-- Binary op of class 0x3 that rounds (05 R112, R113). -/
def eVFlt : Entry :=
  { d := .vector, a := .vector, b := .vector, immB := true, pred := true, wset := wFloat, mods := 0x9C,
    badValue := fun f => bothB f || rm6 f }
/-- Binary op of class 0x3 that does not round. -/
def eVFltN (mods : BitVec 8 := 0x80) (bad : Fields → Bool := fun _ => false) : Entry :=
  { d := .vector, a := .vector, b := .vector, immB := true, pred := true, wset := wFloat, mods := mods,
    badValue := fun f => bothB f || bad f }
/-- VFMA, VFWMA. -/
def eVFma : Entry := { eVFlt with c := .vector, mods := 0xFC }
/-- Unary op of class 0x3 that rounds. -/
def eVFlt1 (mods : BitVec 8 := 0x1C) : Entry :=
  { d := .vector, a := .vector, pred := true, wset := wFloat, mods := mods, badValue := rm6 }
/-- Load or store of class 0x5 (06 Table 6.11). -/
def eVMem (ld : Bool) (b : Kind) (wset : BitVec 16) (mods : BitVec 8 := 0)
    (bad : Fields → Bool := fun _ => false) : Entry :=
  { d := if ld then .vector else .none, a := .scalar, b := b, c := if ld then .none else .vector, pred := true,
    wset := wset, mods := mods, imms := 0xFFFFFFFF, badValue := bad }
/-- The W codes of 8, 16, 32 and 64 bits in the floating column. -/
def wPlain : BitVec 16 := 0x01F9
/-- Those and grist. -/
def wSeg : BitVec 16 := 0x05FF
/-- MMA, MMAS, MMAX (10 R275, R278). -/
def eMma (a c : Kind) (imms : BitVec 32) : Entry :=
  { d := .acc, a := a, b := .slot, c := c, wset := wAny, mods := 0xFC, xs := 1, imms := imms,
    badValue := fun f => rm6m f || f.immField 8 0 > 256 || (f.x.getLsbD 0 && !f.modBit 43) ||
      (if f.modBit 43 then !wIn 0x000F f.w.toNat else f.w == 5) }
/-- The element types of tile moves: floats but MXFP4, or integers of 8 to 64 bits; U only with INT. -/
def badTileType (grist : Bool) (f : Fields) : Bool :=
  if f.modBit 43 then !wIn 0x0079 f.w.toNat
  else f.modBit 47 || !wIn (if grist then 0x05FF else 0x01F9) f.w.toNat
/-- A reversible arithmetic form; `undo` forms take no predicate and no rounding field (11 R296), and only a forward form asks
that D be A (R297). `round`: whether the form rounds, given FLT. -/
def eRev (undo : Bool) (b c : Kind) (pred : Bool) (mods : BitVec 8) (wset : BitVec 16) (xs : BitVec 16)
    (round : Fields → Bool) (unused bad : Fields → Bool) : Entry :=
  { d := .vector, a := .vector, b := b, c := c, immB := b != .none, pred := pred && !undo, wset := wset,
    mods := if undo then mods else mods ||| 0x1C, xs := xs, unusedIn := unused,
    badValue := fun f => bad f || (!undo && f.d != f.a) || (b != .none && bothB f) ||
      (if round f then rm6 f else f.modField 44 42 != 0) }
/-- FLT, MOD[45], of classes 0x4, 0x8 and 0x9. -/
def Fields.flt (f : Fields) : Bool := f.modBit 45
/-- W codes of the reversible forms (11 R297). -/
def badRevType (f : Fields) : Bool := if f.flt then !wIn wFloat f.w.toNat else !wIn 0x0079 f.w.toNat
def eRvAdd (undo : Bool) : Entry :=
  eRev undo .vector .none true 0xA0 wAny 0 Fields.flt (fun _ => false) badRevType
def eRvMul (undo : Bool) : Entry :=
  eRev undo .vector .none true 0xE0 wAny 0 Fields.flt (fun f => f.flt && f.modBit 46) badRevType
def eRvFma (undo : Bool) : Entry :=
  eRev undo .vector .vector true 0xA0 wAny 0 Fields.flt (fun _ => false) (fun f => !f.flt || badRevType f)
def eRvNarrow (undo : Bool) : Entry :=
  eRev undo .none .none false 0x60 wAny 0 (fun _ => true) (fun f => f.flt && f.modBit 46)
    (fun f => if f.flt then !wIn 0x0021 f.w.toNat else badRevType f)
def eRvShr (undo : Bool) : Entry :=
  eRev undo .vector .none true 0xE0 wAny 0 (fun _ => false) (fun _ => false) (fun f => f.flt || badRevType f)
def eRvRelu (undo : Bool) : Entry :=
  eRev undo .none .none true 0x20 wAny 0 (fun _ => false) (fun _ => false) badRevType
def eRvScale (undo : Bool) : Entry :=
  eRev undo .vector .none true 0xA0 wAny 0 Fields.flt (fun _ => false) (fun f => !f.flt || badRevType f)
def eRvCvt (undo : Bool) : Entry :=
  eRev undo .none .none false 0x20 0x0110 0xF (fun _ => true) (fun _ => false)
    (fun f => !f.flt || !wIn 0x048E (f.xField 3 0))
/-- A Racker copy (07 R173). -/
def eCopy (mods : BitVec 8 := 0) (imms : BitVec 32 := 0) (wset : BitVec 16 := 0) (xs : BitVec 16 := 0x0FFF)
    (bad : Fields → Bool := fun _ => false) : Entry :=
  { a := .scalar, b := .scalar, c := .scalar, mods := mods, imms := imms, wset := wset, xs := xs,
    badValue := fun f => f.xField 10 8 > 4 || bad f }
/-- A memory form of class 0xD: its scope in X[2:0] (07 R192). -/
def eScoped (d a b c : Kind) (wset : BitVec 16 := 0) (mods : BitVec 8 := 0) (imm : Bool := true)
    (bad : Fields → Bool := fun _ => false) : Entry :=
  { d := d, a := a, b := b, c := c, wset := wset, mods := mods, imms := if imm then 0xFFFFFFFF else 0, xs := 7,
    badValue := fun f => f.xField 2 0 > 4 || bad f }

/-- The entry of `rkconv`. -/
def eRkconv : Entry :=
  eCopy 0 0x7F 0x07FE 0x0FFF (fun f => f.immField 3 0 == 0 || f.immField 3 0 > 10 || f.immField 6 4 == 6)
/-- The entry of `rkred`. -/
def eRkred : Entry :=
  eCopy 0x1C 0xFFFFFFFF wAny 0x07FF
    (fun f => f.modField 43 42 == 3 || (if f.modBit 44 then !wIn 0x0060 f.w.toNat else !wIn 0x0130 f.w.toNat))
/-- The entry of `fence`. -/
def eFence : Entry :=
  eScoped .none .none .none .none 0 0x3C false (fun f => f.modField 43 42 == 0 || f.modField 45 44 == 0)
/-- The entry of `amo`. -/
def eAmo : Entry :=
  eScoped .scalar .scalar .scalar .none 0x0060 0xFC true (fun f => f.modField 45 42 > 8)

/-- The encoding of every instruction; `none` for the rows that are steps of other agents (in part DEDUCED, log 15). IMM takes
the place of B where the entry's assembly form or text gives it: the class 0x4 entries with a B operand and no such form
(VPERM, VREDSUM, VREDMAX, VREDMIN, VREDLOG, VCHAIN, MLOGIC, VSETDIM) do not take MOD[40], cause 0x01
(in part DEDUCED, log 15). -/
def Instr.row : Instr → Option Row
  | .add f => some { opc := 0x000, f := f, e := eAlu }
  | .sub f => some { opc := 0x001, f := f, e := eAlu }
  | .mul f => some { opc := 0x002, f := f, e := eAlu }
  | .mulh f => some { opc := 0x003, f := f, e := eAlu 0x0C (fun f => f.modField 43 42 == 3) }
  | .div f => some { opc := 0x004, f := f, e := eAlu 0x04 }
  | .rem f => some { opc := 0x005, f := f, e := eAlu 0x04 }
  | .and f => some { opc := 0x006, f := f, e := eAlu }
  | .or f => some { opc := 0x007, f := f, e := eAlu }
  | .xor f => some { opc := 0x008, f := f, e := eAlu }
  | .andn f => some { opc := 0x009, f := f, e := eAlu }
  | .shl f => some { opc := 0x00A, f := f, e := eAlu }
  | .shr f => some { opc := 0x00B, f := f, e := eAlu 0x04 }
  | .rot f => some { opc := 0x00C, f := f, e := eAlu 0x04 }
  | .min f => some { opc := 0x00D, f := f, e := eAlu 0x04 }
  | .max f => some { opc := 0x00E, f := f, e := eAlu 0x04 }
  | .cmp f => some { opc := 0x00F, f := f, e := eAlu 0x1C (fun f => f.modField 44 42 > 5) }
  | .sel f => some { opc := 0x010, f := f, e := eAlu3 }
  | .clz f => some { opc := 0x011, f := f, e := eDA }
  | .ctz f => some { opc := 0x012, f := f, e := eDA }
  | .popc f => some { opc := 0x013, f := f, e := eDA }
  | .bfx f => some { opc := 0x014, f := f, e :=
      { eDA with mods := 0x04, imms := 0x7F3F, badValue := fun f => f.immField 14 8 == 0 || f.immField 5 0 +
          f.immField 14 8 > 64 } }
  | .bfi f => some { opc := 0x015, f := f, e :=
      { eDA with imms := 0x7F3F, badValue := fun f => f.immField 14 8 == 0 || f.immField 5 0 + f.immField 14 8 > 64
          } }
  | .li f => some { opc := 0x016, f := f, e :=
      { d := .scalar, mods := 0x0C, imms := 0xFFFFFFFF, badValue := fun f => f.modField 43 42 == 3 } }
  | .lea f => some { opc := 0x017, f := f, form := !f.modBit 45, e :=
      { d := .scalar, a := .scalar, b := .scalar, mods := 0x3C, imms := 0xFFFFFFFF } }
  | .leaPc f => some { opc := 0x017, f := f, form := f.modBit 45, e :=
      { d := .scalar, a := .scalar, b := .scalar, mods := 0x3C, imms := 0xFFFFFFFF, badValue := fun f => f.a != 0
          || f.b != 0 || f.modField 44 42 != 0 } }
  | .ld f => some { opc := 0x018, f := f, e := { eDA with wset := wMem, mods := 0x04, imms := 0xFFFFFFFF } }
  | .st f => some { opc := 0x019, f := f, e := { a := .scalar, b := .scalar, wset := wMem, imms := 0xFFFFFFFF } }
  | .ext f => some { opc := 0x01A, f := f, e := { eDA with wset := 0x003E, mods := 0x04 } }
  | .muladd f => some { opc := 0x01B, f := f, e := eAlu3 }
  | .clamp f => some { opc := 0x01C, f := f, e := eAlu3 0x04 }
  | .brev f => some { opc := 0x01D, f := f, e :=
      { eDA with imms := 0xFFFFFFFF, badValue := fun f => f.imm.toNat == 0 || f.imm.toNat > 64 } }
  | .modmul f => some { opc := 0x01E, f := f, e := eModular 0x0C }
  | .modadd f => some { opc := 0x01F, f := f, e := eModular 0x1C }
  | .br f => some { opc := 0x100, f := f, e :=
      { a := .scalar, b := .scalar, mods := 0x1C, imms := 0xFFFFFFFF, badValue := fun f => f.modField 44 42 > 5 } }
  | .bz f => some { opc := 0x101, f := f, e := { a := .scalar, imms := 0xFFFFFFFF } }
  | .bnz f => some { opc := 0x102, f := f, e := { a := .scalar, imms := 0xFFFFFFFF } }
  | .jmp f => some { opc := 0x103, f := f, e := { imms := 0xFFFFFFFF } }
  | .jmpr f => some { opc := 0x104, f := f, e := { a := .scalar, imms := 0xFFFFFFFF } }
  | .call f => some { opc := 0x105, f := f, e := { d := .scalar, imms := 0xFFFFFFFF } }
  | .callr f => some { opc := 0x106, f := f, e := { eDA with imms := 0xFFFFFFFF } }
  | .ret f => some { opc := 0x107, f := f, e := eA }
  | .loop f => some { opc := 0x108, f := f, e := { d := .scalar, imms := 0xFFFFFFFF } }
  | .bmask f => some { opc := 0x109, f := f, e := { a := .mask, mods := 0x0C, imms := 0xFFFFFFFF } }
  | .nop f => some { opc := 0x10A, f := f, e := eNone }
  | .halt f => some { opc := 0x10B, f := f, e := eNone }
  | .vadd f => some { opc := 0x200, f := f, e := eVInt }
  | .vsub f => some { opc := 0x201, f := f, e := eVInt }
  | .vrsub f => some { opc := 0x202, f := f, e := eVInt }
  | .vmul f => some { opc := 0x203, f := f, e := eVInt }
  | .vmulh f => some { opc := 0x204, f := f, e := eVInt 0x8C (fun f => f.modField 43 42 == 3) }
  | .vdiv f => some { opc := 0x205, f := f, e := eVInt 0x84 }
  | .vrem f => some { opc := 0x206, f := f, e := eVInt 0x84 }
  | .vmin f => some { opc := 0x207, f := f, e := eVInt 0x84 }
  | .vmax f => some { opc := 0x208, f := f, e := eVInt 0x84 }
  | .vand f => some { opc := 0x209, f := f, e := eVInt }
  | .vor f => some { opc := 0x20A, f := f, e := eVInt }
  | .vxor f => some { opc := 0x20B, f := f, e := eVInt }
  | .vshl f => some { opc := 0x20C, f := f, e := eVInt }
  | .vshr f => some { opc := 0x20D, f := f, e := eVInt 0x84 }
  | .vsadd f => some { opc := 0x20E, f := f, e := eVInt 0x84 }
  | .vssub f => some { opc := 0x20F, f := f, e := eVInt 0x84 }
  | .vavg f => some { opc := 0x210, f := f, e := eVInt 0x8C }
  | .vabsd f => some { opc := 0x211, f := f, e := eVInt 0x84 }
  | .vwadd f => some { opc := 0x212, f := f, e := eVInt 0x84 }
  | .vwmul f => some { opc := 0x213, f := f, e := eVInt 0x8C (fun f => f.modField 43 42 == 3) }
  | .vnshr f => some { opc := 0x214, f := f, e := eVInt 0x9C }
  | .vmodadd f => some { opc := 0x215, f := f, e := eVInt 0x8C (fun f => f.modField 43 42 > 1) }
  | .vmodsub f => some { opc := 0x216, f := f, e := eVInt 0x8C (fun f => f.modField 43 42 > 1) }
  | .vmodmul f => some { opc := 0x217, f := f, e := eVInt 0x8C (fun f => f.modField 43 42 > 1) }
  | .vclz f => some { opc := 0x218, f := f, e := eVInt1 }
  | .vpopc f => some { opc := 0x219, f := f, e := eVInt1 }
  | .vfadd f => some { opc := 0x300, f := f, e := eVFlt }
  | .vfsub f => some { opc := 0x301, f := f, e := eVFlt }
  | .vfmul f => some { opc := 0x302, f := f, e := eVFlt }
  | .vfdiv f => some { opc := 0x303, f := f, e := eVFlt }
  | .vfma f => some { opc := 0x304, f := f, e := eVFma }
  | .vfwma f => some { opc := 0x305, f := f, e := eVFma }
  | .vfmin f => some { opc := 0x306, f := f, e := eVFltN }
  | .vfmax f => some { opc := 0x307, f := f, e := eVFltN }
  | .vfsqrt f => some { opc := 0x308, f := f, e := eVFlt1 }
  | .vfrsq f => some { opc := 0x309, f := f, e := eVFlt1 }
  | .vfrcp f => some { opc := 0x30A, f := f, e := eVFlt1 }
  | .vfexp f => some { opc := 0x30B, f := f, e := eVFlt1 }
  | .vfsgn f => some { opc := 0x30C, f := f, e := eVFltN 0xE0 (fun f => f.modField 46 45 == 3) }
  | .vfclass f => some { opc := 0x30D, f := f, e :=
      { d := .maskDst, a := .vector, pred := true, wset := wFloat, xs := 0x03FF } }
  | .vfcvt f => some { opc := 0x30E, f := f, e :=
      { d := .vector, a := .vector, pred := true, wset := wAny, mods := 0x7C, xs := 0x003F, unusedIn := fun f =>
          (!f.modBit 45 && f.modBit 46) || (!f.x.getLsbD 4 && f.x.getLsbD 5), badValue := fun f => rm6 f || (if
          f.modBit 45 then f.w.toNat > 6 else f.w == 9) || (if f.x.getLsbD 4 then f.xField 3 0 > 6 else f.xField 3
          0 == 9 || f.xField 3 0 > 10) } }
  | .vfscale f => some { opc := 0x30F, f := f, e := eVFlt }
  | .vfrnd f => some { opc := 0x310, f := f, e := eVFlt1 0x3C }
  | .vfnf f => some { opc := 0x311, f := f, e :=
      { d := .maskDst, a := .vector, pred := true, wset := wFloat, mods := 0x20, unusedIn := fun f => !f.modBit 45
          && f.d != 0 } }
  | .vsetl f => some { opc := 0x400, f := f, form := !f.modBit 42, e :=
      { d := .scalar, a := .scalar, b := .scalar, c := .scalar, mods := 0x1C, imms := 0x0000FFFF, unusedIn := fun f
          => f.c != 0, badValue := fun f => (f.modBit 43 && f.imm != 0) || f.modBit 44 } }
  | .vsetlProgress f => some { opc := 0x400, f := f, form := f.modBit 42, e :=
      { d := .scalar, a := .scalar, b := .scalar, c := .scalar, mods := 0x1C, imms := 0x0000FFFF, badValue := fun f
          => f.modBit 43 && f.imm != 0 } }
  | .vsetdim f => some { opc := 0x401, f := f, e :=
      { a := .scalar, b := .scalar, mods := 0x0C, badValue := fun f => f.modField 43 42 == 3 } }
  | .vcmp f => some { opc := 0x402, f := f, e :=
      { d := .maskDst, a := .vector, b := .vector, immB := true, pred := true, wset := wInt, mods := 0x9C, badValue
          := fun f => bothB f || f.modField 44 42 > 5 } }
  | .vfcmp f => some { opc := 0x403, f := f, e :=
      { d := .maskDst, a := .vector, b := .vector, immB := true, pred := true, wset := wFloat, mods := 0x9C,
          badValue := fun f => bothB f || f.modField 44 42 > 5 } }
  | .mlogic f => some { opc := 0x404, f := f, e := { d := .maskDst, a := .mask, b := .mask, mods := 0x1C } }
  | .mpopc f => some { opc := 0x405, f := f, e := { d := .scalar, a := .mask, pred := true } }
  | .mffs f => some { opc := 0x406, f := f, e := { d := .scalar, a := .mask, pred := true } }
  | .mset f => some { opc := 0x407, f := f, e :=
      { d := .maskDst, a := .mask, mods := 0x1C, unusedIn := fun f => f.modField 44 42 ≤ 1 && f.a != 0, badValue :=
          fun f => f.modField 44 42 > 4 } }
  | .mtolist f => some { opc := 0x408, f := f, e := { d := .maskDst, a := .mask, c := .scalar } }
  | .mtobits f => some { opc := 0x409, f := f, e := { d := .maskDst, a := .mask } }
  | .viota f => some { opc := 0x40A, f := f, e := { d := .vector, a := .mask, pred := true, wset := wInt } }
  | .vid f => some { opc := 0x40B, f := f, e := { d := .vector, pred := true, wset := wInt, mods := 0x0C } }
  | .vcompress f => some { opc := 0x40C, f := f, e :=
      { d := .vector, a := .vector, pred := true, wset := wInt, badValue := fun f => !f.predOn } }
  | .vexpand f => some { opc := 0x40D, f := f, e :=
      { d := .vector, a := .vector, pred := true, wset := wInt, badValue := fun f => !f.predOn } }
  | .vperm f => some { opc := 0x40E, f := f, e :=
      { d := .vector, a := .vector, b := .vector, pred := true, wset := wInt, mods := 0x04 } }
  | .vslide f => some { opc := 0x40F, f := f, e :=
      { d := .vector, a := .vector, b := .scalar, immB := true, pred := true, wset := wInt, mods := 0x0C } }
  | .vsplat f => some { opc := 0x410, f := f, e :=
      { d := .vector, b := .scalar, immB := true, pred := true, wset := wAny, mods := 0x20, badValue := fun f => if
          f.flt then !wIn wFloat f.w.toNat else f.w.toNat > 6 } }
  | .vmvsx f => some { opc := 0x411, f := f, form := !f.modBit 42, e :=
      { d := .vector, a := .scalar, wset := wInt, mods := 0x0C, unusedIn := fun f => f.modBit 43 } }
  | .vmvxs f => some { opc := 0x411, f := f, form := f.modBit 42, e :=
      { d := .scalar, a := .vector, wset := wInt, mods := 0x0C } }
  | .vredsum f => some { opc := 0x412, f := f, e :=
      { d := .vector, a := .vector, b := .vector, pred := true, wset := wAny, mods := 0xFC, unusedIn := fun f =>
          !f.flt && (f.modField 44 42 != 0 || f.modBit 46), badValue := fun f => if f.flt then rm6 f || !wIn wFloat
          f.w.toNat else f.w.toNat > 6 } }
  | .vredmax f => some { opc := 0x413, f := f, e :=
      { d := .vector, a := .vector, b := .vector, pred := true, wset := wAny, mods := 0xA4, unusedIn := fun f =>
          f.flt && f.modBit 42, badValue := fun f => if f.flt then !wIn wFloat f.w.toNat else f.w.toNat > 6 } }
  | .vredmin f => some { opc := 0x414, f := f, e :=
      { d := .vector, a := .vector, b := .vector, pred := true, wset := wAny, mods := 0xA4, unusedIn := fun f =>
          f.flt && f.modBit 42, badValue := fun f => if f.flt then !wIn wFloat f.w.toNat else f.w.toNat > 6 } }
  | .vredlog f => some { opc := 0x415, f := f, e :=
      { d := .vector, a := .vector, b := .vector, pred := true, wset := wInt, mods := 0x8C, badValue := fun f =>
          f.modField 43 42 == 3 } }
  | .vscan f => some { opc := 0x416, f := f, e :=
      { d := .vector, a := .vector, c := .scalar, pred := true, wset := wAny, mods := 0x7C, unusedIn := fun f =>
          f.flt && f.modBit 46, badValue := fun f => f.modField 44 42 > 5 || (if f.flt then !wIn wFloat f.w.toNat
          || !(f.modField 44 42 == 1 || f.modField 44 42 == 2) else f.w.toNat > 6) } }
  | .vchain f => some { opc := 0x417, f := f, e :=
      { d := .vector, a := .vector, b := .vector, c := .scalar, pred := true, wset := wAny, mods := 0x3C, xs := 1,
          unusedIn := fun f => (!f.flt && f.modField 44 42 != 0) || (f.x.getLsbD 0 && f.a != 0), badValue := fun f
          => if f.flt then rm6 f || !wIn wFloat f.w.toNat else f.w.toNat > 6 } }
  | .vtrans8 f => some { opc := 0x418, f := f, e := { d := .vector } }
  | .vmerge f => some { opc := 0x419, f := f, e :=
      { d := .vector, a := .vector, b := .vector, immB := true, pred := true, wset := wInt, mods := 0x80, badValue
          := fun f => bothB f || !f.predOn } }
  | .vmv f => some { opc := 0x41A, f := f, form := !f.modBit 42, e :=
      { d := .vector, a := .vector, pred := true, wset := wInt, mods := 0x04 } }
  | .vmvWhole f => some { opc := 0x41A, f := f, form := f.modBit 42, e :=
      { d := .vector, a := .vector, mods := 0x04 } }
  | .vld f => some { opc := 0x500, f := f, e := eVMem true .none wAny }
  | .vst f => some { opc := 0x501, f := f, e := eVMem false .none wAny }
  | .vlds f => some { opc := 0x502, f := f, e := eVMem true .scalar wAny }
  | .vsts f => some { opc := 0x503, f := f, e := eVMem false .scalar wAny }
  | .vldx f => some { opc := 0x504, f := f, e := eVMem true .vector wPlain 0x3C (fun f => f.modField 43 42 == 3) }
  | .vstx f => some { opc := 0x505, f := f, e := eVMem false .vector wPlain 0x3C (fun f => f.modField 43 42 == 3) }
  | .vldff f => some { opc := 0x506, f := f, e := { eVMem true .none wPlain with c := .scalar } }
  | .vldseg f => some { opc := 0x507, f := f, e := eVMem true .scalar wSeg 0x1C (fun f => f.modField 44 42 == 0) }
  | .vstseg f => some { opc := 0x508, f := f, e := eVMem false .scalar wSeg 0x1C (fun f => f.modField 44 42 == 0) }
  | .vldmd f => some { opc := 0x509, f := f, e := eVMem true .scalar wPlain }
  | .vstmd f => some { opc := 0x50A, f := f, e := eVMem false .scalar wPlain }
  | .vldr f => some { opc := 0x50B, f := f, e :=
      { d := .vector, a := .scalar, mods := 0x0C, imms := 0xFFFFFFFF, badValue := fun f => f.d.toNat % 2 ^
          f.modField 43 42 != 0 } }
  | .vstr f => some { opc := 0x50C, f := f, e :=
      { a := .scalar, c := .vector, mods := 0x0C, imms := 0xFFFFFFFF, badValue := fun f => f.c.toNat % 2 ^
          f.modField 43 42 != 0 } }
  | .vldbc f => some { opc := 0x50D, f := f, e := eVMem true .none wPlain }
  | .vpref f => some { opc := 0x50E, f := f, e := { a := .scalar, b := .scalar, mods := 0x04, imms := 0xFFFFFFFF } }
  | .vbind f => some { opc := 0x50F, f := f, e := { d := .vector, a := .handle, wset := wPlain, mods := 0x04 } }
  | .vunbind f => some { opc := 0x510, f := f, e := { d := .vector } }
  | .sprog f => some { opc := 0x600, f := f, e := eA }
  | .sswap f => some { opc := 0x601, f := f, e := eA }
  | .spref f => some { opc := 0x602, f := f, e := eA }
  | .sbind f => some { opc := 0x603, f := f, e := { d := .handle, a := .scalar } }
  | .sunbind f => some { opc := 0x604, f := f, e := { d := .handle } }
  | .srun f => some { opc := 0x605, f := f, e := { d := .scalar } }
  | .sdrain f => some { opc := 0x606, f := f, e := { d := .scalar } }
  | .sstat f => some { opc := 0x607, f := f, form := !f.modBit 42, e := { d := .scalar, a := .handle, mods := 0x04 } }
  | .sstatCfg f => some { opc := 0x607, f := f, form := f.modBit 42, e := { d := .scalar, mods := 0x04 } }
  | .stwid f => some { opc := 0x608, f := f, e := { mods := 0x04, imms := 0x7F } }
  | .smod f => some { opc := 0x609, f := f, e := { a := .scalar, b := .scalar, c := .scalar } }
  | .sscale f => some { opc := 0x60A, f := f, e := { d := .handle, a := .scalar } }
  | .spatch f => some { opc := 0x60B, f := f, e :=
      { a := .scalar, mods := 0x04, imms := 0x7FF, badValue := fun f => f.immField 10 8 == 0 } }
  | .sinj f => some { opc := 0x60C, f := f, e := { d := .handle, a := .scalar } }
  | .sext f => some { opc := 0x60D, f := f, e := { d := .scalar, a := .handle, c := .scalar } }
  | .seos f => some { opc := 0x60E, f := f, e := { d := .handle } }
  | .smark f => some { opc := 0x60F, f := f, e := eA }
  | .sresume f => some { opc := 0x610, f := f, form := !f.modBit 42, e := { a := .handle, mods := 0x04 } }
  | .sresumeImg f => some { opc := 0x610, f := f, form := f.modBit 42, e := { a := .scalar, mods := 0x04 } }
  | .mma f => some { opc := 0x700, f := f, e := eMma .vector .none 0 }
  | .mmax f => some { opc := 0x701, f := f, e := eMma .scalar .scalar 0x1FF }
  | .mmas f => some { opc := 0x702, f := f, e := eMma .vector .vector 0 }
  | .mzero f => some { opc := 0x703, f := f, e :=
      { d := .acc, imms := 0x1FF, badValue := fun f => f.immField 8 0 > 256 } }
  | .mldacc f => some { opc := 0x704, f := f, e :=
      { d := .acc, a := .scalar, b := .scalar, wset := wAny, mods := 0x88, imms := 0x3FFFF, badValue := fun f =>
          badTileType false f || f.immField 8 0 > 256 || f.immField 17 9 > 256 } }
  | .mstacc f => some { opc := 0x705, f := f, e :=
      { a := .scalar, b := .scalar, c := .acc, wset := wAny, mods := 0xF8, imms := 0x3FFFF, badValue := fun f =>
          badTileType false f || rm6m f || f.immField 8 0 > 256 || f.immField 17 9 > 256 } }
  | .msavea f => some { opc := 0x706, f := f, e :=
      { a := .scalar, c := .acc, imms := 0x1FF, badValue := fun f => f.immField 8 0 > 256 } }
  | .mresta f => some { opc := 0x707, f := f, e :=
      { d := .acc, a := .scalar, imms := 0x1FF, badValue := fun f => f.immField 8 0 > 256 } }
  | .mmv f => some { opc := 0x708, f := f, form := !f.modBit 42, e :=
      { d := .vector, a := .acc, wset := wAny, mods := 0xFC, imms := 0xFFFF, badValue := fun f => badTileType true
          f || rm6m f } }
  | .mmvToacc f => some { opc := 0x708, f := f, form := f.modBit 42, e :=
      { d := .acc, a := .vector, wset := wAny, mods := 0xFC, imms := 0xFFFF, unusedIn := fun f => f.modField 46 44
          != 0, badValue := fun f => badTileType true f } }
  | .mpeek f => some { opc := 0x709, f := f, e :=
      { d := .vector, a := .acc, wset := wAny, mods := 0xF8, imms := 0xFFFF, badValue := fun f => badTileType true
          f || rm6m f } }
  | .mcvt f => some { opc := 0x70A, f := f, e :=
      { d := .acc, a := .acc, mods := 0x74, imms := 0xFFFFFFFF, badValue := fun f => rm6m f || f.imm.toInt < -1024
          || f.imm.toInt > 1023 } }
  | .mwload f => some { opc := 0x70B, f := f, e :=
      { d := .slot, a := .scalar, b := .scalar, wset := wAny, mods := 0x1C, imms := 0x3FFFF, badValue := fun f =>
          (f.modBit 44 && !f.modBit 43) || (if f.modBit 43 then !wIn 0x000F f.w.toNat else f.w == 5) } }
  | .mcfg f => some { opc := 0x70C, f := f, form := !f.modBit 42, e := { eDA with mods := 0x04 } }
  | .mcfgRd f => some { opc := 0x70C, f := f, form := f.modBit 42, e := { d := .scalar, mods := 0x04 } }
  | .rvadd f => some { opc := 0x800, f := f, e := eRvAdd false }
  | .rvsub f => some { opc := 0x801, f := f, e := eRvAdd false }
  | .rvmul f => some { opc := 0x802, f := f, e := eRvMul false }
  | .rvfma f => some { opc := 0x803, f := f, e := eRvFma false }
  | .rvnarrow f => some { opc := 0x804, f := f, e := eRvNarrow false }
  | .rvshr f => some { opc := 0x805, f := f, e := eRvShr false }
  | .rvrelu f => some { opc := 0x806, f := f, e := eRvRelu false }
  | .rvscale f => some { opc := 0x807, f := f, e := eRvScale false }
  | .rvcvt f => some { opc := 0x808, f := f, e := eRvCvt false }
  | .lpush f => some { opc := 0x840, f := f, e := eA }
  | .lpop f => some { opc := 0x841, f := f, e := { d := .scalar } }
  | .lmark f => some { opc := 0x842, f := f, e := { imms := 0xFFFFFFFF } }
  | .lchk f => some { opc := 0x843, f := f, e := { d := .scalar, mods := 0x04, imms := 0xFFFFFFFF } }
  | .lspill f => some { opc := 0x844, f := f, e := eNone }
  | .unadd f => some { opc := 0x900, f := f, e := eRvAdd true }
  | .unsub f => some { opc := 0x901, f := f, e := eRvAdd true }
  | .unmul f => some { opc := 0x902, f := f, e := eRvMul true }
  | .unfma f => some { opc := 0x903, f := f, e := eRvFma true }
  | .unnarrow f => some { opc := 0x904, f := f, e := eRvNarrow true }
  | .unshr f => some { opc := 0x905, f := f, e := eRvShr true }
  | .unrelu f => some { opc := 0x906, f := f, e := eRvRelu true }
  | .unscale f => some { opc := 0x907, f := f, e := eRvScale true }
  | .uncvt f => some { opc := 0x908, f := f, e := eRvCvt true }
  | .kproj f => some { opc := 0xA00, f := f, form := !f.modBit 42, e :=
      { a := .scalar, b := .scalar, c := .scalar, mods := 0x04 } }
  | .kprojDesc f => some { opc := 0xA00, f := f, form := f.modBit 42, e :=
      { a := .scalar, b := .scalar, mods := 0x04 } }
  | .kstore f => some { opc := 0xA01, f := f, e := { d := .scalar, a := .vector, b := .scalar, c := .scalar } }
  | .ksig f => some { opc := 0xA02, f := f, e := { d := .vector, a := .vector, b := .scalar } }
  | .kquery f => some { opc := 0xA03, f := f, e :=
      { d := .vector, a := .vector, b := .scalar, c := .scalar, wset := 0x0030 } }
  | .kcount f => some { opc := 0xA04, f := f, e := { d := .scalar, a := .vector, b := .scalar } }
  | .kreset f => some { opc := 0xA05, f := f, e := eA }
  | .kmode f => some { opc := 0xA06, f := f, form := !f.modBit 42, e := { a := .scalar, b := .scalar, mods := 0x04 } }
  | .kmodeDense f => some { opc := 0xA06, f := f, form := f.modBit 42, e :=
      { a := .scalar, b := .scalar, mods := 0x04 } }
  | .ktrim f => some { opc := 0xA07, f := f, e := { eDA with b := .scalar } }
  | .book f => some { opc := 0xB00, f := f, e := { eDA with b := .scalar } }
  | .bookq f => some { opc := 0xB01, f := f, e := { eDA with b := .scalar } }
  | .unbook f => some { opc := 0xB02, f := f, e := eDA }
  | .compact f => some { opc := 0xB03, f := f, e := { d := .scalar } }
  | .launch f => some { opc := 0xB04, f := f, e :=
      { eDA with mods := 0x3C, unusedIn := fun f => !f.modBit 42 && f.modField 45 43 != 0 } }
  | .gbar f => some { opc := 0xB05, f := f, e := eNone }
  | .tdone f => some { opc := 0xB06, f := f, e := eA }
  | .slackrd f => some { opc := 0xB07, f := f, e := { d := .scalar, mods := 0x04 } }
  | .calrdSlot f => some { opc := 0xB08, f := f, form := f.modField 43 42 == 0, e := { d := .scalar, mods := 0x0C } }
  | .calrdOcc f => some { opc := 0xB08, f := f, form := f.modField 43 42 == 1, e :=
      { eDA with mods := 0x0C, imms := 0xFFFFFFFF, badValue := fun f => f.imm.toNat > 4032 } }
  | .calrdTask f => some { opc := 0xB08, f := f, form := f.modField 43 42 ≥ 2, e :=
      { eDA with mods := 0x0C, badValue := fun f => f.modField 43 42 == 3 } }
  | .yieldt f => some { opc := 0xB09, f := f, e := eA }
  | .rkcopy f => some { opc := 0xC00, f := f, e := eCopy 0x04 0xFFFFFFFF }
  | .rkxpose f => some { opc := 0xC01, f := f, e := eCopy 0x04 0xFFFFFFFF wMem }
  | .rkconv f => some { opc := 0xC02, f := f, e := eRkconv }
  | .rkfill f => some { opc := 0xC03, f := f, e := eCopy }
  | .rkgather f => some { opc := 0xC04, f := f, e := eCopy 0 0xFFFFFFFF }
  | .rkred f => some { opc := 0xC05, f := f, e := eRkred }
  | .twaitany f => some { opc := 0xC06, f := f, e := eDA }
  | .twaitall f => some { opc := 0xC07, f := f, e := eDA }
  | .tfirst f => some { opc := 0xC08, f := f, e := eDA }
  | .tclr f => some { opc := 0xC09, f := f, form := !f.modBit 42, e := { eDA with mods := 0x04 } }
  | .tclrCancel f => some { opc := 0xC09, f := f, form := f.modBit 42, e := { eDA with mods := 0x04 } }
  | .lda f => some { opc := 0xD00, f := f, e := eScoped .scalar .scalar .none .none wMem 0x04 }
  | .strel f => some { opc := 0xD01, f := f, e := eScoped .none .scalar .scalar .none wMem }
  | .fence f => some { opc := 0xD02, f := f, e := eFence }
  | .amo f => some { opc := 0xD03, f := f, e := eAmo }
  | .cas f => some { opc := 0xD04, f := f, e := eScoped .scalar .scalar .scalar .scalar 0x0060 0xC0 }
  | .futrd f => some { opc := 0xD05, f := f, e := eScoped .scalar .scalar .none .none }
  | .futwr f => some { opc := 0xD06, f := f, e := eScoped .none .scalar .scalar .none }
  | .futclr f => some { opc := 0xD07, f := f, e := eScoped .none .scalar .none .none }
  | .qpush f => some { opc := 0xD08, f := f, e := { a := .scalar, b := .queue } }
  | .qpop f => some { opc := 0xD09, f := f, e := { d := .scalar, b := .queue } }
  | .qtry f => some { opc := 0xD0A, f := f, form := !f.modBit 42, e :=
      { d := .scalar, b := .queue, c := .scalar, mods := 0x04 } }
  | .qtryPush f => some { opc := 0xD0A, f := f, form := f.modBit 42, e :=
      { d := .scalar, a := .scalar, b := .queue, mods := 0x04 } }
  | .qfence f => some { opc := 0xD0B, f := f, e := eNone }
  | .pubhw f => some { opc := 0xD0C, f := f, e := eScoped .scalar .scalar .scalar .none }
  | .readhw f => some { opc := 0xD0D, f := f, e := eScoped .scalar .scalar .none .none }
  | .mbar f => some { opc := 0xD0E, f := f, e := eScoped .none .none .none .none 0 0 false }
  | .gload f => some { opc := 0xE00, f := f, e := eDA }
  | .gbind f => some { opc := 0xE01, f := f, form := !f.modBit 42, e := { eDA with mods := 0x04 } }
  | .gbindFree f => some { opc := 0xE01, f := f, form := f.modBit 42, e := { a := .scalar, mods := 0x04 } }
  | .cstart f => some { opc := 0xE02, f := f, e := eA }
  | .cpoll f => some { opc := 0xE03, f := f, e := eDA }
  | .cflagrd f => some { opc := 0xE04, f := f, e := eDA }
  | .cflagset f => some { opc := 0xE05, f := f, e := { a := .scalar, b := .scalar } }
  | .cabort f => some { opc := 0xE06, f := f, e := eA }
  | .xsend f => some { opc := 0xE07, f := f, e :=
      { a := .scalar, b := .scalar, c := .scalar, imms := 0xFFFF, xs := 0x3F } }
  | .xrecv f => some { opc := 0xE08, f := f, e :=
      { a := .scalar, b := .scalar, c := .scalar, imms := 0xFFFF, xs := 0x3F } }
  | .trap f => some { opc := 0xF00, f := f, e := { imms := 0xFFFFFFFF } }
  | .eret f => some { opc := 0xF01, f := f, e := eNone }
  | .crr f => some { opc := 0xF02, f := f, e := { d := .scalar, imms := 0xFFF } }
  | .crw f => some { opc := 0xF03, f := f, e :=
      { eDA with mods := 0x0C, imms := 0xFFF, badValue := fun f => f.modField 43 42 == 3 } }
  | .waitev f => some { opc := 0xF04, f := f, e := { eDA with mods := 0x04 } }
  | .sigev f => some { opc := 0xF05, f := f, e := { a := .scalar, b := .scalar } }
  | .hspawn f => some { opc := 0xF06, f := f, form := !f.modBit 43, e :=
      { d := .scalar, a := .scalar, b := .scalar, c := .scalar, mods := 0x0C } }
  | .hspawnKeep f => some { opc := 0xF06, f := f, form := f.modBit 43, e :=
      { eDA with mods := 0x0C, unusedIn := fun f => f.modBit 42 } }
  | .hstop f => some { opc := 0xF07, f := f, e := eDA }
  | .vsave f => some { opc := 0xF08, f := f, e := eDA }
  | .vrest f => some { opc := 0xF09, f := f, e := eDA }
  | .tlbinv f => some { opc := 0xF0A, f := f, e := { a := .scalar, b := .scalar, mods := 0x1C } }
  | .cflush f => some { opc := 0xF0B, f := f, e := { a := .scalar, b := .scalar, mods := 0x0C } }
  | .brk f => some { opc := 0xF0C, f := f, e := { imms := 0xFFFFFFFF } }
  | .hintAudit _ _ => none
  | .futurePoll _ => none
  | .rdupInvalidationAck _ _ _ => none
  | .copyStart _ _ => none
  | .copyComplete _ _ => none
  | .dispatchCheck _ _ => none
  | .readySetEntry _ _ => none
  | .queueAgePromotion _ _ => none
  | .calendarPass _ => none
  | .rollingOccurrenceReserve _ => none
  | .xdiePrepare _ _ _ => none
  | .xdieReply _ _ _ => none
  | .xdieCommit _ _ _ => none
  | .xdieAbort _ _ _ => none
  | .gangStart _ _ => none
  | .bookedOccurrenceConflict _ _ => none
  | .overrun _ _ => none
  | .compaction _ => none
  | .prefetchLoadComplete _ => none
  | .nodeIn _ _ => none
  | .nodeOut _ _ => none
  | .nodeStage _ _ => none
  | .nodePerm _ _ => none
  | .nodeXperm _ _ => none
  | .nodePoint _ _ => none
  | .nodeSteer _ _ => none
  | .nodeMerge _ _ => none
  | .nodeCarry _ _ => none
  | .nodeInv _ _ => none
  | .nodeXchg _ _ => none
  | .endOfStream _ _ => none
  | .preemptMarker _ _ => none
  | .streamGeneratorHold _ _ => none
  | .streamFault _ => none
  | .programEnd _ => none
  | .drainPoint _ => none
  | .contextSequencerSwap _ _ => none
  | .collectiveStep _ _ => none
  | .collectiveComplete _ _ => none
  | .collectiveGraceExpiry _ _ => none
  | .messageMatch _ _ _ => none
  | .messageTransferComplete _ _ _ => none
  | .graphNodeLaunch _ _ _ => none
  | .graphPendingRetry _ _ => none
  | .graphComplete _ _ => none
  | .flitReceive _ => none
  | .slotSyncSend _ => none
  | .slotSyncReceive _ _ => none
  | .hostHdmAccess _ _ _ => none
  | .gsaddrWrite _ _ => none
  | .hsemAcquire _ => none
  | .hsemRelease _ => none
  | .hsemRenew _ => none
  | .hsemLeaseExpiry => none
  | .preqWrite _ _ => none
  | .evsetWrite _ _ => none
  | .hisetWrite _ _ => none
  | .preemptGrant _ => none
  | .hostInterrupt _ => none
  | .event _ => none
  | .registerWrite _ _ => none
  | .powerOnReset => none
  | .devctlRun => none
  | .devctlWarm => none
  | .stretchLevelChange _ _ => none
  | .thermalTrip => none
  | .copyLineWrite _ _ => none

end Sys2Proof
end

