-- ==== Sys2Proof/Machine/Bits.lean ====
section
/-!
DEFINITION. Bit-field, sign-extension and byte-order helpers shared by the machine.
-/

namespace Sys2Proof.Machine

/-- Bits [hi:lo] of a number. -/
def bits (n hi lo : Nat) : Nat := (n >>> lo) % 2 ^ (hi + 1 - lo)

/-- Bits [hi:lo] of a word, as a number. -/
def wbits (w : Word) (hi lo : Nat) : Nat := bits w.toNat hi lo

/-- The two's complement reading of the low `n` bits. -/
def signed (n v : Nat) : Int := if bits v (n - 1) (n - 1) = 1 ∧ n ≠ 0 then (v % 2 ^ n : Nat) - (2 ^ n : Nat) else (v % 2 ^ n : Nat)

/-- The low `n` bits of an integer, as a number. -/
def wrap (n : Nat) (i : Int) : Nat := (i % (2 ^ n : Nat)).toNat

/-- The nearer end of a range, or the value itself. -/
def clampInt (lo hi i : Int) : Int := if i < lo then lo else if hi < i then hi else i

/-- The range of an `n`-bit integer: unsigned when `u`. -/
def intRange (n : Nat) (u : Bool) : Int × Int :=
  if u then (0, (2 ^ n : Nat) - 1) else (-(2 ^ (n - 1) : Nat), (2 ^ (n - 1) : Nat) - 1)

/-- The value of an `n`-bit integer: unsigned when `u`. -/
def intVal (n : Nat) (u : Bool) (v : Nat) : Int := if u then (v % 2 ^ n : Nat) else signed n v

/-- Quotient truncated toward zero. -/
def truncDiv (a b : Int) : Int := a.tdiv b

/-- The `n` bytes of a number, lowest address first (00 R2). -/
def toBytes (n v : Nat) : List Byte := (List.range n).map fun k => BitVec.ofNat 8 (v >>> (8 * k))

/-- The number that bytes hold, lowest address first (00 R2). -/
def ofBytes : List Byte → Nat
  | [] => 0
  | b :: bs => b.toNat + 256 * ofBytes bs

/-- A run of `n` bits at bit `lo` of a register. -/
def getBits {w : Nat} (r : BitVec w) (lo n : Nat) : Nat := (r.toNat >>> lo) % 2 ^ n

/-- The register with `n` bits at bit `lo` replaced by the low bits of `v`. -/
def setBits {w : Nat} (r : BitVec w) (lo n v : Nat) : BitVec w :=
  let m := BitVec.ofNat w ((2 ^ n - 1) <<< lo)
  (r &&& ~~~m) ||| BitVec.ofNat w ((v % 2 ^ n) <<< lo)

/-- The register with one bit written. -/
def setBit {w : Nat} (r : BitVec w) (k : Nat) (b : Bool) : BitVec w := setBits r k 1 b.toNat

/-- Bit reversal of the low `n` bits. -/
def revBits (n v : Nat) : Nat := (List.range n).foldl (fun a k => a * 2 + (v >>> k) % 2) 0

/-- The number of one bits among the low `n`. -/
def popCount (n v : Nat) : Nat := (List.range n).foldl (fun a k => a + (v >>> k) % 2) 0

/-- The number of leading zeros of an `n`-bit value; `n` for 0. -/
def leadZeros (n v : Nat) : Nat := if v % 2 ^ n = 0 then n else n - 1 - Nat.log2 (v % 2 ^ n)

/-- The number of trailing zeros of an `n`-bit value; `n` for 0. -/
def trailZeros (n v : Nat) : Nat := ((List.range n).find? fun k => (v >>> k) % 2 = 1).getD n

/-- Rounds up to a multiple of `m`. -/
def roundUp (v m : Nat) : Nat := (v + m - 1) / m * m

/-- Whether a number is a power of two. -/
def isPow2 (n : Nat) : Bool := n != 0 && 2 ^ Nat.log2 n == n

/-- The floor of a square root, one bit per step. -/
def isqrtFrom (n : Nat) : Nat → Nat → Nat
  | 0, r => r
  | k + 1, r => let t := r + 2 ^ k; isqrtFrom n k (if t * t ≤ n then t else r)

/-- The floor of a square root. -/
def isqrt (n : Nat) : Nat := isqrtFrom n (Nat.log2 n / 2 + 1) 0

/-- Reduces a number modulo `m`; 0 when `m` is 0 (04 R81). -/
def modNat (v m : Nat) : Nat := if m = 0 then 0 else v % m

end Sys2Proof.Machine
end

