-- ==== Sys2Proof/Machine/HartState.lean ====
section
/-!
DEFINITION. The state of one hart (INVENTORY '## State', hart part), as plain data.
-/

namespace Sys2Proof.Machine

/-- A vector register, 16,384 bits (01 R10). -/
abbrev VReg := BitVec 16384

/-- A mask register's 8,192 bits (05 R102). -/
abbrev MBits := BitVec 8192

/-- A mask register: a bitmap, or a strictly rising list of at most 512 element indices (05 R102). -/
inductive Mask where
  | bitmap (b : MBits)
  | list (l : List Nat)
  deriving DecidableEq, Repr

/-- STATUS (14 Table 14.1); the bits above 8 are RO zero. -/
structure Status where
  sys : Bool
  psys : Bool
  ie : Bool
  pie : Bool
  eve : Bool
  audit : Bool
  mfr : Bool
  pmfr : Bool
  dread : Bool
  deriving DecidableEq, Repr

/-- STATUS at reset (14 Table 14.1). -/
def Status.reset : Status := ⟨true, false, false, false, false, false, false, false, false⟩

/-- What a waiting hart waits for (14 R361). The instruction at pc is performed again at the hart's next turn. -/
inductive WaitFor where
  /-- An empty presence-tagged word (07 R198). `slotted`: the hart holds an entry of the die wait table. -/
  | future (pa : Nat) (slotted : Bool)
  | queue (q : BitVec 3)
  | tags
  /-- A word that a copy has marked not present, or a line that one owns (06 R148). -/
  | copy
  | stream
  | gbar
  | drain
  | flagrd
  | event
  /-- A true hazard of 02 R27, counted in HINTSTALLS and charged: a full queue of copies (07 R167), a full completion counter
  (02 R27), stores that FENCE or MBAR waits for (07 R195). -/
  | hazard
  /-- The cluster's key-index unit works for another hart (12 R311). -/
  | unit
  /-- The hold that HL asks for: the next instruction is not hint-ready (02 R27). -/
  | hint
  /-- Any other hold: stores a release waits for, a running program. -/
  | other
  deriving DecidableEq, Repr

/-- What the hart is doing (14 Table 14.5, 04 R88). -/
inductive RunState where
  | stopped
  | running
  | waiting (w : WaitFor)
  | suspended
  deriving DecidableEq, Repr

/-- What R27 and R32 count of the instruction to be issued next: the cycles in which a hazard held it, hint-ready, those in which
HL alone held it, and whether a hazard holds it in this cycle (02 R27, R32). -/
structure MisHint where
  held : Nat
  hlHeld : Nat
  hazard : Bool
  deriving DecidableEq, Repr

/-- Nothing has held the next instruction. -/
def MisHint.none : MisHint := ⟨0, 0, false⟩

/-- A cycle in which a hazard holds the instruction, `ready` when it is hint-ready; it counts once. -/
def MisHint.hold (x : MisHint) (ready : Bool) : MisHint :=
  if x.hazard then x else ⟨x.held + ready.toNat, x.hlHeld, true⟩

/-- The end of a cycle, in which HL held the instruction or not. -/
def MisHint.tick (x : MisHint) (hl : Bool) : MisHint := ⟨x.held, x.hlHeld + (hl && !x.hazard).toNat, false⟩

/-- The registers of a trap (14 Table 14.3). The low four bits of EPC and TVEC are always zero. -/
structure TrapRegs where
  cause : Byte
  epc : Word
  eidx : Word
  eaddr : Word
  tvec : Word
  escratch : Word
  deriving DecidableEq, Repr

/-- The vector configuration and context registers (05 R90, R96, R101, 14 Table 14.3). -/
structure VecCfg where
  vtype : BitVec 16
  vlrow : BitVec 14
  vlcol : BitVec 14
  vstart : BitVec 14
  vdirty : BitVec 41
  vvalid : BitVec 41
  vsaveptr : Word
  vhigh : Vector (BitVec 12) 32
  dl : Vector Word 3
  ds : Vector Word 3
  nfflag : BitVec 3
  deriving DecidableEq, Repr

/-- FPCTL (03 Table 3.7). -/
structure FpCtl where
  rm : BitVec 3
  sat8 : Bool
  enables : BitVec 5
  deriving DecidableEq, Repr

/-- FPFLAGS, FPCTL and SRSEED (03 R59, R60). -/
structure FpRegs where
  flags : BitVec 5
  ctl : FpCtl
  seed : Word
  deriving DecidableEq, Repr

/-- A block of the lees stack held in the window (11 R291): its number, its 2,048 bytes as a number, and whether it is
clean. -/
structure LeesBlock where
  blk : Nat
  data : VReg
  clean : Bool
  deriving DecidableEq, Repr

/-- The lees stack registers and window (11 R289, R291). -/
structure LeesRegs where
  sp : Word
  base : Word
  lim : Word
  win : BitVec 5
  held : List LeesBlock
  deriving DecidableEq, Repr

/-- Why a tag faulted (07 R172). -/
structure TagFault where
  tag : Nat
  cause : Nat
  va : Word
  deriving DecidableEq, Repr

/-- TAGBITS, TAGBUSY and the faults behind tags (07 R169, R172). -/
structure TagRegs where
  bits : Word
  busy : Word
  faults : List TagFault
  deriving DecidableEq, Repr

/-- The calendar registers that the hart itself holds (08 R224). -/
structure CalRegs where
  gangid : Word
  slackOwn : BitVec 32
  overruns : BitVec 32
  hintstalls : Word
  deriving DecidableEq, Repr

/-- A stream binding (14 Table 14.3a). -/
structure VBind where
  v : Bool
  out : Bool
  drained : Bool
  group : BitVec 5
  lg : BitVec 2
  handle : BitVec 5
  type : BitVec 4
  deriving DecidableEq, Repr

def VBind.zero : VBind := ⟨false, false, false, 0, 0, 0, 0⟩

/-- A weight slot (14 R355): WSLOTnA, WSLOTnB, and the buffer contents when present, as the image's elements row by
row (10 R274). -/
structure WSlot where
  addr : Word
  valid : Bool
  type : BitVec 4
  int : Bool
  sp24 : Bool
  u : Bool
  k : BitVec 9
  n : BitVec 9
  pitch : BitVec 32
  image : Option (List Byte)
  deriving DecidableEq, Repr

def WSlot.zero : WSlot := ⟨0, false, 0, false, false, false, 0, 0, 0, none⟩

/-- The kinds of register that a latch can hold (02 Table 2.2). -/
inductive LatchKind where
  | scalar | vector | mask | acc | handle | queue
  deriving DecidableEq, Repr

/-- The operand-hold latch (02 R30): the kind and number of the register it holds. Its value is the register's own, which R30
makes the value used, so it is not stored a second time. -/
structure Latch where
  kind : LatchKind
  num : Nat
  deriving DecidableEq, Repr

/-- An element held in a hart's store buffer (06 R142): its runs of bytes, which are performed together (R147), the bits of each
byte that it writes, the holders that have acknowledged, and the mark of the counter entry that waits for it, 0 when none
does (02 R28). -/
structure HeldStore where
  hart : HartId
  runs : List (Nat × List Byte)
  mask : Byte
  acked : List HartId
  mark : Nat
  /-- The number of the last copy issued before it (07 R189). -/
  seq : Nat
  /-- Made through a page without RDUP, after a held store of its own hart to some of the same bytes: it waits behind that
  one, and no holder sees it before it is performed (07 R185, R186). -/
  plain : Bool
  deriving DecidableEq, Repr

/-- Whether the store writes any of the `n` bytes at `pa`. -/
def HeldStore.meets (x : HeldStore) (pa n : Nat) : Bool := x.runs.any fun r => r.1 < pa + n && pa < r.1 + r.2.length

/-- Whether two stores have a byte in common. -/
def HeldStore.overlaps (x y : HeldStore) : Bool := y.runs.any fun r => x.meets r.1 r.2.length

/-- Whether hart `h` sees the store before it is performed: its own, or one it has acknowledged (06 R142). -/
def HeldStore.seenBy (x : HeldStore) (h : HartId) : Bool := x.hart == h || x.acked.contains h

/-- The bits of `m` from the new byte, the others from the old one. -/
def mergeByte (m old new : Byte) : Byte := (old &&& ~~~m) ||| (new &&& m)

/-- The byte at `pa`, `b` before the store, after it. -/
def HeldStore.onto (x : HeldStore) (pa : Nat) (b : Byte) : Byte :=
  match x.runs.find? fun r => r.1 ≤ pa && pa < r.1 + r.2.length with
  | some r => mergeByte x.mask b (r.2.getD (pa - r.1) 0)
  | none => b

/-- The held stores, oldest first, that must be performed so that those of hart `h` are: these, and every older one with a byte in
common with one of them. -/
def neededFor (h : HartId) : List HeldStore → List HeldStore
  | [] => []
  | x :: l => let n := neededFor h l; if x.hart == h || n.any x.overlaps then x :: n else n

/-- An asynchronous cause waiting to be taken (14 R359): 0x0E, 0x16 after completion, 0x17, 0x10, 0x15. -/
structure Pending where
  cause : Byte
  eaddr : Word
  eidx : Word
  deriving DecidableEq, Repr

/-- PREEMPT but for DRAIN, which is read from the programs (14 Table 14.3), and the slot of the request (09 Table 9.14, PBLATE). -/
structure PreemptReg where
  pend : Bool
  req : BitVec 8
  since : Nat
  deriving DecidableEq, Repr

/-- One hart. -/
structure Hart where
  pc : Word
  s : Vector Word 32
  v : Vector VReg 32
  m : Vector Mask 8
  mf : MBits
  run : RunState
  status : Status
  tr : TrapRegs
  vc : VecCfg
  fp : FpRegs
  lees : LeesRegs
  tags : TagRegs
  cal : CalRegs
  ptbase : Word
  asid : BitVec 16
  modp : BitVec 31
  modq : BitVec 31
  sstatus : Word
  kmode : BitVec 24
  klimit : BitVec 14
  preempt : PreemptReg
  evpend : Word
  hipend : Word
  vbind : Vector VBind 4
  wslot : Vector WSlot 2
  mxcfg : BitVec 21
  /-- The fault record's 256 bytes, as a number (06 R154). -/
  faultRec : BitVec 2048
  /-- The completion counters: for each entry the store-buffer mark it waits for, 0 when it waits for none
  (02 R28). -/
  cc : Vector (List Nat) 4
  latch : Option Latch
  /-- The return stack, newest first (04 R73). -/
  retStack : List Word
  pend : List Pending
  /-- The gang's die and task number; none for a free hart (01 R12). -/
  gang : Option (DieId × Nat)
  /-- GBARs this member has reached since its start (08 R226). -/
  gbars : Nat
  /-- The member has reached the GBAR at its pc (08 R226). -/
  gbarHere : Bool
  /-- The hart has just entered its handler, whose fetch must not fault (14 R357). -/
  atHandler : Bool
  /-- The model's own: the instruction at pc has begun to wait, and is performed again from the start (14 R361). -/
  inWait : Bool
  /-- The model's own: this cycle is already counted in HINTSTALLS or charged to this hart (02 R27, 08 R220). -/
  lost : Bool
  /-- The model's own: what has held the next instruction (02 R32). -/
  mis : MisHint
  deriving DecidableEq, Repr

/-- Every bitmap bit clear. -/
def Mask.empty : Mask := .bitmap 0

/-- A stopped hart at reset; every register holds a value (DESIGN CHOICE, log 3). -/
def Hart.reset : Hart :=
  { pc := 0
    s := Vector.replicate 32 0
    v := Vector.replicate 32 0
    m := Vector.replicate 8 Mask.empty
    mf := 0
    run := .stopped
    status := Status.reset
    tr := ⟨0, 0, 0, 0, 0, 0⟩
    vc := { vtype := 0, vlrow := 0, vlcol := 0, vstart := 0, vdirty := 0, vvalid := BitVec.allOnes 41, vsaveptr := 0,
            vhigh := Vector.replicate 32 0, dl := Vector.replicate 3 0, ds := Vector.replicate 3 0, nfflag := 0 }
    fp := { flags := 0, ctl := ⟨0, false, 0⟩, seed := 0 }
    lees := ⟨0, 0, 0, 0, []⟩
    tags := ⟨0, 0, []⟩
    cal := ⟨0, 0, 0, 0⟩
    ptbase := 0
    asid := 0
    modp := 0
    modq := 0
    sstatus := 0
    kmode := 0
    klimit := 8192
    preempt := ⟨false, 0, 0⟩
    evpend := 0
    hipend := 0
    vbind := Vector.replicate 4 VBind.zero
    wslot := Vector.replicate 2 WSlot.zero
    mxcfg := 0
    faultRec := 0
    cc := Vector.replicate 4 []
    latch := none
    retStack := []
    pend := []
    gang := none
    gbars := 0
    gbarHere := false
    atHandler := false
    inWait := false
    lost := false
    mis := MisHint.none }

end Sys2Proof.Machine
end

