-- ==== Sys2Proof/Machine/SMap.lean ====
section
/-!
DEFINITION. Sparse data by key: a list of key and value pairs in one canonical form, keys strictly rising and no entry
equal to what an unlisted key reads as, so that equal maps are equal data.
-/

namespace Sys2Proof.Machine

/-- A sparse map. What an unlisted key reads as is given at each use. -/
abbrev SMap (α : Type) := List (Nat × α)

/-- The value at a key. -/
def SMap.get {α : Type} (dflt : α) (m : SMap α) (k : Nat) : α :=
  match m with
  | [] => dflt
  | (a, v) :: r => if a = k then v else SMap.get dflt r k

/-- Inserts or replaces an entry, keeping the keys rising. -/
def SMap.insert {α : Type} (m : SMap α) (k : Nat) (v : α) : SMap α :=
  match m with
  | [] => [(k, v)]
  | (a, w) :: r => if a < k then (a, w) :: SMap.insert r k v else if a = k then (k, v) :: r else (k, v) :: (a, w) :: r

/-- Removes an entry. -/
def SMap.erase {α : Type} (m : SMap α) (k : Nat) : SMap α :=
  match m with
  | [] => []
  | (a, w) :: r => if a = k then r else (a, w) :: SMap.erase r k

/-- Writes a value: the default removes the entry. -/
def SMap.set {α : Type} [DecidableEq α] (dflt : α) (m : SMap α) (k : Nat) (v : α) : SMap α :=
  if v = dflt then SMap.erase m k else SMap.insert m k v

/-- The canonical form. -/
def SMap.wf {α : Type} [DecidableEq α] (dflt : α) : SMap α → Bool
  | [] => true
  | [(_, v)] => v != dflt
  | (a, v) :: (b, w) :: r => a < b && v != dflt && SMap.wf dflt ((b, w) :: r)

/-- Writes consecutive keys. -/
def SMap.setMany {α : Type} [DecidableEq α] (dflt : α) (m : SMap α) (k : Nat) : List α → SMap α
  | [] => m
  | v :: vs => SMap.setMany dflt (SMap.set dflt m k v) (k + 1) vs

/-- Reads consecutive keys. -/
def SMap.getMany {α : Type} (dflt : α) (m : SMap α) (k n : Nat) : List α :=
  (List.range n).map fun i => SMap.get dflt m (k + i)

end Sys2Proof.Machine
end

