-- ==== Sys2Proof/Machine/Float.lean ====
section
/-!
DEFINITION. Number formats and rounding (03 R43 to R67): exact values as sign, natural mantissa and binary exponent, one
rounding of an exact value into a format, block formats, and ordered sums. Nothing here reads the machine's state.
-/

namespace Sys2Proof.Machine

/-- The floating-point element formats (03 Table 3.1). -/
inductive Fmt where
  | b64 | b32 | b16 | bf16 | e4m3 | e5m2 | e2m1 | aw64
  deriving DecidableEq, Repr

/-- Width in bits. -/
def Fmt.width : Fmt → Nat
  | .b64 => 64 | .b32 => 32 | .b16 => 16 | .bf16 => 16 | .e4m3 => 8 | .e5m2 => 8 | .e2m1 => 4 | .aw64 => 64

/-- Width of the fraction field. -/
def Fmt.frac : Fmt → Nat
  | .b64 => 52 | .b32 => 23 | .b16 => 10 | .bf16 => 7 | .e4m3 => 3 | .e5m2 => 2 | .e2m1 => 1 | .aw64 => 53

/-- Exponent bias. -/
def Fmt.bias : Fmt → Nat
  | .b64 => 1023 | .b32 => 127 | .b16 => 15 | .bf16 => 127 | .e4m3 => 7 | .e5m2 => 15 | .e2m1 => 1 | .aw64 => 511

/-- The exponent field all ones. -/
def Fmt.expOnes (f : Fmt) : Nat := 2 ^ (f.width - 1 - f.frac) - 1

/-- The bits of the largest finite value, sign clear. -/
def Fmt.maxBits (f : Fmt) : Nat :=
  match f with
  | .e4m3 => 0x7E
  | .e2m1 => 0x7
  | _ => (f.expOnes - 1) * 2 ^ f.frac + (2 ^ f.frac - 1)

/-- The exponent of the largest finite value's leading bit. -/
def Fmt.emax (f : Fmt) : Int :=
  match f with
  | .e4m3 => 8
  | .e2m1 => 2
  | _ => f.bias

/-- The bits of infinity, sign clear; for the formats without one, of what stands where Table 3.5 has it. -/
def Fmt.infBits (f : Fmt) : Nat := f.expOnes * 2 ^ f.frac

/-- The canonical NaN (03 Table 3.1). -/
def Fmt.canonNaN (f : Fmt) : Nat :=
  match f with
  | .e4m3 => 0x7F
  | .e2m1 => 0
  | _ => f.expOnes * 2 ^ f.frac + 2 ^ (f.frac - 1)

/-- A sign bit in place. -/
def Fmt.signBit (f : Fmt) (neg : Bool) : Nat := if neg then 2 ^ (f.width - 1) else 0

/-- Rounding modes (03 Table 3.4). -/
inductive RMode where
  | rne | rtz | rdn | rup | rna | sr
  deriving DecidableEq, Repr

/-- The mode of a code of Table 3.4; the reserved codes never reach this. -/
def RMode.ofCode : Nat → RMode
  | 1 => .rtz | 2 => .rdn | 3 => .rup | 4 => .rna | 5 => .sr | _ => .rne

/-- The sticky flags (03 Table 3.6): NX, UF, OF, DZ, NV from bit 0. -/
abbrev FFlags := BitVec 5

def fNX : FFlags := 1
def fUF : FFlags := 2
def fOF : FFlags := 4
def fDZ : FFlags := 8
def fNV : FFlags := 16

/-- What a rounding needs beside the value: mode, FPCTL.SAT8, the seed S of R57 and VTYPE.FLUSH (R62). -/
structure FEnv where
  mode : RMode
  sat8 : Bool
  seed : Word
  flush : BitVec 2
  deriving DecidableEq, Repr

/-- Inputs are flushed (03 Table 3.8). -/
def FEnv.flushIn (e : FEnv) : Bool := e.flush.getLsbD 0
/-- Outputs are flushed. -/
def FEnv.flushOut (e : FEnv) : Bool := e.flush.getLsbD 1

/-- A value read from a format, or the exact value of an operation: NaN (signalling?), infinity, or
(-1)^neg * man * 2^exp. -/
inductive FVal where
  | nan (sig : Bool)
  | inf (neg : Bool)
  | fin (neg : Bool) (man : Nat) (exp : Int)
  deriving DecidableEq, Repr

/-- Formats that FLUSH acts on (03 R62). -/
def Fmt.flushable : Fmt → Bool
  | .aw64 => false
  | .e2m1 => false
  | _ => true

def Fmt.signOf (f : Fmt) (v : Nat) : Bool := (v >>> (f.width - 1)) % 2 = 1
def Fmt.expOf (f : Fmt) (v : Nat) : Nat := (v >>> f.frac) % 2 ^ (f.width - 1 - f.frac)
def Fmt.fracOf (f : Fmt) (v : Nat) : Nat := v % 2 ^ f.frac

/-- Whether a bit pattern is a NaN (03 R43, R44). -/
def Fmt.isNaN (f : Fmt) (v : Nat) : Bool :=
  match f with
  | .e2m1 => false
  | .e4m3 => f.expOf v == f.expOnes && f.fracOf v == 7
  | _ => f.expOf v == f.expOnes && f.fracOf v != 0

/-- Whether a bit pattern is a signalling NaN (03 R44). -/
def Fmt.isSNaN (f : Fmt) (v : Nat) : Bool :=
  match f with
  | .e4m3 => false
  | _ => f.isNaN v && (v >>> (f.frac - 1)) % 2 == 0

/-- Whether a bit pattern is an infinity. -/
def Fmt.isInf (f : Fmt) (v : Nat) : Bool :=
  match f with
  | .e2m1 => false
  | .e4m3 => false
  | _ => f.expOf v == f.expOnes && f.fracOf v == 0

/-- Whether a bit pattern is a subnormal. -/
def Fmt.isSub (f : Fmt) (v : Nat) : Bool := f.expOf v == 0 && f.fracOf v != 0

/-- Sets the quiet bit (03 R44). -/
def Fmt.quiet (f : Fmt) (v : Nat) : Nat :=
  match f with
  | .e4m3 => v
  | .e2m1 => v
  | _ => v ||| 2 ^ (f.frac - 1)

/-- Reads a bit pattern; a subnormal is read as zero of its sign when `fl` (03 R62). -/
def Fmt.val (f : Fmt) (fl : Bool) (v : Nat) : FVal :=
  if f.isNaN v then .nan (f.isSNaN v)
  else if f.isInf v then .inf (f.signOf v)
  else if f.expOf v = 0 then
    if fl && f.flushable then .fin (f.signOf v) 0 0
    else .fin (f.signOf v) (f.fracOf v) (1 - (f.bias : Int) - f.frac)
  else .fin (f.signOf v) (2 ^ f.frac + f.fracOf v) ((f.expOf v : Int) - f.bias - f.frac)

/-- Compares man1 * 2^e1 with man2 * 2^e2. -/
def dyLt (m1 : Nat) (e1 : Int) (m2 : Nat) (e2 : Int) : Bool :=
  if e1 ≤ e2 then m1 < m2 <<< (e2 - e1).toNat else m1 <<< (e1 - e2).toNat < m2

/-- The draw of 03 R57: x[63:32] for seed S and element index i. -/
def srDraw (s : Word) (i : Nat) : Nat :=
  let x : Word := s ^^^ (BitVec.ofNat 64 i * 0x9e3779b97f4a7c15#64)
  let x := x * 0x5851f42d4c957f2d#64 + 0x14057b7ef767814f#64
  wbits x 63 32

/-- The step of SRSEED (03 R58). -/
def srStep (s : Word) : Word := s * 0x5851f42d4c957f2d#64 + 0x14057b7ef767814f#64

/-- Whether a magnitude lying `rem / 2^k` of the way from lo to lo + 1 goes up (03 Table 3.4, R57). -/
def roundsUp (mode : RMode) (neg : Bool) (draw : Nat) (lo rem k : Nat) : Bool :=
  match mode with
  | .rne => 2 ^ k < 2 * rem || (2 ^ k == 2 * rem && lo % 2 == 1)
  | .rtz => false
  | .rdn => neg
  | .rup => !neg
  | .rna => 2 ^ k ≤ 2 * rem
  | .sr => 2 ^ 32 ≤ (rem <<< 32) >>> k + draw

/-- Rounds man * 2^exp to a multiple of 2^q: the multiple, and whether it is inexact. -/
def roundAt (mode : RMode) (neg : Bool) (draw : Nat) (man : Nat) (exp q : Int) : Nat × Bool :=
  if q ≤ exp then (man <<< (exp - q).toNat, false)
  else
    let k := (q - exp).toNat
    let lo := man >>> k
    let rem := man % 2 ^ k
    if rem = 0 then (lo, false) else (if roundsUp mode neg draw lo rem k then lo + 1 else lo, true)

/-- What an overflow gives where Table 3.5 has ±∞: infinity, or what stands for it in a format without one, a NaN of sign
`nan` in E4M3 (03 R56). `conv`: the instruction is a conversion (in part DEDUCED, log 20). -/
def Fmt.overInf (f : Fmt) (sat8 conv neg nan : Bool) : Nat :=
  match f with
  | .e4m3 => if sat8 then f.signBit neg + f.maxBits else f.signBit nan + 0x7F
  | .e2m1 => f.signBit neg + f.maxBits
  | .e5m2 => f.signBit neg + (if sat8 && conv then f.maxBits else f.infBits)
  | _ => f.signBit neg + f.infBits

/-- An infinite result of an operation that is no conversion; E4M3 has no infinity, and the spec states no result there
(DESIGN CHOICE, log 20). -/
def Fmt.infResult (f : Fmt) (sat8 neg : Bool) : Nat :=
  match f with
  | .e4m3 => (Config.noInfinity sat8 neg).toNat
  | .e2m1 => f.signBit neg + f.maxBits
  | _ => f.signBit neg + f.infBits

/-- The overflow result of 03 Table 3.5; man * 2^exp is the exact magnitude, above the largest finite value
(in part DEDUCED, log 20). -/
def Fmt.overflow (f : Fmt) (env : FEnv) (conv : Bool) (draw : Nat) (neg : Bool) (man : Nat) (exp : Int) : Nat :=
  let inf := f.overInf env.sat8 conv neg (Config.overflowNaN neg man exp)
  let max := f.signBit neg + f.maxBits
  match env.mode with
  | .rne => inf
  | .rna => inf
  | .rtz => max
  | .rdn => if neg then inf else max
  | .rup => if neg then max else inf
  | .sr =>
    let q := f.emax - f.frac - 64
    let v := man <<< (exp - q).toNat >>> (q - exp).toNat
    let lo := (match f.val false f.maxBits with | .fin _ m e => m <<< (e - q).toNat | _ => 0)
    let hi := 2 ^ (f.frac + 65)
    if hi ≤ v then inf
    else if 2 ^ 32 ≤ ((v - lo) <<< 32) / (hi - lo) + draw then inf else max

/-- Rounds a nonzero or zero exact value into a format (03 R55 to R57, R62): bits and flags. `i`: the element index of
R57. -/
def Fmt.roundFin (f : Fmt) (env : FEnv) (conv : Bool) (i : Nat) (neg : Bool) (man : Nat) (exp : Int) :
    Nat × FFlags :=
  if man = 0 then (f.signBit neg, 0)
  else
    let draw := srDraw env.seed i
    let e := (Nat.log2 man : Int) + exp
    let qU := e - f.frac
    let qMin := 1 - (f.bias : Int) - f.frac
    let q := if qU < qMin then qMin else qU
    let (m, inexact) := roundAt env.mode neg draw man exp q
    let (maxMan, maxExp) := (match f.val false f.maxBits with | .fin _ mm me => (mm, me) | _ => (0, 0))
    let tooBig := if env.mode = .sr then dyLt maxMan maxExp man exp else dyLt maxMan maxExp m q
    if tooBig then (f.overflow env conv draw neg man exp, fOF ||| fNX)
    else
      let (mU, _) := roundAt env.mode neg draw man exp qU
      let tiny := dyLt mU qU 1 (1 - (f.bias : Int))
      let fl : FFlags := (if inexact then fNX else 0) ||| (if tiny && inexact then fUF else 0)
      let (m, q) := if m = 2 ^ (f.frac + 1) then (m / 2, q + 1) else (m, q)
      if m < 2 ^ f.frac then
        if m != 0 && env.flushOut && f.flushable then (f.signBit neg, fl ||| fUF ||| fNX)
        else (f.signBit neg + m, fl)
      else (f.signBit neg + (q + f.frac + f.bias).toNat * 2 ^ f.frac + (m - 2 ^ f.frac), fl)

/-- Writes a value into a format: NaN as the canonical NaN, infinity as Table 3.5 and R56 have it
(in part DEDUCED, log 20). -/
def Fmt.roundVal (f : Fmt) (env : FEnv) (conv : Bool) (i : Nat) (v : FVal) : Nat × FFlags :=
  match v with
  | .nan _ => (f.canonNaN, 0)
  | .inf neg =>
    if !conv then (f.infResult env.sat8 neg, 0)
    else
      match f with
      | .e4m3 => if env.sat8 then (f.signBit neg + f.maxBits, fOF ||| fNX) else (f.signBit neg + 0x7F, fNV)
      | .e5m2 => if env.sat8 then (f.signBit neg + f.maxBits, fOF ||| fNX) else (f.infResult false neg, 0)
      | _ => (f.infResult env.sat8 neg, 0)
  | .fin neg man exp => f.roundFin env conv i neg man exp

/-! Exact arithmetic on values. -/

/-- The signed mantissa. -/
def sman (neg : Bool) (man : Nat) : Int := if neg then -(man : Int) else man

/-- Negation. -/
def FVal.neg : FVal → FVal
  | .nan s => .nan s
  | .inf n => .inf (!n)
  | .fin n m e => .fin (!n) m e

/-- Magnitude. -/
def FVal.abs : FVal → FVal
  | .nan s => .nan s
  | .inf _ => .inf false
  | .fin _ m e => .fin false m e

def FVal.isNaN : FVal → Bool
  | .nan _ => true
  | _ => false

def FVal.isSig : FVal → Bool
  | .nan s => s
  | _ => false

def FVal.isInf : FVal → Bool
  | .inf _ => true
  | _ => false

def FVal.isZero : FVal → Bool
  | .fin _ m _ => m == 0
  | _ => false

def FVal.sign : FVal → Bool
  | .nan _ => false
  | .inf n => n
  | .fin n _ _ => n

/-- An exact product; the Bool says that the operation is invalid (0 × ∞). -/
def FVal.mul (a b : FVal) : FVal × Bool :=
  match a, b with
  | .nan s, .nan t => (.nan (s || t), false)
  | .nan s, _ => (.nan s, false)
  | _, .nan t => (.nan t, false)
  | .inf n, .inf k => (.inf (n != k), false)
  | .inf n, .fin k m _ => if m = 0 then (.nan false, true) else (.inf (n != k), false)
  | .fin n m _, .inf k => if m = 0 then (.nan false, true) else (.inf (n != k), false)
  | .fin n m e, .fin k p g => (.fin (n != k) (m * p) (e + g), false)

/-- An exact sum; an exact zero has the sign IEEE 754 gives under the mode (03 R64). The Bool says that it is invalid
(infinities of opposite sign). -/
def FVal.add (mode : RMode) (a b : FVal) : FVal × Bool :=
  match a, b with
  | .nan s, .nan t => (.nan (s || t), false)
  | .nan s, _ => (.nan s, false)
  | _, .nan t => (.nan t, false)
  | .inf n, .inf k => if n = k then (.inf n, false) else (.nan false, true)
  | .inf n, .fin _ _ _ => (.inf n, false)
  | .fin _ _ _, .inf k => (.inf k, false)
  | .fin n m e, .fin k p g =>
    if m = 0 ∧ p = 0 then (.fin (if n = k then n else mode = .rdn) 0 0, false)
    else if m = 0 then (.fin k p g, false)
    else if p = 0 then (.fin n m e, false)
    else
      let lo := if e ≤ g then e else g
      let s : Int := sman n (m <<< (e - lo).toNat) + sman k (p <<< (g - lo).toNat)
      if s = 0 then (.fin (mode = .rdn) 0 0, false) else (.fin (s < 0) s.natAbs lo, false)

/-- An exact sum of several values, taken from the left (03 R64, R65). -/
def FVal.sum (mode : RMode) (v : FVal) (l : List (FVal × Bool)) : FVal × Bool :=
  l.foldl (fun (acc : FVal × Bool) x =>
    let r := FVal.add mode acc.1 x.1
    (r.1, acc.2 || x.2 || r.2)) (v, false)

/-- a < b as numbers; −0 equals +0. -/
def FVal.lt (a b : FVal) : Bool :=
  match a, b with
  | .nan _, _ => false
  | _, .nan _ => false
  | .inf n, .inf k => n && !k
  | .inf n, .fin _ _ _ => n
  | .fin _ _ _, .inf k => !k
  | .fin n m e, .fin k p g =>
    if m = 0 ∧ p = 0 then false
    else if m = 0 then !k
    else if p = 0 then n
    else if n != k then n
    else if n then dyLt p g m e else dyLt m e p g

/-- a = b as numbers; −0 equals +0. -/
def FVal.eq (a b : FVal) : Bool := !a.isNaN && !b.isNaN && !FVal.lt a b && !FVal.lt b a

/-! Results with NaN operands of the result's own format (03 R45). -/

/-- The first NaN of the operands, quietened, with NV when one of them is signalling; none when no operand is NaN. -/
def Fmt.nanOf (f : Fmt) (ops : List Nat) : Option (Nat × FFlags) :=
  match ops.find? f.isNaN with
  | some v => some (f.quiet v, if ops.any f.isSNaN then fNV else 0)
  | none => none

/-- Rounds an exact result; an invalid operation gives the canonical NaN and NV (in part DEDUCED, log 20). -/
def Fmt.finish (f : Fmt) (env : FEnv) (i : Nat) (r : FVal × Bool) : Nat × FFlags :=
  if r.2 then (f.canonNaN, fNV) else f.roundVal env false i r.1

/-- A + B in one format. -/
def Fmt.fadd (f : Fmt) (env : FEnv) (i a b : Nat) : Nat × FFlags :=
  match f.nanOf [a, b] with
  | some r => r
  | none => f.finish env i (FVal.add env.mode (f.val env.flushIn a) (f.val env.flushIn b))

/-- A − B in one format. -/
def Fmt.fsub (f : Fmt) (env : FEnv) (i a b : Nat) : Nat × FFlags :=
  match f.nanOf [a, b] with
  | some r => r
  | none => f.finish env i (FVal.add env.mode (f.val env.flushIn a) (f.val env.flushIn b).neg)

/-- A × B in one format. -/
def Fmt.fmul (f : Fmt) (env : FEnv) (i a b : Nat) : Nat × FFlags :=
  match f.nanOf [a, b] with
  | some r => r
  | none => f.finish env i (FVal.mul (f.val env.flushIn a) (f.val env.flushIn b))

/-- ±(A × B) ± C, rounded once. -/
def fmaExact (mode : RMode) (negP negC : Bool) (a b c : FVal) : FVal × Bool :=
  let p := FVal.mul a b
  let p1 := if negP then p.1.neg else p.1
  let r := FVal.add mode p1 (if negC then c.neg else c)
  (r.1, p.2 || r.2)

/-- The fused multiply-add in one format: a NaN operand is the result, and the product 0 × ∞ beside a quiet NaN raises no NV
(in part DEDUCED, log 22). -/
def Fmt.ffma (f : Fmt) (env : FEnv) (i : Nat) (negP negC : Bool) (a b c : Nat) : Nat × FFlags :=
  match f.nanOf [a, b, c] with
  | some r => r
  | none => f.finish env i
      (fmaExact env.mode negP negC (f.val env.flushIn a) (f.val env.flushIn b) (f.val env.flushIn c))

/-- How many bits below the result's last place a quotient or root is carried before the rest is told by one sticky
bit. -/
def guardBits : Nat := 160

/-- The quotient of two nonzero magnitudes to `guardBits`, with a sticky bit below. -/
def quotient (m : Nat) (e : Int) (p : Nat) (g : Int) : Nat × Int :=
  let s := guardBits + Nat.log2 p
  let n := m <<< s
  (2 * (n / p) + (if n % p = 0 then 0 else 1), e - g - s - 1)

/-- A / B on numbers: value, invalid, division by zero. -/
def FVal.div (a b : FVal) : FVal × Bool × Bool :=
  match a, b with
  | .inf _, .inf _ => (.nan false, true, false)
  | .inf n, .fin k _ _ => (.inf (n != k), false, false)
  | .fin n _ _, .inf k => (.fin (n != k) 0 0, false, false)
  | .fin n m e, .fin k p g =>
    if p = 0 then
      if m = 0 then (.nan false, true, false) else (.inf (n != k), false, true)
    else if m = 0 then (.fin (n != k) 0 0, false, false)
    else let q := quotient m e p g; (.fin (n != k) q.1 q.2, false, false)
  | _, _ => (.nan false, false, false)

/-- A / B in one format (03 R45, Table 3.6). -/
def Fmt.fdiv (f : Fmt) (env : FEnv) (i a b : Nat) : Nat × FFlags :=
  match f.nanOf [a, b] with
  | some r => r
  | none =>
    let (v, inv, dz) := FVal.div (f.val env.flushIn a) (f.val env.flushIn b)
    if inv then (f.canonNaN, fNV)
    else if dz then (f.infResult env.sat8 v.sign, fDZ)
    else f.roundVal env false i v

/-- The square root of a magnitude to `guardBits`, with a sticky bit below. -/
def rootOf (m : Nat) (e : Int) : Nat × Int :=
  let k := guardBits * 2 + (if (e - guardBits * 2) % 2 = 0 then 0 else 1)
  let n := m <<< k
  let r := isqrt n
  (2 * r + (if r * r = n then 0 else 1), (e - k) / 2 - 1)

/-- The square root in one format (03 R45). -/
def Fmt.fsqrt (f : Fmt) (env : FEnv) (i a : Nat) : Nat × FFlags :=
  match f.nanOf [a] with
  | some r => r
  | none =>
    match f.val env.flushIn a with
    | .inf neg => if neg then (f.canonNaN, fNV) else f.roundVal env false i (.inf false)
    | .fin neg m e =>
      if m = 0 then (f.signBit neg, 0)
      else if neg then (f.canonNaN, fNV)
      else let r := rootOf m e; f.roundFin env false i false r.1 r.2
    | .nan _ => (f.canonNaN, 0)

/-- 1 / √A in one format, correctly rounded (03 R45, R55); at ±0 the divisor is √±0 = ±0. -/
def Fmt.frsq (f : Fmt) (env : FEnv) (i a : Nat) : Nat × FFlags :=
  match f.nanOf [a] with
  | some r => r
  | none =>
    match f.val env.flushIn a with
    | .inf neg => if neg then (f.canonNaN, fNV) else (0, 0)
    | .fin neg m e =>
      if m = 0 then (f.infResult env.sat8 neg, fDZ)
      else if neg then (f.canonNaN, fNV)
      else
        -- √(1 / a): the quotient first, with the sticky bit of either step
        let q := quotient 1 0 m e
        let r := rootOf q.1 q.2
        f.roundFin env false i false (if q.1 % 2 = 1 ∧ r.1 % 2 = 0 then r.1 + 1 else r.1) r.2
    | .nan _ => (f.canonNaN, 0)

/-- 1 / A in one format. -/
def Fmt.frcp (f : Fmt) (env : FEnv) (i a : Nat) : Nat × FFlags :=
  match f.nanOf [a] with
  | some r => r
  | none =>
    let (v, inv, dz) := FVal.div (.fin false 1 0) (f.val env.flushIn a)
    if inv then (f.canonNaN, fNV)
    else if dz then (f.infResult env.sat8 v.sign, fDZ)
    else f.roundVal env false i v

/-- Minimum or maximum (03 R45): minimumNumber, maximumNumber. -/
def Fmt.fminmax (f : Fmt) (max : Bool) (flushIn : Bool) (a b : Nat) : Nat × FFlags :=
  let fl : FFlags := if f.isSNaN a || f.isSNaN b then fNV else 0
  let za := if flushIn && f.flushable && f.isSub a then f.signBit (f.signOf a) else a
  let zb := if flushIn && f.flushable && f.isSub b then f.signBit (f.signOf b) else b
  if f.isNaN a && f.isNaN b then (f.canonNaN, fl)
  else if f.isNaN a then (zb, fl)
  else if f.isNaN b then (za, fl)
  else
    let va := f.val false za
    let vb := f.val false zb
    let aLess := FVal.lt va vb || (FVal.eq va vb && f.signOf za && !f.signOf zb)
    (if aLess != max then za else zb, fl)

/-! Conversions (03 R63). -/

/-- Float to float (in part DEDUCED, log 20). -/
def convFF (src dst : Fmt) (env : FEnv) (i : Nat) (v : Nat) : Nat × FFlags :=
  match src.val env.flushIn v with
  | .nan s => (dst.canonNaN, if s then fNV else 0)
  | x => dst.roundVal env true i x

/-- Float to integer of width `n`. -/
def convFI (src : Fmt) (n : Nat) (u : Bool) (env : FEnv) (i : Nat) (v : Nat) : Nat × FFlags :=
  let (lo, hi) := intRange n u
  match src.val env.flushIn v with
  | .nan _ => (0, fNV)
  | .inf neg => (wrap n (if neg then lo else hi), fNV)
  | .fin neg m e =>
    let (r, inexact) := roundAt env.mode neg (srDraw env.seed i) m e 0
    let x := sman neg r
    if x < lo then (wrap n lo, fNV) else if hi < x then (wrap n hi, fNV)
    else (wrap n x, if inexact then fNX else 0)

/-- Integer to float. -/
def convIF (dst : Fmt) (env : FEnv) (i : Nat) (x : Int) : Nat × FFlags :=
  dst.roundFin env true i (x < 0) x.natAbs 0

/-- Integer to integer of width `n`, saturating with NV. -/
def convII (n : Nat) (u : Bool) (x : Int) : Nat × FFlags :=
  let (lo, hi) := intRange n u
  if x < lo then (wrap n lo, fNV) else if hi < x then (wrap n hi, fNV) else (wrap n x, 0)

/-- Rounds a value to an integral value of its format; NX when inexact. -/
def Fmt.froundInt (f : Fmt) (env : FEnv) (i : Nat) (v : Nat) : Nat × FFlags :=
  match f.nanOf [v] with
  | some r => r
  | none =>
    match f.val env.flushIn v with
    | .fin neg m e =>
      let (r, inexact) := roundAt env.mode neg (srDraw env.seed i) m e 0
      let (b, fl) := f.roundFin env false i neg r 0
      (b, fl ||| (if inexact then fNX else 0))
    | _ => (v, 0)

/-! Block formats (03 R46 to R48). -/

/-- The grist formats. -/
inductive Grist where
  | mg2 | mg4 | mg7
  deriving DecidableEq, Repr

/-- Magnitude bits k. -/
def Grist.k : Grist → Nat
  | .mg2 => 1 | .mg4 => 3 | .mg7 => 6

/-- Bytes of a block (03 Table 3.2). -/
def Grist.bytes : Grist → Nat
  | .mg2 => 6 | .mg4 => 10 | .mg7 => 16

/-- Element `i` of a grist block given as the number its bytes hold (03 R47). -/
def Grist.elem (g : Grist) (blk : Nat) (i : Nat) : FVal :=
  let e := blk % 256
  let u := (blk >>> (8 + i / 2)) % 2
  let c := (blk >>> (16 + (g.k + 1) * i)) % 2 ^ (g.k + 1)
  if e = 255 then .nan false
  else .fin (c >>> g.k = 1) (c % 2 ^ g.k) ((e : Int) - 127 + u - (g.k - 1))

/-- The largest magnitude of a list of finite values, as mantissa and exponent. -/
def maxMag (l : List FVal) : Nat × Int :=
  l.foldl (fun (a : Nat × Int) v =>
    match v with
    | .fin _ m e => if dyLt a.1 a.2 m e then (m, e) else a
    | _ => a) (0, 0)

/-- floor(log2) of a nonzero magnitude. -/
def flog2 (m : Nat) (e : Int) : Int := (Nat.log2 m : Int) + e

/-- round_int of 03 R48. -/
def roundInt (env : FEnv) (i : Nat) (v : FVal) (step : Int) : Nat × Bool :=
  match v with
  | .fin neg m e => roundAt env.mode neg (srDraw env.seed i) m e step
  | _ => (0, false)

/-- Quantises 16 values, with element index `idx i` for element i, into a grist block (03 R48): the number the block's
bytes hold, and the flags. Missing values read as +0 (in part DEDUCED, log 21). -/
def Grist.quantiseAt (g : Grist) (env : FEnv) (idx : Nat → Nat) (x : List FVal) (signs : List Bool) : Nat × FFlags :=
  let k := g.k
  let sgn (i : Nat) : Nat := if signs.getD i false then 2 ^ k else 0
  let at_ (i : Nat) : FVal := x.getD i (.fin false 0 0)
  let pack (e u : Nat) (fs : Nat → Nat) : Nat :=
    e + 256 * u + ((List.range 16).foldl (fun a i => a + (fs i + sgn i) <<< ((k + 1) * i)) 0) * 65536
  if x.any (fun v => v.isNaN || v.isInf) then (pack 255 0 (fun _ => 0), fNV)
  else
    let (mm, me) := maxMag x
    if mm = 0 then (pack 0 0 (fun _ => 0), 0)
    else
      let e0 := flog2 mm me + 126
      let e : Int := clampInt 0 254 e0
      let stepOf (u : Nat) : Int := e - 127 + u - (k - 1)
      let big (i : Nat) : Bool := (roundInt env (idx i) (at_ i) (stepOf 0)).1 > 2 ^ k - 1
      let uOf (j : Nat) : Nat := if big (2 * j) || big (2 * j + 1) then 1 else 0
      let q (i : Nat) : Nat × Bool := roundInt env (idx i) (at_ i) (stepOf (uOf (i / 2)))
      let fOf (i : Nat) : Nat := if (q i).1 > 2 ^ k - 1 then 2 ^ k - 1 else (q i).1
      let sat (i : Nat) : Bool := (q i).1 > 2 ^ k - 1
      let inexact := (List.range 16).any fun i => (q i).2 || sat i
      let u := (List.range 8).foldl (fun a j => a + uOf j <<< j) 0
      (pack e.toNat u fOf,
        (if inexact then fNX else 0) |||
        (if e0 > 254 && (List.range 16).any sat then fOF else 0) |||
        (if e0 < 0 && inexact then fUF else 0))

/-- Element `i` of an MXFP4 block (03 R46). -/
def mxElem (blk : Nat) (i : Nat) : FVal :=
  let x := blk % 256
  if x = 255 then .nan false
  else
    match Fmt.e2m1.val false ((blk >>> (8 + 4 * i)) % 16) with
    | .fin n m e => .fin n m (e + (x : Int) - 127)
    | v => v

/-- The same with element indices counting up from `i0`. -/
def Grist.quantise (g : Grist) (env : FEnv) (i0 : Nat) (x : List FVal) (signs : List Bool) : Nat × FFlags :=
  g.quantiseAt env (fun i => i0 + i) x signs

/-- Quantises 32 values into an MXFP4 block (03 R46): each element is rounded once and saturated to ±6, in a block with
X = 0xFF too, where the codes of a NaN and of an infinity are open (in part DEDUCED, log 21). -/
def mxQuantise (env : FEnv) (i0 : Nat) (x : List FVal) (signs : List Bool) : Nat × FFlags :=
  let at_ (i : Nat) : FVal := x.getD i (.fin false 0 0)
  let sgn (i : Nat) : Bool := signs.getD i false
  let pack (sc : Nat) (c : Nat → Nat) : Nat := sc + 256 * (List.range 32).foldl (fun a i => a + c i <<< (4 * i)) 0
  let (mm, me) := maxMag x
  let bad := x.any (fun v => v.isNaN || v.isInf)
  let sc : Int := if mm = 0 then 0 else clampInt 0 254 (flog2 mm me - 2 + 127)
  let el (i : Nat) : Nat × FFlags :=
    match at_ i with
    | .fin _ m e => Fmt.e2m1.roundFin env false (i0 + i) (sgn i) m (e - (sc - 127))
    | .inf n => ((Config.mxBadCode (i0 + i) false n).toNat, 0)
    | .nan _ => ((Config.mxBadCode (i0 + i) true (sgn i)).toNat, 0)
  if bad then (pack 255 (fun i => (el i).1), fNV)
  else if mm = 0 then (pack 0 (fun i => Fmt.e2m1.signBit (sgn i)), 0)
  else (pack sc.toNat (fun i => (el i).1), (List.range 32).foldl (fun a i => a ||| (el i).2) 0)

/-- An integer as a value. -/
def FVal.ofInt (i : Int) : FVal := .fin (i < 0) i.natAbs 0

/-- Block-ordered sum of products (03 R64): products in blocks of `blk`, each block summed exactly with the running
value and rounded once into `out`; a final partial block is padded with +0. Result, flags, and whether a block was
NaN. -/
def blockDot (out : Fmt) (env : FEnv) (blk : Nat) (i : Nat) : Nat → FVal → List (FVal × Bool) → FVal × FFlags
  | 0, acc, _ => (acc, 0)
  | n + 1, acc, ps =>
    match ps with
    | [] => (acc, 0)
    | _ :: _ =>
      let cur := ps.take blk
      let padded := cur ++ List.replicate (blk - cur.length) (.fin false 0 0, false)
      let (s, inv) := FVal.sum env.mode acc padded
      let (b, fl) := (match s with
        | .nan sg => (out.canonNaN, if inv || sg then fNV else 0)
        | v => out.roundVal env false i v)
      let (r, fl2) := blockDot out env blk i n (out.val false b) (ps.drop blk)
      (r, fl ||| fl2)

end Sys2Proof.Machine
end

