-- ==== Sys2Proof/Machine/RackerState.lean ====
section
/-!
DEFINITION. The state of a cluster's Racker channels and queues (07 R167 to R180, R199): copies as plain data.
-/

namespace Sys2Proof.Machine

/-- The context an access is translated and checked in (06 R131, R138): the tables, the address space, the level and
the die of the agent. -/
structure MemCtx where
  ptbase : Word
  asid : BitVec 16
  sys : Bool
  die : DieId
  deriving DecidableEq, Repr

/-- The operation of RKRED (07 R176). -/
inductive RedOp where
  | add | max | min
  deriving DecidableEq, Repr

/-- The forms of a copy (07 Table 7.5). -/
inductive CopyForm where
  /-- Rows of `len` bytes; the pitch applies to the destination when `pd`. -/
  | rows (len rows : Nat) (pitch : Int) (pd : Bool)
  /-- Rn × Cn elements of `eb` bytes. -/
  | xpose (eb rn cn : Nat) (pitch : Int) (pd : Bool)
  /-- `n` elements from W code `src` to W code `dst`, both of the floating column. -/
  | conv (n src dst : Nat) (env : FEnv)
  /-- `n` words of the pattern. -/
  | fill (n : Nat) (pattern : Word)
  /-- `n` rows of `len` bytes, by 32-bit indices at `idx`. -/
  | gather (n len : Nat) (idx : Word)
  /-- `n` elements of W code `type` reduced into the destination, with the issue stamp. -/
  | red (op : RedOp) (int : Bool) (type n : Nat) (stamp : BitVec 32)
  deriving DecidableEq, Repr

/-- A copy that a channel has accepted (07 R170). `pos`: how many destination units are written; `dropped`: a
duplicate RKRED, which writes nothing (R177); `stamped`: the slices in which its stamp bit is set; `got`: the 8-byte words
of the source and of the index table that it has read, by address over 8 (R180). -/
structure Copy where
  id : Nat
  hart : HartId
  tag : Nat
  ch : Fin 4
  scope : Nat
  np : Bool
  src : Word
  dst : Word
  form : CopyForm
  ctx : MemCtx
  gang : Option (DieId × Nat)
  started : Bool
  pos : Nat
  flags : FFlags
  stamped : List ClusterId
  dropped : Bool
  got : List (Nat × Word)
  deriving DecidableEq, Repr

/-- A queue: its entries from the head, the gang it is bound to, and the harts that wait on it in the order in which they began
(07 R199, R200). -/
structure Queue where
  items : List Word
  bound : Option (DieId × Nat)
  /-- With whether the hart waits to push. -/
  waiters : List (HartId × Bool)
  deriving DecidableEq, Repr

/-- The Racker of one cluster: the four channels' queues, head first; the copies whose tag is Faulted (07 R172); those of
a suspended gang; and of its Cellar slice the stamp tables, RKDUPS and HELD (R177, R178). -/
structure Racker where
  channels : Vector (List Copy) 4
  faulted : List Copy
  parked : List Copy
  /-- Per task, by its die and number, the stamps already seen. -/
  stamps : List ((DieId × Nat) × List Nat)
  rkdups : BitVec 32
  /-- The copies held for want of a table. -/
  held : List Nat
  deriving DecidableEq, Repr

def Racker.reset : Racker :=
  { channels := Vector.replicate 4 [], faulted := [], parked := [], stamps := [], rkdups := 0, held := [] }

def Queue.reset : Queue := ⟨[], none, []⟩

end Sys2Proof.Machine
end

