-- ==== Sys2Proof/Machine/CalState.lean ====
section
/-!
DEFINITION. The state of a die's dispatcher and calendar unit (08): tasks with their headers and claims, the FIFOs, the
ready set, and the holds of bookings across dies. Slot numbers and counts are natural numbers.
-/

namespace Sys2Proof.Machine

/-- An input entry of a task header (08 Table 8.2). -/
structure InEntry where
  cluster : Nat
  offset : Nat
  length : Nat
  producer : Nat
  firstUse : Nat
  deriving DecidableEq, Repr

/-- A task header as the dispatcher reads it (08 Table 8.1). -/
structure Header where
  prio : Nat
  movable : Bool
  harts : Nat
  qmask : Byte
  slack : Nat
  pbound : Nat
  nclaim : Nat
  decl : Word
  cell : Word
  arg : Word
  cmask : BitVec 128
  entry : List Word
  roff : Nat
  rlen : Nat
  streams : Word
  larea : Word
  lsize : Nat
  ins : List InEntry
  deriving DecidableEq, Repr

/-- A claim of a booking declaration (08 Table 8.3). A class 8 claim also holds the channel groups its pages were found
in, as die × 128 + group (08 R206). -/
structure Claim where
  cls : Nat
  index : Nat
  offset : Nat
  length : Nat
  period : Nat
  count : Nat
  wlog : Nat
  env : Nat
  use : Nat
  vpage : Nat
  groups : List Nat
  deriving DecidableEq, Repr

/-- The state of a task (08 Table 8.12). -/
inductive TaskState where
  | free | queued | ready | booked | running | suspended | ended
  deriving DecidableEq, Repr

/-- A stream handle descriptor of 64 bytes (09 R242, R244), as a number. -/
abbrev StreamDesc := BitVec 512

/-- A task (08 R203 to R222). -/
structure Task where
  num : Nat
  header : Word
  /-- The effective priority level. -/
  level : Nat
  /-- The slot of arrival at that level. -/
  since : Nat
  ptbase : Word
  asid : BitVec 16
  tvec : Word
  /-- The dispatcher has read and checked the header (08 R211). -/
  hdr : Option Header
  claims : List Claim
  /-- The stream handle table as the dispatcher read it (08 R203). -/
  streams : List StreamDesc
  st : TaskState
  /-- Its result space is reserved (08 R212). -/
  reserved : Bool
  /-- Result reservations that ended producers passed to it: cluster, offset, length (08 R212). -/
  kept : List (Nat × Nat × Nat)
  bookStart : Nat
  bookEnd : Nat
  /-- last_end of the declaration as it was booked (08 R213). -/
  span : Nat
  /-- Slots of its slack tail (08 R213, R222). -/
  tail : Nat
  /-- A claim of the declaration, as it was booked, rolls: BOOKEND is the last slot of all (08 R214). -/
  rolls : Bool
  /-- The end code (08 Table 8.6). -/
  code : Nat
  /-- Earliest start (BOOK's operand; producer bounds are computed). -/
  tmin : Nat
  /-- The slack in cycles that lateness is held against, and the gang's lateness (08 R220 to R222). -/
  budget : Nat
  lateness : Nat
  /-- Members still in the gang, and all members. -/
  members : List HartId
  allMembers : List HartId
  /-- s[A][15:0] of the gang leader's TDONE. -/
  status : Option (BitVec 16)
  /-- A gang waiting for the ERETs of these members (08 R222), or of the acting leader after Overrun (R221). -/
  awaiting : List HartId
  /-- It stands suspended because of Overrun. -/
  overrun : Bool
  /-- It is being booked again with a remainder declaration. -/
  remainder : Bool
  /-- The graph node it is, with the graph's die (13 R339). -/
  node : Option (DieId × Fin 16 × Nat)
  /-- Members that have executed HALT: a halted hart holds no booked resource (04 R88). -/
  halted : List HartId := []
  deriving DecidableEq, Repr

/-- The slots that a cross-die booking holds on a die until its round ends (08 R216). -/
structure XHold where
  home : DieId
  task : Nat
  start : Nat
  deriving DecidableEq, Repr

/-- A round of a cross-die booking in progress at its home die (08 R216). -/
structure XRound where
  task : Nat
  start : Nat
  /-- Dies that the prepare message has not yet reached. -/
  asked : List DieId
  /-- Replies on their way: none accepts, some slot refuses with the die's earliest fit. -/
  replies : List (DieId × Option Nat)
  /-- Dies that have accepted, and that the commit or the abort has not yet reached. -/
  accepted : List DieId
  /-- The latest earliest fit among the refusals. -/
  refused : Option Nat
  /-- The outcome, once every die has replied. -/
  outcome : Option Bool
  deriving DecidableEq, Repr

/-- What a search of the calendar unit is for: a task of a pass (08 R213), a booking of a compaction (R223), or a BOOK or BOOKQ,
which has its answer (R226). -/
inductive SearchKind where
  | pass | move | book
  deriving DecidableEq, Repr

/-- A search that the calendar unit has begun, which ends at its `busy` cycle (08 R213): the task, the slot found, and the task
numbers that had ended before it began, which are free after it (Table 8.12). -/
structure CalSearch where
  kind : SearchKind
  task : Nat
  found : Option Nat
  ended : List Nat
  deriving DecidableEq, Repr

/-- An event that calls for a compaction (08 R223): its cycle, and the hart that waits in COMPACT, if one does. -/
structure CompactCall where
  hart : Option HartId
  at_ : Nat
  deriving DecidableEq, Repr

/-- A compaction (08 R223): who called for it, the bookings it has still to search, and how many it has moved. -/
structure Compaction where
  hart : Option HartId
  left : List Nat
  moved : Nat
  deriving DecidableEq, Repr

/-- The dispatcher and calendar unit of one die. -/
structure CalUnit where
  tasks : List Task
  /-- Task numbers in the FIFO of each level, head first (08 R210). -/
  fifo : Vector (List Nat) 8
  /-- Task numbers in the ready set, in order of arrival (08 R212). -/
  ready : List Nat
  lastNum : Nat
  holds : List XHold
  rounds : List XRound
  /-- The cycle from which the unit is free for another search (08 R213, R223). -/
  busy : Nat
  /-- The search that is being made, and the tasks that the running pass has still to search (08 R213). -/
  search : Option CalSearch
  pass : List Nat
  /-- Compactions called for, the one that runs, and what a finished COMPACT has to answer (08 R223, R226). -/
  calls : List CompactCall
  compaction : Option Compaction
  answers : List (HartId × Nat)
  deriving DecidableEq, Repr

/-- DESIGN CHOICE, log 10. -/
def CalUnit.reset : CalUnit :=
  { tasks := [], fifo := Vector.replicate 8 [], ready := [], lastNum := 0, holds := [], rounds := [], busy := 0, search := none, pass := [],
    calls := [], compaction := none, answers := [] }

end Sys2Proof.Machine
end

