-- ==== Sys2Proof/Machine/FabricState.lean ====
section
/-!
DEFINITION. The state of a cluster's transform fabric (09): stream handles, configurations, and a running program as
nodes with the tokens on their inputs.
-/

namespace Sys2Proof.Machine

/-- One component of a token: a mantissa or an INT32, a residue pair on its two lanes, the bits of an element of a floating
format, or element `i` of a grist block (09 R233, R236, R237). -/
inductive Val where
  | int (i : Int)
  | res (p q : Nat)
  | flt (t : Fmt) (b : Nat)
  | grist (g : Grist) (blk i : Nat)
  deriving DecidableEq, Repr

/-- A token: an error token (07 R183), or an element with its real and imaginary part; a real element's `im` is not
used. -/
inductive Tok where
  | err
  | val (re im : Val)
  deriving DecidableEq, Repr

/-- The scale entry of a frame (03 Table 3.3, 09 R233). -/
structure Scale where
  exp : Int
  growth : Nat
  ufs : Bool
  sats : Bool
  maxmag : Nat
  deriving DecidableEq, Repr

def Scale.zero : Scale := ⟨0, 0, false, false, 0⟩

/-- A token with the scale of its frame. -/
structure Item where
  tok : Tok
  sc : Scale
  deriving DecidableEq, Repr

/-- One input of a node: the tokens waiting on it, whether its source has passed end of stream, and whether the
pre-empt marker has arrived on it (09 R258). -/
structure Port where
  q : List Item
  eos : Bool
  marked : Bool
  deriving DecidableEq, Repr

def Port.empty : Port := ⟨[], false, false⟩

/-- The state of a node of a running program. `fin`: it has passed end of stream; `cnt`: tokens consumed; `out`: tokens
produced; `cur`: INV's current value, none before its first and an error token when the value stream ended; `dirs`: a
STEER's record of where each token went; `acc`: tokens an XCHG has received, by sender; `frame`: frames recorded;
`marked`: it has sent the pre-empt marker on. -/
structure NodeState where
  id : Nat
  ins : List Port
  fin : Bool
  cnt : Nat
  out : Nat
  cur : Option Item
  dirs : List Bool
  acc : List (List Item)
  frame : Nat
  marked : Bool
  deriving DecidableEq, Repr

/-- A lees record that a reversible program has formed (09 R235, 11 R308): its frame, node and kind, which give its place in
the region, and its bytes. -/
structure LeesRec where
  frame : Nat
  node : Nat
  input : Bool
  data : List Byte
  deriving DecidableEq, Repr

/-- A producer's lane of a hart-port ingress (09 R249). -/
structure Lane where
  producer : Nat
  closed : Bool
  deriving DecidableEq, Repr

/-- A stream handle: its descriptor, and the position of its generator. `port`: tokens waiting at a hart port, oldest
first, as the bits of an element at the stream's type width, a complex element's imaginary part above its real part;
`lees`: 8-byte words of the lees stream region in use. -/
structure Handle where
  desc : Option StreamDesc
  pos : Nat
  ended : Bool
  held : Bool
  passed : Nat
  errs : Nat
  bias : Int
  lanes : List Lane
  port : List Nat
  lees : Nat
  deriving DecidableEq, Repr

/-- DESIGN CHOICE, log 9. -/
def Handle.reset : Handle := ⟨none, 0, false, false, 0, 0, 0, [], [], 0⟩

/-- A configuration: where its image was read, the image's lines of 64 bytes, the factor tables that are resident, by
node, and the line that fails a check of 09 R246 when one does. -/
structure Config where
  loc : Nat
  lines : List (BitVec 512)
  tables : List (Nat × List Byte)
  bad : Option Nat
  deriving DecidableEq, Repr

/-- Why a region is frozen (09 R256). -/
inductive Frozen where
  | no | suspended | marked
  deriving DecidableEq, Repr

/-- A running program. -/
structure Run where
  owner : HartId
  gang : Option (DieId × Nat)
  groups : BitVec 16
  nodes : List NodeState
  env : FEnv
  /-- It rounds under the header's mode, so that SRSEED steps when its SDRAIN completes (03 R58). -/
  rounds : Bool
  modp : Nat
  modq : Nat
  ctx : MemCtx
  /-- Tokens written by all OUT nodes. -/
  written : Nat
  /-- The program set MODOVF. -/
  ovf : Bool
  ended : Bool
  frozen : Frozen
  /-- A pre-empt marker has been sent (09 R258). -/
  marking : Bool
  /-- Records not yet in the region. -/
  recs : List LeesRec
  deriving DecidableEq, Repr

/-- A saved region: the bytes of the node images that stand for it in a save area, and what they restore (09 R256, R258). -/
structure Saved where
  image : List Byte
  cfg : Config
  run : Run
  handles : Vector Handle 32
  deriving DecidableEq, Repr

/-- A frozen program that waits for its gang's rebooked start, and the handles whose SRESUME takes effect then (09 R255,
R256). -/
structure Parked where
  saved : Saved
  resumes : List Nat
  deriving DecidableEq, Repr

/-- The fabric of one cluster. `loading`: a prefetch in progress and its image; `parked`: the programs frozen for gangs;
`faultRec`: the stream fault record (09 R254). -/
structure Fabric where
  handles : Vector Handle 32
  active : Option Config
  shadow : Option Config
  loading : Option Nat
  run : Option Run
  parked : List Parked
  faultRec : BitVec 4096
  deriving DecidableEq, Repr

def Fabric.reset : Fabric :=
  { handles := Vector.replicate 32 Handle.reset, active := none, shadow := none, loading := none, run := none,
    parked := [], faultRec := 0 }

end Sys2Proof.Machine
end

