-- ==== Sys2Proof/Machine/XchgState.lean ====
section
/-!
DEFINITION. The state of the key-index directory (12), of graphs, collectives and messages (13), and of the device's
host-side registers (13 Table 13.7, 14 Table 14.7).
-/

namespace Sys2Proof.Machine

/-- The frame recorded for a region of a key-index head: the virtual base of its page, the page's physical base, and the leaf's
SKEW (12 R327). -/
structure KFrame where
  va : Nat
  pa : Nat
  skew : Nat
  deriving DecidableEq, Repr

/-- The registered descriptor of a head (12 Table 12.1). -/
structure KDesc where
  l : Nat
  b : Nat
  dh : Nat
  kbase : Nat
  kpitch : Nat
  krows : Nat
  pool : Nat
  pblk : Nat
  tbase : List Nat
  deriving DecidableEq, Repr

def KDesc.zero : KDesc := ⟨0, 0, 0, 0, 0, 0, 0, 0, []⟩

/-- A head of a die's key-index directory (12 R311). `frames`: of the key area, the pool, and each bucket table. -/
structure KHead where
  valid : Bool
  desc : KDesc
  frames : List KFrame
  version : Vector (BitVec 16) 4
  lastclr : Vector (BitVec 16) 4
  stale : Vector Bool 4
  loaded : Vector Bool 4
  firstReset : Bool
  alloc : Nat
  free : Nat
  wbase : Nat
  dense : Bool
  deriving DecidableEq, Repr

/-- DESIGN CHOICE, log 11. -/
def KHead.reset : KHead :=
  { valid := false, desc := KDesc.zero, frames := [], version := Vector.replicate 4 0,
    lastclr := Vector.replicate 4 0, stale := Vector.replicate 4 false, loaded := Vector.replicate 4 false,
    firstReset := false, alloc := 0, free := 0, wbase := 0, dense := false }

/-- The state of a collective slot (13 Table 13.5). -/
inductive CollState where
  | unbound | bound | running | waiting | done | aborted
  deriving DecidableEq, Repr

/-- A bound collective descriptor (13 Table 13.2). -/
structure CollDesc where
  op : Nat
  rop : Nat
  type : Nat
  int : Bool
  ranks : Nat
  rank : Nat
  src : Nat
  dst : Nat
  count : Nat
  stepb : Nat
  grace : Nat
  rate : Nat
  gate : BitVec 32
  peersAt : Word
  /-- Peer identifiers in rank order: package and cluster. -/
  peers : List (Nat × Nat)
  deriving DecidableEq, Repr

/-- A collective slot (13 R340 to R343). `flags`: the float flags its folds have raised so far (R341); `waitFrom`: the slot from
which a peer counts this rank's grace. -/
structure CollSlot where
  st : CollState
  desc : Option CollDesc
  step : Nat
  contrib : BitVec 32
  fixed : BitVec 32
  finalOr : BitVec 32
  /-- The owning hart of the rank (R340), and the gang in which it executed GBIND or CSTART. -/
  owner : HartId
  gang : Option (DieId × Nat)
  flags : FFlags
  waitFrom : Option Nat
  /-- The gateways' active configuration holds this collective (R343). -/
  swapped : Bool
  /-- The graph node that started it (R339). -/
  node : Option (DieId × Fin 16 × Nat)
  deriving DecidableEq, Repr

def CollSlot.reset : CollSlot :=
  { st := .unbound, desc := none, step := 0, contrib := 0, fixed := 0, finalOr := 0, owner := 0, gang := none, flags := 0,
    waitFrom := none, swapped := false, node := none }

/-- A posted side of a point-to-point message (13 R345): `pkg` is the peer's package, `loc` the locator as the instruction
names it, `mate` the hart and tag of the side it is matched with. -/
structure Msg where
  send : Bool
  src : ClusterId
  dst : ClusterId
  pkg : Nat
  mtag : BitVec 16
  hart : HartId
  tag : Nat
  loc : Word
  len : Nat
  mate : Option (HartId × Nat)
  /-- The lengths of the pair differed: its tag is Faulted. -/
  faulted : Bool
  deriving DecidableEq, Repr

/-- The state of a graph node (13 R339). -/
inductive NodePhase where
  | waiting | pending | launched | ended | failed
  deriving DecidableEq, Repr

/-- A node of a loaded graph (13 Table 13.1). `slot`: the collective slot a collective node is bound to; `coll`: it is a
collective. -/
structure GNode where
  coll : Bool
  desc : Word
  succ : BitVec 256
  preds : Nat
  phase : NodePhase
  slot : Option (ClusterId × Fin 8)
  deriving DecidableEq, Repr

/-- A loaded graph (13 R338, R339). -/
structure Graph where
  used : Bool
  cell : Word
  nodes : List GNode
  failed : Option Nat
  ptbase : Word
  asid : BitVec 16
  tvec : Word
  deriving DecidableEq, Repr

def Graph.reset : Graph := ⟨false, 0, [], none, 0, 0, 0⟩

/-- HSEM (13 Table 13.8). -/
structure Hsem where
  owner : Byte
  count : BitVec 16
  lease : BitVec 32
  expired : Bool
  deriving DecidableEq, Repr

/-- An MSI-X message sent to a host (14 R373). -/
structure Msix where
  port : Bool
  vector : BitVec 6
  deriving DecidableEq, Repr

/-- The registers and outputs of the whole device. -/
structure Device where
  hsem : Hsem
  hsemLease : BitVec 32
  pkgNum : BitVec 16
  syncm : Bool
  errTransient : BitVec 32
  errPermanent : BitVec 32
  bootpc : Word
  cap : BitVec 4
  powerLevel : BitVec 4
  thermalLevel : BitVec 4
  stretched : Word
  /-- A RUN write has acted since the last reset (14 R368). -/
  ran : Bool
  /-- The junction has reached 115 degrees: no hart runs until a reset (14 R370). -/
  tripped : Bool
  msix : List Msix
  /-- Slot-sync flits sent, as the CALSLOT each carries (13 R335). -/
  syncSent : List Nat
  deriving DecidableEq, Repr

def Device.reset : Device :=
  { hsem := ⟨0, 0, 0, false⟩, hsemLease := 65536, pkgNum := 0, syncm := false, errTransient := 0, errPermanent := 0,
    bootpc := 0, cap := 0, powerLevel := 0, thermalLevel := 0, stretched := 0, ran := false, tripped := false, msix := [],
    syncSent := [] }

end Sys2Proof.Machine
end

