-- ==== Sys2Proof/Machine/State.lean ====
section
/-!
DEFINITION. The state of the whole device, its reset value, and the reasons a step can stop.
-/

namespace Sys2Proof.Machine

/-- A step that an agent other than an issuing hart takes. Each constructor is the event row of spec/opcode_table.json of
the same name, with the operands its constructor of `Instr` has. -/
inductive Event where
  | hintAudit (h : HartId) (r : AuditRecord)
  | futurePoll (h : HartId)
  | rdupInvalidationAck (h : HartId) (n : Nat) (observer : Option HartId)
  | copyStart (c : ClusterId) (ch : Fin 4)
  | copyComplete (c : ClusterId) (ch : Fin 4)
  | dispatchCheck (d : DieId) (task : Nat)
  | readySetEntry (d : DieId) (task : Nat)
  | queueAgePromotion (d : DieId) (task : Nat)
  | calendarPass (d : DieId)
  | rollingOccurrenceReserve (d : DieId)
  | xdiePrepare (home : DieId) (task : Nat) (remote : DieId)
  | xdieReply (home : DieId) (task : Nat) (remote : DieId)
  | xdieCommit (home : DieId) (task : Nat) (remote : DieId)
  | xdieAbort (home : DieId) (task : Nat) (remote : DieId)
  | gangStart (d : DieId) (task : Nat)
  | bookedOccurrenceConflict (c : ClusterId) (group : Fin 16)
  | overrun (d : DieId) (task : Nat)
  | compaction (d : DieId)
  | prefetchLoadComplete (c : ClusterId)
  | nodeIn (c : ClusterId) (node : Nat)
  | nodeOut (c : ClusterId) (node : Nat)
  | nodeStage (c : ClusterId) (node : Nat)
  | nodePerm (c : ClusterId) (node : Nat)
  | nodeXperm (c : ClusterId) (node : Nat)
  | nodePoint (c : ClusterId) (node : Nat)
  | nodeSteer (c : ClusterId) (node : Nat)
  | nodeMerge (c : ClusterId) (node : Nat)
  | nodeCarry (c : ClusterId) (node : Nat)
  | nodeInv (c : ClusterId) (node : Nat)
  | nodeXchg (c : ClusterId) (node : Nat)
  | endOfStream (c : ClusterId) (node : Nat)
  | preemptMarker (c : ClusterId) (node : Nat)
  | streamGeneratorHold (c : ClusterId) (handle : Fin 32)
  | streamFault (h : HartId)
  | programEnd (c : ClusterId)
  | drainPoint (c : ClusterId)
  | contextSequencerSwap (c : ClusterId) (slot : Fin 8)
  | collectiveStep (c : ClusterId) (slot : Fin 8)
  | collectiveComplete (c : ClusterId) (slot : Fin 8)
  | collectiveGraceExpiry (c : ClusterId) (slot : Fin 8)
  | messageMatch (src dst : ClusterId) (mtag : BitVec 16)
  | messageTransferComplete (src dst : ClusterId) (mtag : BitVec 16)
  | graphNodeLaunch (d : DieId) (graph : Fin 16) (node : Nat)
  | graphPendingRetry (d : DieId) (graph : Fin 16)
  | graphComplete (d : DieId) (graph : Fin 16)
  | flitReceive (f : Flit)
  | slotSyncSend (d : DieId)
  | slotSyncReceive (d : DieId) (count : Word)
  | hostHdmAccess (port : Fin 2) (pa : Nat) (data : Option (List Byte))
  | gsaddrWrite (d : DieId) (va : Word)
  | hsemAcquire (id : BitVec 8)
  | hsemRelease (id : BitVec 8)
  | hsemRenew (id : BitVec 8)
  | hsemLeaseExpiry
  | preqWrite (h : HartId) (id : BitVec 8)
  | evsetWrite (h : HartId) (v : Word)
  | hisetWrite (h : HartId) (v : Word)
  | preemptGrant (h : HartId)
  | hostInterrupt (h : HartId)
  | event (h : HartId)
  | registerWrite (offset : Nat) (v : Word)
  | powerOnReset
  | devctlRun
  | devctlWarm
  | stretchLevelChange (power thermal : BitVec 4)
  | thermalTrip
  | copyLineWrite (c : ClusterId) (ch : Fin 4)
  deriving DecidableEq, Repr

/-- An error that the memories or links report (13 R337), but for one of a Corzu or die-to-die flit (FLIT_RECEIVE). `again`: the
second attempt fails too. -/
inductive ErrorKind where
  /-- A soft error that ECC corrects. -/
  | corrected
  /-- An uncorrectable read of a 64-byte line of HBM or Cellar. -/
  | read (line : Nat) (again : Bool)
  /-- A CXL flit error; `line`: the line whose data the flit carries. -/
  | cxl (line : Option Nat) (again : Bool)
  deriving DecidableEq, Repr

/-- Who moves next. The agenda holds these in order; with none left, hart `State.cur` issues its next instruction
(DESIGN CHOICE, log 1). -/
inductive Turn where
  /-- Hart `h` issues its next instruction. -/
  | hart (h : HartId)
  /-- Hart `h` issues its next instruction and a pre-emption request of requester `req` arrives while it runs: a resumable
  vector instruction stops once it has performed `n` more element groups (01 R13, 14 R361). -/
  | cut (h : HartId) (n : Nat) (req : BitVec 8)
  /-- Another agent's step. -/
  | event (e : Event)
  /-- The clock advances by one cycle. -/
  | tick
  /-- The next instruction of hart `h` is hint-ready and a hazard holds it for this cycle (02 R27). -/
  | interlock (h : HartId)
  /-- Work of gang member `h` loses this cycle: it reaches a resource, by its class and index in 08 Table 8.4, in a slot that
  its gang has not claimed, or, with none, it is held for data or a unit that has not arrived (08 Table 8.9, 10 R279). For a mesh
  link or a die-to-die channel `path` names the clusters between which its traffic moves (01 R5, R7). -/
  | slip (h : HartId) (r : Option (Nat × Nat)) (path : Option (ClusterId × ClusterId))
  /-- The cache of die `d` drops its entry at position `n` (06 R137). -/
  | evict (d : DieId) (n : Nat)
  /-- An error is met, before the turn that reads the data. -/
  | error (e : ErrorKind)
  deriving DecidableEq, Repr

/-- A cached translation (06 R137): the page's virtual base and log2 of its size, its ASID unless it is global, where its
leaf entry lies, the entry as last read, and its level. -/
structure TlbEntry where
  va : Nat
  lg : Nat
  asid : Option (BitVec 16)
  entryPa : Nat
  leaf : Word
  level : Nat
  deriving DecidableEq, Repr

/-- One cluster (01 R10). -/
structure Cluster where
  racker : Racker
  queues : Vector Queue 8
  /-- Accumulator tiles: element (r, c) at key 256 r + c; an unlisted element is +0 (10 R270). -/
  tiles : Vector (SMap Word) 8
  /-- Per tile, the earlier values of elements that updates of undrained MMAs overwrote, newest first: an MPEEK may still
  see them (10 R281). -/
  tileHist : Vector (List (SMap Word)) 8
  fabric : Fabric
  coll : Vector CollSlot 8
  msgs : List Msg
  /-- The hart whose class 0xA instruction the cluster's key-index unit has accepted in this cycle (12 R311). -/
  keyUnit : Option HartId
  deriving DecidableEq, Repr

def Cluster.reset : Cluster :=
  { racker := Racker.reset, queues := Vector.replicate 8 Queue.reset, tiles := Vector.replicate 8 [],
    tileHist := Vector.replicate 8 [], fabric := Fabric.reset, coll := Vector.replicate 8 CollSlot.reset, msgs := [],
    keyUnit := none }

/-- One die (01 Table 1.1). -/
structure Die where
  tlb : List TlbEntry
  /-- The wait table: physical address and parked hart (07 R198). -/
  waits : List (Nat × HartId)
  cal : CalUnit
  keys : Vector KHead 256
  /-- The projection store, by byte; unlisted bytes are zero (12 R311, R313). -/
  proj : SMap Byte
  graphs : Vector Graph 16
  gsptbase : Word
  gsasid : BitVec 16
  gsresult : Word
  gstvec : Word
  /-- Slots of stretch this die still owes (13 R335). -/
  stretch : Nat
  deriving DecidableEq, Repr

/-- DESIGN CHOICE, log 8. -/
def Die.reset : Die :=
  { tlb := [], waits := [], cal := CalUnit.reset, keys := Vector.replicate 256 KHead.reset, proj := [],
    graphs := Vector.replicate 16 Graph.reset, gsptbase := 0, gsasid := 0, gsresult := 0, gstvec := 0, stretch := 0 }

/-- The machine. -/
structure State where
  harts : Vector Hart 512
  clusters : Vector Cluster 128
  dies : Vector Die 4
  dev : Device
  /-- The bytes of HBM and of the Cellar slices, by physical address; what an unlisted byte reads as is `memDefault`. -/
  mem : List (Nat × Byte)
  /-- Presence bits that are full, by physical address of the 8-byte word (07 R197). -/
  present : SMap Bool
  /-- Poisoned lines, by physical address div 64 (14 R367). -/
  poison : SMap Bool
  /-- Cellar words marked not present, by physical address of the word: the copies that will write them (07 R179). -/
  absent : SMap (List Nat)
  /-- HBM lines owned by copies, by physical address div 64: the owners in the order of issue (07 R179). -/
  owned : SMap (List Nat)
  /-- The harts' store buffers, oldest first (06 R142). -/
  storeBuf : List HeldStore
  /-- The clock, in cycles since reset (00 R1); slot = cycle div 16 (08 R213). -/
  cycle : Nat
  /-- The number of the next copy. -/
  copySeq : Nat
  /-- The model's own: who moves next. -/
  agenda : List Turn
  /-- The model's own: the hart that moves when the agenda is empty, and the hart whose instruction runs. -/
  cur : HartId
  /-- The model's own: element groups after which a resumable instruction stops. -/
  stopAfter : Option Nat
  /-- The model's own: how many free values have been drawn. -/
  freeCtr : Nat
  /-- The model's own: what the node images that save areas have been given stand for, the newest first (09 R256). -/
  images : List Saved
  deriving DecidableEq, Repr

/-- What a byte of memory that nothing has written reads as: Cellar bytes are cleared at reset (14 R368); for HBM the
value is the model's (DESIGN CHOICE, log 2). -/
def memDefault : Byte := 0

/-- The canonical form of memory. -/
def Memory.wf (m : List (Nat × Byte)) : Bool := SMap.wf memDefault m

/-- The machine right after power-on reset (14 R368): every hart stopped
(DESIGN CHOICE, log 12, in part DEDUCED, log 13). -/
def State.reset : State :=
  { harts := Vector.replicate 512 Hart.reset, clusters := Vector.replicate 128 Cluster.reset,
    dies := Vector.replicate 4 Die.reset, dev := Device.reset, mem := [], present := [], poison := [], absent := [],
    owned := [], storeBuf := [], cycle := 0, copySeq := 0, agenda := [], cur := 0, stopAfter := none, freeCtr := 0,
    images := [] }

/-- Why the machine stops. -/
inductive Fault where
  /-- Raised by an access of a hart, a copy, a stream or a walk to a physical address that no space of 06 R134 holds,
  which only an untranslated system-level access can name (06 R131). Safe: the machine stops where the spec gives the
  access no effect. -/
  | noSuchAddress (pa : Nat)
  deriving DecidableEq, Repr

/-- Why an instruction has no meaning. -/
inductive Refusal where
  /-- The instruction has no meaning in this model yet. Safe. -/
  | notModelled (mnemonic : String)
  /-- Raised by a load, a store or a host's register write of a control-space word that no table of the spec names
  (13 R349, 14 R360, R369), and by a fetch from control space, whose words the spec gives to LD and ST only (13 R349,
  14 R360). Safe: the spec does not say what stands there. -/
  | unnamedControlWord (pa : Nat)
  deriving DecidableEq, Repr

end Sys2Proof.Machine
end

