-- ==== Sys2Proof/Machine/Ops.lean ====
section
/-!
DEFINITION. The named operations over registers and memory; translation of addresses (06 R130 to R140); taking a trap and
returning from one (14 R356, R358); and how a hart's instruction ends.
-/

namespace Sys2Proof.Machine

/-! ## Parts of the state -/

def State.hart (s : State) (h : HartId) : Hart := s.harts[h]
def State.setHart (s : State) (h : HartId) (x : Hart) : State := { s with harts := s.harts.set h x }
def State.modHart (s : State) (h : HartId) (f : Hart → Hart) : State := s.setHart h (f (s.hart h))
def State.cluster (s : State) (c : ClusterId) : Cluster := s.clusters[c]
def State.setCluster (s : State) (c : ClusterId) (x : Cluster) : State := { s with clusters := s.clusters.set c x }
def State.modCluster (s : State) (c : ClusterId) (f : Cluster → Cluster) : State := s.setCluster c (f (s.cluster c))
def State.die (s : State) (d : DieId) : Die := s.dies[d]
def State.setDie (s : State) (d : DieId) (x : Die) : State := { s with dies := s.dies.set d x }
def State.modDie (s : State) (d : DieId) (f : Die → Die) : State := s.setDie d (f (s.die d))

/-- The hart whose instruction runs. -/
def State.me (s : State) : Hart := s.hart s.cur
/-- The state with that hart changed. -/
def State.modMe (s : State) (f : Hart → Hart) : State := s.modHart s.cur f

/-- The current slot (08 R213). -/
def State.slot (s : State) : Nat := s.cycle / 16

/-! ## Scalar registers -/

/-- The latch after a write of register `n` (02 R30). -/
def dropLatch (l : Option Latch) (k : LatchKind) (n : Nat) : Option Latch :=
  match l with
  | some x => if x.kind = k ∧ x.num = n then none else some x
  | none => none

/-- The hart after a write of register `n` of a kind that another structure holds (02 R30). -/
def Hart.unlatch (h : Hart) (k : LatchKind) (n : Nat) : Hart := { h with latch := dropLatch h.latch k n }

/-- Reads a scalar register: s0 reads as zero (04 R74). -/
def Hart.rs (h : Hart) (n : BitVec 5) : Word := if n = 0 then 0 else h.s[n.toFin]

/-- Writes a scalar register: a write of s0 is discarded (04 R74). -/
def Hart.ws (h : Hart) (n : BitVec 5) (v : Word) : Hart :=
  if n = 0 then h else { h with s := h.s.set n.toFin v, latch := dropLatch h.latch .scalar n.toNat }

/-- Reads a scalar register of the running hart. -/
def State.rs (s : State) (n : BitVec 5) : Word := s.me.rs n
/-- Writes a scalar register of the running hart. -/
def State.ws (s : State) (n : BitVec 5) (v : Word) : State := s.modMe fun h => h.ws n v

/-- IMM sign-extended to 64 bits (02 R23). -/
def sextImm (f : Fields) : Word := f.imm.signExtend 64

/-- Operand B, or IMM in its place (02 R23). -/
def State.opB (s : State) (f : Fields) : Word := if f.immB then sextImm f else s.rs f.b

/-- base := (s[A] + sext(IMM)) mod 2^64 (04 R82, 06 R156, 07 R193). -/
def State.baseImm (s : State) (f : Fields) : Word := s.rs f.a + sextImm f

/-- fail(c) := (1 << 63) or c (08 R225, 13 R346, 14 R371). -/
def failCode (c : Nat) : Word := BitVec.ofNat 64 (2 ^ 63 + c)

/-! ## How an instruction ends -/

/-- A synchronous cause. `next`: EPC is the address after the instruction. `suspend`: it suspends a gang though its cause
alone does not (06 R152). -/
structure Trap where
  cause : Nat
  eaddr : Word := 0
  eidx : Word := 0
  next : Bool := false
  suspend : Bool := false
  deriving DecidableEq, Repr

/-- How the instruction of the running hart ends. -/
inductive Eff where
  /-- It completes; the next word follows. -/
  | done (s : State)
  /-- It completes and the hart goes on at `t`. -/
  | jump (s : State) (t : Word)
  /-- It takes a trap, from the state its partial effects leave. -/
  | trap (s : State) (t : Trap)
  /-- The hart waits; the instruction is performed again from the start (14 R361). -/
  | wait (s : State) (w : WaitFor)
  /-- A stop of the model. -/
  | fault (x : Fault)
  | refuse (x : Refusal)
  deriving Repr

/-- An illegal instruction (cause 0x01) found as the instruction `f` executes: the word's bits [63:0] are EADDR; the
caller's `low` gives them (02 R34). -/
def illegal (s : State) (low : Word) : Eff := .trap s { cause := 0x01, eaddr := low }

/-! ## Memory -/

/-- The space a physical address lies in (06 R134, R140, 13 R348) (DESIGN CHOICE, log 59). -/
inductive Space where
  | hbm | cellar | control | none
  deriving DecidableEq, Repr

def cellarBase : Nat := 0x010000000000
def controlBase : Nat := 0x020000000000

/-- DESIGN CHOICE, log 59. -/
def spaceOf (pa : Nat) : Space :=
  if pa < cellarBase then .hbm
  else if pa < cellarBase + 0x80000000 then .cellar
  else if pa < controlBase then .none
  else if pa < controlBase + 0x4000000 then .control
  else .none

/-- The cluster whose slice holds a Cellar address (06 R140). -/
def cellarSlice (pa : Nat) : ClusterId := Fin.ofNat 128 ((pa - cellarBase) / 0x1000000)

/-- The physical address of an offset in a slice. -/
def cellarPa (c : ClusterId) (off : Nat) : Nat := cellarBase + c.val * 0x1000000 + off

/-- The die that homes a line (06 R140). -/
def homeDie (pa : Nat) : DieId :=
  if pa < cellarBase then Fin.ofNat 4 (pa / 2 ^ 38) else (cellarSlice pa).die

/-- A byte as memory holds it (DESIGN CHOICE, log 2). -/
def State.byte (s : State) (pa : Nat) : Byte := SMap.get memDefault s.mem pa

/-- A byte as hart `h` sees it: memory, and over it the held stores that are its own or that it has acknowledged (06 R142), in
their order (in part DEDUCED, log 6). -/
def State.byteFor (s : State) (h : HartId) (pa : Nat) : Byte :=
  (s.storeBuf.filter fun x => x.seenBy h).foldl (fun b x => x.onto pa b) (s.byte pa)

/-- Bytes as memory holds them. -/
def State.bytes (s : State) (pa n : Nat) : List Byte := SMap.getMany memDefault s.mem pa n

/-- Bytes as hart `h` sees them. -/
def State.bytesFor (s : State) (h : HartId) (pa n : Nat) : List Byte := (List.range n).map fun k => s.byteFor h (pa + k)

/-- A little-endian 64-bit word of memory (00 R2). -/
def State.word (s : State) (pa : Nat) : Word := BitVec.ofNat 64 (ofBytes (s.bytes pa 8))

/-- Whether a line is poisoned (14 R367). -/
def State.poisoned (s : State) (pa : Nat) : Bool := SMap.get false s.poison (pa / 64)

/-- Whether any line of a run of bytes is poisoned. -/
def State.poisonedIn (s : State) (pa n : Nat) : Bool :=
  n != 0 && (List.range ((pa + n - 1) / 64 - pa / 64 + 1)).any fun k => SMap.get false s.poison (pa / 64 + k)

/-- The first address of a run of bytes that lies on a poisoned line. -/
def State.poisonFrom (s : State) (pa n : Nat) : Option Nat :=
  if n = 0 then none
  else ((List.range ((pa + n - 1) / 64 - pa / 64 + 1)).find? fun k => SMap.get false s.poison (pa / 64 + k)).map fun k =>
    max pa ((pa / 64 + k) * 64)

/-- Whether a line is owned by a copy (07 R179) (in part DEDUCED, log 18). -/
def State.ownedIn (s : State) (pa n : Nat) : Bool :=
  (List.range ((pa + n - 1) / 64 - pa / 64 + 1)).any fun k => !(SMap.get [] s.owned (pa / 64 + k)).isEmpty

/-- Whether a word of the run of bytes is marked not present (07 R179) (in part DEDUCED, log 18). -/
def State.absentIn (s : State) (pa n : Nat) : Bool :=
  (List.range ((pa + n - 1) / 8 - pa / 8 + 1)).any fun k => !(SMap.get [] s.absent ((pa / 8 + k) * 8)).isEmpty

/-- Writes bytes in one access: a whole line written in one access loses its poison (14 R367) (in part DEDUCED, log 6). -/
def State.setBytes (s : State) (pa : Nat) (l : List Byte) : State :=
  let lines := (List.range ((pa + l.length) / 64 + 1 - pa / 64)).map (· + pa / 64)
  let whole := lines.filter fun k => pa ≤ k * 64 && k * 64 + 64 ≤ pa + l.length
  { s with mem := SMap.setMany memDefault s.mem pa l,
           poison := whole.foldl (fun m k => SMap.set false m k false) s.poison }

/-- Writes the bits of `m` in each byte (06 R145). -/
def State.setMasked (s : State) (m : Byte) (pa : Nat) (l : List Byte) : State :=
  s.setBytes pa (if m = 0xFF then l else List.zipWith (mergeByte m) (s.bytes pa l.length) l)

/-- Writes runs of bytes in one access (06 R147). -/
def State.setRuns (s : State) (m : Byte) (l : List (Nat × List Byte)) : State :=
  l.foldl (fun (s : State) r => s.setMasked m r.1 r.2) s

/-- The data of 64-byte lines is poisoned (13 R337, 14 R367). -/
def State.poisonLines (s : State) (l : List Nat) : State :=
  { s with poison := l.foldl (fun m k => SMap.set false m k true) s.poison }

/-- Writes a little-endian number of `n` bytes. -/
def State.setNum (s : State) (pa n v : Nat) : State := s.setBytes pa (toBytes n v)

/-- Whether the presence bit of the word is full (07 R197). -/
def State.full (s : State) (pa : Nat) : Bool := SMap.get false s.present (pa / 8)

def State.setFull (s : State) (pa : Nat) (b : Bool) : State :=
  { s with present := SMap.set false s.present (pa / 8) b }

/-! ## Translation -/

/-- How an access is made (06 R138). -/
inductive Access where
  | fetch | load | store
  deriving DecidableEq, Repr

/-- The translation context of a hart. -/
def State.ctxOf (s : State) (h : HartId) : MemCtx :=
  let x := s.hart h
  { ptbase := x.ptbase, asid := x.asid, sys := x.status.sys, die := h.die }

/-- The context of the running hart. -/
def State.ctx (s : State) : MemCtx := s.ctxOf s.cur

/-! Fields of a leaf entry (06 Table 6.4). -/
def leafR (w : Word) : Bool := w.getLsbD 1
def leafW (w : Word) : Bool := w.getLsbD 2
def leafX (w : Word) : Bool := w.getLsbD 3
def leafT (w : Word) : Bool := w.getLsbD 4
def leafG (w : Word) : Bool := w.getLsbD 5
def leafA (w : Word) : Bool := w.getLsbD 6
def leafD (w : Word) : Bool := w.getLsbD 7
def leafSkew (w : Word) : Nat := wbits w 9 8
def leafDisc (w : Word) : Bool := w.getLsbD 10
def leafRdup (w : Word) : Bool := w.getLsbD 11
def leafPfn (w : Word) : Nat := wbits w 51 12
def leafPres (w : Word) : Bool := w.getLsbD 52
def leafWonce (w : Word) : Bool := w.getLsbD 53
def leafNobook (w : Word) : Bool := w.getLsbD 54

/-- The leaf that stands for an untranslated access at system level (06 R131): R, W and X granted, nothing else. -/
def bareLeaf : Word := 0xF

/-- Whether a leaf is valid for a page of 2^lg bytes (06 R134). -/
def leafOk (w : Word) (lg : Nat) : Bool :=
  let frame := leafPfn w * 4096
  let last := frame + 2 ^ lg - 1
  let sp := spaceOf frame
  !(leafW w && !leafR w) && !w.getLsbD 55 && leafPfn w % 2 ^ (lg - 12) == 0 &&
  sp != .none && spaceOf last == sp &&
  (match leafSkew w with
    | 0 => true
    | 1 => sp == .hbm && lg ≥ 16
    | 2 => sp == .cellar && lg ≥ 16
    | _ => sp == .hbm && lg ≥ 21)

/-- Whether a pointer entry is valid at its level (06 R134). -/
def pointerOk (w : Word) (level : Nat) : Bool :=
  level != 0 && wbits w 7 1 == 0 && wbits w 11 10 == 0 && wbits w 55 52 == 0 &&
  (if level = 1 then wbits w 9 8 ≤ 1 else wbits w 9 8 == 0) && leafPfn w * 4096 < cellarBase

/-- What a walk finds. -/
inductive Walked where
  | leaf (e : TlbEntry)
  | fail (level : Nat)
  deriving DecidableEq, Repr

/-- The lowest virtual-address bit that indexes a level (06 Table 6.2); `gran`: 64 KiB pages at level 0. -/
def levelShift (level : Nat) (gran : Bool) : Nat :=
  match level with
  | 0 => if gran then 16 else 12
  | 1 => 21
  | 2 => 30
  | _ => 39

/-- The number of index bits of a level. -/
def levelBits (level : Nat) (gran : Bool) : Nat :=
  match level with
  | 0 => if gran then 5 else 9
  | 1 => 9
  | 2 => 9
  | _ => 17

/-- The table walk (06 R132 to R134) from a level down: entries are read as memory holds them, poisoned or not
(in part DEDUCED, log 16). -/
def walkFrom (s : State) (asid : BitVec 16) (va : Nat) : Nat → Nat → Bool → Walked
  | 0, _, _ => .fail 0
  | n + 1, table, gran =>
    let sh := levelShift n gran
    let pa := table + 8 * ((va >>> sh) % 2 ^ levelBits n gran)
    let w := s.word pa
    if !w.getLsbD 0 then .fail n
    else if wbits w 3 1 = 0 then
      if pointerOk w n then walkFrom s asid va n (leafPfn w * 4096) (n == 1 && wbits w 9 8 == 1) else .fail n
    else if n = 3 then .fail n
    else if leafOk w sh then
      .leaf { va := va / 2 ^ sh * 2 ^ sh, lg := sh, asid := if leafG w then none else some asid, entryPa := pa,
              leaf := w, level := n }
    else .fail n

/-- The walk of a virtual address under a context. A ROOT outside HBM is walked as any other physical address
(in part DEDUCED, log 16). -/
def walk (s : State) (x : MemCtx) (va : Nat) : Walked :=
  walkFrom s x.asid va 4 ((wbits x.ptbase 51 20) * 2 ^ 20) false

/-- Whether a cached translation is for this address and context. -/
def TlbEntry.hits (e : TlbEntry) (x : MemCtx) (va : Nat) : Bool :=
  e.va ≤ va && va < e.va + 2 ^ e.lg && (match e.asid with | none => true | some a => a == x.asid)

/-- The result of a translation: the physical address and the leaf, or the level of the failure (0xF: none). -/
inductive Xl where
  | ok (pa : Nat) (e : TlbEntry)
  | fail (level : Nat)
  deriving DecidableEq, Repr

/-- φ of 06 Table 6.5: the line of the frame that holds line `j` of the page. -/
def skewLine (skew frame j : Nat) : Nat :=
  match skew with
  | 0 => j
  | 1 =>
    let x := j >>> 7
    j ^^^ ((x ^^^ (x >>> 7) ^^^ (x >>> 14) ^^^ (x >>> 21)) % 128)
  | 2 =>
    let l := (frame - cellarBase) % 0x1000000 / 64 + j
    j / 256 * 256 + (j + (l >>> 8)) % 256
  | _ => 128 * (j / 127) + j % 127

/-- The physical address of a virtual address in a page (06 R139); none in the unused tail of a SKEW 3 page. -/
def TlbEntry.pa (e : TlbEntry) (va : Nat) : Option Nat :=
  let o := va - e.va
  let frame := leafPfn e.leaf * 4096
  if leafSkew e.leaf = 3 ∧ 127 * (2 ^ e.lg / 8192) ≤ o / 64 then none
  else some (frame + 64 * skewLine (leafSkew e.leaf) frame (o / 64) + o % 64)

/-- Records the new value of a leaf entry in memory and in every cache entry read from it (in part DEDUCED, log 16). -/
def State.setLeaf (s : State) (e : TlbEntry) (w : Word) : State :=
  let s := { s with mem := SMap.setMany memDefault s.mem e.entryPa (toBytes 8 w.toNat) }
  { s with dies := s.dies.map fun d =>
      { d with tlb := d.tlb.map fun t => if t.entryPa = e.entryPa ∧ t.leaf = e.leaf then { t with leaf := w } else t } }

/-- The translation of an address with PTBASE.EN = 0 at system level. -/
def bareEntry (va : Nat) : TlbEntry :=
  { va := va / 4096 * 4096, lg := 12, asid := none, entryPa := 0,
    leaf := BitVec.ofNat 64 ((va / 4096) * 4096 % 2 ^ 52 + 0xF), level := 0 }

/-- Translates an address (06 R130, R131, R136, R137): a cached translation is used; a walk that succeeds sets A and is
cached. A store does not use a cached entry with D = 0 whose leaf has changed, since its update of D would start the
walk again (in part DEDUCED, log 16). -/
def translate (s : State) (x : MemCtx) (acc : Access) (va : Word) : State × Xl :=
  if wbits va 63 56 ≠ 0 then (s, .fail 0xF)
  else
    let v := va.toNat
    if !x.ptbase.getLsbD 0 then
      if x.sys then (s, .ok v (bareEntry v)) else (s, .fail 0xF)
    else
      let d := s.die x.die
      let hit := d.tlb.find? fun e =>
        e.hits x v && !(acc = .store && !leafD e.leaf && s.word e.entryPa != e.leaf)
      match hit with
      | some e =>
        (match e.pa v with
          | some pa => (s, .ok pa e)
          | none => (s, .fail e.level))
      | none =>
        match walk s x v with
        | .fail l => (s, .fail l)
        | .leaf e =>
          match e.pa v with
          | none => (s, .fail e.level)
          | some pa =>
            let w := e.leaf ||| 0x40#64
            let s := if leafA e.leaf then s else s.setLeaf e w
            let e := { e with leaf := w }
            (s.modDie x.die fun d => { d with tlb := e :: d.tlb.filter fun t => !t.hits x v }, .ok pa e)

/-- Sets D as a store is performed (06 R136). An entry that has changed since the walk read it is left as it is: the walk
starts again, and D, and A with it, is set in the leaf it finds (in part DEDUCED, log 16). -/
def State.markDirty (s : State) (x : MemCtx) (e : TlbEntry) : State :=
  if !x.ptbase.getLsbD 0 || leafD e.leaf then s
  else if s.word e.entryPa = e.leaf then s.setLeaf e (e.leaf ||| 0x80#64)
  else
    match walk s x e.va with
    | .leaf t => s.setLeaf t (t.leaf ||| 0xC0#64)
    | .fail _ => s

/-- The cause of a failed translation (06 R130, R134). -/
def Access.xlCause : Access → Nat
  | .store => 0x06
  | _ => 0x05

/-- Whether the leaf permits the access (06 R138). -/
def permitted (x : MemCtx) (acc : Access) (w : Word) : Bool :=
  (match acc with
    | .fetch => leafX w
    | .load => leafR w
    | .store => leafW w) && (x.sys || !x.ptbase.getLsbD 0 || leafT w)

/-- Steps 2 and 3 of 04 Table 4.6a, 1 and 2 of 06 Table 6.6: translation, then permission. -/
inductive Checked where
  | ok (pa : Nat) (e : TlbEntry)
  | bad (cause level : Nat)
  deriving DecidableEq, Repr

def checkAccess (s : State) (x : MemCtx) (acc : Access) (va : Word) : State × Checked :=
  match translate s x acc va with
  | (s, .fail l) => (s, .bad acc.xlCause l)
  | (s, .ok pa e) => (s, if permitted x acc e.leaf then .ok pa e else .bad 0x07 0xF)

/-! ## Traps -/

/-- STATUS at trap entry (14 R356). -/
def Status.trapped (t : Status) : Status :=
  { t with psys := t.sys, sys := true, pie := t.ie, ie := false, pmfr := t.mfr, mfr := false, audit := false }

/-- STATUS after ERET (14 R358). -/
def Status.returned (t : Status) : Status := { t with sys := t.psys, ie := t.pie, mfr := t.pmfr }

/-- An address with its low four bits clear (02 R17). -/
def align16 (w : Word) : Word := w &&& ~~~0xF#64

/-- The counter entries of a hart that wait for a mark no held store has any more reach their release point (02 R28). -/
def State.releaseMarks (s : State) (h : HartId) : State :=
  s.modHart h fun x =>
    { x with cc := x.cc.map fun l =>
        (l.map fun m => if s.storeBuf.any (fun y => y.hart == h && y.mark == m) then m else 0).dropWhile (· == 0) }

/-- Performs every store the hart's buffer holds: at trap entry the hart has waited for them (02 R29, 14 R356), and with them for
the older stores of others to the same bytes, so that each byte has one order of stores (07 R185)
(in part DEDUCED, log 6 and 17). -/
def State.drainStores (s : State) (h : HartId) : State :=
  let due := neededFor h s.storeBuf
  let s1 := due.foldl (fun (t : State) x => t.setRuns x.mask x.runs) s
  let s2 := { s1 with storeBuf := s.storeBuf.filter fun x => !due.contains x }
  ((due.filter fun x => x.hart != h).foldl (fun (t : State) x => t.releaseMarks x.hart) s2).modHart h fun x =>
    { x with cc := Vector.replicate 4 [] }

/-- The hart's registers at trap entry (14 R356). -/
def Hart.trapped (x : Hart) (cause : Nat) (resume eidx eaddr : Word) : Hart :=
  { x with
    tr := { x.tr with cause := BitVec.ofNat 8 cause, epc := align16 resume, eidx := eidx, eaddr := eaddr }
    status := x.status.trapped
    retStack := []
    latch := none
    mis := MisHint.none
    cc := Vector.replicate 4 []
    run := .running
    pc := x.tr.tvec
    atHandler := true
    inWait := false }

/-- A cluster whose tiles of `m` have completed every update (10 R280, R287). -/
def Cluster.drainTiles (x : Cluster) (m : Nat → Bool) : Cluster :=
  { x with tileHist := Vector.ofFn fun t : Fin 8 => if m t.val then [] else x.tileHist[t] }

/-- Every issued update of a tile that the hart holds has completed (10 R287). -/
def State.drainTiles (s : State) (h : HartId) : State :=
  s.modCluster h.cluster fun x => x.drainTiles fun t => (s.hart h).mxcfg.getLsbD (8 + t)

/-- Takes a trap (14 R356): the hart has waited for its stores and for its updates of tiles (02 R29, 10 R287)
(in part DEDUCED, log 17). -/
def takeTrap (s : State) (h : HartId) (cause : Nat) (resume eidx eaddr : Word) : State :=
  ((s.drainStores h).drainTiles h).modHart h fun x => x.trapped cause resume eidx eaddr

/-- The hart's registers after ERET (14 R358). -/
def Hart.returned (x : Hart) : Hart :=
  { x with pc := x.tr.epc, status := x.status.returned, cc := Vector.replicate 4 [] }

/-- The vector bindings and matrix state of a stopped hart (04 R88, 10 R270): it releases its tiles and groups, and its
weight slots become invalid. -/
def Hart.released (x : Hart) : Hart :=
  { x with
    mxcfg := x.mxcfg &&& ~~~0x10FF00#21
    wslot := x.wslot.map fun w => { w with valid := false, image := none } }

/-- The bits of PTBASE that hold a value: EN and ROOT (06 Table 6.1). -/
def ptbaseBits (w : Word) : Word := w &&& 0xFFFFFFFF00001#64

/-- The state in which a spawned hart begins (14 R366), with the registers its spawner gives it
(in part DEDUCED, log 55). -/
def Hart.spawned (x : Hart) (pc s1 : Word) (sys : Bool) (ptbase : Word) (asid : BitVec 16) (tvec : Word) : Hart :=
  { Hart.reset with
    pc := pc
    s := Hart.reset.s.set 1 s1
    run := .running
    status := { Status.reset with sys := sys }
    tr := { x.tr with tvec := tvec }
    vc := { Hart.reset.vc with vsaveptr := x.vc.vsaveptr }
    lees := { x.lees with sp := x.lees.base, win := 0, held := [] }
    cal := { x.cal with gangid := 0, slackOwn := 0 }
    ptbase := ptbase
    asid := asid
    preempt := x.preempt
    evpend := x.evpend
    hipend := x.hipend
    faultRec := x.faultRec }

/-- How a step ends. -/
abbrev Out := Host.Outcome State Fault Refusal

end Sys2Proof.Machine
end

