-- ==== Sys2Proof/Machine/FabricBase.lean ====
section
/-!
DEFINITION. Reading configuration images and stream descriptors (09 Tables 9.7 to 9.10), and freezing and thawing a
program's region (09 R256).
-/

namespace Sys2Proof.Machine

/-- A word of a 64-byte line. -/
def lineWord (l : BitVec 512) (k : Nat) : Nat := (l.toNat >>> (64 * k)) % 2 ^ 64

/-- Line `n` of a configuration; zero beyond its end. -/
def Config.line (c : Config) (n : Nat) : BitVec 512 := c.lines.getD n 0

/-! Image header (09 Table 9.8). -/
def Config.nline (c : Config) : Nat := bits (lineWord (c.line 0) 0) 11 0
def Config.mode (c : Config) : Nat := bits (lineWord (c.line 0) 0) 13 12
def Config.rm (c : Config) : Nat := bits (lineWord (c.line 0) 0) 16 14
def Config.rev (c : Config) : Bool := bits (lineWord (c.line 0) 0) 17 17 == 1
def Config.nnode (c : Config) : Nat := bits (lineWord (c.line 0) 0) 24 18
def Config.groups (c : Config) : BitVec 16 := BitVec.ofNat 16 (lineWord (c.line 0) 1)
def Config.save (c : Config) : Nat := bits (lineWord (c.line 0) 2) 23 0

/-! Node records (09 Table 9.9). -/
def Config.w (c : Config) (n k : Nat) : Nat := lineWord (c.line n) k
def Config.kind (c : Config) (n : Nat) : Nat := bits (c.w n 0) 7 0
/-- Source `k` of node `n`: node number and whether it is the F output of a STEER; number 0 is none. -/
def Config.src (c : Config) (n k : Nat) : Nat × Bool :=
  (bits (c.w n 0) (16 + 8 * k + 6) (16 + 8 * k), bits (c.w n 0) (23 + 8 * k) (23 + 8 * k) == 1)
def Config.handle (c : Config) (n : Nat) : Nat := bits (c.w n 0) 44 40
def Config.group (c : Config) (n : Nat) : Nat := bits (c.w n 0) 51 48
def Config.ngroup (c : Config) (n : Nat) : Nat := bits (c.w n 0) 55 52 + 1

/-! Stream descriptors (09 Table 9.7). -/
def StreamDesc.w (d : StreamDesc) (k : Nat) : Nat := lineWord d k
def StreamDesc.valid (d : StreamDesc) : Bool := bits (d.w 0) 0 0 == 1
def StreamDesc.out (d : StreamDesc) : Bool := bits (d.w 0) 1 1 == 1
def StreamDesc.space (d : StreamDesc) : Nat := bits (d.w 0) 3 2
def StreamDesc.type (d : StreamDesc) : Nat := bits (d.w 0) 7 4
def StreamDesc.cplx (d : StreamDesc) : Bool := bits (d.w 0) 8 8 == 1
def StreamDesc.nprod (d : StreamDesc) : Nat := bits (d.w 0) 11 9 + 1
def StreamDesc.rev (d : StreamDesc) : Bool := bits (d.w 0) 12 12 == 1
def StreamDesc.meas (d : StreamDesc) : Bool := bits (d.w 0) 13 13 == 1
def StreamDesc.flog (d : StreamDesc) : Nat := bits (d.w 0) 18 14
def StreamDesc.diag (d : StreamDesc) : Bool := bits (d.w 0) 19 19 == 1
def StreamDesc.chk (d : StreamDesc) : Bool := bits (d.w 0) 20 20 == 1
def StreamDesc.ihandle (d : StreamDesc) : Nat := bits (d.w 0) 25 21
def StreamDesc.len (d : StreamDesc) (k : Nat) : Nat :=
  match k with | 0 => bits (d.w 2) 31 0 | 1 => bits (d.w 2) 63 32 | _ => bits (d.w 3) 31 0
def StreamDesc.stride (d : StreamDesc) (k : Nat) : Int :=
  match k with | 0 => signed 32 (d.w 4) | 1 => signed 32 (d.w 4 >>> 32) | _ => signed 32 (d.w 5)
/-- Elements of an affine stream (09 R243). -/
def StreamDesc.elems (d : StreamDesc) : Nat := d.len 0 * d.len 1 * d.len 2

/-- The slice and offset a Cellar locator names for a cluster (09 R242). -/
def locator (c : ClusterId) (v : Nat) : ClusterId × Nat :=
  (if bits v 31 31 = 1 then c else Fin.ofNat 128 (bits v 30 24), bits v 23 0)

/-- The fabric of a cluster with its running program changed. -/
def State.modFabric (s : State) (c : ClusterId) (f : Fabric → Fabric) : State :=
  s.modCluster c fun x => { x with fabric := f x.fabric }
def State.fabric (s : State) (c : ClusterId) : Fabric := (s.cluster c).fabric
def State.modRun (s : State) (c : ClusterId) (f : Run → Run) : State :=
  s.modFabric c fun x => { x with run := x.run.map f }
def State.handleOf (s : State) (c : ClusterId) (k : Nat) : Handle := (s.fabric c).handles[Fin.ofNat 32 k]
def State.modHandle (s : State) (c : ClusterId) (k : Nat) (f : Handle → Handle) : State :=
  s.modFabric c fun x => { x with handles := x.handles.set (Fin.ofNat 32 k) (f x.handles[Fin.ofNat 32 k]) }

/-! The factor table of a STAGE (09 Table 9.10, R230). -/
def Config.sFtype (c : Config) (n : Nat) : Nat := bits (c.w n 1) 5 3
def Config.sB (c : Config) (n : Nat) : Nat := 2 ^ (bits (c.w n 1) 1 0 + 1)
def Config.sCplx (c : Config) (n : Nat) : Bool := bits (c.w n 1) 2 2 == 1
def Config.sNb (c : Config) (n : Nat) : Nat := bits (c.w n 1) 63 32
def Config.sFtab (c : Config) (n : Nat) : Nat := bits (c.w n 2) 23 0

/-- The node numbers. -/
def Config.nodes (c : Config) : List Nat := (List.range c.nnode).map (· + 1)

/-- Bytes of a factor block (09 R230, Table 9.2). -/
def Config.blockBytes (c : Config) (n : Nat) : Nat :=
  let b := c.sB n
  match c.sFtype n with
  | 2 => b * b * 2 * (if c.sCplx n then 2 else 1)
  | 3 => b * b * 8 * (if c.sCplx n then 2 else 1)
  | _ => b * b * 4 * (if c.sCplx n then 2 else 1)

/-- Whether a factor table fits the factor buffers (09 R230). -/
def Config.resident (c : Config) (n : Nat) : Bool := c.sNb n * c.blockBytes n ≤ 65536 * c.ngroup n

/-- The runs of Cellar bytes that loading a configuration's resident factor tables reads. -/
def Config.tableRuns (cfg : Config) (c : ClusterId) : List (Nat × Nat) :=
  (cfg.nodes.filter fun n => cfg.kind n == 3 && cfg.resident n).map fun n =>
    (cellarPa c (cfg.sFtab n), cfg.sNb n * cfg.blockBytes n)

/-- Reads a factor table. -/
def State.readTable (s : State) (c : ClusterId) (cfg : Config) (n : Nat) : List Byte :=
  s.bytes (cellarPa c (cfg.sFtab n)) (cfg.sNb n * cfg.blockBytes n)

/-- A configuration with its resident tables copied anew. -/
def State.withTablesOf (s : State) (c : ClusterId) (cfg : Config) : Config :=
  { cfg with tables := (cfg.nodes.filter fun n => cfg.kind n == 3 && cfg.resident n).map fun n => (n, s.readTable c cfg n) }

/-- The 16-byte entry of a handle in a save area (09 R256). -/
def Handle.entry (h : Handle) : List Byte :=
  toBytes 8 h.pos ++ toBytes 8 (h.ended.toNat + 2 * h.held.toNat + 4 * h.desc.isSome.toNat)

/-- The node images of a save area, which only the part itself can read: bytes drawn as `draw` (DESIGN CHOICE, log 50). -/
def nodeImages (nnode draw : Nat) : List Byte := (List.range (512 * nnode)).map fun k => Config.nodeImage draw k

/-- The 65,536 bytes of a save area: handle entries, and the node images (DESIGN CHOICE, log 50). -/
def saveImage (f : Fabric) (nodes : List Byte) : List Byte :=
  f.handles.toList.flatMap Handle.entry ++ nodes ++ List.replicate (65536 - 512 - nodes.length) 0

/-- A region as it is saved now. -/
def State.savedNow (s : State) (c : ClusterId) : Option Saved :=
  let f := s.fabric c
  match f.run, f.active with
  | some r, some cfg => some ⟨nodeImages cfg.nnode s.freeCtr, cfg, r, f.handles⟩
  | _, _ => none

/-- Writes a region's save area at an offset of a slice, and keeps what it stands for (09 R256, R258)
(DESIGN CHOICE, log 50). -/
def State.saveRegion (s : State) (c sl : ClusterId) (off : Nat) : State :=
  match s.savedNow c with
  | some v =>
    let s := s.setBytes (cellarPa sl off) (saveImage (s.fabric c) v.image)
    { s with freeCtr := s.freeCtr + 1, images := v :: s.images }
  | none => s

/-- The handles as the entries of a save area have them (09 R256). -/
def restoreHandles (area : List Byte) (h : Vector Handle 32) : Vector Handle 32 :=
  Vector.ofFn fun (k : Fin 32) =>
    let w (i : Nat) : Nat := ofBytes ((area.drop (16 * k.val + 8 * i)).take 8)
    { h[k] with pos := w 0, ended := (w 1).testBit 0, held := (w 1).testBit 1,
                desc := if (w 1).testBit 2 then h[k].desc else none }

/-- The node images in a save area are those of a saved region. -/
def Saved.standsIn (v : Saved) (area : List Byte) : Bool := (area.drop 512).take v.image.length == v.image

/-- The region whose node images a save area holds: the newest of those configurations that the bytes stand for
(DESIGN CHOICE, log 50). -/
def State.imageIn (s : State) (area : List Byte) (lines : List (BitVec 512)) : Option Saved :=
  s.images.find? fun v => v.cfg.lines == lines && v.standsIn area

/-- A node as an image restores it: its latch records are back in its latches (09 R258). -/
def NodeState.unmarked (n : NodeState) : NodeState :=
  { n with marked := false, ins := n.ins.map fun p => { p with marked := false } }

/-- The saved configuration as it becomes active again: as it stands in the cluster when it is active there, since a save area holds
no factor tables (09 R256), else with its resident tables copied anew (R230). -/
def State.reactivated (s : State) (c : ClusterId) (cfg : Config) : Config :=
  match (s.fabric c).active with
  | some a => if a.lines = cfg.lines then a else s.withTablesOf c cfg
  | none => s.withTablesOf c cfg

/-- Loads a region from a save area: it is active and runs (09 R256, R258). -/
def State.loadRegion (s : State) (c : ClusterId) (area : List Byte) (v : Saved) (owner : HartId) : State :=
  s.modFabric c fun x =>
    { x with active := some (s.reactivated c v.cfg)
             handles := restoreHandles area v.handles
             run := some { v.run with owner := owner, frozen := .no, marking := false,
                                      nodes := v.run.nodes.map NodeState.unmarked } }

/-- Freezes the running program of a cluster (09 R256): its state goes to the image's save area, its PE groups are
released, and another program may take its place. -/
def State.freeze (s : State) (c : ClusterId) : State :=
  match (s.fabric c).run, (s.fabric c).active, s.savedNow c with
  | some r, some cfg, some v =>
    if r.ended || r.frozen != .no then s
    else
      ((s.saveRegion c r.owner.cluster cfg.save).modRun c fun x => { x with frozen := .suspended }).modFabric c fun x =>
        { x with parked := ⟨v, []⟩ :: x.parked }
  | _, _, _ => s

/-- A program runs on the active configuration and is not frozen. -/
def Fabric.running (f : Fabric) : Bool := match f.run with | some r => !r.ended && r.frozen == .no | none => false

/-- The frozen program of a gang. -/
def Fabric.parkedOf (f : Fabric) (g : DieId × Nat) : Option Parked := f.parked.find? fun p => p.saved.run.gang == some g

/-- Restores the frozen region of a gang at its rebooked start, from its save area: the resumes recorded for its held
generators take effect (09 R255, R256). While a program of another still runs there, or a copy has not
filled what it reads, it waits (07 R179) (DESIGN CHOICE, log 50). -/
def State.thaw (s : State) (c : ClusterId) (g : DieId × Nat) : State :=
  match (s.fabric c).parkedOf g with
  | none => s
  | some p =>
    let at_ := cellarPa p.saved.run.owner.cluster p.saved.cfg.save
    let runs := (at_, 65536) :: p.saved.cfg.tableRuns c
    if (s.fabric c).running || runs.any fun x => s.ownedIn x.1 x.2 || s.absentIn x.1 x.2 then s
    else
      let area := s.bytes at_ 65536
      let v := if p.saved.standsIn area then p.saved else (s.imageIn area p.saved.cfg.lines).getD p.saved
      let s := s.loadRegion c area v p.saved.run.owner
      let s := p.resumes.foldl (fun (t : State) k => t.modHandle c k fun h => { h with held := false }) s
      s.modFabric c fun x => { x with parked := x.parked.filter fun y => y.saved.run.gang != some g }

/-- The hart owns a running program of the fabric. -/
def State.ownsRun (s : State) (h : HartId) : Bool :=
  match (s.fabric h.cluster).run with
  | some r => r.owner == h && !r.ended && r.frozen == .no
  | none => false

/-- Whether a pre-emption of the hart waits for a drain point (14 R361, 09 R257) (in part DEDUCED, log 43). -/
def State.mustDrain (s : State) (h : HartId) : Bool := (s.hart h).gang.isSome && s.ownsRun h

end Sys2Proof.Machine
end

