-- ==== Sys2Proof/Machine/Gang.lean ====
section
/-!
DEFINITION. Tasks and gangs: what a booking holds, slack, suspension, Overrun and the return from a suspended gang's
handlers (08 R205 to R208, R219 to R222).
-/

namespace Sys2Proof.Machine

/-! ## Tasks -/

def CalUnit.task (u : CalUnit) (n : Nat) : Option Task := u.tasks.find? fun t => t.num == n

def CalUnit.setTask (u : CalUnit) (t : Task) : CalUnit :=
  { u with tasks := u.tasks.map fun x => if x.num = t.num then t else x }

def State.task (s : State) (d : DieId) (n : Nat) : Option Task := (s.die d).cal.task n

def State.modCal (s : State) (d : DieId) (f : CalUnit → CalUnit) : State := s.modDie d fun x => { x with cal := f x.cal }

def State.modTask (s : State) (d : DieId) (n : Nat) (f : Task → Task) : State :=
  s.modCal d fun u => { u with tasks := u.tasks.map fun x => if x.num = n then f x else x }

/-- The task of a gang member. -/
def State.taskOf (s : State) (h : HartId) : Option Task :=
  match (s.hart h).gang with
  | some (d, n) => s.task d n
  | none => none

/-- Whether the cluster is one of the task's gang clusters. -/
def Header.has (x : Header) (c : ClusterId) : Bool := x.cmask.getLsbD c.val

/-- The gang clusters, lowest first. -/
def Header.clusters (x : Header) : List ClusterId := (List.finRange 128).filter x.has

/-- The members a gang starts with: harts 0 to HARTS of every gang cluster (08 R208, R217). -/
def Header.harts' (x : Header) : List HartId :=
  x.clusters.flatMap fun c => (List.range (x.harts + 1)).map fun k => hartOf c (Fin.ofNat 4 k)

/-! ## Resources and occurrences -/

/-- A resource: its class and index (08 Table 8.4); class 100 stands for the harts and 101 for the queues that a task
holds without a claim (08 R208). -/
abbrev Resource := Nat × Nat

/-- How many indices a class has (08 Table 8.4); for class 8 the index is a page count. -/
def classCount : Nat → Nat
  | 0 => 4096 | 1 => 4096 | 2 => 4096 | 3 => 4096 | 4 => 512 | 5 => 64 | 6 => 512 | 7 => 32 | _ => 0

/-- Whether an index exists in its class (08 Table 8.4). -/
def indexOk (cls i : Nat) : Bool :=
  i < classCount cls &&
  (match cls with
    | 0 => i % 32 < 16
    | 2 => i % 32 < 4
    | 3 => i % 32 < 4
    | 4 => i % 128 < 104
    | _ => true)

/-- The die of a resource; none for a die-to-die channel, which belongs to two (08 Table 8.4). -/
def Resource.die : Resource → Option DieId
  | (4, i) => some (Fin.ofNat 4 (i / 128))
  | (5, _) => none
  | (6, i) => some (Fin.ofNat 4 (i / 128))
  | (7, i) => some (Fin.ofNat 4 (i / 8))
  | (100, i) => some (Fin.ofNat 4 (i / 128))
  | (101, i) => some (Fin.ofNat 4 (i / 256))
  | (_, i) => some (Fin.ofNat 4 (i / 1024))

/-- The dies a resource belongs to: both ends of a boundary channel (01 R4, R8). -/
def Resource.dies (r : Resource) : List DieId :=
  match r with
  | (5, i) =>
    (match i / 16 with
      | 0 => [0, 1]
      | 1 => [2, 3]
      | 2 => [0, 2]
      | _ => [1, 3])
  | _ => r.die.toList

/-- The resources a claim names (08 R205, R206). -/
def Claim.resources (c : Claim) : List Resource :=
  if c.cls = 8 then c.groups.map fun g => (6, g) else (List.range (2 ^ c.wlog)).map fun k => (c.cls, c.index + k)

/-- Whether occurrence `k` exists. -/
def Claim.exists_ (c : Claim) (k : Nat) : Bool := if c.period = 0 then k == 0 else c.count == 0 || k < c.count

/-- A claim that repeats until the task ends (08 Table 8.3). -/
def Claim.rolling (c : Claim) : Bool := c.period != 0 && c.count == 0

/-- Whether the claim covers the slot `o` slots after the start (08 R205). -/
def Claim.covers (c : Claim) (o : Nat) : Bool :=
  if o < c.offset then false
  else if c.period = 0 then o < c.offset + c.length
  else (o - c.offset) % c.period < c.length && c.exists_ ((o - c.offset) / c.period)

/-- An occurrence of the claim begins `o` slots after the start (08 R205). -/
def Claim.begins (c : Claim) (o : Nat) : Bool :=
  c.covers o && (if c.period = 0 then o == c.offset else (o - c.offset) % c.period == 0)

/-- The first slot after the claim's last occurrence, counted from the start; a rolling claim has none. -/
def Claim.lastEnd (c : Claim) : Nat :=
  if c.rolling then 0
  else if c.period = 0 then c.offset + c.length
  else c.offset + (c.count - 1) * c.period + c.length

/-- last_end of a declaration (08 R213): 1 for no claim. -/
def lastEnd (l : List Claim) : Nat := if l.isEmpty then 1 else l.foldl (fun a c => max a c.lastEnd) 0

/-- Slots of the slack tail that a booking made now gets (08 R213, R222) (in part DEDUCED, log 39). -/
def Task.tailNow (t : Task) : Nat := (t.budget - t.lateness + 15) / 16

/-- What a task holds without a claim (08 R208); a hart that has halted, no more (04 R88). -/
def Task.holds (t : Task) : List Resource :=
  match t.hdr with
  | none => []
  | some x =>
    ((x.harts'.filter fun h => !t.halted.contains h).map fun h => (100, h.val)) ++
      x.clusters.flatMap fun c => ((List.range 8).filter fun q => x.qmask.getLsbD q).map fun q => (101, c.val * 8 + q)

/-- The task with the extent that its declaration gives it: last_end, the slots of its slack tail, which follows the last
occurrence that does not roll, and whether it rolls (08 R213, R214). -/
def Task.shaped (t : Task) : Task :=
  { t with span := lastEnd t.claims, tail := if t.claims.isEmpty || t.claims.any (!·.rolling) then t.tailNow else 0,
           rolls := t.claims.any Claim.rolling }

/-- Whether a booking starting at `t0` holds the resource in slot `sl`: by an occurrence; by the slack tail; or by a hold of
08 R208, which lasts to BOOKEND whatever claims a YIELDT has released. -/
def Task.holdsAt (t : Task) (t0 : Nat) (r : Resource) (sl : Nat) : Bool :=
  let e := t0 + t.span
  t0 ≤ sl &&
  ((t.claims.any fun c => c.resources.contains r && (c.covers (sl - t0) || (e ≤ sl && sl < e + t.tail))) ||
   (t.holds.contains r && (t.rolls || sl < e + t.tail)))

/-- Whether a booking starting at `t0` has an occurrence on the resource in slot `sl`. -/
def Task.occursAt (t : Task) (t0 : Nat) (r : Resource) (sl : Nat) : Bool :=
  t0 ≤ sl && t.claims.any fun c => c.resources.contains r && c.covers (sl - t0)

/-- A hold with one slot more on either side, as a die holds a booking of another die (08 R216). -/
def widened (f : Nat → Bool) (sl : Nat) : Bool := f sl || f (sl + 1) || (sl != 0 && f (sl - 1))

/-- `Task.holdsAt` with one slot more on either side. -/
def Task.holdsNear (t : Task) (t0 : Nat) (r : Resource) (sl : Nat) : Bool := widened (t.holdsAt t0 r) sl

/-- Whether the task's booking stands in the calendar. -/
def Task.standing (t : Task) : Bool := t.st == .booked || t.st == .running

/-- Whether some booking other than task `n` of die `d`, home on die `h`, has a slot `f` of it in the calendar of die `e`: its
home die's calendar holds its slots, another die's one slot more on either side (08 R216). -/
def State.bookings (s : State) (e : DieId) (skip : DieId × Nat) (f : Task → Nat → Bool) (sl : Nat) : Bool :=
  (List.finRange 4).any fun d => (s.die d).cal.tasks.any fun t =>
    (d, t.num) != skip && t.standing && (if d = e then f t sl else widened (f t) sl)

/-- Whether the calendar of die `e` has the resource booked in a slot, by another than task `skip` (08 R213, R216). -/
def State.bookedOn (s : State) (e : DieId) (skip : DieId × Nat) (r : Resource) (sl : Nat) : Bool :=
  r.dies.contains e && s.bookings e skip (fun t => t.holdsAt t.bookStart r) sl

/-- Whether the calendar of die `e` holds the resource in a slot, by a booking other than task `skip` or tentatively
(08 R213, R216). -/
def State.heldOn (s : State) (e : DieId) (skip : DieId × Nat) (r : Resource) (sl : Nat) : Bool :=
  s.bookedOn e skip r sl ||
  (r.dies.contains e && (s.die e).cal.holds.any fun x =>
    (x.home, x.task) != skip &&
    (match s.task x.home x.task with
      | some t => if x.home = e then t.holdsAt x.start r sl else t.holdsNear x.start r sl
      | none => false))

/-- Whether some calendar has the resource booked in a slot, by another than task `skip`. -/
def State.heldBy (s : State) (skip : DieId × Nat) (r : Resource) (sl : Nat) : Bool :=
  r.dies.any fun e => s.bookedOn e skip r sl

/-- Whether an occurrence of some booking other than task `skip` has the resource in a slot: a slack tail, which is lent until
its gang uses it, does not count (08 R219) (in part DEDUCED, log 39). -/
def State.occupied (s : State) (skip : DieId × Nat) (r : Resource) (sl : Nat) : Bool :=
  r.dies.any fun e => s.bookings e skip (fun t => t.occursAt t.bookStart r) sl

/-- Whether the gang of a hart has claimed the resource in the current slot, tail included (08 R219). -/
def State.claimed (s : State) (h : HartId) (r : Resource) : Bool :=
  match s.taskOf h with
  | some t => t.st == .running && t.holdsAt t.bookStart r s.slot
  | none => false

/-- Whether any booking holds the resource within the horizon (08 R208, R213). -/
def State.bookedAhead (s : State) (r : Resource) : Bool :=
  (List.range 4096).any fun k => s.heldBy (0, 0) r (s.slot + k)

/-- Whether the resource has a booked occurrence within the horizon (09 R250, 10 R270). -/
def State.occursAhead (s : State) (r : Resource) : Bool :=
  (List.range 4096).any fun k => s.occupied (0, 0) r (s.slot + k)

/-! ## Slack -/

/-- The gang's remaining slack in cycles (08 R220). -/
def Task.remain (t : Task) : Nat := t.budget - t.lateness

/-- The leader: hart 0 of the lowest gang cluster, or once it has left the lowest member (08 R221). -/
def Task.leader (t : Task) : Option HartId := t.members.head?

/-- A hart's stop at an element-group boundary with its gang (08 R222): an instruction that waits is performed again from
the start. A stopped hart stays so: only a spawn or reset starts it again (14 R357, R370). -/
def Hart.suspend (x : Hart) : Hart := if x.run = .stopped then x else { x with run := .suspended, inWait := false }

/-- The hart's PE groups are taken from it: its weight buffers must be loaded again (10 R274). -/
def Hart.ungrouped (x : Hart) : Hart := { x with wslot := x.wslot.map fun w => { w with image := none } }

/-- A hart waits no more for a compaction that it called for: the compaction is made all the same (08 R226). -/
def CalUnit.withdraw (u : CalUnit) (h : HartId) : CalUnit :=
  let drop := fun o : Option HartId => if o = some h then none else o
  { u with calls := u.calls.map fun k => { k with hart := drop k.hart }
           compaction := u.compaction.map fun k => { k with hart := drop k.hart }
           answers := u.answers.filter fun x => x.1 != h }

/-- Removes a hart from every wait table and queue (in part DEDUCED, log 43). -/
def State.withdraw (s : State) (h : HartId) : State :=
  let s : State := { s with dies := s.dies.map fun (d : Die) =>
    { d with waits := d.waits.filter fun w => w.2 != h, cal := d.cal.withdraw h } }
  s.modCluster h.cluster fun c =>
    { c with queues := c.queues.map fun (q : Queue) => { q with waiters := q.waiters.filter fun w => w.1 != h } }

/-- Stops the members of a gang but those in `keep`, and freezes its region of the fabric (08 R221, R222)
(in part DEDUCED, log 43). -/
def State.stopGang (s : State) (t : Task) (keep : List HartId) : State :=
  let s := (t.members.filter fun h => !keep.contains h).foldl
    (fun (s : State) h => (s.withdraw h).modHart h Hart.suspend) s
  let s := t.members.foldl (fun (s : State) h => s.modHart h Hart.ungrouped) s
  match t.hdr with
  | some x => x.clusters.foldl (fun (s : State) c =>
      (match (s.fabric c).run with
        | some r => if r.gang.isSome && t.allMembers.contains r.owner then s.freeze c else s
        | none => s)) s
  | none => s

/-- The remainder of a declaration `el` slots after its start (08 R222): an occurrence in progress keeps the slots it had
left, later ones come nearer, and a rolling claim continues its period (in part DEDUCED, log 40). -/
def Claim.remainder (c : Claim) (el : Nat) : List Claim :=
  let one (k : Nat) : List Claim :=
    let o := c.offset + k * c.period
    if o + c.length ≤ el then []
    else [{ c with offset := o - el, length := if o < el then o + c.length - el else c.length, period := 0, count := 0 }]
  if c.rolling then
    if el ≤ c.offset then [{ c with offset := c.offset - el }]
    else
      let k := (el - c.offset) / c.period
      one k ++ [{ c with offset := c.offset + (k + 1) * c.period - el }]
  else if c.period = 0 then one 0
  else (List.range c.count).flatMap one

/-- Places a task at the head of its priority level in the ready set (08 R222). -/
def CalUnit.readyHead (u : CalUnit) (t : Task) : CalUnit :=
  let before := u.ready.takeWhile fun n => (match u.task n with | some x => x.level < t.level | none => false)
  { u with ready := before ++ t.num :: u.ready.drop before.length }

/-- The task of a suspended gang that awaits no member any more is ready again in slot `sl`, after Overrun with its full slack
(08 R221, R222). It arrives at its level anew, so its age counts from that slot (08 R210) (in part DEDUCED, log 39). -/
def CalUnit.rejoin (u : CalUnit) (n sl : Nat) : CalUnit :=
  match u.task n with
  | none => u
  | some t =>
    if t.st == .suspended && t.awaiting.isEmpty then
      let full := (match t.hdr with | some x => 16 * x.slack | none => 0)
      let t' := { t with st := .ready, since := sl, remainder := true, overrun := false,
                         budget := if t.overrun then t.lateness + full else t.budget }
      (u.setTask t').readyHead t'
    else u

/-- Suspends a gang (08 R222): `trapping` are the members that take a trap; with none, for a copy's fault (07 R172), the
task is ready again at once (in part DEDUCED, log 40). -/
def State.suspendGang (s : State) (d : DieId) (n : Nat) (trapping : List HartId) : State :=
  match s.task d n with
  | none => s
  | some t =>
    if t.st == .running then
      let s := s.stopGang t trapping
      let s := s.modTask d n fun t =>
        { t with st := .suspended, awaiting := trapping,
                 claims := t.claims.flatMap fun c => c.remainder (s.slot - t.bookStart) }
      s.modCal d fun u => u.rejoin n s.slot
    else if t.st == .suspended then
      s.modTask d n fun t => { t with awaiting := t.awaiting ++ trapping.filter fun h => !t.awaiting.contains h }
    else s

/-- Overrun (08 R221): the members stop, the claims are released, and the leader has cause 0x0E to take
(in part DEDUCED, log 40). -/
def State.overrunGang (s : State) (d : DieId) (n : Nat) : State :=
  match s.task d n with
  | none => s
  | some t =>
    match t.leader with
    | none => s
    | some l =>
      if t.st == .running then
        let s := s.stopGang t [l]
        let s := s.modTask d n fun t =>
          { t with st := .suspended, overrun := true, awaiting := [l],
                   claims := t.claims.flatMap fun c => c.remainder (s.slot - t.bookStart) }
        s.modHart l fun x =>
          { x with cal := { x.cal with overruns := if x.cal.overruns = BitVec.allOnes 32 then x.cal.overruns else x.cal.overruns + 1 },
                   pend := x.pend ++ [⟨0x0E, 0, 0⟩] }
      else s

/-- Charges `n` cycles to a member (08 R220). A charge that would make the remaining slack negative is Overrun in its place
(08 R221) (in part DEDUCED, log 40). A free hart is never charged. -/
def State.charge (s : State) (h : HartId) (n : Nat) : State :=
  match (s.hart h).gang with
  | none => s
  | some (d, k) =>
    match s.task d k with
    | none => s
    | some t =>
      if t.st != .running then s
      else
        let own := (s.hart h).cal.slackOwn.toNat + n
        if t.budget < max t.lateness own then s.overrunGang d k
        else
          (s.modHart h fun x => { x with cal := { x.cal with slackOwn := BitVec.ofNat 32 (min own (2 ^ 32 - 1)) } }).modTask d k
            fun t => { t with lateness := max t.lateness own }

/-- Charges this cycle to a member (08 R220), at most once (02 R27). -/
def State.lose (s : State) (h : HartId) : State :=
  if (s.hart h).lost then s else (s.charge h 1).modHart h fun x => { x with lost := true }

/-- Counts this cycle in HINTSTALLS and charges it, unless it is counted or charged already (02 R27). -/
def State.stall (s : State) (h : HartId) : State :=
  if (s.hart h).lost then s
  else (s.modHart h fun x =>
    { x with cal := { x.cal with hintstalls := if x.cal.hintstalls = BitVec.allOnes 64 then x.cal.hintstalls
                                               else x.cal.hintstalls + 1 } }).lose h

/-- Whether a cause suspends the gang of the member that takes it (08 R222) (in part DEDUCED, log 43). -/
def suspends (cause : Nat) : Bool := cause == 0x05 || cause == 0x06 || cause == 0x16

/-- Whether a pending cause suspends the gang of the member that takes it: 0x16, 0x17 with such a subcause (08 R222, 09 R253),
and 0x15 of an expired grace (13 R343). -/
def Pending.suspends (p : Pending) : Bool :=
  p.cause == 0x16 || (p.cause == 0x17 && Machine.suspends (p.eaddr.toNat % 256)) || (p.cause == 0x15 && !p.eaddr.getLsbD 27)

/-- Whether a member still has a trap of its gang's suspension or Overrun to take. -/
def Hart.trapDue (x : Hart) : Bool := x.pend.any fun p => p.cause == 0x0E || p.suspends

/-- A member of a suspended gang has executed ERET (08 R221, R222): it stops until the rebooked start, and when it was the
last one awaited the task is ready again. The ERET of a handler that runs before the trap of the suspension or of Overrun is
taken is no such return (in part DEDUCED, log 40). -/
def State.gangEret (s : State) (h : HartId) : State :=
  match (s.hart h).gang with
  | none => s
  | some (d, n) =>
    match s.task d n with
    | none => s
    | some t =>
      if t.st == .suspended && t.awaiting.contains h && !(s.hart h).trapDue then
        let s := (s.modHart h Hart.suspend).modTask d n fun t => { t with awaiting := t.awaiting.filter (· != h) }
        s.modCal d fun u => u.rejoin n s.slot
      else s

/-! ## How a hart's instruction ends -/

/-- A hart takes a trap; a gang member's gang is suspended when the cause asks for it (08 R222, 14 R356). -/
def raise (s : State) (h : HartId) (cause : Nat) (resume eidx eaddr : Word) (suspend : Bool) : State :=
  let s := (match (s.hart h).gang with
    | some (d, n) => if suspend then s.suspendGang d n [h] else s
    | none => s)
  takeTrap s h cause resume eidx eaddr

/-- The end of an instruction of the running hart (02 R33, 04 R86, 14 R356, R361). -/
def commit (e : Eff) : Out :=
  match e with
  | .done s => .next (s.modMe fun h => { h with pc := h.pc + 16, inWait := false })
  | .jump s t => .next (s.modMe fun h => { h with pc := t, inWait := false })
  | .trap s t =>
    .next (raise s s.cur t.cause (if t.next then s.me.pc + 16 else s.me.pc) t.eidx t.eaddr (suspends t.cause || t.suspend))
  | .wait s w => .next (s.modMe fun h => { h with run := .waiting w, inWait := true })
  | .fault x => .fault x
  | .refuse x => .refused x

end Sys2Proof.Machine
end

