-- ==== Sys2Proof/Machine/ControlSpace.lean ====
section
/-!
DEFINITION. Control space (13 R348 to R350, 14 R360, R369, 06 R154, 07 R178, 09 R254): the words that its tables name, by
offset from 0x0200_0000_0000. A requester is coded as HSEM.OWNER codes it: 1 and 2 the host ports, 3 the management
controller, 4 + cluster a hart.
-/

namespace Sys2Proof.Machine

/-- The requester code of a hart (13 Table 13.8) (in part DEDUCED, log 56). -/
def whoOf (h : HartId) : Byte := BitVec.ofNat 8 (h.cluster.val + 4)

/-- A hart's state as its control block shows it (14 Table 14.5): a member of a suspended gang is suspended also while it
runs or waits in its handler (15 Table 15.9). -/
def State.stateWord (s : State) (h : HartId) : Word :=
  let x := s.hart h
  let halted : Bool := (match s.taskOf h with | some t => t.st == .suspended | none => false)
  let st := (match x.run with
    | .stopped => 0
    | .running => if halted then 3 else 1
    | .waiting _ => if halted then 3 else 2
    | .suspended => 3)
  BitVec.ofNat 64 (st + 4 * x.status.sys.toNat + 8 * x.gang.isSome.toNat)

/-- The HSEM word (13 Table 13.8). -/
def Hsem.word (x : Hsem) : Word :=
  BitVec.ofNat 64 (x.owner.toNat + x.count.toNat <<< 8 + x.lease.toNat <<< 24 + x.expired.toNat <<< 63)

/-- The level in force (14 R370). -/
def Device.level (d : Device) : Nat := max d.cap.toNat (max d.powerLevel.toNat d.thermalLevel.toNat)

/-- The CAP word (14 Table 14.7): THERM or POWER is set when that limit, above CAP, sets LEVEL. -/
def Device.capWord (d : Device) : Word :=
  let l := d.level
  let sets (x : BitVec 4) : Nat := if x.toNat = l ∧ d.cap.toNat < l then 1 else 0
  BitVec.ofNat 64 (d.cap.toNat + l <<< 8 + sets d.thermalLevel <<< 12 + sets d.powerLevel <<< 13)

/-- Acquire of the semaphore (13 R350). -/
def State.hsemAcq (s : State) (who : Byte) : State × Word :=
  let x := s.dev.hsem
  let s' := if x.owner = 0 then
      { s with dev := { s.dev with hsem := { x with owner := who, count := x.count + 1, lease := s.dev.hsemLease } } }
    else s
  (s', x.word)

/-- Release of the semaphore (13 R350). -/
def State.hsemRel (s : State) (who : Byte) : State :=
  let x := s.dev.hsem
  if x.owner = who then { s with dev := { s.dev with hsem := { x with owner := 0, lease := 0 } } } else s

/-- Renewal of the semaphore's lease (13 R350). -/
def State.hsemRenew (s : State) (who : Byte) : State :=
  let x := s.dev.hsem
  if x.owner = who then { s with dev := { s.dev with hsem := { x with lease := s.dev.hsemLease } } } else s

/-- A pre-emption request by a requester (14 R360, R361): REQ names the first one. -/
def State.preq (s : State) (h : HartId) (who : Byte) : State :=
  s.modHart h fun x =>
    if x.run = .stopped ∨ x.preempt.pend then x
    else { x with preempt := { pend := true, req := who, since := s.slot } }

def State.evset (s : State) (h : HartId) (v : Word) : State := s.modHart h fun x => { x with evpend := x.evpend ||| v }
def State.hiset (s : State) (h : HartId) (v : Word) : State := s.modHart h fun x => { x with hipend := x.hipend ||| v }

/-- The reduce-store status word (07 Table 7.6). -/
def Racker.status (r : Racker) : Word :=
  BitVec.ofNat 64 (r.rkdups.toNat + r.stamps.length <<< 32 + (!r.held.isEmpty).toNat <<< 38)

/-- A 64-bit word of a register file held as one number. -/
def wordAt {w : Nat} (r : BitVec w) (off : Nat) : Word := BitVec.ofNat 64 (getBits r (8 * off) 64)

/-- What a load of a word that is only written reads: the spec states no value (DESIGN CHOICE, log 4 and 19). -/
def writeOnly (s : State) : Option (State × Word) := some ({ s with freeCtr := s.freeCtr + 1 }, Config.writeOnly s.freeCtr)

/-- Reads the 8-byte word at an offset; none where no table names a word (in part DEDUCED, log 19). -/
def ctlRead (s : State) (who : Byte) (off : Nat) : Option (State × Word) :=
  let o := off % 0x10000
  if off % 8 ≠ 0 then none
  else if off < 0x800000 then
    let c : ClusterId := Fin.ofNat 128 (off / 0x10000)
    if 0xC000 ≤ o ∧ o < 0xC400 then
      let h := hartOf c (Fin.ofNat 4 ((o - 0xC000) / 0x100))
      let x := s.hart h
      match o % 0x100 with
      | 0x00 => writeOnly s
      | 0x08 => some (s, s.stateWord h)
      | 0x10 => writeOnly s
      | 0x18 => some (s, x.evpend)
      | 0x20 => writeOnly s
      | 0x28 => some (s, x.hipend)
      | _ => some (s, 0)
    else if 0xD000 ≤ o ∧ o < 0xD200 then some (s, wordAt (s.fabric c).faultRec (o - 0xD000))
    else if o = 0xE000 then some (s, (s.cluster c).racker.status)
    else if 0xF000 ≤ o ∧ o < 0xF400 then
      some (s, wordAt (s.hart (hartOf c (Fin.ofNat 4 ((o - 0xF000) / 0x100)))).faultRec (o % 0x100))
    else none
  else if 0x1000000 ≤ off ∧ off < 0x1040000 then
    let x := s.die (Fin.ofNat 4 ((off - 0x1000000) / 0x10000))
    match o with
    | 0x00 => some (s, x.gsptbase)
    | 0x08 => some (s, x.gsasid.setWidth 64)
    | 0x10 => writeOnly s
    | 0x18 => some (s, x.gsresult)
    | 0x20 => some (s, x.gstvec)
    | _ => none
  else
    match off with
    | 0x2000000 => some (s, s.dev.hsem.word)
    | 0x2000008 => some (s.hsemAcq who)
    | 0x2000010 => writeOnly s
    | 0x2000018 => writeOnly s
    | 0x2000020 => some (s, s.dev.hsemLease.setWidth 64)
    | 0x2000100 => some (s, BitVec.ofNat 64 (s.dev.pkgNum.toNat + s.dev.syncm.toNat <<< 16))
    | 0x2000200 => some (s, BitVec.ofNat 64 (s.dev.errTransient.toNat + s.dev.errPermanent.toNat <<< 32))
    | 0x2000300 => writeOnly s
    | 0x2000308 => some (s, s.dev.bootpc)
    | 0x2000310 => some (s, s.dev.capWord)
    | 0x2000318 => some (s, s.dev.stretched)
    | _ => none

/-- Puts another agent's step before every other turn. -/
def State.soon (s : State) (e : Event) : State := { s with agenda := .event e :: s.agenda }

/-- Writes the 8-byte word at an offset; none where no table names the word. RO words and fields ignore the write. A
graph start, a RUN and a WARM are the agents' own steps, and come next (in part DEDUCED, log 19). -/
def ctlWrite (s : State) (who : Byte) (off : Nat) (v : Word) : Option State :=
  let o := off % 0x10000
  if off % 8 ≠ 0 then none
  else if off < 0x800000 then
    let c : ClusterId := Fin.ofNat 128 (off / 0x10000)
    if 0xC000 ≤ o ∧ o < 0xC400 then
      let h := hartOf c (Fin.ofNat 4 ((o - 0xC000) / 0x100))
      match o % 0x100 with
      | 0x00 => some (s.preq h who)
      | 0x08 => some s
      | 0x10 => some (s.evset h v)
      | 0x18 => some s
      | 0x20 => some (s.hiset h v)
      | 0x28 => some s
      | _ => some s
    else if 0xD000 ≤ o ∧ o < 0xD200 then some s
    else if o = 0xE000 then
      some (if wbits v 31 0 = 0 then s
        else s.modCluster c fun x => { x with racker := { x.racker with rkdups := 0 } })
    else if 0xF000 ≤ o ∧ o < 0xF400 then some s
    else none
  else if 0x1000000 ≤ off ∧ off < 0x1040000 then
    let d : DieId := Fin.ofNat 4 ((off - 0x1000000) / 0x10000)
    match o with
    | 0x00 => some (s.modDie d fun x => { x with gsptbase := v })
    | 0x08 => some (s.modDie d fun x => { x with gsasid := v.setWidth 16 })
    | 0x10 => some (s.soon (.gsaddrWrite d v))
    | 0x18 => some s
    | 0x20 => some (s.modDie d fun x => { x with gstvec := align16 v })
    | _ => none
  else
    match off with
    | 0x2000000 =>
      some (if v.getLsbD 63 then { s with dev := { s.dev with hsem := { s.dev.hsem with expired := false } } } else s)
    | 0x2000008 => some s
    | 0x2000010 => some (s.hsemRel who)
    | 0x2000018 => some (s.hsemRenew who)
    | 0x2000020 => some { s with dev := { s.dev with hsemLease := v.setWidth 32 } }
    | 0x2000100 => some { s with dev := { s.dev with pkgNum := v.setWidth 16, syncm := v.getLsbD 16 } }
    | 0x2000200 =>
      some { s with dev := { s.dev with
        errTransient := s.dev.errTransient &&& ~~~(v.setWidth 32)
        errPermanent := s.dev.errPermanent &&& ~~~((v >>> 32).setWidth 32) } }
    | 0x2000300 =>
      some (if v.getLsbD 1 then s.soon .devctlWarm else if v.getLsbD 0 then s.soon .devctlRun else s)
    | 0x2000308 => some { s with dev := { s.dev with bootpc := align16 v } }
    | 0x2000310 => some { s with dev := { s.dev with cap := v.setWidth 4 } }
    | 0x2000318 => some s
    | _ => none

/-! ## Accesses of harts -/

/-- A load of 4 or 8 bytes in a word: a narrow one takes its half, and the level is the page's concern (04 Table 4.6a)
(in part DEDUCED, log 19). -/
def ctlLoad (s : State) (who : Byte) (off w : Nat) : Option (State × Nat) :=
  (ctlRead s who (off / 8 * 8)).map fun r => (r.1, (r.2.toNat >>> (8 * (off % 8))) % 2 ^ (8 * w))

/-- What a narrow store leaves of the word's other half: the fields that software writes as they stand, and zeros in a word
whose write acts (in part DEDUCED, log 19). -/
def ctlKept (s : State) (off : Nat) : Nat :=
  let named : List Nat := [0x2000020, 0x2000100, 0x2000308, 0x2000310]
  let ofDie := 0x1000000 ≤ off ∧ off < 0x1040000 ∧ off % 0x10000 ≠ 0x10
  if ofDie ∨ named.contains off then (match ctlRead s 0 off with | some r => r.2.toNat | none => 0) else 0

/-- A store of 4 or 8 bytes in a word. -/
def ctlStore (s : State) (who : Byte) (off w v : Nat) : Option State :=
  let o := off / 8 * 8
  ctlWrite s who o (if w = 8 then BitVec.ofNat 64 v else setBits (BitVec.ofNat 64 (ctlKept s o)) (8 * (off % 8)) (8 * w) v)

/-- Whether a store to the word is a release at system scope: HSEMREL (13 R350). -/
def ctlReleases (off : Nat) : Bool := off / 8 * 8 == 0x2000010

end Sys2Proof.Machine
end

