-- ==== Sys2Proof/Machine/Access.lean ====
section
/-!
DEFINITION. Scalar accesses of the running hart: the checks of 04 Table 4.6a and 07 Table 7.10 in order, then the read or
the write. What waits on copies and on presence-tagged words waits here (06 R148, 07 R179, R197, R198).
-/

namespace Sys2Proof.Machine

/-- Parks the running hart on a word (07 R198): an entry of the wait table of the word's die, or polling when it is full
(in part DEDUCED, log 36). -/
def State.park (s : State) (pa : Nat) : Eff :=
  let d := homeDie pa
  let t := (s.die d).waits
  if t.contains (pa, s.cur) then .wait s (.future pa true)
  else if t.length < 4096 then
    .wait (s.modDie d fun x => { x with waits := x.waits ++ [(pa, s.cur)] }) (.future pa true)
  else .wait s (.future pa false)

/-- wake_all of 07 R198: every hart parked on the word wakes (in part DEDUCED, log 36). -/
def State.wakeAll (s : State) (pa : Nat) : State :=
  let d := homeDie pa
  let woken := ((s.die d).waits.filter fun w => w.1 == pa).map (·.2)
  let s := s.modDie d fun x => { x with waits := x.waits.filter fun w => w.1 != pa }
  woken.foldl (fun (s : State) h => s.modHart h fun x =>
    match x.run with | .waiting _ => { x with run := .running } | _ => x) s

/-- Whether a held store that hart `h` sees meets the `n` bytes at `pa`. -/
def State.meetsHeld (s : State) (h : HartId) (pa n : Nat) : Bool := s.storeBuf.any fun x => x.seenBy h && x.meets pa n

/-- Writes runs of bytes, of each byte the bits of `m`, as one store of the running hart: held in its store buffer when a run is on
an RDUP page (06 R142), or behind a held store that it sees to some of the same bytes, so that each byte has one order of
stores (07 R185); its runs are performed together (06 R147) (in part DEDUCED, log 6). -/
def State.storeRuns (s : State) (rdup : Bool) (m : Byte) (l : List (Nat × List Byte)) : State :=
  if rdup || l.any fun r => s.meetsHeld s.cur r.1 r.2.length then
    { s with storeBuf := s.storeBuf ++ [⟨s.cur, l, m, [], 0, s.copySeq, !rdup⟩] }
  else s.setRuns m l

/-- Writes bytes as a store of the running hart. -/
def State.storeBytes (s : State) (e : TlbEntry) (pa : Nat) (l : List Byte) : State :=
  s.storeRuns (leafRdup e.leaf) 0xFF [(pa, l)]

/-- Whether every store that a hart made before copy `id` is performed at its scope (07 R189). An instance wider than the hart
holds Racker channels and the fabric, which see a store as it leaves the buffer (07 Table 7.7, R186). -/
def State.storesDone (s : State) (h : HartId) (scope id : Nat) : Bool :=
  scope == 0 || s.storeBuf.all fun x => x.hart != h || id ≤ x.seq

/-- The kinds of scalar access: the rows of 07 Table 7.10 beside LD and ST differ in what they ask of the page. -/
inductive Mode where
  /-- LD, LDA. -/
  | ld
  /-- ST, STREL. -/
  | st
  /-- AMO, CAS, PUBHW: a read and a write. -/
  | rmw
  /-- READHW: a read with the page kinds of an atomic. -/
  | rd
  /-- FUTRD. -/
  | futrd
  /-- FUTWR, and FUTCLR, which a WONCE page takes too. -/
  | futwr
  | futclr
  deriving DecidableEq, Repr

/-- How the access is translated and what it needs (07 Table 7.10). -/
def Mode.acc : Mode → Access
  | .ld => .load
  | .rd => .load
  | .futrd => .load
  | _ => .store

/-- Whether a page's kind refuses the access, and with what cause (04 Table 4.6a step 5, 07 Table 7.10). -/
def Mode.kindCause (m : Mode) (sp : Space) (w : Word) : Option Nat :=
  match m with
  | .ld => none
  | .st => if leafDisc w then some 0x08 else none
  | .rmw => if sp = .control || leafPres w || leafWonce w then some 0x07 else if leafDisc w then some 0x08 else none
  | .rd => if sp = .control || leafPres w || leafWonce w then some 0x07 else if leafDisc w then some 0x08 else none
  | .futrd => if sp = .control || !leafPres w || leafWonce w then some 0x07 else none
  | .futwr => if sp = .control || !leafPres w || leafWonce w then some 0x07 else none
  | .futclr => if sp = .control || (!leafPres w && !leafWonce w) then some 0x07 else none

/-- The checks of a scalar access up to its page's kind (04 Table 4.6a, 07 Table 7.10), for `w` bytes aligned to `al`; `k`
goes on with the physical address and the leaf. -/
def withAccess (s : State) (m : Mode) (al w : Nat) (va : Word) (k : State → Nat → TlbEntry → Eff) : Eff :=
  if va.toNat % al ≠ 0 then .trap s { cause := 0x04, eaddr := va }
  else
    match checkAccess s s.ctx m.acc va with
    | (s, .bad c _) => .trap s { cause := c, eaddr := va }
    | (s, .ok pa e) =>
      if m = .rmw ∧ !leafR e.leaf then .trap s { cause := 0x07, eaddr := va }
      else
        let sp := spaceOf pa
        if sp = .none then .fault (.noSuchAddress pa)
        else if sp = .control ∧ w < 4 then .trap s { cause := 0x04, eaddr := va }
        else
          match m.kindCause sp e.leaf with
          | some c => .trap s { cause := c, eaddr := va }
          | none => k s pa e

/-- A read of `w` bytes of HBM or Cellar by the running hart, after the page's checks: it waits for copies, takes 0x16 on
a poisoned line (04 Table 4.6a step 8), and otherwise goes on with the number read. -/
def readData (s : State) (pa w : Nat) (va : Word) (k : State → Nat → Eff) : Eff :=
  if s.ownedIn pa w || s.absentIn pa w then .wait s .copy
  else if s.poisonedIn pa w then .trap s { cause := 0x16, eaddr := va }
  else k s (ofBytes (s.bytesFor s.cur pa w))

/-- A load of LD's kind: LD and LDA (04 R82, 07 R194). PRES and WONCE say nothing of a control-space word, which has no presence
bit (07 R197) (in part DEDUCED, log 19). -/
def scalarLoad (s : State) (w : Nat) (va : Word) (k : State → Nat → Eff) : Eff :=
  withAccess s .ld w w va fun s pa e =>
    if leafDisc e.leaf then k (s.modMe fun h => { h with status := { h.status with dread := true } }) 0
    else if spaceOf pa = .control then
      (match ctlLoad s (whoOf s.cur) (pa - controlBase) w with
        | some (s, v) => k s v
        | none => .refuse (.unnamedControlWord pa))
    else if leafPres e.leaf && !s.full pa then s.park (pa / 8 * 8)
    else readData s pa w va k

/-- The word of a presence-tagged page that a store of `l` at `pa` fills: the bytes it does not write are zero
(07 R197). -/
def fillWord (pa : Nat) (l : List Byte) : List Byte :=
  List.replicate (pa % 8) 0 ++ l ++ List.replicate (8 - pa % 8 - l.length) 0

/-- Fills a presence-tagged word: its bytes, its bit, and its waiters (07 R197). -/
def State.fill (s : State) (pa : Nat) (l : List Byte) : State :=
  let a := pa / 8 * 8
  ((s.setBytes a (fillWord pa l)).setFull a true).wakeAll a

/-- A store of ST's kind: ST and STREL (04 R82, 07 R194). PRES and WONCE say nothing of a control-space word (07 R197)
(in part DEDUCED, log 19). -/
def scalarStore (s : State) (w : Nat) (va : Word) (v : Nat) (k : State → Eff) : Eff :=
  withAccess s .st w w va fun s pa e =>
    if spaceOf pa = .control then
      (if ctlReleases (pa - controlBase) && !s.storesDone s.cur 4 (s.copySeq + 1) then .wait s .other
      else
        match ctlStore (s.markDirty s.ctx e) (whoOf s.cur) (pa - controlBase) w v with
        | some s => k s
        | none => .refuse (.unnamedControlWord pa))
    else if (leafPres e.leaf || leafWonce e.leaf) && s.full pa then .trap s { cause := 0x09, eaddr := va }
    else if s.ownedIn pa w then .wait s .copy
    else if (leafPres e.leaf || leafWonce e.leaf) && s.meetsHeld s.cur (pa / 8 * 8) 8 then .wait s .other
    else
      let s := s.markDirty s.ctx e
      let l := toBytes w v
      if leafPres e.leaf then k (s.fill pa l)
      else if leafWonce e.leaf then k ((s.setBytes pa l).setFull pa true)
      else k (s.storeBytes e pa l)

/-- A read and update of `w` bytes of HBM or Cellar, indivisible (07 R196, R201): `up` answers what is written, if
anything. It waits for a held store to those bytes (06 R142), so that every observer has the line's value. -/
def readModify (s : State) (al w : Nat) (va : Word) (up : Nat → Option Nat) (k : State → Nat → Nat → Eff) : Eff :=
  withAccess s .rmw al w va fun s pa e =>
    if s.storeBuf.any fun x => x.meets pa w then .wait s .other
    else
      readData s pa w va fun s old =>
        match up old with
        | none => k s pa old
        | some v => k ((s.markDirty s.ctx e).setBytes pa (toBytes w v)) pa old

end Sys2Proof.Machine
end

