-- ==== Sys2Proof/Machine/Flags.lean ====
section
/-!
DEFINITION. Conditions and flags: the condition codes of CMP, BR and the vector compares (04 Table 4.4), and the sticky
floating-point flags (03 R59).
-/

namespace Sys2Proof.Machine

/-- A condition code on two integers of `n` bits (04 Table 4.4). -/
def condInt (code n a b : Nat) : Bool :=
  match code with
  | 0 => a % 2 ^ n == b % 2 ^ n
  | 1 => a % 2 ^ n != b % 2 ^ n
  | 2 => signed n a < signed n b
  | 3 => signed n b ≤ signed n a
  | 4 => a % 2 ^ n < b % 2 ^ n
  | _ => b % 2 ^ n ≤ a % 2 ^ n

/-- A condition code on two scalar registers. -/
def cond (code : Nat) (a b : Word) : Bool := condInt code 64 a.toNat b.toNat

/-- ORs flags into FPFLAGS (03 R59). -/
def Hart.addFlags (h : Hart) (fl : FFlags) : Hart := { h with fp := { h.fp with flags := h.fp.flags ||| fl } }

/-- The rounding mode of a field's code: 7 selects FPCTL.RM (03 R54). -/
def Hart.rmode (h : Hart) (code : Nat) : RMode := RMode.ofCode (if code = 7 then h.fp.ctl.rm.toNat else code)

/-- VTYPE.FLUSH (05 R90). -/
def Hart.flush (h : Hart) : BitVec 2 := h.vc.vtype.extractLsb' 12 2

/-- What a rounding of the hart's instruction needs (03 R54 to R62). -/
def Hart.fenv (h : Hart) (code : Nat) : FEnv :=
  { mode := h.rmode code, sat8 := h.fp.ctl.sat8, seed := h.fp.seed, flush := h.flush }

/-- The step of SRSEED when an instruction that rounds under SR completes (03 R58). -/
def Hart.stepSeed (h : Hart) (m : RMode) : Hart :=
  if m = .sr then { h with fp := { h.fp with seed := srStep h.fp.seed } } else h

end Sys2Proof.Machine
end

