-- ==== Sys2Proof/Machine/Control.lean ====
section
/-!
DEFINITION. Class 0x1: control transfer (04 R84 to R88).
-/

namespace Sys2Proof.Machine

/-- The target of a transfer relative to pc (04 R84). -/
def State.target (s : State) (f : Fields) : Word := s.me.pc + sextImm f

/-- A transfer that is taken: cause 0x04 when the target is misaligned, before any state changes; otherwise `s'` goes on at
the target (04 R84). -/
def transfer (s s' : State) (t : Word) : Eff :=
  if wbits t 3 0 ≠ 0 then .trap s { cause := 0x04, eaddr := t } else .jump s' t

/-- A transfer taken when `c` holds. -/
def branch (s : State) (c : Bool) (t : Word) : Eff := if c then transfer s s t else .done s

/-- Pushes a link on the return stack, dropping the oldest entry when it is full; D = 0 pushes none (04 R73). -/
def Hart.pushLink (h : Hart) (d : BitVec 5) (link : Word) : Hart :=
  if d = 0 then h else { h with retStack := (link :: h.retStack).take 16 }

/-- CALL and CALLR: the link and its return-stack entry (04 R86). -/
def State.link (s : State) (f : Fields) : State :=
  let l := s.me.pc + 16
  s.modMe fun h => (h.ws f.d l).pushLink f.d l

def execBr (f : Fields) (s : State) : Out :=
  commit (branch s (cond (f.modField 44 42) (s.rs f.a) (s.rs f.b)) (s.target f))
def execBz (f : Fields) (s : State) : Out := commit (branch s (s.rs f.a == 0) (s.target f))
def execBnz (f : Fields) (s : State) : Out := commit (branch s (s.rs f.a != 0) (s.target f))
def execJmp (f : Fields) (s : State) : Out := commit (transfer s s (s.target f))
def execJmpr (f : Fields) (s : State) : Out := commit (transfer s s (s.baseImm f))
def execCall (f : Fields) (s : State) : Out := commit (transfer s (s.link f) (s.target f))
def execCallr (f : Fields) (s : State) : Out := commit (transfer s (s.link f) (s.baseImm f))

/-- RET pops the return stack, which affects no target (04 R73). -/
def execRet (f : Fields) (s : State) : Out :=
  commit (transfer s (s.modMe fun h => { h with retStack := h.retStack.drop 1 }) (s.rs f.a))

/-- LOOP: the count falls unless it is zero, and the transfer is taken while it stays nonzero (04 R86). -/
def execLoop (f : Fields) (s : State) : Out :=
  commit (
    let n := s.rs f.d
    if n = 0 then .done s
    else if n - 1 = 0 then .done (s.ws f.d 0)
    else transfer s (s.ws f.d (n - 1)) (s.target f))

/-- VL = VLROW × VLCOL (05 R96). -/
def Hart.vl (h : Hart) : Nat := h.vc.vlrow.toNat * h.vc.vlcol.toNat

/-- The bits of a mask operand: m0 to m7, or mf for 8 (02 Table 2.2); a list's bits are its entries (05 R102). -/
def Mask.bit (m : Mask) (k : Nat) : Bool :=
  match m with
  | .bitmap b => b.getLsbD k
  | .list l => l.contains k

def Hart.maskOp (h : Hart) (n : BitVec 5) : Mask := if n.toNat ≥ 8 then .bitmap h.mf else h.m[Fin.ofNat 8 n.toNat]

/-- How many of the mask's elements below `vl` are set. -/
def Mask.countBelow (m : Mask) (vl : Nat) : Nat :=
  match m with
  | .bitmap b => popCount (min vl 8192) b.toNat
  | .list l => (l.filter (· < vl)).length

/-- The index in VVALID and VDIRTY of a mask operand (14 Table 14.3). -/
def maskIndex (n : BitVec 5) : Nat := 32 + min n.toNat 8

/-- Vector first use: the lowest index among the registers whose VVALID bit is 0 (14 R363). -/
def Hart.firstUse (h : Hart) (l : List Nat) : Option Nat := (List.range 41).find? fun k => l.contains k && !h.vc.vvalid.getLsbD k

/-- Goes on with `k` unless a register of `l` lies in the save area: cause 0x0A (14 R363, R364). -/
def withRegs (s : State) (l : List Nat) (k : Eff) : Eff :=
  match s.me.firstUse l with
  | some i => .trap s { cause := 0x0A, eidx := BitVec.ofNat 64 i }
  | none => k

/-- The conditions of BMASK (04 Table 4.7). -/
def bmaskTaken (code any vl : Nat) : Bool :=
  match code with
  | 0 => any ≥ 1
  | 1 => any == 0
  | 2 => any == vl
  | _ => any < vl

def execBmask (f : Fields) (s : State) : Out :=
  commit (withRegs s [maskIndex f.a]
    (branch s (bmaskTaken (f.modField 43 42) ((s.me.maskOp f.a).countBelow s.me.vl) s.me.vl) (s.target f)))

def execNop (_f : Fields) (s : State) : Out := commit (.done s)

/-- Privilege (14 R351): system-level instructions at task level. -/
def withSys (s : State) (k : Eff) : Eff := if s.me.status.sys then k else .trap s { cause := 0x03 }

/-- The hart stops with its state kept and releases its tiles and groups (04 R88, 10 R270). -/
def Hart.halted (h : Hart) : Hart := { h.released with run := .stopped }

end Sys2Proof.Machine
end

