-- ==== Sys2Proof/Machine/HartPort.lean ====
section
/-!
DEFINITION. Hart ports of stream handles (09 R249, R265): lanes, sending and taking tokens.
-/

namespace Sys2Proof.Machine

/-- A producer of a lane: a hart, or the XCHG sender of a cluster (09 R249). -/
def producerOf (h : HartId) : Nat := h.val

/-- Whether the handle is a hart port of the direction (09 R265). -/
def Handle.isPort (x : Handle) (out : Bool) : Bool :=
  match x.desc with
  | some d => d.space == 3 && d.out == out
  | none => false

/-- The handle after a send by a producer claims its lane; none where R249 refuses the send. -/
def Handle.takeLane (x : Handle) (producer : Nat) : Option Handle :=
  match x.lanes.find? fun l => l.producer == producer with
  | some l => if l.closed then none else some x
  | none =>
    match x.desc with
    | some d => if x.lanes.length < d.nprod then some { x with lanes := x.lanes ++ [⟨producer, false⟩] } else none
    | none => none

/-- Whether the port holds all it can. -/
def Handle.portFull (x : Handle) : Bool := Config.portDepth < x.port.length

/-- Sends tokens on a producer's lane. -/
def Handle.send (x : Handle) (producer : Nat) (l : List Nat) : Option Handle :=
  (x.takeLane producer).map fun y => { y with port := y.port ++ l }

/-- Closes a producer's lane, taking a free one first when it has none (09 R249, R265). -/
def Handle.close (x : Handle) (producer : Nat) : Option Handle :=
  (x.takeLane producer).map fun y =>
    { y with lanes := y.lanes.map fun l => if l.producer = producer then { l with closed := true } else l }

/-- Every declared lane has been closed (09 R249). -/
def Handle.lanesClosed (x : Handle) : Bool :=
  match x.desc with
  | some d => x.lanes.length == d.nprod && x.lanes.all Lane.closed
  | none => false

/-- The handle `k` of the cluster of the running hart. -/
def State.myHandle (s : State) (k : Nat) : Handle := s.handleOf s.cur.cluster k

def State.setMyHandle (s : State) (k : Nat) (x : Handle) : State :=
  (s.modHandle s.cur.cluster k fun _ => x).modMe fun h => h.unlatch .handle k

/-- Stream fault, subcause 0x0C: a handle that is no hart port of the direction, or a lane error (09 R249, R265)
(in part DEDUCED, log 23). -/
def laneFault (s : State) : Eff := .trap s { cause := 0x17, eaddr := 0x0C }

end Sys2Proof.Machine
end

