-- ==== Sys2Proof/WellFormed.lean ====
section
/-!
DEFINITION. Which instructions are well formed: those whose word passes every check of 02 Table 2.7 that needs the
word alone. The checks themselves are `Row.unusedField` and `Row.badOperand` of Machine/Encoding.lean.
-/

namespace Sys2Proof

/-- RANK = 3 is reserved (02 Table 2.4, R31). -/
def Fields.rankOk (f : Fields) : Bool := f.hints.rank != 3

/-- The row is the form its fields select and passes steps 3, 4 and the static part of 5 of 02 Table 2.7. -/
def Row.ok (r : Row) : Bool := r.form && r.f.rankOk && !r.unusedField && !r.badOperand

/-- A well-formed instruction. A step of another agent has no word, and none of its operands is ill formed. -/
def Instr.wf (i : Instr) : Bool :=
  match i.row with
  | some r => r.ok
  | none => true

end Sys2Proof
end

