-- ==== Sys2Proof/Decode.lean ====
section
/-!
DEFINITION. Decoding of the 128-bit word (02 R17, R33 to R35): total on any word, each refusal under a name of its
own. After it, the encoder, written from the rows of Machine/Encoding.lean.
-/

namespace Sys2Proof

/-- Why a word is refused before it executes (02 Table 2.7). -/
inductive DecodeError where
  /-- Step 1: no class and op pair of 02 Table 2.8 (R35). -/
  | unassigned
  /-- Step 2: a bit of [127:112] is 1. -/
  | reservedBits
  /-- Step 3: RANK = 3. -/
  | rank
  /-- Step 4: a field that the entry, or this form of it, does not use is nonzero. -/
  | unusedField
  /-- Step 5: an operand or option value outside the entry's set, so far as the word alone shows it. -/
  | badOperand
  deriving DecidableEq, Repr

/-- The trap cause of a refused word (02 Table 2.7). -/
def DecodeError.cause : DecodeError → Nat
  | .unassigned => 0x01
  | .reservedBits => 0x02
  | .rank => 0x01
  | .unusedField => 0x02
  | .badOperand => 0x01

/-- A 128-bit instruction word (02 R17). -/
abbrev IWord := BitVec 128

/-- OPC, bits [11:0]. -/
def opcOf (w : IWord) : BitVec 12 := w.extractLsb' 0 12

/-- The scheduling fields of a word (02 Table 2.1). -/
def hintsOf (w : IWord) : Hints :=
  { gap := w.extractLsb' 96 3, rank := w.extractLsb' 99 2, ce := w.getLsbD 101, ck := w.extractLsb' 102 2,
    cr := w.getLsbD 104, hk := w.extractLsb' 105 2, hl := w.extractLsb' 107 3, keep := w.extractLsb' 110 2 }

/-- The operand fields of a word (02 Table 2.1). -/
def fieldsOf (w : IWord) : Fields :=
  { d := w.extractLsb' 12 5, a := w.extractLsb' 17 5, b := w.extractLsb' 22 5, c := w.extractLsb' 27 5,
    p := w.extractLsb' 32 4, w := w.extractLsb' 36 4, mod := w.extractLsb' 40 8, x := w.extractLsb' 48 16,
    imm := w.extractLsb' 64 32, hints := hintsOf w }

/-- The ops of class 0x0 from op 0 up (02 Table 2.8). -/
def class0 : List (Fields → Instr) :=
  [.add, .sub, .mul, .mulh, .div, .rem, .and, .or, .xor, .andn, .shl, .shr, .rot, .min, .max, .cmp, .sel, .clz,
   .ctz, .popc, .bfx, .bfi, .li, fun f => if f.modBit 45 then .leaPc f else .lea f, .ld, .st, .ext, .muladd,
   .clamp, .brev, .modmul, .modadd]

/-- The ops of class 0x1 from op 0 up (02 Table 2.8). -/
def class1 : List (Fields → Instr) :=
  [.br, .bz, .bnz, .jmp, .jmpr, .call, .callr, .ret, .loop, .bmask, .nop, .halt]

/-- The ops of class 0x2 from op 0 up (02 Table 2.8). -/
def class2 : List (Fields → Instr) :=
  [.vadd, .vsub, .vrsub, .vmul, .vmulh, .vdiv, .vrem, .vmin, .vmax, .vand, .vor, .vxor, .vshl, .vshr, .vsadd,
   .vssub, .vavg, .vabsd, .vwadd, .vwmul, .vnshr, .vmodadd, .vmodsub, .vmodmul, .vclz, .vpopc]

/-- The ops of class 0x3 from op 0 up (02 Table 2.8). -/
def class3 : List (Fields → Instr) :=
  [.vfadd, .vfsub, .vfmul, .vfdiv, .vfma, .vfwma, .vfmin, .vfmax, .vfsqrt, .vfrsq, .vfrcp, .vfexp, .vfsgn,
   .vfclass, .vfcvt, .vfscale, .vfrnd, .vfnf]

/-- The ops of class 0x4 from op 0 up (02 Table 2.8). -/
def class4 : List (Fields → Instr) :=
  [fun f => if f.modBit 42 then .vsetlProgress f else .vsetl f, .vsetdim, .vcmp, .vfcmp, .mlogic, .mpopc,
   .mffs, .mset, .mtolist, .mtobits, .viota, .vid, .vcompress, .vexpand, .vperm, .vslide, .vsplat,
   fun f => if f.modBit 42 then .vmvxs f else .vmvsx f, .vredsum, .vredmax, .vredmin, .vredlog, .vscan,
   .vchain, .vtrans8, .vmerge, fun f => if f.modBit 42 then .vmvWhole f else .vmv f]

/-- The ops of class 0x5 from op 0 up (02 Table 2.8). -/
def class5 : List (Fields → Instr) :=
  [.vld, .vst, .vlds, .vsts, .vldx, .vstx, .vldff, .vldseg, .vstseg, .vldmd, .vstmd, .vldr, .vstr, .vldbc,
   .vpref, .vbind, .vunbind]

/-- The ops of class 0x6 from op 0 up (02 Table 2.8). -/
def class6 : List (Fields → Instr) :=
  [.sprog, .sswap, .spref, .sbind, .sunbind, .srun, .sdrain,
   fun f => if f.modBit 42 then .sstatCfg f else .sstat f, .stwid, .smod, .sscale, .spatch, .sinj, .sext,
   .seos, .smark, fun f => if f.modBit 42 then .sresumeImg f else .sresume f]

/-- The ops of class 0x7 from op 0 up (02 Table 2.8). -/
def class7 : List (Fields → Instr) :=
  [.mma, .mmax, .mmas, .mzero, .mldacc, .mstacc, .msavea, .mresta,
   fun f => if f.modBit 42 then .mmvToacc f else .mmv f, .mpeek, .mcvt, .mwload,
   fun f => if f.modBit 42 then .mcfgRd f else .mcfg f]

/-- The ops of class 0x8 from op 0 up (02 Table 2.8). -/
def class8 : List (Fields → Instr) :=
  [.rvadd, .rvsub, .rvmul, .rvfma, .rvnarrow, .rvshr, .rvrelu, .rvscale, .rvcvt]

/-- The ops of class 0x9 from op 0 up (02 Table 2.8). -/
def class9 : List (Fields → Instr) :=
  [.unadd, .unsub, .unmul, .unfma, .unnarrow, .unshr, .unrelu, .unscale, .uncvt]

/-- The ops of class 0xA from op 0 up (02 Table 2.8). -/
def classA : List (Fields → Instr) :=
  [fun f => if f.modBit 42 then .kprojDesc f else .kproj f, .kstore, .ksig, .kquery, .kcount, .kreset,
   fun f => if f.modBit 42 then .kmodeDense f else .kmode f, .ktrim]

/-- The ops of class 0xB from op 0 up (02 Table 2.8). -/
def classB : List (Fields → Instr) :=
  [.book, .bookq, .unbook, .compact, .launch, .gbar, .tdone, .slackrd,
   fun f => if f.modField 43 42 == 0 then .calrdSlot f else if f.modField 43 42 == 1 then .calrdOcc f else .calrdTask f,
   .yieldt]

/-- The ops of class 0xC from op 0 up (02 Table 2.8). -/
def classC : List (Fields → Instr) :=
  [.rkcopy, .rkxpose, .rkconv, .rkfill, .rkgather, .rkred, .twaitany, .twaitall, .tfirst,
   fun f => if f.modBit 42 then .tclrCancel f else .tclr f]

/-- The ops of class 0xD from op 0 up (02 Table 2.8). -/
def classD : List (Fields → Instr) :=
  [.lda, .strel, .fence, .amo, .cas, .futrd, .futwr, .futclr, .qpush, .qpop,
   fun f => if f.modBit 42 then .qtryPush f else .qtry f, .qfence, .pubhw, .readhw, .mbar]

/-- The ops of class 0xE from op 0 up (02 Table 2.8). -/
noncomputable def classE : List (Fields → Instr) :=
  [.gload, fun f => if f.modBit 42 then .gbindFree f else .gbind f, .cstart, .cpoll, .cflagrd, .cflagset,
   .cabort, .xsend, .xrecv]

/-- The ops of class 0xF from op 0 up (02 Table 2.8). -/
noncomputable def classF : List (Fields → Instr) :=
  [.trap, .eret, .crr, .crw, .waitev, .sigev, fun f => if f.modBit 43 then .hspawnKeep f else .hspawn f,
   .hstop, .vsave, .vrest, .tlbinv, .cflush, .brk]

/-- The lees-control ops of class 0x8, from op 0x40 (02 Table 2.8). -/
def class8Lees : List (Fields → Instr) :=
  [.lpush, .lpop, .lmark, .lchk, .lspill]


/-- The table of a class (02 Table 2.8). -/
noncomputable def classTable (c : BitVec 4) : List (Fields → Instr) :=
  match c with
  | 0x0 => class0
  | 0x1 => class1
  | 0x2 => class2
  | 0x3 => class3
  | 0x4 => class4
  | 0x5 => class5
  | 0x6 => class6
  | 0x7 => class7
  | 0x8 => class8
  | 0x9 => class9
  | 0xA => classA
  | 0xB => classB
  | 0xC => classC
  | 0xD => classD
  | 0xE => classE
  | _ => classF

/-- The instruction an assigned class and op pair names; its form may depend on MOD. -/
noncomputable def assigned (opc : BitVec 12) : Option (Fields → Instr) :=
  if opc.extractLsb' 8 4 == 0x8#4 && opc.extractLsb' 0 8 ≥ 0x40#8 then
    class8Lees[(opc.extractLsb' 0 8).toNat - 0x40]?
  else (classTable (opc.extractLsb' 8 4))[(opc.extractLsb' 0 8).toNat]?

/-- Steps 3 to 5 of 02 Table 2.7, so far as they need the word alone. -/
def checkForm (i : Instr) : Except DecodeError Instr :=
  match i.row with
  | none => .error .unassigned
  | some r =>
    if !r.f.rankOk then .error .rank
    else if r.unusedField then .error .unusedField
    else if r.badOperand then .error .badOperand
    else .ok i

/-- Decode a word, in the order of 02 Table 2.7 (R33). -/
noncomputable def decode (w : IWord) : Except DecodeError Instr :=
  match assigned (opcOf w) with
  | none => .error .unassigned
  | some form =>
    if w.extractLsb' 112 16 != 0 then .error .reservedBits
    else checkForm (form (fieldsOf w))

/-- The word of a class and op pair and fields (02 Table 2.1). -/
def packWord (opc : BitVec 12) (f : Fields) : IWord :=
  0#16 ++ (f.hints.keep ++ f.hints.hl ++ f.hints.hk ++ BitVec.ofBool f.hints.cr ++ f.hints.ck ++
    BitVec.ofBool f.hints.ce ++ f.hints.rank ++ f.hints.gap) ++ f.imm ++ f.x ++ f.mod ++ f.w ++ f.p ++ f.c ++ f.b ++
    f.a ++ f.d ++ opc

/-- The word of an instruction; none for a step of another agent, which has no encoding. -/
def encode (i : Instr) : Option IWord := i.row.map fun r => packWord r.opc r.f

/-- The 128-bit word that 16 bytes hold, the first at the lowest address (02 R17). -/
def wordOfBytes : List Byte → IWord
  | [] => 0
  | b :: bs => (b.setWidth 128) ||| (wordOfBytes bs <<< 8)

/-- The 16 bytes of a word, lowest address first (02 R17). -/
def bytesOfWord (w : IWord) : List Byte := (List.range 16).map fun k => w.extractLsb' (8 * k) 8

/-- The instruction the decoder reads from an instruction whose bits are `w`, bit 0 the least significant bit of the
word; every bit above the word's `nbits` is 0. -/
noncomputable def decodeTableWord (nbits w : Nat) : Option Instr :=
  (decode (wordOfBytes (bytesOfWord (BitVec.ofNat 128 (w % 2 ^ nbits))))).toOption

end Sys2Proof
end

