-- ==== Sys2Proof/Machine/Scalar.lean ====
section
/-!
DEFINITION. Class 0x0: integer arithmetic and logic, bit fields, constants and addresses, residues, loads and stores
(04 R75 to R83).
-/

namespace Sys2Proof.Machine

/-- Illegal instruction found at execution: EADDR holds bits [63:0] of the word (02 R34). -/
def illegalWord (s : State) (opc : BitVec 12) (f : Fields) : Eff := illegal s ((packWord opc f).setWidth 64)

/-- `op sD, sA, sB|imm` (04 R77). -/
def alu (f : Fields) (s : State) (g : Word → Word → Word) : Eff := .done (s.ws f.d (g (s.rs f.a) (s.opB f)))

/-- `op sD, sA`. -/
def alu1 (f : Fields) (s : State) (g : Word → Word) : Eff := .done (s.ws f.d (g (s.rs f.a)))

/-- num(x): the unsigned value when U, else the signed one (04 R77). -/
def numOf (u : Bool) (x : Word) : Int := if u then x.toNat else x.toInt

/-- High 64 bits of a product, with the signedness of MOD[43:42] (04 R77). -/
def mulHigh (code : Nat) (a b : Word) : Word :=
  let x : Int := if code = 1 then a.toNat else a.toInt
  let y : Int := if code = 0 then b.toInt else b.toNat
  BitVec.ofInt 64 (x * y / 2 ^ 64)

/-- DIV (04 Table 4.5a). -/
def divWord (u : Bool) (a b : Word) : Word :=
  if b = 0 then BitVec.allOnes 64
  else if u then BitVec.ofNat 64 (a.toNat / b.toNat)
  else BitVec.ofInt 64 (truncDiv a.toInt b.toInt)

/-- REM (04 Table 4.5a). -/
def remWord (u : Bool) (a b : Word) : Word :=
  if b = 0 then a
  else if u then BitVec.ofNat 64 (a.toNat % b.toNat)
  else BitVec.ofInt 64 (a.toInt - truncDiv a.toInt b.toInt * b.toInt)

/-- SHR: the whole unsigned amount (04 R77). -/
def shrWord (arith : Bool) (a b : Word) : Word :=
  if arith then a.sshiftRight (min b.toNat 64) else if b.toNat ≥ 64 then 0 else a >>> b.toNat

def shlWord (a b : Word) : Word := if b.toNat ≥ 64 then 0 else a <<< b.toNat

def rotWord (right : Bool) (a b : Word) : Word :=
  if right then a.rotateRight (b.toNat % 64) else a.rotateLeft (b.toNat % 64)

def minWord (u : Bool) (a b : Word) : Word := if numOf u a ≤ numOf u b then a else b
def maxWord (u : Bool) (a b : Word) : Word := if numOf u b ≤ numOf u a then a else b

/-- CLAMP: b > c gives c (04 R77). -/
def clampWord (u : Bool) (a b c : Word) : Word :=
  let t := if numOf u b ≤ numOf u a then a else b
  if numOf u t ≤ numOf u c then t else c

def execAdd (f : Fields) (s : State) : Out := commit (alu f s (· + ·))
def execSub (f : Fields) (s : State) : Out := commit (alu f s (· - ·))
def execMul (f : Fields) (s : State) : Out := commit (alu f s (· * ·))
def execMulh (f : Fields) (s : State) : Out := commit (alu f s (mulHigh (f.modField 43 42)))
def execDiv (f : Fields) (s : State) : Out := commit (alu f s (divWord (f.modBit 42)))
def execRem (f : Fields) (s : State) : Out := commit (alu f s (remWord (f.modBit 42)))
def execAnd (f : Fields) (s : State) : Out := commit (alu f s (· &&& ·))
def execOr (f : Fields) (s : State) : Out := commit (alu f s (· ||| ·))
def execXor (f : Fields) (s : State) : Out := commit (alu f s (· ^^^ ·))
def execAndn (f : Fields) (s : State) : Out := commit (alu f s fun a b => a &&& ~~~b)
def execShl (f : Fields) (s : State) : Out := commit (alu f s shlWord)
def execShr (f : Fields) (s : State) : Out := commit (alu f s (shrWord (f.modBit 42)))
def execRot (f : Fields) (s : State) : Out := commit (alu f s (rotWord (f.modBit 42)))
def execMin (f : Fields) (s : State) : Out := commit (alu f s (minWord (f.modBit 42)))
def execMax (f : Fields) (s : State) : Out := commit (alu f s (maxWord (f.modBit 42)))
def execCmp (f : Fields) (s : State) : Out :=
  commit (alu f s fun a b => if cond (f.modField 44 42) a b then 1 else 0)
def execSel (f : Fields) (s : State) : Out := commit (alu f s fun a b => if s.rs f.c ≠ 0 then a else b)
def execMuladd (f : Fields) (s : State) : Out := commit (alu f s fun a b => a * b + s.rs f.c)
def execClamp (f : Fields) (s : State) : Out := commit (alu f s fun a b => clampWord (f.modBit 42) a b (s.rs f.c))

/-! ## Bit fields, counts and reversal (04 R79) -/

def execClz (f : Fields) (s : State) : Out := commit (alu1 f s fun a => BitVec.ofNat 64 (leadZeros 64 a.toNat))
def execCtz (f : Fields) (s : State) : Out := commit (alu1 f s fun a => BitVec.ofNat 64 (trailZeros 64 a.toNat))
def execPopc (f : Fields) (s : State) : Out := commit (alu1 f s fun a => BitVec.ofNat 64 (popCount 64 a.toNat))

/-- A[pos+len−1:pos], extended (04 Table 4.5). -/
def fieldOf (sx : Bool) (pos len : Nat) (a : Word) : Word :=
  let v := bits a.toNat (pos + len - 1) pos
  if sx then BitVec.ofInt 64 (signed len v) else BitVec.ofNat 64 v

def execBfx (f : Fields) (s : State) : Out :=
  commit (alu1 f s (fieldOf (f.modBit 42) (f.immField 5 0) (f.immField 14 8)))

/-- BFI reads D as well (04 Table 4.5). -/
def execBfi (f : Fields) (s : State) : Out :=
  commit (alu1 f s fun a => setBits (s.rs f.d) (f.immField 5 0) (f.immField 14 8) a.toNat)

def execBrev (f : Fields) (s : State) : Out :=
  commit (alu1 f s fun a => BitVec.ofNat 64 (revBits f.imm.toNat a.toNat))

/-- EXT: the width of W codes 1 to 5 (04 Table 4.5). -/
def execExt (f : Fields) (s : State) : Out :=
  commit (alu1 f s fun a => fieldOf (!f.modBit 42) 0 (2 ^ f.w.toNat) a)

/-! ## Constants and addresses (04 R80) -/

def execLi (f : Fields) (s : State) : Out :=
  commit (.done (s.ws f.d (match f.modField 43 42 with
    | 0 => sextImm f
    | 1 => f.imm.setWidth 64
    | _ => (f.imm.setWidth 64 <<< 32) ||| (s.rs f.d &&& 0xFFFFFFFF#64))))

def execLea (f : Fields) (s : State) : Out :=
  commit (.done (s.ws f.d (s.rs f.a + (s.rs f.b <<< f.modField 44 42) + sextImm f)))

def execLeaPc (f : Fields) (s : State) : Out := commit (.done (s.ws f.d (s.me.pc + sextImm f)))

/-! ## Residues (04 R81) -/

/-- The modulus of a form: MODP, MODQ, or the value of C. -/
def modulusOf (f : Fields) (s : State) : Nat :=
  match f.modField 43 42 with
  | 0 => s.me.modp.toNat
  | 1 => s.me.modq.toNat
  | _ => (s.rs f.c).toNat

/-- MODMUL and MODADD: cause 0x01 when the modulus is below 2 or not below 2^31. -/
def modular (opc : BitVec 12) (f : Fields) (s : State) (g : Nat → Nat → Nat → Nat) : Eff :=
  let m := modulusOf f s
  if m < 2 ∨ 2 ^ 31 ≤ m then illegalWord s opc f
  else .done (s.ws f.d (BitVec.ofNat 64 (g ((s.rs f.a).toNat % m) ((s.opB f).toNat % m) m)))

def execModmul (f : Fields) (s : State) : Out := commit (modular 0x01E f s fun x y m => x * y % m)
def execModadd (f : Fields) (s : State) : Out :=
  commit (modular 0x01F f s fun x y m => if f.modBit 44 then (x + m - y) % m else (x + y) % m)

/-! ## Loads and stores (04 R82) -/

/-- Bytes of a W code 3 to 6. -/
def wBytes (f : Fields) : Nat := 2 ^ (f.w.toNat - 3)

/-- A loaded value of `w` bytes, sign- or zero-extended. -/
def extendLoad (u : Bool) (w v : Nat) : Word := if u then BitVec.ofNat 64 v else BitVec.ofInt 64 (signed (8 * w) v)

def execLd (f : Fields) (s : State) : Out :=
  commit (scalarLoad s (wBytes f) (s.baseImm f) fun s v => .done (s.ws f.d (extendLoad (f.modBit 42) (wBytes f) v)))

def execSt (f : Fields) (s : State) : Out :=
  commit (scalarStore s (wBytes f) (s.baseImm f) ((s.rs f.b).toNat % 2 ^ (8 * wBytes f)) .done)

end Sys2Proof.Machine
end

