-- ==== Sys2Proof/Machine/Operands.lean ====
section
/-!
DEFINITION. Vector operands: types from W and VTYPE, groups, element and mask access, predicates and policies, the checks
before an element is performed, stream bindings, and the loop over element groups (02 R18 to R23, 05 R90 to R106, 06 R166,
14 R362, R363).
-/

namespace Sys2Proof.Machine

/-! ## VTYPE (05 R90 to R93) -/

/-- Element width in bits of a SEW code (05 Table 5.1). -/
def sewBits : Nat → Nat
  | 0 => 8 | 1 => 16 | 2 => 32 | 3 => 64 | 4 => 2 | _ => 4

def vtSew (t : BitVec 16) : Nat := bits t.toNat 2 0
def vtFalt (t : BitVec 16) : Nat := bits t.toNat 5 3
def vtG (t : BitVec 16) : Nat := 2 ^ bits t.toNat 7 6
def vtColcap (t : BitVec 16) : Nat := 2 ^ bits t.toNat 11 8
def vtVlmax (t : BitVec 16) : Nat := min (vtG t * 16384 / sewBits (vtSew t)) 8192
def vtRowcap (t : BitVec 16) : Nat := vtVlmax t / vtColcap t

/-- How many FALT codes an element width has (05 Table 5.2); the narrow widths have the one that names no format. -/
def faltCount : Nat → Nat
  | 0 => 5 | 1 => 2 | _ => 1

/-- A VTYPE value that holds no reserved value (05 R90, R91, R93). -/
def vtypeOk (t : BitVec 16) : Bool :=
  vtSew t ≤ 5 && vtFalt t < faltCount (vtSew t) && bits t.toNat 11 8 ≤ 13 && vtColcap t ≤ vtVlmax t

def Hart.sew (h : Hart) : Nat := sewBits (vtSew h.vc.vtype)
def Hart.g (h : Hart) : Nat := vtG h.vc.vtype
def Hart.colcap (h : Hart) : Nat := vtColcap h.vc.vtype
def Hart.rowcap (h : Hart) : Nat := vtRowcap h.vc.vtype
def Hart.tp (h : Hart) : Bool := h.vc.vtype.getLsbD 14
def Hart.mp (h : Hart) : Bool := h.vc.vtype.getLsbD 15
def Hart.rows (h : Hart) : Nat := h.vc.vlrow.toNat
def Hart.cols (h : Hart) : Nat := h.vc.vlcol.toNat
def Hart.vstart (h : Hart) : Nat := h.vc.vstart.toNat
def Hart.setVstart (h : Hart) (k : Nat) : Hart := { h with vc := { h.vc with vstart := BitVec.ofNat 14 k } }

/-- The storage position of a body ordinal (05 R94). -/
def Hart.pos (h : Hart) (k : Nat) : Nat := k / h.cols * h.colcap + k % h.cols

/-- A floating-column type (02 Table 2.3, 05 Table 5.2). -/
inductive FTy where
  | fmt (f : Fmt)
  | grist (g : Grist)
  | mx
  deriving DecidableEq, Repr

/-- Width of an element in a register: a grist element counts as 8 bits (05 R92). -/
def FTy.width : FTy → Nat
  | .fmt f => f.width
  | .grist _ => 8
  | .mx => 8

/-- A nonzero W code in the integer column (02 Table 2.3). -/
def intCode : Nat → Option Nat
  | 1 => some 2 | 2 => some 4 | 3 => some 8 | 4 => some 16 | 5 => some 32 | 6 => some 64 | _ => none

/-- A nonzero W code in the floating column (02 Table 2.3). -/
def fltCode : Nat → Option FTy
  | 1 => some (.grist .mg2) | 2 => some (.grist .mg4) | 3 => some (.fmt .e4m3) | 4 => some (.fmt .bf16)
  | 5 => some (.fmt .b32) | 6 => some (.fmt .b64) | 7 => some (.fmt .e5m2) | 8 => some (.fmt .b16) | 9 => some .mx
  | 10 => some (.grist .mg7) | _ => none

/-- The floating format of SEW and FALT (05 Table 5.2). -/
def vtFlt (t : BitVec 16) : Option FTy :=
  match vtSew t, vtFalt t with
  | 0, 0 => some (.fmt .e4m3)
  | 0, 1 => some (.fmt .e5m2)
  | 0, 2 => some (.grist .mg2)
  | 0, 3 => some (.grist .mg4)
  | 0, 4 => some (.grist .mg7)
  | 1, 0 => some (.fmt .bf16)
  | 1, 1 => some (.fmt .b16)
  | 2, 0 => some (.fmt .b32)
  | 3, 0 => some (.fmt .b64)
  | _, _ => none

/-- The width an integer-column code gives; 0 takes VTYPE's (02 R22, 05 R91). -/
def Hart.intW (h : Hart) (code : Nat) : Option Nat := if code = 0 then some h.sew else intCode code

/-- The type a floating-column code gives; 0 takes VTYPE's. -/
def Hart.fltT (h : Hart) (code : Nat) : Option FTy := if code = 0 then vtFlt h.vc.vtype else fltCode code

/-- The scalar floating format a code gives; none for block types (05 R92). -/
def Hart.fmtOf (h : Hart) (code : Nat) : Option Fmt :=
  match h.fltT code with
  | some (.fmt f) => some f
  | _ => none

/-! ## Elements and masks -/

/-- Writes register `r`, whose highest written byte is `top` (14 R362). -/
def Hart.putV (h : Hart) (r : Nat) (v : VReg) (top : Nat) : Hart :=
  let i : Fin 32 := Fin.ofNat 32 r
  { h with
    v := h.v.set i v
    latch := dropLatch h.latch .vector i.val
    vc := { h.vc with
      vdirty := setBit h.vc.vdirty i.val true
      vhigh := h.vc.vhigh.set i (BitVec.ofNat 12 (max h.vc.vhigh[i].toNat (top + 1))) } }

/-- The element of width `w` at position `p` of the group that starts at register `n`. -/
def Hart.getE (h : Hart) (n w p : Nat) : Nat := getBits h.v[Fin.ofNat 32 (n + p * w / 16384)] (p * w % 16384) w

/-- Writes an element. -/
def Hart.setE (h : Hart) (n w p v : Nat) : Hart :=
  let r := n + p * w / 16384
  let lo := p * w % 16384
  h.putV r (setBits h.v[Fin.ofNat 32 r] lo w v) ((lo + w - 1) / 8)

/-- The bits of a mask, from either form (05 R102). -/
def Mask.toBits (m : Mask) : MBits :=
  match m with
  | .bitmap b => b
  | .list l => l.foldl (fun b k => setBit b k true) 0

/-- Writes mask register `n` (14 R362). -/
def Hart.putM (h : Hart) (n : Nat) (m : Mask) : Hart :=
  { h with m := h.m.set (Fin.ofNat 8 n) m, latch := dropLatch h.latch .mask (n % 8),
           vc := { h.vc with vdirty := setBit h.vc.vdirty (32 + n % 8) true } }

/-- Writes bit `k` of mask register `n`, which becomes a bitmap (05 R102). -/
def Hart.setM (h : Hart) (n k : Nat) (b : Bool) : Hart :=
  h.putM n (.bitmap (setBit (h.m[Fin.ofNat 8 n]).toBits k b))

/-- The bits of the mask P[34:32] names. -/
def Hart.predMask (h : Hart) (f : Fields) : Mask := h.m[Fin.ofNat 8 (f.p.toNat % 8)]

/-- pbit(k) xor MOD[41], with every ordinal enabled when there is no predicate (05 R103, R122). -/
def Hart.enabled (h : Hart) (f : Fields) (k : Nat) : Bool :=
  !f.predOn || ((h.predMask f).bit k != f.modBit 41)

/-- active(k) of 05 R103. -/
def Hart.active (h : Hart) (f : Fields) (k : Nat) : Bool := k < h.vl && h.vstart ≤ k && h.enabled f k

/-- The register of the predicate in VVALID's numbering. -/
def predRegs (f : Fields) : List Nat := if f.predOn then [32 + f.p.toNat % 8] else []

/-! ## Operand groups (02 R19, R20, 05 R95) -/

/-- A vector operand: first register, element width, and whether the entry gives it twice the width. -/
structure Opnd where
  reg : Nat
  w : Nat
  dbl : Bool := false
  deriving DecidableEq, Repr

/-- Registers of the group. -/
def Opnd.size (o : Opnd) (h : Hart) : Nat := if o.dbl then 2 * h.g else h.g

/-- The body fits a group of `size` registers at width `w` (05 R95). -/
def Hart.bodyFits (h : Hart) (size w : Nat) : Bool :=
  h.vl == 0 || (h.rows - 1) * h.colcap + h.cols ≤ size * 16384 / w

/-- Alignment and capacity of an operand. -/
def Opnd.ok (o : Opnd) (h : Hart) : Bool := o.size h ≤ 8 && o.reg % o.size h == 0 && h.bodyFits (o.size h) o.w

/-- Whether two runs of registers overlap. -/
def overlaps (a m b n : Nat) : Bool := a < b + n && b < a + m

/-- A destination may coincide exactly with a source and overlap it in no other way (02 R20). -/
def Opnd.clash (d s : Opnd) (h : Hart) : Bool :=
  overlaps d.reg (d.size h) s.reg (s.size h) && !(d.reg == s.reg && d.size h == s.size h)

/-- The registers of a group in VVALID's numbering. -/
def Opnd.regs (o : Opnd) (h : Hart) : List Nat := (List.range (o.size h)).map (o.reg + ·)

/-- Whether the operand groups pass 02 R19, R20 and 05 R95. -/
def groupsOk (h : Hart) (dsts srcs : List Opnd) : Bool :=
  (dsts ++ srcs).all (fun o => o.ok h) && dsts.all fun d => srcs.all fun o => !d.clash o h

/-! ## Tail (05 R103) -/

/-- The bits of a group that hold the body. -/
def Hart.bodyMask (h : Hart) (w : Nat) : Nat :=
  (List.range h.rows).foldl (fun a r => a ||| ((2 ^ (h.cols * w) - 1) <<< (r * h.colcap * w))) 0

/-- Zeroes every bit of a register outside `keep`. -/
def Hart.keepBits (h : Hart) (r keep : Nat) : Hart :=
  let k : VReg := BitVec.ofNat 16384 keep
  let out := ~~~k
  if out = 0 then h else h.putV r (h.v[Fin.ofNat 32 r] &&& k) (Nat.log2 out.toNat / 8)

/-- Zeroes the positions of a group outside the body. -/
def Hart.zeroTail (h : Hart) (o : Opnd) : Hart :=
  let m := h.bodyMask o.w
  (List.range (o.size h)).foldl (fun (x : Hart) i => x.keepBits (o.reg + i) (m >>> (16384 * i))) h

/-- The tail of a destination under TP. -/
def Hart.applyTp (h : Hart) (o : Opnd) : Hart := if h.tp then h.zeroTail o else h

/-- A mask destination as its instruction completes: the bits at and above VL under TP; a bitmap in any case (05 R102). -/
def Hart.applyTpM (h : Hart) (n : Nat) : Hart :=
  if h.tp then h.putM n (.bitmap ((h.m[Fin.ofNat 8 n]).toBits &&& BitVec.ofNat 8192 (2 ^ h.vl - 1)))
  else
    match h.m[Fin.ofNat 8 n] with
    | .bitmap _ => h
    | .list l => h.putM n (.bitmap (Mask.list l).toBits)

/-! ## Stream bindings (06 R165, R166) -/

/-- The registers a binding holds. -/
def VBind.size (b : VBind) : Nat := 2 ^ b.lg.toNat

/-- The W code of a format in the floating column (02 Table 2.3). -/
def Fmt.wCode : Fmt → Option (BitVec 4)
  | .e4m3 => some 3
  | .bf16 => some 4
  | .b32 => some 5
  | .b64 => some 6
  | .e5m2 => some 7
  | .b16 => some 8
  | _ => none

/-- The element type a binding keeps for a W code, as TYPE codes it: W = 0 takes VTYPE's as it then stands (06 R143, R165).
None for a block type, and for the widths of 2 and 4 bits, which 06 R144 gives to other instructions. -/
def Hart.bindType (h : Hart) (code : BitVec 4) : Option (BitVec 4) := (h.fmtOf code.toNat).bind Fmt.wCode

/-- The width of a binding's element type. -/
def VBind.width (b : VBind) : Nat := match fltCode b.type.toNat with | some t => t.width | none => 8

/-- The indices of the bindings of a direction whose group is one of the groups of `l`: first register and size. -/
def Hart.boundTo (h : Hart) (out : Bool) (l : List (Nat × Nat)) : List (Fin 4) :=
  (List.finRange 4).filter fun i =>
    (h.vbind[i]).v && (h.vbind[i]).out == out && l.any fun o => (h.vbind[i]).group.toNat == o.1 && (h.vbind[i]).size == o.2

/-- The indices of the bindings of a direction whose group is among the operands. -/
def Hart.bindings (h : Hart) (out : Bool) (l : List Opnd) : List (Fin 4) := h.boundTo out (l.map fun o => (o.reg, o.size h))

/-- Writes elements to a group in ordinal order, from ordinal 0. -/
def Hart.putBody (h : Hart) (n size w : Nat) (l : List Nat) : Hart :=
  ((List.range l.length).zip l).foldl (fun (x : Hart) e =>
    if h.pos e.1 * w / 16384 < size then x.setE n w (h.pos e.1) e.2 else x) h

/-- The pull of one IN binding: elements into the body, or the end of the stream (06 R166). -/
def pullOne (s : State) (i : Fin 4) : Eff :=
  let h := s.me
  let b := h.vbind[i]
  let x := s.myHandle b.handle.toNat
  if b.drained then .done s
  else if !x.isPort true then laneFault s
  else if h.vl ≤ x.port.length then
    .done ((s.setMyHandle b.handle.toNat { x with port := x.port.drop h.vl }).modMe fun h =>
      h.putBody b.group.toNat b.size b.width (x.port.take h.vl))
  else if x.ended then
    let s := s.setMyHandle b.handle.toNat { x with port := [] }
    .trap (s.modMe fun h =>
      { (h.putBody b.group.toNat b.size b.width x.port) with vbind := h.vbind.set i { b with drained := true } })
      { cause := 0x17, eaddr := BitVec.ofNat 64 x.port.length }
  else .wait s .stream

/-- The pulls an element-wise instruction makes before its first element, in the order of the bindings. It waits with nothing pulled
while one of them cannot be made; where a stream ends, the groups before it keep what they have pulled, and the instruction
that runs again pulls them anew (in part DEDUCED, log 23). -/
def pullAll (s : State) : List (Fin 4) → Eff
  | [] => .done s
  | i :: r =>
    match pullOne s i with
    | .done t =>
      (match pullAll t r with
        | .wait _ w => .wait s w
        | e => e)
    | e => e

/-- Whether the running hart may send on a binding: its handle is a hart port, and a lane is or can be its own
(in part DEDUCED, log 23). -/
def State.canPush (s : State) (b : VBind) : Bool :=
  let x := s.myHandle b.handle.toNat
  x.isPort false && (x.takeLane (producerOf s.cur)).isSome

/-- The push of one OUT binding: the group's body elements in ordinal order (06 R166). -/
def pushOne (s : State) (i : Fin 4) : State :=
  let h := s.me
  let b := h.vbind[i]
  let x := s.myHandle b.handle.toNat
  let l := (List.range h.vl).map fun k => h.getE b.group.toNat b.width (h.pos k)
  match x.send (producerOf s.cur) l with
  | some y => s.setMyHandle b.handle.toNat y
  | none => s

/-- Pushes OUT bindings (in part DEDUCED, log 23). -/
def pushBound (s : State) (outs : List (Fin 4)) : State := if s.me.vl = 0 then s else outs.foldl pushOne s

/-- Pushes every OUT binding among the destinations. -/
def pushAll (s : State) (dsts : List Opnd) : State := pushBound s (s.me.bindings true dsts)

/-- An instruction after its pulls. One that then waits, or that stops before its first element group, is performed again
with VSTART = 0, so nothing stays pulled (06 R166, in part DEDUCED, log 23). -/
def afterPull (s : State) (e : Eff) : Eff :=
  match e with
  | .wait _ w => .wait s w
  | .jump t pc => .jump (if t.me.vstart = 0 then s else t) pc
  | e => e

/-- What comes before an instruction's elements (06 R166): a full port holds it, a lane error faults it, and the IN bindings
`ins` are pulled when it issues with VSTART = 0. With VL = 0 no element moves on either side, so that no cause can be raised
(05 R106) (in part DEDUCED, log 23). -/
def withBindings (s : State) (outs ins : List (Fin 4)) (k : State → Eff) : Eff :=
  let ports := outs.map fun i => s.me.vbind[i]
  if s.me.vl = 0 then k s
  else if ports.any fun b => !s.canPush b then laneFault s
  else if ports.any fun b => (s.myHandle b.handle.toNat).portFull then .wait s .stream
  else if ins.isEmpty ∨ s.me.vstart ≠ 0 then k s
  else
    match pullAll s ins with
    | .done t => afterPull s (k t)
    | e => e

/-- `withBindings` for the groups of an instruction's operands: the destinations and the sources it pulls. -/
def withStreams (s : State) (dsts pulls : List Opnd) (k : State → Eff) : Eff :=
  withBindings s (s.me.bindings true dsts) (s.me.bindings false pulls) k

/-! ## The loop over element groups (05 R97, R103, R104, 03 R61) -/

/-- How a run of element groups ends. -/
inductive Ran where
  | all (h : Hart)
  | stopped (h : Hart) (k : Nat)
  | fpTrap (h : Hart) (k idx : Nat) (fl : FFlags)
  deriving Repr

/-- Whether a flag of `fl` has its trap enabled. -/
def Hart.trapsOn (h : Hart) (fl : FFlags) : Bool := (fl &&& h.fp.ctl.enables) != 0

/-- One element group: each ordinal in turn, its flags, and the lowest ordinal that raised an enabled one. -/
def runGroup (body : Hart → Nat → Hart × FFlags) (h : Hart) (ks : List Nat) : Hart × FFlags × Option Nat :=
  ks.foldl (fun (a : Hart × FFlags × Option Nat) k =>
    let r := body a.1 k
    (r.1, a.2.1 ||| r.2, match a.2.2 with
      | some i => some i
      | none => if h.trapsOn r.2 then some k else none)) (h, 0, none)

/-- Element groups from ordinal `k` up, `stop` of them at most. `body` is given the hart as the group starts, from which it
reads its sources, and the hart so far (DESIGN CHOICE, log 5). -/
def runGroups (epg vl : Nat) (body : Hart → Hart → Nat → Hart × FFlags) : Nat → Option Nat → Nat → Hart → Ran
  | 0, _, _, h => .all h
  | n + 1, stop, k, h =>
    if vl ≤ k then .all h
    else if stop = some 0 then .stopped h k
    else
      let e := min vl ((k / epg + 1) * epg)
      let r := runGroup (body h) h ((List.range (e - k)).map (k + ·))
      match r.2.2 with
      | some i => .fpTrap h k i r.2.1
      | none => runGroups epg vl body n (stop.map (· - 1)) e (r.1.addFlags r.2.1)

/-- EPG (05 R97). -/
def epgOf (l : List Nat) : Nat := 2048 / l.foldl max 2

/-- The floating-point trap (03 R61): VSTART at the group's first element (in part DEDUCED, log 22). -/
def fpTrap (s : State) (h : Hart) (k idx : Nat) (fl : FFlags) : Eff :=
  .trap (s.modMe fun _ => h.setVstart k) { cause := 0x13, eidx := BitVec.ofNat 64 idx, eaddr := fl.setWidth 64 }

/-- What an element-wise instruction writes. -/
inductive Dst where
  | vec (o : Opnd)
  | mask (n : Nat)
  | none
  deriving DecidableEq, Repr

def Dst.opnds : Dst → List Opnd
  | .vec o => [o]
  | _ => []

def Dst.regs (d : Dst) (h : Hart) : List Nat :=
  match d with
  | .vec o => o.regs h
  | .mask n => [32 + n]
  | .none => []

/-- The tail of a destination as the instruction completes. -/
def Hart.applyTpD (h : Hart) (d : Dst) : Hart :=
  match d with
  | .vec o => h.applyTp o
  | .mask n => h.applyTpM n
  | .none => h

/-- A resumable instruction (05 R103 to R106): checks, first use, streams, element groups from VSTART, then tail, VSTART, the
step of SRSEED, and the pushes. `srcs`: the vector sources; `masks`: other mask registers read; `rm`: the mode when it
rounds; `epg` is from the widths of the operands. -/
def resumable (s : State) (opc : BitVec 12) (f : Fields) (d : Dst) (srcs : List Opnd) (masks : List Nat)
    (rm : Option RMode) (body : Hart → Hart → Nat → Hart × FFlags) : Eff :=
  if !groupsOk s.me d.opnds srcs then illegalWord s opc f
  else
    withRegs s (d.regs s.me ++ srcs.flatMap (fun o => o.regs s.me) ++ masks ++ predRegs f)
      (withStreams s d.opnds srcs fun s =>
        let h := s.me
        let epg := epgOf ((d.opnds ++ srcs).map Opnd.w)
        match runGroups epg h.vl body (h.vl + 1) s.stopAfter h.vstart h with
        | .fpTrap x k i fl => fpTrap s x k i fl
        | .stopped x k => .jump (s.modMe fun _ => x.setVstart k) h.pc
        | .all x =>
          let x := if h.vstart < h.vl then x.applyTpD d else x
          let x := (x.setVstart 0).stepSeed (rm.getD .rne)
          .done (pushAll (s.modMe fun _ => x) d.opnds))

/-- Writes ordinal `k` of a vector destination by the policies of 05 R103: `r` is asked for an active one only. -/
def Hart.putK (h : Hart) (f : Fields) (o : Opnd) (k : Nat) (r : Unit → Nat × FFlags) : Hart × FFlags :=
  if h.enabled f k then
    let x := r ()
    (h.setE o.reg o.w (h.pos k) x.1, x.2)
  else if h.mp then (h.setE o.reg o.w (h.pos k) 0, 0)
  else (h, 0)

/-- Writes ordinal `k` of a mask destination by the policies of 05 R103. -/
def Hart.putMk (h : Hart) (f : Fields) (n k : Nat) (r : Unit → Bool × FFlags) : Hart × FFlags :=
  if h.enabled f k then
    let x := r ()
    (h.setM n k x.1, x.2)
  else if h.mp then (h.setM n k false, 0)
  else (h, 0)

/-- A non-resumable instruction (05 R104): VSTART must be 0, then checks, first use and streams. With VL = 0 it raises no
cause for VSTART, which it leaves as it is (05 R106) (DESIGN CHOICE, log 22). -/
def nonResumable (s : State) (opc : BitVec 12) (f : Fields) (d : Dst) (srcs : List Opnd) (masks : List Nat)
    (ok : Bool) (k : State → Eff) : Eff :=
  if (s.me.vstart ≠ 0 ∧ s.me.vl ≠ 0) ∨ !ok ∨ !groupsOk s.me d.opnds srcs then illegalWord s opc f
  else
    withRegs s (d.regs s.me ++ srcs.flatMap (fun o => o.regs s.me) ++ masks ++ predRegs f)
      (withStreams s d.opnds [] k)

/-- The value of operand B for element `k`: a vector element, the low bits of a scalar, or IMM (05 R108). -/
def Hart.elemB (h : Hart) (f : Fields) (w k : Nat) : Nat :=
  if f.immB then (sextImm f).toNat % 2 ^ w
  else if f.scalarB then (h.rs f.b).toNat % 2 ^ w
  else h.getE f.b.toNat w (h.pos k)

/-- The vector sources A and B of a binary form. -/
def srcAB (f : Fields) (wa wb : Nat) : List Opnd :=
  ⟨f.a.toNat, wa, false⟩ :: (if f.immB || f.scalarB then [] else [⟨f.b.toNat, wb, false⟩])

end Sys2Proof.Machine
end

