-- ==== Sys2Proof/Machine/VecFloat.lean ====
section
/-!
DEFINITION. Class 0x3: vector floating point and conversion (05 R112 to R118).
-/

namespace Sys2Proof.Machine

/-! ## Immediates (05 R112) -/

/-- A binary32 encoding widened exactly to binary64. -/
def widen32 (v : Nat) : Nat :=
  let f := Fmt.b32
  if f.expOf v = f.expOnes then Fmt.b64.signBit (f.signOf v) + 0x7FF * 2 ^ 52 + f.fracOf v * 2 ^ 29
  else (Fmt.b64.roundVal ⟨.rne, false, 0, 0⟩ false 0 (f.val false v)).1

/-- Whether an IMM may stand for an element of the format: its bits above the width are zero. -/
def immFits (t : Fmt) (f : Fields) : Bool := t.width ≥ 32 || f.imm.toNat < 2 ^ t.width

/-- The element an IMM stands for. -/
def immElem (t : Fmt) (f : Fields) : Nat := if t = .b64 then widen32 f.imm.toNat else f.imm.toNat % 2 ^ t.width

/-- Operand B of a floating form for element `k`. -/
def Hart.fltB (h : Hart) (f : Fields) (t : Fmt) (k : Nat) : Nat :=
  if f.immB then immElem t f
  else if f.scalarB then (h.rs f.b).toNat % 2 ^ t.width
  else h.getE f.b.toNat t.width (h.pos k)

/-! ## Arithmetic -/

/-- The output half of FLUSH on a result that was not rounded (03 R62). -/
def Fmt.flushRes (t : Fmt) (env : FEnv) (r : Nat × FFlags) : Nat × FFlags :=
  if env.flushOut && t.flushable && t.isSub r.1 then (t.signBit (t.signOf r.1), r.2 ||| fUF ||| fNX) else r

/-- A binary op in one format: `g` is given the format, the environment, the element index and the operands. -/
def vfbin (opc : BitVec 12) (f : Fields) (s : State) (rounds : Bool)
    (g : Fmt → FEnv → Nat → Nat → Nat → Nat × FFlags) : Eff :=
  match s.me.fmtOf f.w.toNat with
  | none => illegalWord s opc f
  | some t =>
    if f.immB && !immFits t f then illegalWord s opc f
    else
      let d : Opnd := ⟨f.d.toNat, t.width, false⟩
      let code := f.modField 44 42
      resumable s opc f (.vec d) (srcAB f t.width t.width) [] (if rounds then some (s.me.rmode code) else none)
        fun h x k => x.putK f d k fun _ =>
          g t (h.fenv code) (h.pos k) (h.getE f.a.toNat t.width (h.pos k)) (h.fltB f t k)

/-- A unary op in one format. -/
def vfun (opc : BitVec 12) (f : Fields) (s : State) (g : Fmt → FEnv → Nat → Nat → Nat × FFlags) : Eff :=
  match s.me.fmtOf f.w.toNat with
  | none => illegalWord s opc f
  | some t =>
    let d : Opnd := ⟨f.d.toNat, t.width, false⟩
    let code := f.modField 44 42
    resumable s opc f (.vec d) [⟨f.a.toNat, t.width, false⟩] [] (some (s.me.rmode code))
      fun h x k => x.putK f d k fun _ => g t (h.fenv code) (h.pos k) (h.getE f.a.toNat t.width (h.pos k))

def execVfadd (f : Fields) (s : State) : Out := commit (vfbin 0x300 f s true fun t e i a b => t.fadd e i a b)
def execVfsub (f : Fields) (s : State) : Out := commit (vfbin 0x301 f s true fun t e i a b => t.fsub e i a b)
def execVfmul (f : Fields) (s : State) : Out := commit (vfbin 0x302 f s true fun t e i a b => t.fmul e i a b)
def execVfdiv (f : Fields) (s : State) : Out := commit (vfbin 0x303 f s true fun t e i a b => t.fdiv e i a b)

/-- VFMA (05 R114). -/
def execVfma (f : Fields) (s : State) : Out :=
  commit (match s.me.fmtOf f.w.toNat with
    | none => illegalWord s 0x304 f
    | some t =>
      if f.immB && !immFits t f then illegalWord s 0x304 f
      else
        let d : Opnd := ⟨f.d.toNat, t.width, false⟩
        let code := f.modField 44 42
        resumable s 0x304 f (.vec d) (srcAB f t.width t.width ++ [⟨f.c.toNat, t.width, false⟩]) []
          (some (s.me.rmode code)) fun h x k => x.putK f d k fun _ =>
            t.ffma (h.fenv code) (h.pos k) (f.modBit 45) (f.modBit 46) (h.getE f.a.toNat t.width (h.pos k))
              (h.fltB f t k) (h.getE f.c.toNat t.width (h.pos k)))

/-- The wide format of VFWMA (05 R115). -/
def wideOf : Fmt → Option Fmt
  | .e4m3 => some .bf16 | .e5m2 => some .bf16 | .bf16 => some .b32 | .b16 => some .b32 | .b32 => some .b64
  | _ => none

/-- ±(A × B) ± C with A and B narrow and C wide, rounded once (05 R115, 03 R45): a NaN of C is quietened, when A and B hold
none; any NaN of A or B gives the canonical NaN. -/
def wideFma (n t : Fmt) (env : FEnv) (i : Nat) (np nc : Bool) (a b c : Nat) : Nat × FFlags :=
  let nv : FFlags := if n.isSNaN a || n.isSNaN b || t.isSNaN c then fNV else 0
  if n.isNaN a || n.isNaN b then (t.canonNaN, nv)
  else if t.isNaN c then (t.quiet c, nv)
  else t.finish env i
    (fmaExact env.mode np nc (n.val env.flushIn a) (n.val env.flushIn b) (t.val env.flushIn c))

/-- VFWMA: C and D at 2w. -/
def execVfwma (f : Fields) (s : State) : Out :=
  commit (match s.me.fmtOf f.w.toNat with
    | none => illegalWord s 0x305 f
    | some n =>
      match wideOf n with
      | none => illegalWord s 0x305 f
      | some t =>
        if f.immB && !immFits n f then illegalWord s 0x305 f
        else
          let d : Opnd := ⟨f.d.toNat, t.width, true⟩
          let code := f.modField 44 42
          resumable s 0x305 f (.vec d) (srcAB f n.width n.width ++ [⟨f.c.toNat, t.width, true⟩]) []
            (some (s.me.rmode code)) fun h x k => x.putK f d k fun _ =>
              wideFma n t (h.fenv code) (h.pos k) (f.modBit 45) (f.modBit 46)
                (h.getE f.a.toNat n.width (h.pos k)) (h.fltB f n k) (h.getE f.c.toNat t.width (h.pos k)))

def execVfmin (f : Fields) (s : State) : Out :=
  commit (vfbin 0x306 f s false fun t e _ a b => t.flushRes e (t.fminmax false e.flushIn a b))
def execVfmax (f : Fields) (s : State) : Out :=
  commit (vfbin 0x307 f s false fun t e _ a b => t.flushRes e (t.fminmax true e.flushIn a b))
def execVfsqrt (f : Fields) (s : State) : Out := commit (vfun 0x308 f s fun t e i a => t.fsqrt e i a)
def execVfrsq (f : Fields) (s : State) : Out := commit (vfun 0x309 f s fun t e i a => t.frsq e i a)
def execVfrcp (f : Fields) (s : State) : Out := commit (vfun 0x30A f s fun t e i a => t.frcp e i a)

/-! ## VFEXP -/

/-- Bits of the fixed-point evaluation of 2^x. -/
def expBits : Nat := 320

/-- floor(ln 2 × 2^320). -/
def ln2Fix : Nat := 0xb17217f7d1cf79abc9e3b39803f2f6af40f343267298b62d8a0d175b8baafa2be7b876206debac98

/-- Terms `n`, `n + 1`, … of the exponential series of `x`, in fixed point, `t` being the last one added. -/
def expSeries (x : Nat) : Nat → Nat → Nat → Nat → Nat
  | 0, _, _, acc => acc
  | k + 1, n, t, acc => let t' := ((t * x) >>> expBits) / n; expSeries x k (n + 1) t' (acc + t')

/-- 2^(fr / 2^320) in fixed point, from below. -/
def exp2Frac (fr : Nat) : Nat := expSeries ((fr * ln2Fix) >>> expBits) 80 1 (2 ^ expBits) (2 ^ expBits)

/-- 2^a for a finite value: exact for an integer, else to 320 bits with a sticky bit below. A magnitude beyond 2^14 gives
2^±16384, which overflows or vanishes in every format just as the exact value does. -/
def exp2Val (neg : Bool) (man : Nat) (exp : Int) : Nat × Int :=
  if man = 0 then (1, 0)
  else if flog2 man exp ≥ 14 then (1, if neg then -16384 else 16384)
  else
    let v : Int := sman neg man
    let fix : Int := if 0 ≤ exp + expBits then v * (2 ^ (exp + expBits).toNat : Nat)
      else v / (2 ^ (-(exp + expBits)).toNat : Nat)
    let whole : Int := fix / (2 ^ expBits : Nat)
    let fr := (fix % (2 ^ expBits : Nat)).toNat
    let exact := fr = 0 ∧ (0 ≤ exp + expBits ∨ v % (2 ^ (-(exp + expBits)).toNat : Nat) = 0)
    if exact then (1, whole) else (2 * exp2Frac fr + 1, whole - expBits - 1)

/-- 2^A in one format, correctly rounded (05 Table 5.12) (in part DEDUCED, log 22). -/
def Fmt.fexp (t : Fmt) (env : FEnv) (i a : Nat) : Nat × FFlags :=
  match t.nanOf [a] with
  | some r => r
  | none =>
    match t.val env.flushIn a with
    | .inf neg => if neg then (0, 0) else t.roundVal env false i (.inf false)
    | .fin neg m e => let r := exp2Val neg m e; t.roundFin env false i false r.1 r.2
    | .nan _ => (t.canonNaN, 0)

def execVfexp (f : Fields) (s : State) : Out := commit (vfun 0x30B f s fun t e i a => t.fexp e i a)

/-! ## Bit patterns, scaling, rounding to integers -/

/-- VFSGN: the magnitude of a with a sign from b (05 R113). -/
def Fmt.fsgn (t : Fmt) (code a b : Nat) : Nat :=
  let sa := t.signOf a
  let sb := t.signOf b
  a % 2 ^ (t.width - 1) + t.signBit (match code with | 0 => sb | 1 => !sb | _ => sa != sb)

def execVfsgn (f : Fields) (s : State) : Out :=
  commit (vfbin 0x30C f s false fun t _ _ a b => (t.fsgn (f.modField 46 45) a b, 0))

/-- The class bit of an element (05 R117). -/
def Fmt.classOf (t : Fmt) (v : Nat) : Nat :=
  let neg := t.signOf v
  if t.isNaN v then (if t.isSNaN v then 8 else 9)
  else if t.isInf v then (if neg then 0 else 7)
  else if t.isSub v then (if neg then 2 else 5)
  else if t.expOf v = 0 then (if neg then 3 else 4)
  else if neg then 1 else 6

/-- VFCLASS (05 R117). -/
def execVfclass (f : Fields) (s : State) : Out :=
  commit (match s.me.fmtOf f.w.toNat with
    | none => illegalWord s 0x30D f
    | some t =>
      resumable s 0x30D f (.mask f.d.toNat) [⟨f.a.toNat, t.width, false⟩] [] none fun h x k =>
        x.putMk f f.d.toNat k fun _ => (f.x.getLsbD (t.classOf (h.getE f.a.toNat t.width (h.pos k))), 0))

/-- VFSCALE: a × 2^b; beyond 2^13 the result overflows or vanishes alike (05 Table 5.12) (in part DEDUCED, log 22). -/
def Fmt.fscale (t : Fmt) (env : FEnv) (i a b : Nat) : Nat × FFlags :=
  match t.nanOf [a] with
  | some r => r
  | none =>
    match t.val env.flushIn a with
    | .fin neg m e => t.roundFin env false i neg m (e + clampInt (-8192) 8192 (signed t.width b))
    | v => t.roundVal env false i v

/-- VFSCALE: B is an integer at the format's width. -/
def execVfscale (f : Fields) (s : State) : Out :=
  commit (match s.me.fmtOf f.w.toNat with
    | none => illegalWord s 0x30F f
    | some t =>
      let d : Opnd := ⟨f.d.toNat, t.width, false⟩
      let code := f.modField 44 42
      resumable s 0x30F f (.vec d) (srcAB f t.width t.width) [] (some (s.me.rmode code))
        fun h x k => x.putK f d k fun _ =>
          t.fscale (h.fenv code) (h.pos k) (h.getE f.a.toNat t.width (h.pos k)) (h.elemB f t.width k))

/-- VFRND: NXOFF suppresses NX (05 Table 5.11). -/
def execVfrnd (f : Fields) (s : State) : Out :=
  commit (vfun 0x310 f s fun t e i a =>
    let r := t.froundInt e i a
    (r.1, if f.modBit 45 then r.2 &&& ~~~fNX else r.2))

/-! ## VFCVT (05 R116) -/

/-- A side of a conversion. -/
inductive CTy where
  | int (w : Nat) (u : Bool)
  | fmt (t : Fmt)
  | grist (g : Grist)
  deriving DecidableEq, Repr

def CTy.width : CTy → Nat
  | .int w _ => w
  | .fmt t => t.width
  | .grist _ => 8

def CTy.isGrist : CTy → Bool
  | .grist _ => true
  | _ => false

/-- The type a side names: its code, in the column it selects. -/
def Hart.cvtSide (h : Hart) (isInt u : Bool) (code : Nat) : Option CTy :=
  if isInt then (h.intW code).map fun w => .int w u
  else
    match h.fltT code with
    | some (.fmt t) => some (.fmt t)
    | some (.grist g) => some (.grist g)
    | _ => none

/-- The 16-byte slot that holds storage position `p` of a group (05 R92). -/
def Hart.slotOf (h : Hart) (n p : Nat) : Nat := h.getE n 128 (p / 16)

/-- An element of the source as a value, with its sign bit; inputs are flushed (03 R62). -/
def Hart.cvtSrc (h : Hart) (t : CTy) (n p : Nat) (fl : Bool) : FVal × Bool :=
  match t with
  | .int w u => let x := intVal w u (h.getE n w p); (FVal.ofInt x, x < 0)
  | .fmt t => let v := h.getE n t.width p; (t.val fl v, t.signOf v)
  | .grist g =>
    let b := h.slotOf n p
    (g.elem b (p % 16), (b >>> (16 + (g.k + 1) * (p % 16) + g.k)) % 2 = 1)

/-- One element to a scalar type. -/
def Hart.cvtElem (h : Hart) (src dst : CTy) (n p : Nat) (env : FEnv) : Nat × FFlags :=
  match src, dst with
  | .int w u, .int n' u' => convII n' u' (intVal w u (h.getE n w p))
  | .int w u, .fmt t => convIF t env p (intVal w u (h.getE n w p))
  | .fmt t, .int n' u' => convFI t n' u' env p (h.getE n t.width p)
  | .fmt a, .fmt b =>
    let v := h.getE n a.width p
    if a = b ∧ a.isNaN v then (a.quiet v, if a.isSNaN v then fNV else 0)
    else if a = b ∧ a.isInf v then (v, 0)
    else convFF a b env p v
  | .grist g, .fmt t => t.roundVal env true p (g.elem (h.slotOf n p) (p % 16))
  | .grist g, .int n' u' =>
    let r := intRange n' u'
    (match g.elem (h.slotOf n p) (p % 16) with
      | .fin neg m e =>
        let q := roundAt env.mode neg (srDraw env.seed p) m e 0
        let x := sman neg q.1
        if x < r.1 then (wrap n' r.1, fNV) else if r.2 < x then (wrap n' r.2, fNV)
        else (wrap n' x, if q.2 then fNX else 0)
      | _ => (0, fNV))
  | _, .grist _ => (0, 0)

/-- The 16 values that enter the quantisation of the slot of ordinals `k0` to `k0` + 15: those not active enter as +0. -/
def Hart.slotVals (h : Hart) (f : Fields) (src : CTy) (n k0 : Nat) (fl : Bool) : List (FVal × Bool) :=
  (List.range 16).map fun i =>
    if h.enabled f (k0 + i) then h.cvtSrc src n (h.pos (k0 + i)) fl else (.fin false 0 0, false)

/-- The flags that element `i` of a quantised block raises of the block's (03 R48): NV for a NaN or an infinity, the others
where the stored value differs (in part DEDUCED, log 21). -/
def quantFlags (g : Grist) (x : FVal) (blk i : Nat) (fl : FFlags) : FFlags :=
  if x.isNaN || x.isInf then fl &&& fNV
  else if FVal.eq (g.elem blk i) x then 0 else fl &&& ~~~fNV

/-- Ordinal `k` of a conversion to grist: its slot is written with its first ordinal (in part DEDUCED, log 21). -/
def cvtSlot (f : Fields) (src : CTy) (g : Grist) (d : Opnd) (code : Nat) (h x : Hart) (k : Nat) : Hart × FFlags :=
  let k0 := k / 16 * 16
  let p := h.pos k0
  let any := (List.range 16).any fun i => h.enabled f (k0 + i)
  if any then
    let env := h.fenv code
    let vs := h.slotVals f src f.a.toNat k0 env.flushIn
    let r := g.quantise env p (vs.map (·.1)) (vs.map (·.2))
    let v := (vs.getD (k - k0) (.fin false 0 0, false)).1
    (if k = k0 then x.setE d.reg 128 (p / 16) r.1 else x, quantFlags g v r.1 (k - k0) r.2)
  else if h.mp && k = k0 then (x.setE d.reg 128 (p / 16) 0, 0)
  else (x, 0)

/-- VFCVT (in part DEDUCED, log 22). -/
def vfcvt (f : Fields) (s : State) : Eff :=
  let h := s.me
  match h.cvtSide (f.x.getLsbD 4) (f.x.getLsbD 5) (f.xField 3 0), h.cvtSide (f.modBit 45) (f.modBit 46) f.w.toNat with
  | some src, some dst =>
    let ws := src.width
    let wd := dst.width
    let anyGrist := src.isGrist || dst.isGrist
    if (ws ≠ wd ∧ ws ≠ 2 * wd ∧ wd ≠ 2 * ws) ∨
        (anyGrist ∧ (h.colcap % 16 ≠ 0 ∨ h.cols % 16 ≠ 0 ∨ h.vstart % 16 ≠ 0)) then illegalWord s 0x30E f
    else
      let d : Opnd := ⟨f.d.toNat, wd, decide (ws < wd)⟩
      let a : Opnd := ⟨f.a.toNat, ws, decide (wd < ws)⟩
      let code := f.modField 44 42
      let rounds := !(f.x.getLsbD 4 && f.modBit 45)
      resumable s 0x30E f (.vec d) [a] [] (if rounds then some (h.rmode code) else none) fun h x k =>
        match dst with
        | .grist g => cvtSlot f src g d code h x k
        | _ => x.putK f d k fun _ => h.cvtElem src dst f.a.toNat (h.pos k) (h.fenv code)
  | _, _ => illegalWord s 0x30E f

def execVfcvt (f : Fields) (s : State) : Out := commit (vfcvt f s)

/-- VFNF (05 R118): NFFLAG at the completion of each group, and with MASKOUT a mask. -/
def execVfnf (f : Fields) (s : State) : Out :=
  commit (match s.me.fmtOf f.w.toNat with
    | none => illegalWord s 0x311 f
    | some t =>
      let out := f.modBit 45
      resumable s 0x311 f (if out then .mask f.d.toNat else .none) [⟨f.a.toNat, t.width, false⟩] [] none fun h x k =>
        let v := h.getE f.a.toNat t.width (h.pos k)
        let nf := t.isNaN v || t.isInf v
        let x := if h.enabled f k then
            { x with vc := { x.vc with
              nfflag := x.vc.nfflag ||| BitVec.ofNat 3 (nf.toNat + 2 * (t.isInf v).toNat + 4 * (t.isNaN v).toNat) } }
          else x
        if out then x.putMk f f.d.toNat k fun _ => (nf, 0) else (x, 0))

end Sys2Proof.Machine
end

