-- ==== Sys2Proof/Machine/VecInt.lean ====
section
/-!
DEFINITION. Class 0x2: vector integer and logic (05 R108 to R111).
-/

namespace Sys2Proof.Machine

/-- A binary op at the element width: `g w a b` is d[k] (05 R109). -/
def vbin (opc : BitVec 12) (f : Fields) (s : State) (g : Nat → Nat → Nat → Nat) : Eff :=
  match s.me.intW f.w.toNat with
  | none => illegalWord s opc f
  | some w =>
    let d : Opnd := ⟨f.d.toNat, w, false⟩
    resumable s opc f (.vec d) (srcAB f w w) [] none fun h x k =>
      x.putK f d k fun _ => (g w (h.getE f.a.toNat w (h.pos k)) (h.elemB f w k), 0)

/-- A unary op. -/
def vun (opc : BitVec 12) (f : Fields) (s : State) (g : Nat → Nat → Nat) : Eff :=
  match s.me.intW f.w.toNat with
  | none => illegalWord s opc f
  | some w =>
    let d : Opnd := ⟨f.d.toNat, w, false⟩
    resumable s opc f (.vec d) [⟨f.a.toNat, w, false⟩] [] none fun h x k =>
      x.putK f d k fun _ => (g w (h.getE f.a.toNat w (h.pos k)), 0)

/-- A widening op: D at 2w (05 R110). -/
def vwiden (opc : BitVec 12) (f : Fields) (s : State) (g : Nat → Nat → Nat → Int) : Eff :=
  match s.me.intW f.w.toNat with
  | none => illegalWord s opc f
  | some w =>
    if w = 64 then illegalWord s opc f
    else
      let d : Opnd := ⟨f.d.toNat, 2 * w, true⟩
      resumable s opc f (.vec d) (srcAB f w w) [] none fun h x k =>
        x.putK f d k fun _ => (wrap (2 * w) (g w (h.getE f.a.toNat w (h.pos k)) (h.elemB f w k)), 0)

/-- The signed or unsigned reading of the factors of VMULH and VWMUL (05 Table 5.9). -/
def mulSides (code w a b : Nat) : Int × Int :=
  (if code = 1 then (a : Int) else signed w a, if code = 0 then signed w b else (b : Int))

/-- VDIV at width `w` (04 R78). -/
def divW (u : Bool) (w a b : Nat) : Nat :=
  if b = 0 then 2 ^ w - 1 else wrap w (truncDiv (intVal w u a) (intVal w u b))

/-- VREM at width `w` (04 R78). -/
def remW (u : Bool) (w a b : Nat) : Nat :=
  if b = 0 then a
  else wrap w (intVal w u a - truncDiv (intVal w u a) (intVal w u b) * intVal w u b)

def shlW (w a b : Nat) : Nat := if w ≤ b then 0 else a <<< b

/-- VSHR: logical or arithmetic (05 Table 5.10). -/
def shrW (arith : Bool) (w a b : Nat) : Nat :=
  if arith then wrap w (signed w a / (2 ^ min b w : Nat)) else if w ≤ b then 0 else a >>> b

/-- A value clamped to the range of width `w`. -/
def satW (u : Bool) (w : Nat) (x : Int) : Nat := let r := intRange w u; wrap w (clampInt r.1 r.2 x)

/-- x / 2^s rounded to nearest, ties to even. -/
def rneShift (x : Int) (sh : Nat) : Int :=
  let q := x / (2 ^ sh : Nat)
  let r := 2 * (x % (2 ^ sh : Nat))
  if r > (2 ^ sh : Nat) ∨ (r = (2 ^ sh : Nat) ∧ q % 2 = 1) then q + 1 else q

/-- VNSHR (05 R110): a shift beyond 2w + 2 gives what 2w + 2 gives. -/
def nshrW (sg rnd sat : Bool) (w a b : Nat) : Nat :=
  let sh := min b (2 * w + 2)
  let x := intVal (2 * w) (!sg) a
  let y := if rnd then rneShift x sh else x / (2 ^ sh : Nat)
  if sat then satW (!sg) w y else wrap w y

def execVadd (f : Fields) (s : State) : Out := commit (vbin 0x200 f s fun _ a b => a + b)
def execVsub (f : Fields) (s : State) : Out := commit (vbin 0x201 f s fun w a b => a + 2 ^ w - b)
def execVrsub (f : Fields) (s : State) : Out := commit (vbin 0x202 f s fun w a b => b + 2 ^ w - a)
def execVmul (f : Fields) (s : State) : Out := commit (vbin 0x203 f s fun _ a b => a * b)
def execVmulh (f : Fields) (s : State) : Out :=
  commit (vbin 0x204 f s fun w a b =>
    let x := mulSides (f.modField 43 42) w a b
    wrap w (x.1 * x.2 / (2 ^ w : Nat)))
def execVdiv (f : Fields) (s : State) : Out := commit (vbin 0x205 f s (divW (f.modBit 42)))
def execVrem (f : Fields) (s : State) : Out := commit (vbin 0x206 f s (remW (f.modBit 42)))
def execVmin (f : Fields) (s : State) : Out :=
  commit (vbin 0x207 f s fun w a b => if intVal w (f.modBit 42) a ≤ intVal w (f.modBit 42) b then a else b)
def execVmax (f : Fields) (s : State) : Out :=
  commit (vbin 0x208 f s fun w a b => if intVal w (f.modBit 42) b ≤ intVal w (f.modBit 42) a then a else b)
def execVand (f : Fields) (s : State) : Out := commit (vbin 0x209 f s fun _ a b => a &&& b)
def execVor (f : Fields) (s : State) : Out := commit (vbin 0x20A f s fun _ a b => a ||| b)
def execVxor (f : Fields) (s : State) : Out := commit (vbin 0x20B f s fun _ a b => a ^^^ b)
def execVshl (f : Fields) (s : State) : Out := commit (vbin 0x20C f s shlW)
def execVshr (f : Fields) (s : State) : Out := commit (vbin 0x20D f s (shrW (f.modBit 42)))
def execVsadd (f : Fields) (s : State) : Out :=
  commit (vbin 0x20E f s fun w a b =>
    satW (f.modBit 42) w (intVal w (f.modBit 42) a + intVal w (f.modBit 42) b))
def execVssub (f : Fields) (s : State) : Out :=
  commit (vbin 0x20F f s fun w a b =>
    satW (f.modBit 42) w (intVal w (f.modBit 42) a - intVal w (f.modBit 42) b))
def execVavg (f : Fields) (s : State) : Out :=
  commit (vbin 0x210 f s fun w a b =>
    wrap w ((intVal w (f.modBit 42) a + intVal w (f.modBit 42) b + (f.modBit 43).toNat) / 2))
def execVabsd (f : Fields) (s : State) : Out :=
  commit (vbin 0x211 f s fun w a b => (intVal w (f.modBit 42) a - intVal w (f.modBit 42) b).natAbs)
def execVwadd (f : Fields) (s : State) : Out :=
  commit (vwiden 0x212 f s fun w a b => intVal w (f.modBit 42) a + intVal w (f.modBit 42) b)
def execVwmul (f : Fields) (s : State) : Out :=
  commit (vwiden 0x213 f s fun w a b => let x := mulSides (f.modField 43 42) w a b; x.1 * x.2)

/-- VNSHR: A at 2w, B and D at w (05 R110). -/
def execVnshr (f : Fields) (s : State) : Out :=
  commit (match s.me.intW f.w.toNat with
    | none => illegalWord s 0x214 f
    | some w =>
      if w = 64 then illegalWord s 0x214 f
      else
        let d : Opnd := ⟨f.d.toNat, w, false⟩
        resumable s 0x214 f (.vec d) (⟨f.a.toNat, 2 * w, true⟩ :: (srcAB f w w).drop 1) [] none fun h x k =>
          x.putK f d k fun _ =>
            (nshrW (f.modBit 42) (f.modBit 43) (f.modBit 44) w (h.getE f.a.toNat (2 * w) (h.pos k)) (h.elemB f w k), 0))

/-- VMODADD, VMODSUB, VMODMUL: width 32, and a modulus from 2 to 2^31 - 1 (05 R111). -/
def vmodular (opc : BitVec 12) (f : Fields) (s : State) (g : Nat → Nat → Nat → Nat) : Eff :=
  let m := if f.modField 43 42 = 0 then s.me.modp.toNat else s.me.modq.toNat
  if s.me.intW f.w.toNat ≠ some 32 ∨ m < 2 ∨ 2 ^ 31 ≤ m then illegalWord s opc f
  else vbin opc f s fun _ a b => g m (a % m) (b % m)

def execVmodadd (f : Fields) (s : State) : Out := commit (vmodular 0x215 f s fun m x y => (x + y) % m)
def execVmodsub (f : Fields) (s : State) : Out := commit (vmodular 0x216 f s fun m x y => (x + m - y) % m)
def execVmodmul (f : Fields) (s : State) : Out := commit (vmodular 0x217 f s fun m x y => x * y % m)
def execVclz (f : Fields) (s : State) : Out := commit (vun 0x218 f s fun w a => leadZeros w a)
def execVpopc (f : Fields) (s : State) : Out := commit (vun 0x219 f s fun w a => popCount w a)

end Sys2Proof.Machine
end

