-- ==== Sys2Proof/Machine/VecShape.lean ====
section
/-!
DEFINITION. Class 0x4: lengths, masks, element movement, reductions, scans and transposition (05 R98 to R101, R119 to R129).
-/

namespace Sys2Proof.Machine

/-! ## VSETL and VSETDIM (05 R98 to R101) -/

/-- The lengths granted. -/
def Hart.setLengths (h : Hart) (t : BitVec 16) (rows cols : Nat) : Hart :=
  { h with vc := { h.vc with vtype := t, vlrow := BitVec.ofNat 14 rows, vlcol := BitVec.ofNat 14 cols, vstart := 0 } }

/-- The end of VSETL: the lengths, and (starved << 63) or rows × cols. -/
def vsetlEnd (f : Fields) (s : State) (t : BitVec 16) (rows cols : Nat) (starved : Bool) : Eff :=
  .done ((s.modMe fun h => h.setLengths t rows cols).ws f.d
    (BitVec.ofNat 64 (rows * cols + (if starved then 2 ^ 63 else 0))))

/-- Parks the running hart on the word at a virtual address it has just read. -/
def parkVa (s : State) (va : Word) : Eff :=
  match checkAccess s s.ctx .load va with
  | (s, .ok pa _) => s.park pa
  | (s, .bad c _) => .trap s { cause := c, eaddr := va }

/-- VSETL in either form; `progress` reads the cell at s[C]. -/
def vsetl (f : Fields) (s : State) (progress : Bool) : Eff :=
  let keep := f.modBit 43
  let nt : BitVec 16 := if keep then s.me.vc.vtype else f.imm.setWidth 16
  if !vtypeOk nt then illegalWord s 0x400 f
  else
    let rows := min (s.rs f.a).toNat (vtRowcap nt)
    let cols := min (s.rs f.b).toNat (vtColcap nt)
    if progress ∧ rows > 0 ∧ cols > 0 then
      let cell := s.rs f.c
      if cell.toNat % 16 ≠ 0 then .trap s { cause := 0x04, eaddr := cell }
      else
        scalarLoad s 8 cell fun s hw =>
          scalarLoad s 8 (cell + 8) fun s base =>
            let avail := hw - base
            if avail = 0 ∧ !f.modBit 44 then parkVa s cell
            else vsetlEnd f s nt rows (min cols avail) (avail == 0)
    else vsetlEnd f s nt rows cols false

def execVsetl (f : Fields) (s : State) : Out := commit (vsetl f s false)
def execVsetlProgress (f : Fields) (s : State) : Out := commit (vsetl f s true)

/-- The limit of DLk (05 R101). -/
def dlLimit (k : Nat) : Nat := if k = 2 then 16777216 else 1048576

def execVsetdim (f : Fields) (s : State) : Out :=
  commit (
    let k := f.modField 43 42
    if dlLimit k < (s.rs f.a).toNat then illegalWord s 0x401 f
    else .done (s.modMe fun h =>
      { h with vc := { h.vc with dl := h.vc.dl.set (Fin.ofNat 3 k) (h.rs f.a),
                                 ds := h.vc.ds.set (Fin.ofNat 3 k) (h.rs f.b) } }))

/-! ## Compares (05 R120) -/

def execVcmp (f : Fields) (s : State) : Out :=
  commit (match s.me.intW f.w.toNat with
    | none => illegalWord s 0x402 f
    | some w =>
      resumable s 0x402 f (.mask f.d.toNat) (srcAB f w w) [] none fun h x k =>
        x.putMk f f.d.toNat k fun _ =>
          (condInt (f.modField 44 42) w (h.getE f.a.toNat w (h.pos k)) (h.elemB f w k), 0))

/-- A VFCMP condition (05 R120). -/
def Fmt.fcmp (t : Fmt) (code : Nat) (fl : Bool) (a b : Nat) : Bool × FFlags :=
  let un := t.isNaN a || t.isNaN b
  let va := t.val fl a
  let vb := t.val fl b
  let sig := t.isSNaN a || t.isSNaN b
  let r := (match code with
    | 0 => !un && FVal.eq va vb
    | 1 => un || !FVal.eq va vb
    | 2 => !un && FVal.lt va vb
    | 3 => !un && !FVal.lt vb va
    | 4 => un
    | _ => !un)
  (r, if (if code = 2 ∨ code = 3 then un else sig) then fNV else 0)

def execVfcmp (f : Fields) (s : State) : Out :=
  commit (match s.me.fmtOf f.w.toNat with
    | none => illegalWord s 0x403 f
    | some t =>
      if f.immB && !immFits t f then illegalWord s 0x403 f
      else
        resumable s 0x403 f (.mask f.d.toNat) (srcAB f t.width t.width) [] none fun h x k =>
          x.putMk f f.d.toNat k fun _ =>
            t.fcmp (f.modField 44 42) (h.fenv 7).flushIn (h.getE f.a.toNat t.width (h.pos k)) (h.fltB f t k))

/-! ## Mask instructions (05 R121) -/

/-- The low VL bits. -/
def Hart.vlBits (h : Hart) : MBits := BitVec.ofNat 8192 (2 ^ h.vl - 1)

/-- A mask destination: `r` below VL, and at and above VL by TP; nothing at VL = 0. -/
def Hart.putMask (h : Hart) (n : Nat) (r : MBits) : Hart :=
  if h.vl = 0 then h
  else
    let old := (h.m[Fin.ofNat 8 n]).toBits
    h.putM n (.bitmap ((r &&& h.vlBits) ||| (if h.tp then 0 else old &&& ~~~h.vlBits)))

/-- The bits of a mask operand. -/
def Hart.maskBits (h : Hart) (n : BitVec 5) : MBits := (h.maskOp n).toBits

/-- MLOGIC's operation. -/
def mlogicOp (code : Nat) (a b : MBits) : MBits :=
  match code with
  | 0 => a &&& b | 1 => a ||| b | 2 => a ^^^ b | 3 => a &&& ~~~b | 4 => a ||| ~~~b
  | 5 => ~~~(a &&& b) | 6 => ~~~(a ||| b) | _ => ~~~(a ^^^ b)

def execMlogic (f : Fields) (s : State) : Out :=
  commit (nonResumable s 0x404 f (.mask f.d.toNat) [] [maskIndex f.a, maskIndex f.b] true fun s =>
    .done (s.modMe fun h => h.putMask f.d.toNat (mlogicOp (f.modField 44 42) (h.maskBits f.a) (h.maskBits f.b))))

/-- The active ordinals whose bit in mask A is 1. -/
def Hart.hitsOf (h : Hart) (f : Fields) : List Nat :=
  (List.range h.vl).filter fun k => h.active f k && (h.maskBits f.a).getLsbD k

def execMpopc (f : Fields) (s : State) : Out :=
  commit (nonResumable s 0x405 f .none [] [maskIndex f.a] true fun s =>
    .done (s.ws f.d (BitVec.ofNat 64 (s.me.hitsOf f).length)))

def execMffs (f : Fields) (s : State) : Out :=
  commit (nonResumable s 0x406 f .none [] [maskIndex f.a] true fun s =>
    .done (s.ws f.d (match (s.me.hitsOf f).head? with
      | some k => BitVec.ofNat 64 k
      | none => BitVec.allOnes 64)))

/-- MSET's bits: ones, zeros, or what stands before, up to or at the lowest set bit of A. -/
def msetBits (kind : Nat) (vl : Nat) (a : MBits) : MBits :=
  let low := (List.range vl).find? fun k => a.getLsbD k
  let upto (n : Nat) : MBits := BitVec.ofNat 8192 (2 ^ n - 1)
  match kind, low with
  | 0, _ => upto vl
  | 1, _ => 0
  | 2, some k => upto k
  | 3, some k => upto (k + 1)
  | 4, some k => upto (k + 1) &&& ~~~(upto k)
  | 4, none => 0
  | _, none => upto vl
  | _, _ => 0

def execMset (f : Fields) (s : State) : Out :=
  commit (
    let kind := f.modField 44 42
    nonResumable s 0x407 f (.mask f.d.toNat) [] (if kind ≤ 1 then [] else [maskIndex f.a]) true fun s =>
      .done (s.modMe fun h => h.putMask f.d.toNat (msetBits kind h.vl (h.maskBits f.a))))

/-- MTOLIST (05 R121). -/
def execMtolist (f : Fields) (s : State) : Out :=
  commit (nonResumable s 0x408 f (.mask f.d.toNat) [] [maskIndex f.a] true fun s =>
    let h := s.me
    let b := h.maskBits f.a
    let l := (List.range h.vl).filter fun k => b.getLsbD k
    if h.vl = 0 then .done (s.ws f.c 0)
    else if l.length ≤ 512 then
      .done ((s.modMe fun h => h.putM f.d.toNat (.list l)).ws f.c (BitVec.ofNat 64 l.length))
    else .done ((s.modMe fun h => h.putMask f.d.toNat b).ws f.c (failCode l.length)))

def execMtobits (f : Fields) (s : State) : Out :=
  commit (nonResumable s 0x409 f (.mask f.d.toNat) [] [maskIndex f.a] true fun s =>
    .done (s.modMe fun h => h.putMask f.d.toNat (h.maskBits f.a)))

/-! ## Index, compress and permute (05 R122 to R124) -/

/-- VIOTA counts the enabled ordinals before k, those below VSTART too. -/
def execViota (f : Fields) (s : State) : Out :=
  commit (match s.me.intW f.w.toNat with
    | none => illegalWord s 0x40A f
    | some w =>
      let d : Opnd := ⟨f.d.toNat, w, false⟩
      resumable s 0x40A f (.vec d) [] [maskIndex f.a] none fun h x k =>
        x.putK f d k fun _ =>
          (((List.range k).filter fun j => h.enabled f j && (h.maskBits f.a).getLsbD j).length, 0))

def execVid (f : Fields) (s : State) : Out :=
  commit (match s.me.intW f.w.toNat with
    | none => illegalWord s 0x40B f
    | some w =>
      let d : Opnd := ⟨f.d.toNat, w, false⟩
      resumable s 0x40B f (.vec d) [] [] none fun h x k =>
        x.putK f d k fun _ => ((match f.modField 43 42 with
          | 0 => k
          | 1 => k % h.cols
          | 2 => k / h.cols
          | _ => h.pos k), 0))

/-- Writes a vector destination's ordinals from a function, then the tail; nothing at VL = 0 (05 R103, R106). `g k` is none
where the element keeps its value. -/
def putAll (s : State) (d : Opnd) (g : Hart → Nat → Option Nat) : Eff :=
  let h := s.me
  if h.vl = 0 then .done s
  else
    let x := (List.range h.vl).foldl (fun (x : Hart) k =>
      match g h k with
      | some v => x.setE d.reg d.w (h.pos k) v
      | none => x) h
    .done (pushAll (s.modMe fun _ => x.applyTp d) [d])

/-- The active ordinals. -/
def Hart.activeList (h : Hart) (f : Fields) : List Nat := (List.range h.vl).filter fun k => h.active f k

/-- The value of an ordinal under the predicate and MP. -/
def Hart.policy (h : Hart) (f : Fields) (k : Nat) (v : Option Nat) : Option Nat :=
  if h.active f k then v else if h.mp then some 0 else none

/-- VCOMPRESS: D may not overlap A at all; ordinals n to VL - 1 of D are tail. -/
def execVcompress (f : Fields) (s : State) : Out :=
  commit (match s.me.intW f.w.toNat with
    | none => illegalWord s 0x40C f
    | some w =>
      let d : Opnd := ⟨f.d.toNat, w, false⟩
      let a : Opnd := ⟨f.a.toNat, w, false⟩
      nonResumable s 0x40C f (.vec d) [a] [] (!overlaps d.reg s.me.g a.reg s.me.g) fun s =>
        let l := s.me.activeList f
        putAll s d fun h k =>
          match l[k]? with
          | some j => some (h.getE a.reg w (h.pos j))
          | none => if h.tp then some 0 else none)

def execVexpand (f : Fields) (s : State) : Out :=
  commit (match s.me.intW f.w.toNat with
    | none => illegalWord s 0x40D f
    | some w =>
      let d : Opnd := ⟨f.d.toNat, w, false⟩
      let a : Opnd := ⟨f.a.toNat, w, false⟩
      nonResumable s 0x40D f (.vec d) [a] [] (!overlaps d.reg s.me.g a.reg s.me.g) fun s =>
        let l := s.me.activeList f
        putAll s d fun h k => h.policy f k (some (h.getE a.reg w (h.pos (l.idxOf k)))))

/-- The body element at row r, column c. -/
def Hart.at2 (h : Hart) (n w r c : Nat) : Nat := h.getE n w (r * h.colcap + c)

def execVperm (f : Fields) (s : State) : Out :=
  commit (match s.me.intW f.w.toNat with
    | none => illegalWord s 0x40E f
    | some w =>
      let d : Opnd := ⟨f.d.toNat, w, false⟩
      let a : Opnd := ⟨f.a.toNat, w, false⟩
      let b : Opnd := ⟨f.b.toNat, w, false⟩
      nonResumable s 0x40E f (.vec d) [a, b] []
        (!overlaps d.reg s.me.g a.reg s.me.g && !overlaps d.reg s.me.g b.reg s.me.g) fun s =>
        putAll s d fun h k =>
          let x := h.getE b.reg w (h.pos k)
          h.policy f k (some (
            if f.modBit 42 then (if x < h.cols then h.at2 a.reg w (k / h.cols) x else 0)
            else if x < h.vl then h.getE a.reg w (h.pos x) else 0)))

/-- Where an element of VSLIDE comes from: index i of a run of n elements. -/
def slideFrom (up : Bool) (o n i : Nat) : Option (Option Nat) :=
  if up then (if o ≤ i then some (some (i - o)) else none)
  else some (if i + o < n then some (i + o) else none)

def execVslide (f : Fields) (s : State) : Out :=
  commit (match s.me.intW f.w.toNat with
    | none => illegalWord s 0x40F f
    | some w =>
      let d : Opnd := ⟨f.d.toNat, w, false⟩
      let a : Opnd := ⟨f.a.toNat, w, false⟩
      let o := if f.immB then f.imm.toNat else (s.rs f.b).toNat
      nonResumable s 0x40F f (.vec d) [a] [] (!overlaps d.reg s.me.g a.reg s.me.g) fun s =>
        putAll s d fun h k =>
          let row := f.modBit 43
          h.policy f k (
            match slideFrom (f.modBit 42) o (if row then h.cols else h.vl) (if row then k % h.cols else k) with
            | none => none
            | some none => some 0
            | some (some j) => some (if row then h.at2 a.reg w (k / h.cols) j else h.getE a.reg w (h.pos j))))

/-! ## Moves (05 R125) -/

/-- VSPLAT: W in the integer column, or in the floating one with FLT. -/
def vsplat (f : Fields) (s : State) : Eff :=
  let run (w : Nat) (imm : Nat) : Eff :=
    let d : Opnd := ⟨f.d.toNat, w, false⟩
    resumable s 0x410 f (.vec d) [] [] none fun h x k =>
      x.putK f d k fun _ => (if f.immB then imm else (h.rs f.b).toNat, 0)
  if f.modBit 45 then
    match s.me.fmtOf f.w.toNat with
    | some t => if f.immB && !immFits t f then illegalWord s 0x410 f else run t.width (immElem t f)
    | none => illegalWord s 0x410 f
  else
    match s.me.intW f.w.toNat with
    | some w => run w (sextImm f).toNat
    | none => illegalWord s 0x410 f

def execVsplat (f : Fields) (s : State) : Out := commit (vsplat f s)

/-- VMERGE writes every body element. -/
def execVmerge (f : Fields) (s : State) : Out :=
  commit (match s.me.intW f.w.toNat with
    | none => illegalWord s 0x419 f
    | some w =>
      let d : Opnd := ⟨f.d.toNat, w, false⟩
      resumable s 0x419 f (.vec d) (srcAB f w w) [] none fun h x k =>
        (x.setE d.reg w (h.pos k)
          (if h.enabled f k then h.elemB f w k else h.getE f.a.toNat w (h.pos k)), 0))

def execVmv (f : Fields) (s : State) : Out :=
  commit (match s.me.intW f.w.toNat with
    | none => illegalWord s 0x41A f
    | some w =>
      let d : Opnd := ⟨f.d.toNat, w, false⟩
      resumable s 0x41A f (.vec d) [⟨f.a.toNat, w, false⟩] [] none fun h x k =>
        x.putK f d k fun _ => (h.getE f.a.toNat w (h.pos k), 0))

/-- The registers of a group of `n` from `r`. -/
def regRun (r n : Nat) : List Nat := (List.range n).map (r + ·)

/-- VMV with WHOLE copies the G registers whatever VL and the policies (05 R125) (in part DEDUCED, log 22). -/
def execVmvWhole (f : Fields) (s : State) : Out :=
  commit (
    let g := s.me.g
    let a := f.a.toNat
    let d := f.d.toNat
    if a % g ≠ 0 ∨ d % g ≠ 0 then illegalWord s 0x41A f
    else withRegs s (regRun d g ++ regRun a g) (withStreams s [⟨d, s.me.sew, false⟩] [] fun s =>
      let h := s.me
      let x := (List.range g).foldl (fun (x : Hart) i => x.putV (d + i) h.v[Fin.ofNat 32 (a + i)] 2047) h
      .done (pushAll (s.modMe fun _ => x.setVstart 0) [⟨d, h.sew, false⟩])))

/-- VMVSX with DIR = 0: a scalar to storage position 0 (in part DEDUCED, log 22). -/
def execVmvsx (f : Fields) (s : State) : Out :=
  commit (match s.me.intW f.w.toNat with
    | none => illegalWord s 0x411 f
    | some w =>
      let d : Opnd := ⟨f.d.toNat, w, false⟩
      if d.reg % s.me.g ≠ 0 then illegalWord s 0x411 f
      else withRegs s (regRun d.reg s.me.g) (withStreams s [d] [] fun s =>
        .done (pushAll (s.modMe fun h => h.setE d.reg w 0 (h.rs f.a).toNat) [d])))

/-- VMVSX with DIR = 1: storage position 0 to a scalar. -/
def execVmvxs (f : Fields) (s : State) : Out :=
  commit (match s.me.intW f.w.toNat with
    | none => illegalWord s 0x411 f
    | some w =>
      if f.a.toNat % s.me.g ≠ 0 then illegalWord s 0x411 f
      else withRegs s (regRun f.a.toNat s.me.g)
        (.done (s.ws f.d (BitVec.ofInt 64 (intVal w (f.modBit 43) (s.me.getE f.a.toNat w 0))))))

/-! ## Reductions (05 R126, 03 R66, R67) -/

/-- A partial result: its value, the lowest ordinal in it, and the flags raised on the way with the ordinal of each. -/
structure Node where
  v : Nat
  low : Nat
  log : List (Nat × FFlags)
  deriving DecidableEq, Repr

/-- A rounding node: `add i a b` at the element index of its right child; its flags are put to its lowest ordinal. -/
def Node.join (add : Nat → Nat → Nat → Nat × FFlags) (pos : Nat → Nat) (a b : Node) : Node :=
  let r := add (pos b.low) a.v b.v
  ⟨r.1, a.low, a.log ++ b.log ++ [(a.low, r.2)]⟩

/-- A node of two children, either of which may be absent. -/
def joinOpt (add : Nat → Nat → Nat → Nat × FFlags) (pos : Nat → Nat) (a b : Option Node) : Option Node :=
  match a, b with
  | some a, some b => some (Node.join add pos a b)
  | some a, none => some a
  | none, b => b

/-- One level of the tree. -/
def treeLevel (add : Nat → Nat → Nat → Nat × FFlags) (pos : Nat → Nat) : List (Option Node) → List (Option Node)
  | a :: b :: r => joinOpt add pos a b :: treeLevel add pos r
  | l => l

/-- The tree over one element group. -/
def treeOf (add : Nat → Nat → Nat → Nat × FFlags) (pos : Nat → Nat) : Nat → List (Option Node) → Option Node
  | 0, l => l.head?.join
  | n + 1, l => treeOf add pos n (treeLevel add pos l)

/-- A list cut into runs of `n`. -/
def chunks {α : Type} (n : Nat) : Nat → List α → List (List α)
  | 0, _ => []
  | k + 1, l => if l.isEmpty then [] else l.take n :: chunks n k (l.drop n)

/-- The sum of the present elements in the tree order of R67, the seed last; `seedIdx`: the element index there
(in part DEDUCED, log 22). -/
def treeSum (add : Nat → Nat → Nat → Nat × FFlags) (pos : Nat → Nat) (epg seedIdx seed : Nat)
    (l : List (Option Node)) : Node :=
  let groups := (chunks epg (l.length + 1) l).map fun c => treeOf add pos (Nat.log2 epg) c
  match groups.foldl (joinOpt add pos) none with
  | none => ⟨seed, 0, []⟩
  | some n => let r := add seedIdx n.v seed; ⟨r.1, n.low, n.log ++ [(n.low, r.2)]⟩

/-- The ordered sum of R66: the seed first. -/
def orderedSum (add : Nat → Nat → Nat → Nat × FFlags) (pos : Nat → Nat) (seed : Nat) (l : List (Option Node)) : Node :=
  l.foldl (fun (a : Node) e =>
    match e with
    | some e => let r := add (pos e.low) a.v e.v; ⟨r.1, a.low, a.log ++ [(e.low, r.2)]⟩
    | none => a) ⟨seed, 0, []⟩

/-- A reduction: `red seedIdx seed elements` for each row, or for the whole body. With VLCOL = 0 a row's position may lie beyond
a group of few wide elements: such a row has no element, and nothing is written for it (DESIGN CHOICE, log 22). -/
def reduction (s : State) (opc : BitVec 12) (f : Fields) (w : Nat) (rm : Option RMode)
    (red : Hart → Nat → Nat → List (Option Node) → Node) : Eff :=
  let d : Opnd := ⟨f.d.toNat, w, false⟩
  let rowsForm := f.modBit 47
  nonResumable s opc f (.vec d) [⟨f.a.toNat, w, false⟩, ⟨f.b.toNat, w, false⟩] [] true fun s =>
    let h := s.me
    let elem (k : Nat) : Option Node := if h.active f k then some ⟨h.getE f.a.toNat w (h.pos k), k, []⟩ else none
    let one (r : Nat) (ks : List Nat) : Node := red h r (h.getE f.b.toNat w r) (ks.map elem)
    let res := if rowsForm then (List.range (min h.rows (h.g * 16384 / w))).map fun r => one r ((List.range h.cols).map (r * h.cols + ·))
      else [one 0 (List.range h.vl)]
    let log := res.flatMap Node.log
    let fl := log.foldl (fun (a : FFlags) x => a ||| x.2) 0
    if h.trapsOn fl then
      let bad := (log.filter fun x => h.trapsOn x.2).map (·.1)
      fpTrap s h 0 (bad.foldl min (bad.headD 0)) fl
    else
      let x := ((List.range res.length).zip res).foldl (fun (x : Hart) e => x.setE d.reg w e.1 e.2.v) h
      .done (pushAll (s.modMe fun _ => (x.addFlags fl).stepSeed (rm.getD .rne)) [d])

/-- An integer reduction; the order does not matter. -/
def intReduction (s : State) (opc : BitVec 12) (f : Fields) (op : Nat → Nat → Nat → Nat) : Eff :=
  match s.me.intW f.w.toNat with
  | none => illegalWord s opc f
  | some w =>
    reduction s opc f w none fun _ _ seed l =>
      ⟨l.foldl (fun a e => match e with | some e => op w a e.v | none => a) seed, 0, []⟩

/-- A bit pattern read under the input half of FLUSH (03 R62). -/
def Fmt.flushBits (t : Fmt) (fl : Bool) (v : Nat) : Nat :=
  if fl && t.flushable && t.isSub v then t.signBit (t.signOf v) else v

/-- The environment of the roundings between elements: what they read is no operand, and the output half of FLUSH acts on each of
their results (in part DEDUCED, log 22). -/
def FEnv.inner (e : FEnv) : FEnv := { e with flush := e.flush &&& 2 }

/-- Floating VREDSUM (in part DEDUCED, log 22). -/
def fltSum (s : State) (f : Fields) : Eff :=
  match s.me.fmtOf f.w.toNat with
  | none => illegalWord s 0x412 f
  | some t =>
    let code := f.modField 44 42
    reduction s 0x412 f t.width (some (s.me.rmode code)) fun h r seed l =>
      let env := h.fenv code
      let add (i a b : Nat) : Nat × FFlags := t.fadd env.inner i a b
      let l := l.map fun e => e.map fun n => { n with v := t.flushBits env.flushIn n.v }
      let sd := if l.any Option.isSome then t.flushBits env.flushIn seed else seed
      if f.modBit 46 then orderedSum add h.pos sd l
      else treeSum add h.pos (epgOf [t.width]) (8192 + r) sd l

def execVredsum (f : Fields) (s : State) : Out :=
  commit (if f.modBit 45 then fltSum s f else intReduction s 0x412 f fun w a b => (a + b) % 2 ^ w)

/-- VREDMAX and VREDMIN. Each partial result of the floating form is a result, which the output half of FLUSH acts on
(DESIGN CHOICE, log 22). -/
def minMaxReduction (s : State) (opc : BitVec 12) (f : Fields) (max : Bool) : Eff :=
  if f.modBit 45 then
    match s.me.fmtOf f.w.toNat with
    | none => illegalWord s opc f
    | some t =>
      reduction s opc f t.width none fun h _ seed l =>
        let env := h.fenv 7
        orderedSum (fun _ a b => t.flushRes env (t.fminmax max env.flushIn a b)) h.pos seed l
  else
    intReduction s opc f fun w a b =>
      let x := intVal w (f.modBit 42) a
      let y := intVal w (f.modBit 42) b
      if (if max then decide (y ≤ x) else decide (x ≤ y)) then a else b

def execVredmax (f : Fields) (s : State) : Out := commit (minMaxReduction s 0x413 f true)
def execVredmin (f : Fields) (s : State) : Out := commit (minMaxReduction s 0x414 f false)
def execVredlog (f : Fields) (s : State) : Out :=
  commit (intReduction s 0x415 f fun _ a b =>
    match f.modField 43 42 with | 0 => a &&& b | 1 => a ||| b | _ => a ^^^ b)

/-! ## Scans (05 R127, R128) -/

/-- The carry that enters ordinal k: the seed, or the destination's element before it. -/
def Hart.carry (x : Hart) (n w k seed : Nat) : Nat := if k = 0 then seed else x.getE n w (x.pos (k - 1))

/-- A scan: every body element is written; `g h carry k` is asked for active ones. -/
def scanLoop (s : State) (opc : BitVec 12) (f : Fields) (w : Nat) (srcs : List Opnd) (rm : Option RMode)
    (seed : Hart → Nat) (g : Hart → Nat → Nat → Nat × FFlags) : Eff :=
  let d : Opnd := ⟨f.d.toNat, w, false⟩
  resumable s opc f (.vec d) srcs [] rm fun h x k =>
    let c := x.carry d.reg w k (seed h)
    let r := if h.enabled f k then g h c k else (c, 0)
    (x.setE d.reg w (h.pos k) r.1, r.2)

/-- The integer operators of VSCAN. -/
def scanOp (code : Nat) (u : Bool) (w a b : Nat) : Nat :=
  match code with
  | 0 => (a + b) % 2 ^ w
  | 1 => if intVal w u b ≤ intVal w u a then a else b
  | 2 => if intVal w u a ≤ intVal w u b then a else b
  | 3 => a &&& b
  | 4 => a ||| b
  | _ => a ^^^ b

/-- VSCAN. The input half of FLUSH acts on the seed where an active ordinal reads it; inactive ordinals before the first active one
pass it on as it is (in part DEDUCED, log 22). -/
def vscan (f : Fields) (s : State) : Eff :=
  let code := f.modField 44 42
  if f.modBit 45 then
    match s.me.fmtOf f.w.toNat with
    | none => illegalWord s 0x416 f
    | some t =>
      scanLoop s 0x416 f t.width [⟨f.a.toNat, t.width, false⟩] none (fun h => (h.rs f.c).toNat % 2 ^ t.width)
        fun h c k =>
          let env := h.fenv 7
          t.flushRes env (t.fminmax (code == 1) env.flushIn c (h.getE f.a.toNat t.width (h.pos k)))
  else
    match s.me.intW f.w.toNat with
    | none => illegalWord s 0x416 f
    | some w =>
      scanLoop s 0x416 f w [⟨f.a.toNat, w, false⟩] none (fun h => (h.rs f.c).toNat % 2 ^ w)
        fun h c k => (scanOp code (f.modBit 46) w c (h.getE f.a.toNat w (h.pos k)), 0)

def execVscan (f : Fields) (s : State) : Out := commit (vscan f s)

/-- One step of a floating chain: the first NaN among A, B and the carry is kept (03 R45). The input half of FLUSH acts on A and B,
and on the seed as the chain begins, not on a carry (in part DEDUCED, log 22). -/
def chainStep (t : Fmt) (env : FEnv) (i : Nat) (sum : Bool) (a c b : Nat) : Nat × FFlags :=
  let a' := t.flushBits env.flushIn a
  let b' := t.flushBits env.flushIn b
  match t.nanOf (if sum then [b', c] else [a', b', c]) with
  | some r => r
  | none => if sum then t.fadd env.inner i c b' else t.ffma env.inner i false false a' c b'

def vchain (f : Fields) (s : State) : Eff :=
  let sum := f.x.getLsbD 0
  let srcs (w : Nat) : List Opnd :=
    (if sum then [] else [⟨f.a.toNat, w, false⟩]) ++ [⟨f.b.toNat, w, false⟩]
  if f.modBit 45 then
    match s.me.fmtOf f.w.toNat with
    | none => illegalWord s 0x417 f
    | some t =>
      let code := f.modField 44 42
      scanLoop s 0x417 f t.width (srcs t.width) (some (s.me.rmode code))
        (fun h => t.flushBits (h.fenv code).flushIn ((h.rs f.c).toNat % 2 ^ t.width))
        fun h c k =>
          chainStep t (h.fenv code) (h.pos k) sum (h.getE f.a.toNat t.width (h.pos k)) c
            (h.getE f.b.toNat t.width (h.pos k))
  else
    match s.me.intW f.w.toNat with
    | none => illegalWord s 0x417 f
    | some w =>
      scanLoop s 0x417 f w (srcs w) none (fun h => (h.rs f.c).toNat % 2 ^ w)
        fun h c k =>
          let b := h.getE f.b.toNat w (h.pos k)
          (if sum then (c + b) % 2 ^ w else (h.getE f.a.toNat w (h.pos k) * c + b) % 2 ^ w, 0)

def execVchain (f : Fields) (s : State) : Out := commit (vchain f s)

/-! ## VTRANS8 (05 R129) -/

/-- The group's body transposed in place, and the lengths exchanged. -/
def Hart.transposed (h : Hart) (o : Opnd) : Hart :=
  let x := (List.range h.vl).foldl (fun (x : Hart) k =>
    x.setE o.reg o.w (k % h.cols * h.colcap + k / h.cols) (h.getE o.reg o.w (h.pos k))) h
  { x with vc := { x.vc with vlrow := h.vc.vlcol, vlcol := h.vc.vlrow } }

def execVtrans8 (f : Fields) (s : State) : Out :=
  commit (
    let h := s.me
    let d : Opnd := ⟨f.d.toNat, h.sew, false⟩
    let grist := (match vtFlt h.vc.vtype with | some (.grist _) => true | _ => false)
    let ok := h.g == 8 && h.cols ≤ h.rowcap && h.rows ≤ h.colcap && !grist
    nonResumable s 0x418 f (.vec d) [] [] ok fun s =>
      let x := s.me.transposed d
      .done (pushAll (s.modMe fun _ => if x.vl = 0 then x else x.applyTp d) [d]))

end Sys2Proof.Machine
end

