-- ==== Sys2Proof/Machine/VecMem.lean ====
section
/-!
DEFINITION. Class 0x5: vector memory instructions, batched faults and reissue, and stream bindings (06 R141 to R166).
-/

namespace Sys2Proof.Machine

/-! ## Element types (06 R143, R144) -/

/-- An element type in memory: whole bytes, packed bits, or blocks of `nb` elements in `bs` bytes and a slot of `slot`
bits. -/
inductive MTy where
  | plain (w : Nat)
  | packed (w : Nat)
  | block (nb bs slot : Nat)
  deriving DecidableEq, Repr

/-- Width in a register. -/
def MTy.width : MTy → Nat
  | .plain w => w
  | .packed w => w
  | .block _ _ _ => 8

/-- Bytes that an access of one element, or block, touches. -/
def MTy.size : MTy → Nat
  | .plain w => w / 8
  | .packed _ => 1
  | .block _ bs _ => bs

/-- Ordinals of one access. -/
def MTy.unit : MTy → Nat
  | .block nb _ _ => nb
  | _ => 1

def gristTy (g : Grist) : MTy := .block 16 g.bytes 128

/-- The type W names, or VTYPE's. -/
def Hart.memTy (h : Hart) (code : Nat) : Option MTy :=
  if code = 0 then
    match vtFlt h.vc.vtype with
    | some (.grist g) => some (gristTy g)
    | _ => if h.sew < 8 then some (.packed h.sew) else some (.plain h.sew)
  else
    match fltCode code with
    | some (.fmt t) => some (.plain t.width)
    | some (.grist g) => some (gristTy g)
    | some .mx => some (.block 32 17 256)
    | none => none

/-- Block types need COLCAP, VLCOL and VSTART to be multiples of the block (06 R144). -/
def MTy.shapeOk (t : MTy) (h : Hart) : Bool :=
  match t with
  | .block nb _ _ => h.colcap % nb == 0 && h.cols % nb == 0 && h.vstart % nb == 0
  | _ => true

def MTy.isPlain : MTy → Bool
  | .plain _ => true
  | _ => false

def MTy.isPacked : MTy → Bool
  | .packed _ => true
  | _ => false

/-! ## Checks of an access (06 Table 6.6) -/

/-- A run of bytes in one 64-byte line after its checks. -/
inductive Piece where
  | ok (pa n : Nat) (e : TlbEntry)
  | bad (step cause level : Nat) (va : Word)
  | nowhere (pa : Nat)
  deriving DecidableEq, Repr

/-- The checks of a run of bytes within one line, in the order of Table 6.6. -/
def checkPiece (s : State) (x : MemCtx) (load : Bool) (va : Word) (n : Nat) : State × Piece :=
  match translate s x (if load then .load else .store) va with
  | (s, .fail l) => (s, .bad 1 (if load then 0x05 else 0x06) l va)
  | (s, .ok pa e) =>
    let w := e.leaf
    let sp := spaceOf pa
    (s,
      if !permitted x (if load then .load else .store) w then .bad 2 0x07 0xF va
      else if sp = .none then .nowhere pa
      else if sp = .control then .bad 3 0x07 0xF va
      else if leafPres w then .bad 4 0x07 0xF va
      else if leafWonce w then (if load then .ok pa n e else .bad 5 0x07 0xF va)
      else if leafDisc w && !load then .bad 6 0x08 0xF va
      else if load && !leafDisc w && s.poisonedIn pa n then .bad 7 0x16 0xF va
      else .ok pa n e)

/-- Runs of bytes that stay within lines: addresses and lengths. -/
def lineRuns : Nat → Word → Nat → List (Word × Nat)
  | 0, _, _ => []
  | k + 1, va, n =>
    let m := 64 - va.toNat % 64
    if n ≤ m then [(va, n)] else (va, m) :: lineRuns k (va + BitVec.ofNat 64 m) (n - m)

/-- The checks of a run of `n` bytes. -/
def checkRun (s : State) (x : MemCtx) (load : Bool) (va : Word) (n : Nat) : State × List Piece :=
  (lineRuns (n / 64 + 2) va n).foldl (fun (a : State × List Piece) r =>
    let c := checkPiece a.1 x load r.1 r.2
    (c.1, a.2 ++ [c.2])) (s, [])

/-- Every failure of an access: cause, level and address. -/
def failures (l : List Piece) : List (Nat × Nat × Word) :=
  l.filterMap fun p => match p with | .bad _ c lv va => some (c, lv, va) | _ => none

/-- The failure that decides the fate of an access: the first row of Table 6.6 that applies to one of its pieces. -/
def worst (l : List Piece) : Option (Nat × Nat × Word) :=
  (l.foldl (fun (a : Option (Nat × Nat × Nat × Word)) p =>
    match p, a with
    | .bad st c lv va, none => some (st, c, lv, va)
    | .bad st c lv va, some (st', _, _, _) => if st < st' then some (st, c, lv, va) else a
    | _, _ => a) none).map (·.2)

/-- The first physical address outside every space (DESIGN CHOICE, log 60). -/
def nowhereOf (l : List Piece) : Option Nat :=
  l.findSome? fun p => match p with | .nowhere pa => some pa | _ => none

/-- Whether an access waits for a copy (06 R148). -/
def State.held (s : State) (load : Bool) (l : List Piece) : Bool :=
  l.any fun p => match p with
    | .ok pa n _ => s.ownedIn pa n || (load && s.absentIn pa n)
    | _ => false

/-- Whether a vector element of the page reads as zero: a write-once page is read whatever its DISC says (06 Table 6.6). -/
def readsZero (w : Word) : Bool := leafDisc w && !leafWonce w

/-- Reads a checked run; a DISC page reads as zero and sets DREAD. -/
def State.readRun (s : State) (l : List Piece) : State × List Byte :=
  l.foldl (fun (a : State × List Byte) p =>
    match p with
    | .ok pa n e =>
      if readsZero e.leaf then
        (a.1.modMe fun h => { h with status := { h.status with dread := true } }, a.2 ++ List.replicate n 0)
      else (a.1, a.2 ++ a.1.bytesFor s.cur pa n)
    | _ => a) (s, [])

/-- The runs of bytes that data in a checked run goes to, and whether one of them is on an RDUP page. -/
def runsOf : List Piece → List Byte → List (Nat × List Byte) × Bool
  | [], _ => ([], false)
  | .ok pa n e :: l, b => let r := runsOf l (b.drop n); ((pa, b.take n) :: r.1, leafRdup e.leaf || r.2)
  | _ :: l, b => runsOf l b

/-- Writes a checked run in one access, of each byte the bits of `m` (06 R145, R147). -/
def State.writeMasked (s : State) (m : Byte) (l : List Piece) (b : List Byte) : State :=
  let r := runsOf l b
  (l.foldl (fun (t : State) p => match p with | .ok _ _ e => t.markDirty s.ctx e | _ => t) s).storeRuns r.2 m r.1

/-- Writes a checked run in one access. -/
def State.writeRun (s : State) (l : List Piece) (b : List Byte) : State := s.writeMasked 0xFF l b

/-! ## The fault record (06 R154) -/

/-- A faulted element: its ordinal, cause, walk level and the address that failed, what failed on other pages of it, and
whether it is active. -/
structure Faulted where
  k : Nat
  cause : Nat
  level : Nat
  va : Word
  also : List (Nat × Nat × Word) := []
  act : Bool := true
  deriving DecidableEq, Repr

/-- An entry of Table 6.8 under construction: page, cause, level, elements. -/
abbrev RecEntry := Nat × Nat × Nat × Nat

/-- What an element failed, page by page: cause, level and page, each page and cause once, by rising address. -/
def Faulted.pages (x : Faulted) : List (Nat × Nat × Nat) :=
  let all := ((x.cause, x.level, x.va) :: x.also).map fun e => (e.1, e.2.1, wbits e.2.2 55 12)
  let once := all.foldl (fun (a : List (Nat × Nat × Nat)) e => if a.any fun y => y.1 == e.1 && y.2.2 == e.2.2 then a else a ++ [e]) []
  once.mergeSort fun a b => a.2.2 ≤ b.2.2

/-- Adds a faulted element to the entries: to one of each page on which it failed (in part DEDUCED, log 24). -/
def addFaulted (l : List RecEntry) (x : Faulted) : List RecEntry :=
  x.pages.foldl (fun (l : List RecEntry) e =>
    if l.any fun r => r.1 == e.2.2 && r.2.1 == e.1 then
      l.map fun r => if r.1 = e.2.2 ∧ r.2.1 = e.1 then (r.1, r.2.1, r.2.2.1, r.2.2.2 + x.act.toNat) else r
    else l ++ [(e.2.2, e.1, e.2.1, x.act.toNat)]) l

/-- An entry's word. -/
def RecEntry.word (e : RecEntry) : Nat := e.2.1 + e.2.2.1 <<< 8 + e.1 <<< 12 + min e.2.2.2 255 <<< 56

/-- The record's 256 bytes as a number. -/
def faultRecord (opc : BitVec 12) (eidx : Word) (l : List Faulted) : BitVec 2048 :=
  let es := l.foldl addFaulted []
  let cause := (l.head?.map Faulted.cause).getD 0
  let pages := (es.map (·.1)).eraseDups.length
  let hdr := cause + min es.length 16 <<< 8 + (decide (min es.length 16 < pages)).toNat <<< 13 + opc.toNat <<< 16
  BitVec.ofNat 2048 (hdr + eidx.toNat <<< 64 +
    (((List.range 16).zip (es.take 16)).foldl (fun a e => a + e.2.word <<< (64 * e.1)) 0) <<< 128)

/-- Whether the causes of a batch suspend a gang (06 R152). -/
def batchSuspends (l : List Faulted) : Bool := l.any fun x => suspends x.cause

/-! ## The element-wise forms -/

/-- An element-wise access: its direction, type, data group, fields, the address and bit of an ordinal, the ordinals,
how many there are, EPG, and what EIDX shows of one. -/
structure MemOp where
  load : Bool
  ty : MTy
  reg : Nat
  nf : Nat := 1
  cell : Hart → Nat → Word × Nat
  vl : Nat
  epg : Nat
  eidx : Nat → Nat := id
  /-- Whole registers: no predicate, no policies (06 R162). -/
  whole : Bool := false

/-- Bytes of one access. -/
def MemOp.bytes (m : MemOp) : Nat := m.nf * m.ty.size

/-- active(k). -/
def MemOp.active (m : MemOp) (h : Hart) (f : Fields) (k : Nat) : Bool :=
  k < m.vl && h.vstart ≤ k && (m.whole || h.enabled f k)

/-- The set S of 06 R152. -/
def MemOp.inS (m : MemOp) (h : Hart) (f : Fields) (k : Nat) : Bool :=
  m.active h f k && (!h.status.mfr || h.mf.getLsbD k)

/-- The ordinals of the access that starts at `k0`. -/
def MemOp.ords (m : MemOp) (k0 : Nat) : List Nat := (List.range m.ty.unit).map (k0 + ·)

/-- Whether an element's address is misaligned (06 R145). -/
def MemOp.misaligned (m : MemOp) (h : Hart) (k : Nat) : Bool :=
  if m.whole then ((m.cell h 0).1.toNat % 64) != 0
  else
    match m.ty with
    | .plain w => ((m.cell h k).1.toNat % (w / 8)) != 0
    | .packed _ => (m.cell h (k / h.cols * h.cols)).2 != 0
    | .block _ _ _ => false

/-- The position of an ordinal in its group. -/
def MemOp.pos (m : MemOp) (h : Hart) (k : Nat) : Nat := if m.whole then k else h.pos k

/-- The bytes that a store puts at an access. -/
def MemOp.data (m : MemOp) (h : Hart) (k0 : Nat) : List Byte :=
  (List.range m.nf).flatMap fun j =>
    let r := m.reg + j * h.g
    match m.ty with
    | .plain w => toBytes (w / 8) (h.getE r w (m.pos h k0))
    | .packed w => toBytes 1 (h.getE r w (m.pos h k0))
    | .block nb bs slot => toBytes bs (h.getE r slot (m.pos h k0 / nb))

/-- The hart after a load has read the bytes of an access. -/
def MemOp.place (m : MemOp) (h : Hart) (k0 bit : Nat) (b : List Byte) : Hart :=
  (List.range m.nf).foldl (fun (x : Hart) j =>
    let r := m.reg + j * h.g
    let v := ofBytes ((b.drop (j * m.ty.size)).take m.ty.size)
    match m.ty with
    | .plain w => x.setE r w (m.pos h k0) v
    | .packed w => x.setE r w (m.pos h k0) (v >>> bit)
    | .block nb _ slot => x.setE r slot (m.pos h k0 / nb) v) h

/-- MP's zero for an access none of whose ordinals is active. -/
def MemOp.clear (m : MemOp) (h : Hart) (k0 : Nat) : Hart := m.place h k0 0 (List.replicate m.bytes 0)

/-- The accesses from ordinal `a` up to `e`. -/
def MemOp.units (m : MemOp) (a e : Nat) : List Nat :=
  (List.range ((e - a + m.ty.unit - 1) / m.ty.unit)).map fun i => a + i * m.ty.unit

/-- The physical bytes of checked pieces, in order. -/
def pieceBytes (l : List Piece) : List Nat :=
  l.flatMap fun p => match p with | .ok pa n _ => (List.range n).map (pa + ·) | _ => []

/-- What the ordinals that a store has performed in an earlier pass wrote: each ordinal with its runs of physical bits
(06 R147, R153). -/
def MemOp.earlier (m : MemOp) (s : State) (h : Hart) (f : Fields) : List (Nat × Nat × Nat) :=
  if m.load || !h.status.mfr then []
  else
    ((m.units h.vstart m.vl).filter fun k0 => (m.ords k0).any fun k => m.active h f k && !h.mf.getLsbD k).flatMap fun k0 =>
      let c := m.cell h k0
      (checkRun s s.ctx false c.1 m.bytes).2.filterMap fun p =>
        match p, m.ty with
        | .ok pa _ _, .packed w => some (k0, 8 * pa + c.2, w)
        | .ok pa n _, _ => some (k0, 8 * pa, 8 * n)
        | _, _ => none

/-- In a reissue, a store leaves alone what a higher ordinal that was performed before has written (06 R147)
(in part DEDUCED, log 24). -/
def shadowed (done : List (Nat × Nat × Nat)) (k bit : Nat) : Bool :=
  done.any fun d => k < d.1 && d.2.1 ≤ bit && bit < d.2.1 + d.2.2

/-- An access that passed its checks. -/
structure Access1 where
  k0 : Nat
  va : Word
  bit : Nat
  pieces : List Piece
  deriving DecidableEq, Repr

/-- The translation phase: every access that holds an ordinal of S. -/
def MemOp.translateAll (m : MemOp) (s : State) (h : Hart) (f : Fields) : State × List Access1 :=
  ((m.units h.vstart m.vl).filter fun k0 => (m.ords k0).any (m.inS h f)).foldl
    (fun (a : State × List Access1) k0 =>
      let c := m.cell h k0
      let r := checkRun a.1 s.ctx m.load c.1 m.bytes
      (r.1, a.2 ++ [⟨k0, c.1, c.2, r.2⟩])) (s, [])

/-- The faulted ordinals, in order. A faulted segment of blocks marks all its ordinals (06 R163)
(in part DEDUCED, log 24). -/
def MemOp.faulted (m : MemOp) (h : Hart) (f : Fields) (l : List Access1) : List Faulted :=
  l.flatMap fun a =>
    match worst a.pieces with
    | some (c, lv, va) =>
      ((m.ords a.k0).filter fun k => 1 < m.nf || m.inS h f k).map fun k =>
        ⟨k, c, lv, va, failures a.pieces, m.active h f k⟩
    | none => []

/-- Performs one access. `done` is what an earlier pass of a store wrote. -/
def MemOp.perform (m : MemOp) (h : Hart) (done : List (Nat × Nat × Nat)) (s : State) (a : Access1) : State :=
  if m.load then
    let r := s.readRun a.pieces
    r.1.modMe fun x => m.place x a.k0 a.bit r.2
  else
    match m.ty with
    | .packed w =>
      if (pieceBytes a.pieces).any fun pa => shadowed done a.k0 (8 * pa + a.bit) then s
      else
        let v := h.getE m.reg w (m.pos h a.k0)
        s.writeMasked (setBits 0 a.bit w (2 ^ w - 1)) a.pieces (toBytes 1 (setBits (0 : BitVec 8) a.bit w v).toNat)
    | _ =>
      let new := m.data h a.k0
      if done.isEmpty then s.writeRun a.pieces new
      else
        let old := (s.readRun a.pieces).2
        let at_ := pieceBytes a.pieces
        s.writeRun a.pieces ((List.range m.bytes).map fun i =>
          if shadowed done a.k0 (8 * at_.getD i 0) then old.getD i 0 else new.getD i 0)

/-- The policy of an access none of whose ordinals is active. -/
def MemOp.inactive (m : MemOp) (h : Hart) (f : Fields) (s : State) (k0 : Nat) : State :=
  if m.load && !m.whole && h.mp && !h.status.mfr && !(m.ords k0).any (m.active h f) then
    s.modMe fun x => m.clear x k0
  else s

/-- The access phase over the ordinals from `a` to `e`. -/
def MemOp.accessRange (m : MemOp) (h : Hart) (f : Fields) (good : List Access1) (s : State) (a e : Nat) : State :=
  let done := m.earlier s h f
  (m.units a e).foldl (fun (t : State) k0 =>
    match good.find? fun x => x.k0 == k0 with
    | some x => m.perform h done t x
    | none => m.inactive h f t k0) s

/-- Where the instruction stops: after `n` element groups (06 R149) (DESIGN CHOICE, log 5). -/
def MemOp.stopAt (m : MemOp) (h : Hart) (n : Nat) : Nat := (h.vstart / m.epg + n) * m.epg

/-- Applies TP to the fields of a load. -/
def MemOp.tail (m : MemOp) (h : Hart) : Hart :=
  if !m.load || m.whole then h
  else (List.range m.nf).foldl (fun (x : Hart) j => x.applyTp ⟨m.reg + j * h.g, m.ty.width, false⟩) h

/-- The bits of mf for a list of ordinals. -/
def mfBits (l : List Nat) : MBits := l.foldl (fun b k => setBit b k true) 0

/-- The batch fault of 06 R152 (in part DEDUCED, log 24, DESIGN CHOICE, log 60). -/
def MemOp.batch (m : MemOp) (opc : BitVec 12) (s : State) (h : Hart) (l : List Faulted) : Eff :=
  match l with
  | [] => .done s
  | x :: _ =>
    let eidx : Word := BitVec.ofNat 64 (m.eidx x.k)
    .trap (s.modMe fun h =>
      { h with
        mf := mfBits (l.map Faulted.k)
        latch := dropLatch h.latch .mask 8
        status := { h.status with mfr := true }
        vc := { h.vc with vstart := 0, vdirty := setBit h.vc.vdirty 40 true }
        faultRec := faultRecord opc eidx l })
      { cause := x.cause, eidx := eidx, eaddr := (m.cell h x.k).1, suspend := batchSuspends l }

/-- The successful end of a reissue: mf and STATUS.MFR clear, and mf's bit of VDIRTY is set (06 R152, 14 R362). -/
def Hart.endReissue (h : Hart) : Hart :=
  if h.status.mfr then
    { h with mf := 0, latch := dropLatch h.latch .mask 8, status := { h.status with mfr := false },
             vc := { h.vc with vdirty := setBit h.vc.vdirty 40 true } }
  else h

/-- Runs an element-wise access (06 R146, R152), after the checks of Table 2.7 and first use; `outs` are the OUT bindings of its
destination. -/
def MemOp.run (m : MemOp) (opc : BitVec 12) (f : Fields) (outs : List (Fin 4)) (s : State) : Eff :=
  let h := s.me
  if m.vl = 0 then .done s
  else if m.vl ≤ h.vstart then .done (pushBound (s.modMe fun h => h.setVstart 0) outs)
  else
    match (List.range m.vl).find? fun k => m.active h f k && m.misaligned h k with
    | some k => .trap s { cause := 0x04, eidx := BitVec.ofNat 64 k, eaddr := (m.cell h k).1 }
    | none =>
      let r := m.translateAll s h f
      let s := r.1
      match r.2.findSome? fun a => nowhereOf a.pieces with
      | some pa => .fault (.noSuchAddress pa)
      | none =>
        let bad := m.faulted h f r.2
        let good := r.2.filter fun a => (worst a.pieces).isNone
        if good.any fun a => s.held m.load a.pieces then .wait s .copy
        else
          let stop := (match s.stopAfter with
            | some n => if bad.isEmpty then min m.vl (max h.vstart (m.stopAt h n)) else m.vl
            | none => m.vl)
          let s := m.accessRange h f good s h.vstart stop
          if stop < m.vl then .jump (s.modMe fun h => h.setVstart stop) h.pc
          else if bad.isEmpty then
            .done (pushBound (s.modMe fun x => ((m.tail x).setVstart 0).endReissue) outs)
          else m.batch opc s h bad

/-- mf among the registers read, under MFR (14 R363). -/
def Hart.mfReg (h : Hart) : List Nat := if h.status.mfr then [40] else []

/-- The data groups of an access. -/
def dataGroups (h : Hart) (reg nf w : Nat) : List Opnd := (List.range nf).map fun j => ⟨reg + j * h.g, w, false⟩

/-- An element-wise form whose type is accepted by `accept`: `cell` is given the type, the base, the hart and the
ordinal. `extra` are further checks of Table 2.7, `regs` further registers read, and `idx` the index group. -/
def memForm (opc : BitVec 12) (f : Fields) (s : State) (load : Bool) (accept : MTy → Bool) (nf : Nat)
    (epgW : Nat) (extra : MTy → Bool) (regs : List Nat) (eidx : Nat → Nat)
    (cell : MTy → Word → Hart → Nat → Word × Nat) (idx : MTy → List (Nat × Nat) := fun _ => []) : Eff :=
  let h := s.me
  match h.memTy f.w.toNat with
  | none => illegalWord s opc f
  | some ty =>
    let reg := if load then f.d.toNat else f.c.toNat
    let gs := dataGroups h reg nf ty.width
    if !accept ty || !ty.shapeOk h || !(gs.all fun o => o.ok h && o.reg + o.size h ≤ 32) || !extra ty then
      illegalWord s opc f
    else
      withRegs s (gs.flatMap (fun o => o.regs h) ++ regs ++ predRegs f ++ h.mfReg)
        (let outs := if load then h.bindings true gs else []
        withBindings s outs (h.boundTo false (idx ty ++ if load then [] else gs.map fun o => (o.reg, o.size h))) fun s =>
          let m : MemOp :=
            { load := load, ty := ty, reg := reg, nf := nf, cell := cell ty (s.baseImm f), vl := h.vl,
              epg := epgOf [ty.width, epgW], eidx := eidx }
          m.run opc f outs s)

/-- Unit-stride addressing (06 R158). -/
def cellUnit (ty : MTy) (base : Word) (_h : Hart) (k : Nat) : Word × Nat :=
  match ty with
  | .plain w => (base + BitVec.ofNat 64 (k * (w / 8)), 0)
  | .packed w => (base + BitVec.ofNat 64 (k * w / 8), k * w % 8)
  | .block nb bs _ => (base + BitVec.ofNat 64 (k / nb * bs), 0)

/-- Rows at a pitch (06 R158). -/
def cellRows (pitch : Word) (ty : MTy) (base : Word) (h : Hart) (k : Nat) : Word × Nat :=
  let r : Word := BitVec.ofNat 64 (k / h.cols)
  let c := k % h.cols
  match ty with
  | .plain w => (base + r * pitch + BitVec.ofNat 64 (c * (w / 8)), 0)
  | .packed w => (base + r * pitch + BitVec.ofNat 64 (c * w / 8), c * w % 8)
  | .block nb bs _ => (base + r * pitch + BitVec.ofNat 64 (c / nb * bs), 0)

/-- Every type. -/
def anyTy (_ : MTy) : Bool := true
def notPacked (t : MTy) : Bool := !t.isPacked

def execVld (f : Fields) (s : State) : Out :=
  commit (memForm 0x500 f s true anyTy 1 2 anyTy [] id cellUnit)
def execVst (f : Fields) (s : State) : Out :=
  commit (memForm 0x501 f s false anyTy 1 2 anyTy [] id cellUnit)
def execVlds (f : Fields) (s : State) : Out :=
  commit (memForm 0x502 f s true anyTy 1 2 anyTy [] id (cellRows (s.rs f.b)))
def execVsts (f : Fields) (s : State) : Out :=
  commit (memForm 0x503 f s false anyTy 1 2 anyTy [] id (cellRows (s.rs f.b)))

/-- The width of VLDX's indices. -/
def idxWidth (f : Fields) : Nat := 16 * 2 ^ f.modField 43 42

/-- The registers of an index group (06 R159). -/
def idxRegs (h : Hart) (wi w : Nat) : Nat := max 1 (h.g * wi / w)

/-- The byte offset of an ordinal's index. -/
def idxOffset (f : Fields) (w : Nat) (h : Hart) (k : Nat) : Word :=
  let wi := idxWidth f
  let v := h.getE f.b.toNat wi (h.pos k)
  let x : Word := if f.modBit 44 then BitVec.ofInt 64 (signed wi v) else BitVec.ofNat 64 v
  if f.modBit 45 then x * BitVec.ofNat 64 (w / 8) else x

/-- VLDX and VSTX (06 R159). -/
def indexed (opc : BitVec 12) (f : Fields) (s : State) (load : Bool) : Eff :=
  let h := s.me
  let wi := idxWidth f
  let b := f.b.toNat
  let okB (ty : MTy) : Bool :=
    let n := idxRegs h wi ty.width
    n ≤ 8 && b % n == 0 && h.bodyFits n wi && !(load && overlaps f.d.toNat h.g b n)
  let w := (match h.memTy f.w.toNat with | some t => t.width | none => 8)
  memForm opc f s load MTy.isPlain 1 wi okB (regRun b (idxRegs h wi w)) id
    (fun ty base h k => (base + idxOffset f ty.width h k, 0)) fun ty => [(b, idxRegs h wi ty.width)]

def execVldx (f : Fields) (s : State) : Out := commit (indexed 0x504 f s true)
def execVstx (f : Fields) (s : State) : Out := commit (indexed 0x505 f s false)

/-- VLDFF (06 R160) (in part DEDUCED, log 25). -/
def vldff (f : Fields) (s : State) : Eff :=
  let h := s.me
  match h.memTy f.w.toNat with
  | none => illegalWord s 0x506 f
  | some ty =>
    let o : Opnd := ⟨f.d.toNat, ty.width, false⟩
    if !ty.isPlain || h.vstart ≠ 0 || !o.ok h || h.rows ≠ 1 then illegalWord s 0x506 f
    else
      withRegs s (o.regs h ++ predRegs f) (withStreams s [o] [] fun s =>
        let m : MemOp :=
          { load := true, ty := ty, reg := o.reg, cell := cellUnit ty (s.baseImm f), vl := h.vl, epg := epgOf [ty.width] }
        let act := (List.range h.vl).filter (h.active f)
        if h.vl = 0 then .done (s.ws f.c 0)
        else
          match act.find? (m.misaligned h) with
          | some k => .trap s { cause := 0x04, eidx := BitVec.ofNat 64 k, eaddr := (m.cell h k).1 }
          | none =>
            let r := act.foldl (fun (a : State × List Access1) k =>
              let c := m.cell h k
              let x := checkRun a.1 s.ctx true c.1 m.bytes
              (x.1, a.2 ++ [⟨k, c.1, 0, x.2⟩])) (s, [])
            let s := r.1
            match r.2 with
            | [] => .done (pushAll ((s.modMe fun x => x.applyTp o).ws f.c (BitVec.ofNat 64 h.vl)) [o])
            | a0 :: _ =>
              match nowhereOf a0.pieces, worst a0.pieces with
              | some pa, _ => .fault (.noSuchAddress pa)
              | none, some (c, lv, va) =>
                .trap (s.modMe fun x =>
                    { x with faultRec := faultRecord 0x506 (BitVec.ofNat 64 a0.k0) [⟨a0.k0, c, lv, va, [], true⟩] })
                  { cause := c, eidx := BitVec.ofNat 64 a0.k0, eaddr := a0.va }
              | none, none =>
                let bad := r.2.find? fun a => (worst a.pieces).isSome || (nowhereOf a.pieces).isSome
                let top := (bad.map Access1.k0).getD h.vl
                let good := r.2.filter fun a => a.k0 < top
                if good.any fun a => s.held true a.pieces then .wait s .copy
                else
                  let s := (List.range top).foldl (fun (t : State) k =>
                    match good.find? fun a => a.k0 == k with
                    | some a => m.perform h [] t a
                    | none => if h.mp then t.modMe fun x => m.clear x k else t) s
                  let s := s.modMe fun x =>
                    let y := { x with vc := { x.vc with vlcol := BitVec.ofNat 14 top } }
                    y.applyTp o
                  .done (pushAll (s.ws f.c (BitVec.ofNat 64 top)) [o]))

def execVldff (f : Fields) (s : State) : Out := commit (vldff f s)

/-- VLDSEG and VSTSEG addressing (06 R163). -/
def cellSeg (pitch : Word) (ty : MTy) (base : Word) (_h : Hart) (k : Nat) : Word × Nat :=
  (base + BitVec.ofNat 64 (k / ty.unit) * pitch, 0)

/-- Types of segments: whole bytes or grist. -/
def segTy (t : MTy) : Bool := match t with | .packed _ => false | .block nb _ _ => nb == 16 | .plain _ => true

def execVldseg (f : Fields) (s : State) : Out :=
  commit (memForm 0x507 f s true segTy (f.modField 44 42 + 1) 2 anyTy [] id (cellSeg (s.rs f.b)))
def execVstseg (f : Fields) (s : State) : Out :=
  commit (memForm 0x508 f s false segTy (f.modField 44 42 + 1) 2 anyTy [] id (cellSeg (s.rs f.b)))

/-- The three indices of a sweep (06 R161). -/
def Hart.sweep (h : Hart) (g : Nat) : Nat × Nat × Nat :=
  let d0 := h.vc.dl[0].toNat
  let d1 := h.vc.dl[1].toNat
  (g % d0, g / d0 % d1, g / (d0 * d1))

/-- VLDMD and VSTMD (06 R161). -/
def sweepForm (opc : BitVec 12) (f : Fields) (s : State) (load : Bool) : Eff :=
  let h := s.me
  let f0 := (s.rs f.b).toNat
  let total := h.vc.dl[0].toNat * h.vc.dl[1].toNat * h.vc.dl[2].toNat
  let ok := h.vl == 0 || (total != 0 && f0 + h.vl ≤ total)
  memForm opc f s load MTy.isPlain 1 2 (fun _ => ok) []
    (fun k => let i := h.sweep (f0 + k); i.1 + i.2.1 <<< 20 + i.2.2 <<< 40)
    fun _ base h k =>
      let i := h.sweep (f0 + k)
      (base + BitVec.ofNat 64 i.1 * h.vc.ds[0] + BitVec.ofNat 64 i.2.1 * h.vc.ds[1] +
        BitVec.ofNat 64 i.2.2 * h.vc.ds[2], 0)

def execVldmd (f : Fields) (s : State) : Out := commit (sweepForm 0x509 f s true)
def execVstmd (f : Fields) (s : State) : Out := commit (sweepForm 0x50A f s false)

/-- VLDR and VSTR: whole registers as words (06 R162). VLDR pushes as it writes a bound group; VSTR, which is not element-wise,
pulls nothing (06 R166) (in part DEDUCED, log 23 and 24). -/
def wholeForm (opc : BitVec 12) (f : Fields) (s : State) (load : Bool) : Eff :=
  let h := s.me
  let n := 2 ^ f.modField 43 42
  let reg := if load then f.d.toNat else f.c.toNat
  if reg % n ≠ 0 then illegalWord s opc f
  else
    withRegs s (regRun reg n ++ h.mfReg)
      (let outs := if load then h.boundTo true [(reg, n)] else []
      withBindings s outs [] fun s =>
        let m : MemOp :=
          { load := load, ty := .plain 64, reg := reg, cell := fun _ k => (s.baseImm f + BitVec.ofNat 64 (8 * k), 0),
            vl := 256 * n, epg := 32, whole := true }
        m.run opc f outs s)

def execVldr (f : Fields) (s : State) : Out := commit (wholeForm 0x50B f s true)
def execVstr (f : Fields) (s : State) : Out := commit (wholeForm 0x50C f s false)

/-- VLDBC: one row in every row of the body (06 R158). -/
def execVldbc (f : Fields) (s : State) : Out :=
  commit (memForm 0x50D f s true MTy.isPlain 1 2 anyTy [] id
    fun ty base h k => (base + BitVec.ofNat 64 (k % h.cols * (ty.width / 8)), 0))

/-- VPREF may be dropped (06 R164): here it always is (in part DEDUCED, log 24). -/
def execVpref (f : Fields) (s : State) : Out :=
  commit (if s.me.vstart ≠ 0 then illegalWord s 0x50E f else .done s)

/-! ## Bindings (06 R165) -/

/-- VBIND (in part DEDUCED, log 23). -/
def vbind (f : Fields) (s : State) : Eff :=
  let h := s.me
  let g := h.g
  let d := f.d.toNat
  let live := (List.finRange 4).filter fun i => (h.vbind[i]).v
  let free := (List.finRange 4).find? fun i => !(h.vbind[i]).v
  let bad := h.vstart ≠ 0 || d % g ≠ 0 ||
    (live.any fun i =>
      let b := h.vbind[i]
      overlaps b.group.toNat b.size d g || b.handle == f.a)
  match free, h.bindType f.w with
  | none, _ => illegalWord s 0x50F f
  | _, none => illegalWord s 0x50F f
  | some i, some t =>
    if bad then illegalWord s 0x50F f
    else
      withRegs s (regRun d g) (
        if (s.myHandle f.a.toNat).desc.isNone then .trap s { cause := 0x17 }
        else
          let b : VBind := ⟨true, f.modBit 42, false, f.d, BitVec.ofNat 2 (bits h.vc.vtype.toNat 7 6), f.a, t⟩
          .done (s.modMe fun h => { h with vbind := h.vbind.set i b }))

def execVbind (f : Fields) (s : State) : Out := commit (vbind f s)

/-- VUNBIND: D names the first register of a binding, which may have been made under another G, so the current G is not tested
(in part DEDUCED, log 23). -/
def execVunbind (f : Fields) (s : State) : Out :=
  commit (
    if s.me.vstart ≠ 0 then illegalWord s 0x510 f
    else
      match (List.finRange 4).find? fun i => (s.me.vbind[i]).v && (s.me.vbind[i]).group == f.d with
      | none => illegalWord s 0x510 f
      | some i => .done (s.modMe fun h => { h with vbind := h.vbind.set i VBind.zero }))

end Sys2Proof.Machine
end

