-- ==== Sys2Proof/Machine/Racker.lean ====
section
/-!
DEFINITION. Class 0xC: Racker copies as they are issued, started, performed line by line and completed, and the completion
tags (07 R167 to R181).
-/

namespace Sys2Proof.Machine

/-! ## The bytes of a copy (07 Table 7.5) -/

/-- Elements and bytes of a unit of a type in memory: one element, or a block. -/
def FTy.unitElems : FTy → Nat
  | .fmt _ => 1
  | .grist _ => 16
  | .mx => 32
def FTy.unitBytes : FTy → Nat
  | .fmt t => t.width / 8
  | .grist g => g.bytes
  | .mx => 17

/-- A floating-column code that names a type; the codes of RKCONV and RKRED always do. -/
def fltOf (code : Nat) : FTy := (fltCode code).getD (.fmt .b32)

/-- The elements that a conversion converts at a time: the larger block. -/
def convUnit (src dst : Nat) : Nat := max (fltOf src).unitElems (fltOf dst).unitElems

/-- Bytes that those elements take in a type. -/
def convBytes (src dst code : Nat) : Nat := convUnit src dst / (fltOf code).unitElems * (fltOf code).unitBytes

/-- Bytes of an element of RKRED. -/
def redBytes (int : Bool) (code : Nat) : Nat :=
  if int then (intCode code).getD 32 / 8 else (fltOf code).unitBytes

/-- How many bytes the copy writes. -/
def Copy.total (c : Copy) : Nat :=
  match c.form with
  | .rows len rows _ _ => len * rows
  | .xpose eb rn cn _ _ => eb * rn * cn
  | .conv n src dst _ => n / convUnit src dst * convBytes src dst dst
  | .fill n _ => 8 * n
  | .gather n len _ => n * len
  | .red _ int ty n _ => n * redBytes int ty

/-- The address `k` bytes on. -/
def Copy.off (a : Word) (k : Int) : Word := a + BitVec.ofInt 64 k

/-- Where byte `b` of the copy is written. -/
def Copy.dstAt (c : Copy) (b : Nat) : Word :=
  match c.form with
  | .rows len _ pitch true => Copy.off c.dst ((b / len : Nat) * pitch + (b % len : Nat))
  | .xpose eb rn _ pitch true => Copy.off c.dst ((b / eb / rn : Nat) * pitch + (b / eb % rn * eb + b % eb : Nat))
  | _ => Copy.off c.dst b

/-- Where byte `b` of the copy is read, for the forms that move bytes; `idx` is RKGATHER's index of a row. -/
def Copy.srcAt (c : Copy) (idx : Nat → Nat) (b : Nat) : Word :=
  match c.form with
  | .rows len _ pitch false => Copy.off c.src ((b / len : Nat) * pitch + (b % len : Nat))
  | .xpose eb rn _ pitch false => Copy.off c.src ((b / eb % rn : Nat) * pitch + (b / eb / rn * eb + b % eb : Nat))
  | .xpose eb rn cn _ true => Copy.off c.src ((b / eb % rn * cn + b / eb / rn) * eb + b % eb : Nat)
  | .gather _ len _ => Copy.off c.src (idx (b / len) * len + b % len : Nat)
  | _ => Copy.off c.src b

/-- The rows of the destination: bytes of a row, rows, and the pitch between them. -/
def Copy.dstRows (c : Copy) : Nat × Nat × Int :=
  match c.form with
  | .rows len rows pitch true => (len, rows, pitch)
  | .xpose eb rn cn pitch true => (rn * eb, cn, pitch)
  | _ => (c.total, 1, 0)

/-- The address of a 64-byte line. -/
def lineOf (a : Word) : Word := a &&& ~~~63#64

/-- Which bytes of the copy land in the line at `a`: the first byte and the count of each row's part. -/
def Copy.inLine (c : Copy) (a : Word) : List (Nat × Nat) :=
  let (len, rows, pitch) := c.dstRows
  (List.range rows).filterMap fun (i : Nat) =>
    let r := Copy.off c.dst (i * pitch)
    let ahead := (r - a).toNat
    let behind := (a - r).toNat
    if ahead < 64 then some (i * len, min len (64 - ahead))
    else if behind < len then some (i * len + behind, min 64 (len - behind))
    else none

/-- The part of its line that byte `b` begins: whether the line's first part, and how many bytes. -/
def Copy.partAt (c : Copy) (b : Nat) : Bool × Nat :=
  let l := c.inLine (lineOf (c.dstAt b))
  ((l.headD (b, 1)).1 == b, ((l.find? fun x => x.1 == b).getD (b, 1)).2)

/-- The lines of the destination, from byte `b` on: each at the first of its parts, for that part is performed with the line
(in part DEDUCED, log 33). -/
def Copy.lines (c : Copy) : Nat → Nat → List Word
  | 0, _ => []
  | k + 1, b =>
    if c.total ≤ b then []
    else
      let p := c.partAt b
      (if p.1 then [lineOf (c.dstAt b)] else []) ++ Copy.lines c k (b + max 1 p.2)

/-- Consecutive addresses joined. -/
def groupRuns : List Word → List (Word × Nat)
  | [] => []
  | a :: l =>
    match groupRuns l with
    | (b, n) :: r => if a + 1 = b then (a, n + 1) :: r else (a, 1) :: (b, n) :: r
    | [] => [(a, 1)]

/-- The runs of the index table that `n` bytes from byte `b` need. -/
def Copy.idxRuns (c : Copy) (b n : Nat) : List (Word × Nat) :=
  match c.form with
  | .gather _ len idx => [(Copy.off idx (4 * (b / len) : Nat), 4 * ((b + n - 1) / len - b / len + 1))]
  | _ => []

/-- The runs of the source that they need. -/
def Copy.srcRuns (c : Copy) (idx : Nat → Nat) (b n : Nat) : List (Word × Nat) :=
  match c.form with
  | .fill _ _ => []
  | .conv _ src dst _ =>
    let db := convBytes src dst dst
    let sb := convBytes src dst src
    [(Copy.off c.src (b / db * sb : Nat), ((b + n - 1) / db - b / db + 1) * sb)]
  | .red _ _ _ _ _ => [(Copy.off c.src b, n)]
  | _ => groupRuns ((List.range n).map fun k => c.srcAt idx (b + k))

/-- The values of one unit's bytes, with their sign bits (03 R46, R47). -/
def FTy.values (t : FTy) (l : List Byte) : List (FVal × Bool) :=
  match t with
  | .fmt f => (chunks (f.width / 8) l.length l).map fun b => (f.val false (ofBytes b), f.signOf (ofBytes b))
  | .grist g => (chunks g.bytes l.length l).flatMap fun b =>
      (List.range 16).map fun i => (g.elem (ofBytes b) i, (ofBytes b >>> (16 + (g.k + 1) * i + g.k)) % 2 = 1)
  | .mx => (chunks 17 l.length l).flatMap fun b =>
      (List.range 32).map fun i => (mxElem (ofBytes b) i, (ofBytes b >>> (8 + 4 * i + 3)) % 2 = 1)

/-- Conversion of a value to a format (03 R63): a NaN becomes the canonical NaN (in part DEDUCED, log 33). -/
def convVal (dst : Fmt) (env : FEnv) (i : Nat) (v : FVal) : Nat × FFlags :=
  match v with
  | .nan sg => (dst.canonNaN, if sg then fNV else 0)
  | x => dst.roundVal env true i x

/-- The bytes of values in a type, the first of element index `i0`, and the flags. -/
def FTy.store (t : FTy) (env : FEnv) (i0 : Nat) (l : List (FVal × Bool)) : List Byte × FFlags :=
  let cs := chunks t.unitElems l.length l
  let one (u : Nat) (c : List (FVal × Bool)) : Nat × FFlags :=
    match t with
    | .fmt f => convVal f env (i0 + u) ((c.map (·.1)).headD (.fin false 0 0))
    | .grist g => g.quantise env (i0 + 16 * u) (c.map (·.1)) (c.map (·.2))
    | .mx => mxQuantise env (i0 + 32 * u) (c.map (·.1)) (c.map (·.2))
  let rs := ((List.range cs.length).zip cs).map fun x => one x.1 x.2
  (rs.flatMap fun r => toBytes t.unitBytes r.1, rs.foldl (fun a r => a ||| r.2) 0)

/-- Rounding to nearest even with nothing flushed (07 R176). -/
def redEnv : FEnv := ⟨.rne, false, 0, 0⟩

/-- One element of RKRED (07 R176) (in part DEDUCED, log 35). -/
def redElem (op : RedOp) (int : Bool) (code : Nat) (d s : Nat) : Nat × FFlags :=
  if int then
    let w := (intCode code).getD 32
    (match op with
      | .add => ((d + s) % 2 ^ w, 0)
      | .max => (if signed w d < signed w s then s else d, 0)
      | .min => (if signed w s < signed w d then s else d, 0))
  else
    match fltOf code with
    | .fmt f =>
      (match op with
        | .add => f.fadd redEnv 0 d s
        | .max => f.fminmax true false d s
        | .min => f.fminmax false false d s)
    | _ => (d, 0)

/-- What `n` bytes from byte `b` on become: the bytes, by the source's and, for RKRED, the destination's, and the flags.
RKCONV between equal float formats copies, with a NaN quietened (in part DEDUCED, log 33). -/
def Copy.output (c : Copy) (b n : Nat) (src old : List Byte) : List Byte × FFlags :=
  match c.form with
  | .fill _ p => ((List.range n).map fun k => BitVec.ofNat 8 (p.toNat >>> (8 * ((b + k) % 8))), 0)
  | .conv _ sc dc env =>
    let u := convUnit sc dc
    let db := convBytes sc dc dc
    let r : List Byte × FFlags :=
      (match fltOf sc, fltOf dc with
        | .fmt f, .fmt g =>
          if f = g then
            let vs := (chunks (f.width / 8) src.length src).map ofBytes
            let rs : List (Nat × FFlags) := ((List.range vs.length).zip vs).map fun (x : Nat × Nat) =>
              if f.isNaN x.2 then (f.quiet x.2, if f.isSNaN x.2 then fNV else 0) else convFF f g env (b / db * u + x.1) x.2
            (rs.flatMap fun x => toBytes (f.width / 8) x.1, rs.foldl (fun a x => a ||| x.2) 0)
          else (FTy.fmt g).store env (b / db * u) ((FTy.fmt f).values src)
        | s, d => d.store env (b / db * u) (s.values src))
    ((r.1.drop (b % db)).take n, r.2)
  | .red op int code _ _ =>
    let eb := redBytes int code
    let rs := ((chunks eb n src).zip (chunks eb n old)).map fun x => redElem op int code (ofBytes x.2) (ofBytes x.1)
    (rs.flatMap fun r => toBytes eb r.1, rs.foldl (fun a r => a ||| r.2) 0)
  | _ => (src, 0)

/-! ## Ownership and marks (07 R179) -/

/-- Adds a copy to the list at a key, or takes one entry of it away. -/
def addAt (m : SMap (List Nat)) (id k : Nat) : SMap (List Nat) := SMap.set [] m k (SMap.get [] m k ++ [id])
def dropAt (m : SMap (List Nat)) (id k : Nat) : SMap (List Nat) := SMap.set [] m k ((SMap.get [] m k).erase id)

/-- Takes every entry of a copy away. -/
def dropAll (m : SMap (List Nat)) (id : Nat) : SMap (List Nat) :=
  (m.map fun e => (e.1, e.2.filter (· != id))).filter fun e => !e.2.isEmpty

/-- The physical address an address translates to now, with nothing changed (in part DEDUCED, log 33). -/
def State.peek (s : State) (x : MemCtx) (va : Word) : Option Nat :=
  match (translate s x .store va).2 with
  | .ok pa _ => some pa
  | .fail _ => none

/-- The 8-byte words that `n` bytes touch. -/
def wordsOf (pa n : Nat) : List Nat := (List.range ((pa + n - 1) / 8 - pa / 8 + 1)).map fun k => (pa / 8 + k) * 8

/-- The words of the line at physical address `pa` that the copy writes; `a` is its virtual address. -/
def Copy.lineWords (c : Copy) (a : Word) (pa : Nat) : List Nat :=
  ((c.inLine a).flatMap fun x => wordsOf (pa + (c.dstAt x.1 - a).toNat) x.2).eraseDups

/-- A copy owns the lines of its HBM destination, and marks the words of its Cellar destination when NP is set: those it has not
yet written, at issue and, for a page that had no translation then, when it starts (in part DEDUCED, log 18). -/
def State.claimDst (s : State) (c : Copy) : State :=
  (c.lines (c.total + 1) c.pos).foldl (fun (s : State) a =>
    match s.peek c.ctx a with
    | none => s
    | some pa =>
      match spaceOf pa with
      | .hbm => { s with owned := addAt s.owned c.id (pa / 64) }
      | .cellar => if c.np then { s with absent := (c.lineWords a pa).foldl (fun m w => addAt m c.id w) s.absent } else s
      | _ => s) s

/-- The line at `a` is written: its ownership and its words' marks go (in part DEDUCED, log 18). -/
def State.releaseLine (s : State) (c : Copy) (a : Word) (pa : Nat) : State :=
  { s with owned := dropAt s.owned c.id (pa / 64),
           absent := (c.lineWords a pa).foldl (fun m w => dropAt m c.id w) s.absent }

/-- A copy releases all that it still holds. -/
def State.releaseCopy (s : State) (c : Copy) : State :=
  { s with owned := dropAll s.owned c.id, absent := dropAll s.absent c.id }

/-- A copy claims anew what it has not yet written. -/
def State.reclaim (s : State) (c : Copy) : State := (s.releaseCopy c).claimDst c

/-! ## Channels and tags -/

def Racker.queue (r : Racker) (ch : Fin 4) : List Copy := r.channels[ch]
def Racker.setQueue (r : Racker) (ch : Fin 4) (l : List Copy) : Racker := { r with channels := r.channels.set ch l }

def State.modRacker (s : State) (c : ClusterId) (f : Racker → Racker) : State :=
  s.modCluster c fun x => { x with racker := f x.racker }

/-- The copy at the head of a channel. -/
def State.headCopy (s : State) (c : ClusterId) (ch : Fin 4) : Option Copy := ((s.cluster c).racker.queue ch).head?

/-- Replaces or removes the copy at the head of its channel. -/
def State.setHead (s : State) (c : ClusterId) (ch : Fin 4) (x : Option Copy) : State :=
  s.modRacker c fun r => r.setQueue ch (x.toList ++ (r.queue ch).drop 1)

/-- The mask of a tag. -/
def tagBit (t : Nat) : Word := 1#64 <<< t

/-- Tag `t` is Done (07 Table 7.3). -/
def Hart.tagDone (h : Hart) (t : Nat) : Hart :=
  { h with tags := { h.tags with bits := h.tags.bits ||| tagBit t, busy := h.tags.busy &&& ~~~(tagBit t) } }

/-- Tag `t` is Running. -/
def Hart.tagRunning (h : Hart) (t : Nat) : Hart :=
  { h with tags := { h.tags with bits := h.tags.bits &&& ~~~(tagBit t), busy := h.tags.busy ||| tagBit t } }

/-- A copy has completed (07 R170). -/
def State.copyDone (s : State) (c : Copy) : State :=
  (s.releaseCopy c).modHart c.hart fun h => (h.addFlags c.flags).tagDone c.tag

/-! ## Issue -/

/-- The X fields of a copy (07 R173). -/
def copyTag (f : Fields) : Nat := f.xField 5 0
def copyChan (f : Fields) : Fin 4 := Fin.ofNat 4 (f.xField 7 6)

/-- Whether a gang's declaration claims a resource at any time (in part DEDUCED, log 34). -/
def State.hasClaim (s : State) (h : HartId) (r : Resource) : Bool :=
  match (s.hart h).gang with
  | none => true
  | some (d, n) =>
    match s.task d n with
    | some t => t.claims.any fun c => c.resources.contains r
    | none => false

/-- The issue of a copy (07 Table 7.1, R170): `ok` says that its operands are within its limits, and `al` lists the addresses
and pitches with their alignments, of which the first misaligned one is reported: the source, then the destination or the index,
then the pitch. A copy that writes nothing completes at issue (in part DEDUCED, log 33). -/
def issueCopy (f : Fields) (s : State) (ok : Bool) (al : List (Word × Nat)) (src dst : Word) (form : CopyForm)
    (after : Hart → Hart) : Eff :=
  let h := s.me
  let c := s.cur.cluster
  if h.tags.busy.getLsbD (copyTag f) then .trap s { cause := 0x01 }
  else if !ok then .trap s { cause := 0x01 }
  else if !s.hasClaim s.cur (2, c.val * 32 + (copyChan f).val) then .trap s { cause := 0x01 }
  else
    match al.find? fun x => x.1.toNat % x.2 != 0 with
    | some x => .trap s { cause := 0x04, eaddr := x.1 }
    | none =>
      if ((s.cluster c).racker.queue (copyChan f)).length ≥ 16 then .wait s .hazard
      else
        let copy : Copy :=
          { id := s.copySeq + 1, hart := s.cur, tag := copyTag f, ch := copyChan f, scope := f.xField 10 8, np := f.x.getLsbD 11,
            src := src, dst := dst, form := form, ctx := s.ctx, gang := h.gang, started := false, pos := 0, flags := 0,
            stamped := [], dropped := false, got := [] }
        if copy.total = 0 then .done (s.modMe fun h => after (h.tagDone (copyTag f)))
        else
          let s := { s with copySeq := s.copySeq + 1 }
          let s := s.claimDst copy
          let s := s.modRacker c fun r => r.setQueue (copyChan f) (r.queue (copyChan f) ++ [copy])
          .done (s.modMe fun h => after (h.tagRunning (copyTag f)))

/-- IMM as a signed pitch. -/
def copyPitch (f : Fields) : Int := signed 32 f.imm.toNat

def execRkcopy (f : Fields) (s : State) : Out :=
  let c := s.rs f.c
  let len := wbits c 31 0
  commit (issueCopy f s (len ≤ 2 ^ 30 && wbits c 63 48 == 0) [] (s.rs f.a) (s.rs f.b)
    (.rows len (wbits c 47 32 + 1) (copyPitch f) (f.modBit 42)) id)

def execRkxpose (f : Fields) (s : State) : Out :=
  let c := s.rs f.c
  let rn := wbits c 15 0
  let cn := wbits c 31 16
  let eb := (intCode f.w.toNat).getD 8 / 8
  commit (issueCopy f s (1 ≤ rn && rn ≤ 4096 && 1 ≤ cn && cn ≤ 4096 && wbits c 63 32 == 0)
    [(s.rs f.a, eb), (s.rs f.b, eb), (sextImm f, eb)] (s.rs f.a) (s.rs f.b) (.xpose eb rn cn (copyPitch f) (f.modBit 42)) id)

/-- The alignment of a conversion's operand: its element's size, or none for a block type. -/
def FTy.align (t : FTy) : Nat :=
  match t with
  | .fmt f => f.width / 8
  | _ => 1

/-- RKCONV takes the rounding mode, SAT8 and the seed at issue, and steps SRSEED as it completes there (07 R175). -/
def execRkconv (f : Fields) (s : State) : Out :=
  let n := (s.rs f.c).toNat
  let src := f.immField 3 0
  let dst := f.w.toNat
  let mode := s.me.rmode (f.immField 6 4)
  commit (issueCopy f s (n ≤ 2 ^ 24 && n % convUnit src dst == 0)
    [(s.rs f.a, (fltOf src).align), (s.rs f.b, (fltOf dst).align)] (s.rs f.a) (s.rs f.b)
    (.conv n src dst { mode := mode, sat8 := s.me.fp.ctl.sat8, seed := s.me.fp.seed, flush := 0 }) fun h => h.stepSeed mode)

def execRkfill (f : Fields) (s : State) : Out :=
  let n := (s.rs f.c).toNat
  commit (issueCopy f s (n ≤ 2 ^ 30 && n % 8 == 0) [(s.rs f.b, 8)] 0 (s.rs f.b) (.fill (n / 8) (s.rs f.a)) id)

def execRkgather (f : Fields) (s : State) : Out :=
  let n := f.immField 15 0
  let len := 16 * f.immField 31 16
  commit (issueCopy f s (n == 0 || len != 0) [(s.rs f.c, 4)] (s.rs f.a) (s.rs f.b) (.gather n len (s.rs f.c)) id)

/-- RKRED's stamp holds the gang's task number and the tile (07 R177). -/
def execRkred (f : Fields) (s : State) : Out :=
  let c := s.rs f.c
  let int := f.modBit 44
  let eb := redBytes int f.w.toNat
  let len := f.imm.toNat
  let op : RedOp := (match f.modField 43 42 with | 0 => .add | 1 => .max | _ => .min)
  let stamp := BitVec.ofNat 32 (wbits s.me.cal.gangid 15 0 * 65536 + wbits c 15 0)
  commit (issueCopy f s (1 ≤ len && len ≤ 65536 && len % eb == 0 && wbits c 63 16 == 0)
    [(s.rs f.a, eb), (s.rs f.b, eb)] (s.rs f.a) (s.rs f.b) (.red op int f.w.toNat (len / eb) stamp) id)

/-! ## Performance -/

/-- COPY_START: the head of a channel starts once the earlier stores of its hart are performed (07 R167, R189). -/
def execCopyStart (c : ClusterId) (ch : Fin 4) (s : State) : Out :=
  match s.headCopy c ch with
  | some x =>
    .next (if !x.started && s.storesDone x.hart x.scope x.id then
      (s.setHead c ch (some { x with started := true })).reclaim x else s)
  | none => .next s

/-- Why a line cannot be performed. -/
inductive LineStop where
  | bad (cause : Nat) (va : Word)
  | nowhere (pa : Nat)
  deriving DecidableEq, Repr

/-- The first line of checked runs that fails, in order. -/
def firstStop (l : List Piece) : Option LineStop :=
  l.findSome? fun p => match p with
    | .bad _ c _ va => some (.bad c (va &&& ~~~63#64))
    | .nowhere pa => some (.nowhere pa)
    | .ok _ _ _ => none

/-- Whether an access of a copy waits for the owner of a line: a read for every other copy, a write for those issued before; never
for one behind it in its own channel (in part DEDUCED, log 18). -/
def State.ownedFrom (s : State) (c : Copy) (load : Bool) (pa n : Nat) : Bool :=
  let behind := (((s.cluster c.hart.cluster).racker.queue c.ch).map Copy.id)
  (List.range ((pa + n - 1) / 64 - pa / 64 + 1)).any fun k =>
    (SMap.get [] s.owned (pa / 64 + k)).any fun i => i != c.id && !behind.contains i && (load || i < c.id)

/-- What the performance of a line comes to. -/
inductive LineOut where
  | done (s : State) (c : Copy)
  | stop (s : State) (x : LineStop)
  /-- It waits: for another copy's line, or for a stamp table. -/
  | hold (s : State)
  deriving Repr

/-- The numbers of the 8-byte words that runs touch, each once. -/
def wordNums (runs : List (Word × Nat)) : List Nat :=
  (runs.flatMap fun r =>
    (List.range ((r.1.toNat % 8 + r.2 + 7) / 8)).map fun k => (r.1.toNat / 8 + k) % 2 ^ 61).eraseDups

/-- The bytes of a run, from the words that a copy has read. -/
def Copy.fetched (c : Copy) (r : Word × Nat) : List Byte :=
  (List.range r.2).map fun k =>
    let a := (r.1 + BitVec.ofNat 64 k).toNat
    BitVec.ofNat 8 (((c.got.lookup (a / 8)).getD 0).toNat >>> (8 * (a % 8)))

/-- Reads the words of a copy's source that it has not read before (07 R180): a DISC page reads as zero and sets DREAD
(06 Table 6.6) (in part DEDUCED, log 33). -/
def copyRead (s : State) (c : Copy) (runs : List (Word × Nat)) (k : State → Copy → LineOut) : LineOut :=
  let r := ((wordNums runs).filter fun w => (c.got.lookup w).isNone).foldl (fun (a : State × List (Nat × Piece)) w =>
    let q := checkPiece a.1 c.ctx true (BitVec.ofNat 64 (8 * w)) 8
    (q.1, a.2 ++ [(w, q.2)])) (s, [])
  match firstStop (r.2.map (·.2)) with
  | some x => .stop r.1 x
  | none =>
    if r.2.any fun p => match p.2 with | .ok pa n _ => r.1.ownedFrom c true pa n | _ => false then .hold r.1
    else
      let disc := r.2.any fun p => match p.2 with | .ok _ _ e => readsZero e.leaf | _ => false
      let s := if disc then r.1.modHart c.hart fun h => { h with status := { h.status with dread := true } } else r.1
      k s { c with got := c.got ++ r.2.map fun p => (p.1, match p.2 with
        | .ok pa n e => if readsZero e.leaf then 0 else BitVec.ofNat 64 (ofBytes (s.bytes pa n))
        | _ => 0) }

/-- The stamp bit of an RKRED at the slice that its line lies in (07 R177): the copy goes on, is dropped, or is held
(in part DEDUCED, log 35). -/
inductive Stamp where
  | go (s : State) (c : Copy)
  | drop (s : State)
  | held
  deriving Repr

/-- In part DEDUCED, log 35. -/
def stampAt (s : State) (c : Copy) (pa : Nat) : Stamp :=
  match c.form with
  | .red _ _ _ _ stamp =>
    let task := c.gang.getD (0, 0)
    let tile := stamp.toNat % 65536
    let sl := cellarSlice pa
    let r := (s.cluster sl).racker
    if stamp.toNat / 65536 = 0 ∨ c.stamped.contains sl then .go s c
    else
      match r.stamps.find? fun t => t.1 == task with
      | some t =>
        if t.2.contains tile then
          .drop (s.modRacker sl fun r =>
            { r with rkdups := if r.rkdups = BitVec.allOnes 32 then r.rkdups else r.rkdups + 1 })
        else
          .go (s.modRacker sl fun r =>
            { r with stamps := r.stamps.map fun t => if t.1 = task then (t.1, t.2 ++ [tile]) else t })
            { c with stamped := sl :: c.stamped }
      | none =>
        if r.stamps.length < 32 then
          .go (s.modRacker sl fun r => { r with stamps := r.stamps ++ [(task, [tile])] })
            { c with stamped := sl :: c.stamped }
        else .held
  | _ => .go s c

/-- A copy is held at a slice for want of a table, or no longer (07 Table 7.6) (in part DEDUCED, log 35). -/
def State.markHeld (s : State) (c : Copy) (pa : Nat) (on : Bool) : State :=
  match c.form with
  | .red _ _ _ _ _ => s.modRacker (cellarSlice pa) fun r =>
      { r with held := (r.held.filter (· != c.id)) ++ (if on then [c.id] else []) }
  | _ => s

/-- Writes bytes within a line: together in one access, or RKRED's elements one by one (in part DEDUCED, log 35). -/
def State.copyWrite (s : State) (c : Copy) (pa : Nat) (l : List Byte) : State :=
  match c.form with
  | .red _ int code _ _ =>
    let eb := redBytes int code
    ((chunks eb l.length l).foldl (fun (a : State × Nat) b => (a.1.setBytes a.2 b, a.2 + eb)) (s, pa)).1
  | _ => s.setBytes pa l

/-- The bytes to write in a line, by offset; of two for one place the later stands. -/
def lineCells (l : List (Nat × List Byte)) : List (Nat × List Byte) :=
  let at_ (o : Nat) : Option Byte := l.foldl (fun x p => if p.1 ≤ o then (p.2[o - p.1]?).or x else x) none
  let r := (List.range 64).foldl (fun (a : List (Nat × List Byte) × Nat × List Byte) o =>
    match at_ o with
    | some b => (a.1, if a.2.2.isEmpty then o else a.2.1, a.2.2 ++ [b])
    | none => (if a.2.2.isEmpty then a.1 else a.1 ++ [a.2], 0, [])) ([], 0, [])
  if r.2.2.isEmpty then r.1 else r.1 ++ [r.2]

/-- RKGATHER's index of a row, once it is read. -/
def Copy.idxOf (c : Copy) (r : Nat) : Nat :=
  match c.form with
  | .gather _ _ idx => ofBytes (c.fetched (Copy.off idx (4 * r : Nat), 4))
  | _ => 0

/-- Performs the next line of a copy: every byte of it that the copy writes, whichever rows it comes from
(07 R172, R174 to R177, R179) (in part DEDUCED, log 33). -/
def copyLine (s : State) (c : Copy) : LineOut :=
  let b := c.pos
  let a := lineOf (c.dstAt b)
  let next (c : Copy) : Copy := { c with pos := b + (c.partAt b).2 }
  if !(c.partAt b).1 then .done s (next c)
  else
    let parts := c.inLine a
    copyRead s c (parts.flatMap fun p => c.idxRuns p.1 p.2) fun s c =>
      copyRead s c (parts.flatMap fun p => c.srcRuns c.idxOf p.1 p.2) fun s c =>
        let q := checkPiece s c.ctx false a 64
        match q.2 with
        | .bad _ cause _ va => .stop q.1 (.bad cause va)
        | .nowhere pa => .stop q.1 (.nowhere pa)
        | .ok pa _ e =>
          let s := q.1
          let red := (match c.form with | .red _ _ _ _ _ => true | _ => false)
          if red && spaceOf pa != .cellar then .stop s (.bad 0x07 a)
          else if s.ownedFrom c false pa 64 then .hold s
          else
            match stampAt s c pa with
            | .held => .hold (s.markHeld c pa true)
            | .drop s => .done (s.markHeld c pa false) { c with dropped := true }
            | .go t c =>
              if red && s.poisoned pa then .stop (s.markHeld c pa false) (.bad 0x16 a)
              else
                let s := t.markHeld c pa false
                let outs := parts.map fun p =>
                  let o := (c.dstAt p.1 - a).toNat
                  (o, c.output p.1 p.2 ((c.srcRuns c.idxOf p.1 p.2).flatMap c.fetched) (s.bytes (pa + o) p.2))
                let s := (lineCells (outs.map fun x => (x.1, x.2.1))).foldl
                  (fun (s : State) x => s.copyWrite c (pa + x.1) x.2) (s.markDirty c.ctx e)
                .done (s.releaseLine c a pa) { next c with flags := outs.foldl (fun f x => f ||| x.2.2) c.flags }

/-- Whether a gang, when there is one, has the resource in the current slot, tail included. -/
def State.gangHas (s : State) (g : Option (DieId × Nat)) (r : Resource) : Bool :=
  match g with
  | some (d, n) => (s.task d n).any fun t => t.st == .running && t.holdsAt t.bookStart r s.slot
  | none => false

/-- Whether a copy may move in this cycle (07 R167, 08 R206, R219): any cycle of a slot that its gang has claimed or that no
other booking's occurrence has, and else the free cycles 14 and 15. -/
def State.copyMoves (s : State) (c : ClusterId) (x : Copy) : Bool :=
  let r : Resource := (2, c.val * 32 + x.ch.val)
  14 ≤ s.cycle % 16 || s.gangHas x.gang r || !s.occupied (x.gang.getD (0, 0)) r s.slot

/-- The copy's last line is written, or it was dropped. -/
def Copy.finished (c : Copy) : Bool := c.dropped || c.total ≤ c.pos

/-- A copy meets a fault (07 R172): a gang's copy waits for the gang's next start when the cause suspends it; any other leaves
its channel, and its tag is Faulted (in part DEDUCED, log 34). -/
def State.copyFault (s : State) (c : ClusterId) (x : Copy) (cause : Nat) (va : Word) : State :=
  let s := s.setHead c x.ch none
  match x.gang with
  | some (d, n) =>
    if suspends cause then
      (s.modRacker c fun r => { r with parked := r.parked ++ [x] }).suspendGang d n []
    else
      (s.modRacker c fun r => { r with faulted := r.faulted ++ [x] }).modHart x.hart fun h =>
        { h with tags := { h.tags with faults := h.tags.faults ++ [⟨x.tag, cause, va⟩] } }
  | none =>
    (s.modRacker c fun r => { r with faulted := r.faulted ++ [x] }).modHart x.hart fun h =>
      { h with tags := { h.tags with faults := h.tags.faults ++ [⟨x.tag, cause, va⟩] } }

/-- COPY_LINE_WRITE: a running copy performs its next destination line (in part DEDUCED, log 33). -/
def execCopyLineWrite (c : ClusterId) (ch : Fin 4) (s : State) : Out :=
  match s.headCopy c ch with
  | some x =>
    if !x.started || x.finished || !s.copyMoves c x then .next s
    else
      (match copyLine s x with
        | .done s x => .next (s.setHead c ch (some x))
        | .hold s => .next s
        | .stop s (.bad cause va) => .next (s.copyFault c x cause va)
        | .stop _ (.nowhere pa) => .fault (.noSuchAddress pa))
  | none => .next s

/-- COPY_COMPLETE: every line of the head is written, and its tag is Done (07 R170). -/
def execCopyComplete (c : ClusterId) (ch : Fin 4) (s : State) : Out :=
  match s.headCopy c ch with
  | some x => .next (if x.started && x.finished then (s.setHead c ch none).copyDone x else s)
  | none => .next s

/-! ## Waiting on tags (07 R181) -/

/-- Whether tag `t` is in a mask. -/
def inMask (m : Word) (t : Nat) : Bool := m.getLsbD t

/-- The faulted tags of a mask are Running again: their copies go to the tails of their channels' queues, and their messages
are posted again (in part DEDUCED, log 34). -/
def State.restartTags (s : State) (m : Word) : State :=
  let h := s.cur
  let again (x : Copy) : Bool := x.hart == h && inMask m x.tag
  let s := s.modRacker h.cluster fun r =>
    (r.faulted.filter again).foldl (fun (r : Racker) x => r.setQueue x.ch (r.queue x.ch ++ [{ x with started := false }]))
      { r with faulted := r.faulted.filter fun x => !again x }
  let mine (y : Msg) : Bool := y.faulted && y.hart == h && inMask m y.tag
  let s := s.modCluster h.cluster fun c =>
    { c with msgs := c.msgs.filter (fun y => !mine y) ++ (c.msgs.filter mine).map fun y => { y with faulted := false } }
  s.modMe fun h => { h with tags := { h.tags with faults := h.tags.faults.filter fun t => !inMask m t.tag } }

/-- The faulted tag of a mask with the lowest number. -/
def Hart.firstFault (h : Hart) (m : Word) : Option TagFault :=
  (List.range 64).findSome? fun t => if inMask m t then h.tags.faults.find? fun x => x.tag == t else none

/-- TWAITANY and TWAITALL: faulted copies are restarted once, as the wait begins (in part DEDUCED, log 34). -/
def tagWait (f : Fields) (s : State) (any : Bool) : Eff :=
  let m := s.rs f.a
  let s := if s.me.inWait then s else s.restartTags m
  match s.me.firstFault m with
  | some x => .trap s { cause := x.cause, eaddr := x.va, eidx := BitVec.ofNat 64 x.tag }
  | none =>
    let t := s.me.tags
    if t.busy &&& m = 0 ∨ (any ∧ t.bits &&& m ≠ 0) then .done (s.ws f.d (t.bits &&& m)) else .wait s .tags

def execTwaitany (f : Fields) (s : State) : Out := commit (tagWait f s true)
def execTwaitall (f : Fields) (s : State) : Out := commit (tagWait f s false)

/-- The lowest done tag of the mask, or -1. -/
def execTfirst (f : Fields) (s : State) : Out :=
  let d := s.me.tags.bits &&& s.rs f.a
  commit (.done (s.ws f.d (if d = 0 then BitVec.allOnes 64 else BitVec.ofNat 64 (trailZeros 64 d.toNat))))

def execTclr (f : Fields) (s : State) : Out :=
  let m := s.rs f.a
  let t := s.me.tags
  commit (.done ((s.modMe fun h => { h with tags := { h.tags with bits := t.bits &&& ~~~(m &&& ~~~t.busy) } }).ws f.d (m &&& t.busy)))

/-- Cancels the copies of a hart on the tags of a mask: they stop at a line boundary and release what they hold; a message
posted on such a tag is withdrawn (07 R181, 13 R345) (in part DEDUCED, log 34 and 54). -/
def State.cancelTags (s : State) (h : HartId) (m : Word) : State :=
  let hit (x : Copy) : Bool := x.hart == h && inMask m x.tag
  let r := (s.cluster h.cluster).racker
  let gone := (r.channels.toList.flatMap (·.filter hit)) ++ r.faulted.filter hit ++ r.parked.filter hit
  let s := gone.foldl State.releaseCopy s
  let s := s.modRacker h.cluster fun r =>
    { r with channels := r.channels.map fun l => l.filter fun x => !hit x
             faulted := r.faulted.filter fun x => !hit x
             parked := r.parked.filter fun x => !hit x }
  let ids := gone.map Copy.id
  let s : State := { s with clusters := s.clusters.map fun x =>
    { x with racker := { x.racker with held := x.racker.held.filter fun i => !ids.contains i }
             msgs := (x.msgs.filter fun y => !(y.hart == h && inMask m y.tag)).map fun y =>
               if y.mate.any fun z => z.1 == h && inMask m z.2 then { y with mate := none } else y } }
  s.modHart h fun x =>
    { x with tags := { bits := x.tags.bits, busy := x.tags.busy &&& ~~~m,
                       faults := x.tags.faults.filter fun t => !inMask m t.tag } }

def execTclrCancel (f : Fields) (s : State) : Out :=
  let m := s.rs f.a
  let s := s.cancelTags s.cur m
  commit (.done ((s.modMe fun h => { h with tags := { h.tags with bits := h.tags.bits &&& ~~~m } }).ws f.d 0))

end Sys2Proof.Machine
end

