-- ==== Sys2Proof/Machine/Atomics.lean ====
section
/-!
DEFINITION. Class 0xD: ordering, atomics, futures, queues and progress cells (07 R192 to R201), and the acknowledgements of
RDUP stores (06 R142). One instruction is one step, so an acquire asks for nothing more; a release waits for the hart's
earlier held stores.
-/

namespace Sys2Proof.Machine

/-- Whether every earlier store of the running hart is performed at a scope (in part DEDUCED, log 17). -/
def State.myStoresDone (s : State) (scope : Nat) : Bool := s.storesDone s.cur scope (s.copySeq + 1)

/-- Goes on once the earlier stores of the running hart are performed at the scope (07 R187). -/
def withRelease (s : State) (scope : Nat) (k : Eff) : Eff := if s.myStoresDone scope then k else .wait s .other

/-- The scope of a class 0xD form. -/
def scopeOf (f : Fields) : Nat := f.xField 2 0

/-! ## Loads, stores and barriers -/

/-- LDA (07 R194). -/
def execLda (f : Fields) (s : State) : Out :=
  commit (scalarLoad s (wBytes f) (s.baseImm f) fun s v =>
    .done (s.ws f.d (extendLoad (f.modBit 42) (wBytes f) v)))

/-- STREL (07 R194). -/
def execStrel (f : Fields) (s : State) : Out :=
  commit (withRelease s (scopeOf f)
    (scalarStore s (wBytes f) (s.baseImm f) ((s.rs f.b).toNat % 2 ^ (8 * wBytes f)) .done))

/-- FENCE (07 R195): only earlier stores can still be unperformed. -/
def execFence (f : Fields) (s : State) : Out :=
  commit (if f.modBit 43 && !s.myStoresDone (scopeOf f) then .wait s .hazard else .done s)

/-- What keeps MBAR at a scope from ending (07 R195). -/
def State.barHold (s : State) (scope : Nat) : Option WaitFor :=
  if s.me.tags.busy ≠ 0 then some .tags else if s.myStoresDone scope then none else some .hazard

/-- MBAR (07 R195). -/
def execMbar (f : Fields) (s : State) : Out :=
  commit (match s.barHold (scopeOf f) with
    | some w => .wait s w
    | none => .done s)

/-! ## Atomics (07 R196) -/

/-- The new value of AMO, on `n` bits. -/
def amoOp (code n old b : Nat) : Nat :=
  match code with
  | 0 => b
  | 1 => (old + b) % 2 ^ n
  | 2 => old &&& b
  | 3 => old ||| b
  | 4 => old ^^^ b
  | 5 => if signed n old < signed n b then b else old
  | 6 => if signed n b < signed n old then b else old
  | 7 => max old b
  | _ => min old b

/-- The low bits of a register that an atomic of the form's width takes. -/
def lowOf (f : Fields) (v : Word) : Nat := v.toNat % 2 ^ (8 * wBytes f)

/-- AMO and CAS: `up` answers the new value, and s[D] receives the old one (in part DEDUCED, log 36). -/
def atomic (f : Fields) (s : State) (up : Nat → Option Nat) : Eff :=
  let go := readModify s (wBytes f) (wBytes f) (s.baseImm f) up fun s _ old =>
    .done (s.ws f.d (BitVec.ofInt 64 (signed (8 * wBytes f) old)))
  if f.modBit 47 then withRelease s (scopeOf f) go else go

def execAmo (f : Fields) (s : State) : Out :=
  commit (atomic f s fun old => some (amoOp (f.modField 45 42) (8 * wBytes f) old (lowOf f (s.rs f.b))))

def execCas (f : Fields) (s : State) : Out :=
  commit (atomic f s fun old => if old = lowOf f (s.rs f.b) then some (lowOf f (s.rs f.c)) else none)

/-! ## Futures (07 R197, R198) -/

def execFutrd (f : Fields) (s : State) : Out :=
  commit (withAccess s .futrd 8 8 (s.baseImm f) fun s pa _ =>
    if s.full pa then readData s pa 8 (s.baseImm f) fun s v => .done (s.ws f.d (BitVec.ofNat 64 v)) else s.park pa)

def execFutwr (f : Fields) (s : State) : Out :=
  commit (withRelease s (scopeOf f) (withAccess s .futwr 8 8 (s.baseImm f) fun s pa e =>
    if s.full pa then .trap s { cause := 0x09, eaddr := s.baseImm f }
    else if s.ownedIn pa 8 then .wait s .copy
    else if s.meetsHeld s.cur pa 8 then .wait s .other
    else .done ((s.markDirty s.ctx e).fill pa (toBytes 8 (s.rs f.b).toNat))))

/-- In part DEDUCED, log 36. -/
def execFutclr (f : Fields) (s : State) : Out :=
  commit (withAccess s .futclr 8 8 (s.baseImm f) fun s pa e =>
    if s.ownedIn pa 8 then .wait s .copy
    else if s.meetsHeld s.cur pa 8 then .wait s .other
    else .done (((s.markDirty s.ctx e).setNum pa 8 0).setFull pa false))

/-- FUTURE_POLL: a hart that found the wait table full reads the word again (07 R198). -/
def execFuturePoll (h : HartId) (s : State) : Out :=
  .next (s.modHart h fun x =>
    match x.run with
    | .waiting (.future _ false) => { x with run := .running }
    | _ => x)

/-! ## Held stores (06 R142) -/

/-- RDUP_INVALIDATION_ACK: a holder acknowledges the n-th held store of a hart; with no holder named, the last holder has, and
the store is performed. Held stores to one byte are performed in their order (in part DEDUCED, log 17). -/
def execRdupInvalidationAck (h : HartId) (n : Nat) (observer : Option HartId) (s : State) : Out :=
  let mine := (List.range s.storeBuf.length).filter fun i =>
    match s.storeBuf[i]? with | some x => x.hart == h | none => false
  match mine[n]? with
  | none => .next s
  | some i =>
    match s.storeBuf[i]? with
    | none => .next s
    | some x =>
      match observer with
      | some o =>
        .next (if x.plain || x.acked.contains o then s
          else { s with storeBuf := s.storeBuf.set i { x with acked := x.acked ++ [o] } })
      | none =>
        if (s.storeBuf.take i).any x.overlaps then .next s
        else .next (({ s with storeBuf := s.storeBuf.eraseIdx i }.setRuns x.mask x.runs).releaseMarks h)

/-! ## Queues (07 R199, R200) -/

/-- Queue `q` of the running hart's cluster. -/
def State.myQueue (s : State) (q : BitVec 5) : Queue := (s.cluster s.cur.cluster).queues[Fin.ofNat 8 q.toNat]
def State.setMyQueue (s : State) (q : BitVec 5) (x : Queue) : State :=
  (s.modCluster s.cur.cluster fun c => { c with queues := c.queues.set (Fin.ofNat 8 q.toNat) x }).modMe fun h =>
    h.unlatch .queue q.toNat

/-- The binding check: a member uses the queues bound to its gang, a free hart those bound to none (07 R199). -/
def withQueue (s : State) (q : BitVec 5) (k : Queue → Eff) : Eff :=
  if (s.myQueue q).bound = s.me.gang then k (s.myQueue q)
  else .trap s { cause := 0x14, eaddr := BitVec.ofNat 64 (q.toNat % 8) }

/-- The running hart may be served: no hart that began to wait for the same before it still waits
(in part DEDUCED, log 37). -/
def Queue.myTurn (x : Queue) (h : HartId) (push : Bool) : Bool :=
  match x.waiters.find? fun w => w.2 == push with
  | some w => w.1 == h
  | none => true

/-- In part DEDUCED, log 37. -/
def Queue.leave (x : Queue) (h : HartId) : Queue := { x with waiters := x.waiters.filter fun w => w.1 != h }

/-- Waits on a queue, in the order in which the waits began (in part DEDUCED, log 37). -/
def waitQueue (s : State) (q : BitVec 5) (x : Queue) (push : Bool) : Eff :=
  let y := if x.waiters.contains (s.cur, push) then x else { x with waiters := x.waiters ++ [(s.cur, push)] }
  .wait (s.setMyQueue q y) (.queue (BitVec.ofNat 3 q.toNat))

def execQpush (f : Fields) (s : State) : Out :=
  commit (withQueue s f.b fun x =>
    withRelease s 1
      (if x.items.length < 16 && x.myTurn s.cur true then
        .done (s.setMyQueue f.b { x.leave s.cur with items := x.items ++ [s.rs f.a] })
      else waitQueue s f.b x true))

def execQpop (f : Fields) (s : State) : Out :=
  commit (withQueue s f.b fun x =>
    match x.items with
    | v :: rest =>
      if x.myTurn s.cur false then .done ((s.setMyQueue f.b { x.leave s.cur with items := rest }).ws f.d v)
      else waitQueue s f.b x false
    | [] => waitQueue s f.b x false)

/-- The pop form writes s[D] first, then s[C] (in part DEDUCED, log 37). -/
def execQtry (f : Fields) (s : State) : Out :=
  commit (withQueue s f.b fun x =>
    match x.items with
    | v :: rest => .done (((s.setMyQueue f.b { x with items := rest }).ws f.d v).ws f.c 1)
    | [] => .done (s.ws f.c 0))

def execQtryPush (f : Fields) (s : State) : Out :=
  commit (withQueue s f.b fun x =>
    if x.items.length < 16 then
      withRelease s 1 (.done ((s.setMyQueue f.b { x with items := x.items ++ [s.rs f.a] }).ws f.d 1))
    else .done (s.ws f.d 0))

/-- QFENCE: a push arrives in its queue as it is performed, so every earlier one has (in part DEDUCED, log 36). -/
def execQfence (_f : Fields) (s : State) : Out := commit (.done s)

/-! ## Progress cells (07 R201) -/

/-- In part DEDUCED, log 36. -/
def execPubhw (f : Fields) (s : State) : Out :=
  let b := (s.rs f.b).toNat
  commit (withRelease s (scopeOf f)
    (readModify s 16 8 (s.baseImm f) (fun old => if old < b then some b else none) fun s pa old =>
      .done ((s.wakeAll pa).ws f.d (BitVec.ofNat 64 old))))

def execReadhw (f : Fields) (s : State) : Out :=
  commit (withAccess s .rd 16 16 (s.baseImm f) fun s pa _ =>
    readData s pa 16 (s.baseImm f) fun s v =>
      let h := v % 2 ^ 64
      let b := v / 2 ^ 64
      .done (s.ws f.d (BitVec.ofNat 64 (h - b))))

end Sys2Proof.Machine
end

