-- ==== Sys2Proof/Machine/FabricImage.lean ====
section
/-!
DEFINITION. Configuration images and stream descriptors: reading, checking (09 R231, R244 to R246, 11 R310), and the types of
edges (09 R383).
-/

namespace Sys2Proof.Machine

/-! ## Image fields -/

/-- Reversible image. -/
def Config.param (c : Config) (n : Nat) : Nat := c.w n 1
def Config.sGuard (c : Config) (n : Nat) : Nat := bits (c.w n 1) 10 6
def Config.sType (c : Config) (n : Nat) : Nat := bits (c.w n 1) 14 11
def Config.sMeasOut (c : Config) (n : Nat) : Bool := bits (c.w n 1) 15 15 == 1
def Config.sMeasIn (c : Config) (n : Nat) : Bool := bits (c.w n 1) 16 16 == 1
def Config.pOp (c : Config) (n : Nat) : Nat := bits (c.w n 1) 4 0
def Config.pType (c : Config) (n : Nat) : Nat := bits (c.w n 1) 8 5
def Config.k (c : Config) (n : Nat) : Nat := c.w n 2
def Config.xLogN (c : Config) (n : Nat) : Nat := bits (c.w n 1) 4 0
def Config.xLogM (c : Config) (n : Nat) : Nat := bits (c.w n 1) 9 5
def Config.scratchAt (c : Config) (n : Nat) : Nat := bits (c.w n 2) 23 0
def Config.period (c : Config) (n : Nat) : Nat := c.w n 1
def Config.peerBase (c : Config) (n : Nat) : Nat := bits (c.w n 1) 6 0
def Config.xP (c : Config) (n : Nat) : Nat := 2 ^ bits (c.w n 1) 9 7
def Config.blk (c : Config) (n : Nat) : Nat := bits (c.w n 1) 63 32
def Config.ctrl (c : Config) (n : Nat) : Bool := bits (c.w n 1) 3 3 == 1

/-- A binary POINT operation (09 Table 9.5). -/
def Config.binary (c : Config) (n : Nat) : Bool := c.pOp n == 0 || c.pOp n == 2

/-- How many sources a node has (09 Table 9.10). -/
def Config.nsrc (c : Config) (n : Nat) : Nat :=
  match c.kind n with
  | 1 => 0
  | 6 => if c.binary n then 2 else 1
  | 7 => if c.ctrl n then 2 else 1
  | 8 => 3
  | 0xA => 2
  | _ => 1

/-! ## Permutations (09 R231, R245) -/

/-- The bytes of an image. -/
def Config.byte (c : Config) (off : Nat) : Nat := ((c.line (off / 64)).toNat >>> (8 * (off % 64))) % 256

/-- The window of a permutation spec; 1 for none. -/
def specWindow (sp : Nat) : Nat := if bits sp 1 0 = 0 then 1 else 2 ^ bits sp 5 2

/-- Input index of an output index, for a spec. -/
def Config.specSrc (c : Config) (sp o : Nat) : Nat :=
  match bits sp 1 0 with
  | 1 =>
    let n := 2 ^ bits sp 5 2
    let m := 2 ^ bits sp 9 6
    o % (n / m) * m + o / (n / m)
  | 2 => c.byte (bits sp 31 16 + o)
  | _ => o

/-- Whether a spec is legal. -/
def Config.specOk (c : Config) (sp : Nat) : Bool :=
  let l := bits sp 5 2
  match bits sp 1 0 with
  | 0 => sp == 0
  | 1 => 1 ≤ l && l ≤ 8 && bits sp 9 6 ≤ l && bits sp 15 10 == 0 && sp >>> 16 == 0
  | 2 =>
    let w := 2 ^ l
    let off := bits sp 31 16
    1 ≤ l && l ≤ 8 && bits sp 15 6 == 0 && sp >>> 32 == 0 && off + w ≤ 64 * c.nline &&
      (List.range w).all fun x => (List.range w).any fun o => c.byte (off + o) == x
  | _ => false

/-- Applies a spec to consecutive windows of a list whose length is a multiple of the window. -/
def Config.permute {α : Type} (c : Config) (sp : Nat) (dflt : α) (l : List α) : List α :=
  let w := specWindow sp
  if w = 1 then l else (List.range l.length).map fun o => l.getD (o / w * w + c.specSrc sp (o % w)) dflt

/-! ## Edge types (09 R383) -/

/-- Bits of one component of an element type; grist elements count their own bits. -/
def typeBits : Nat → Nat
  | 0 => 16 | 1 => 32 | 2 => 32 | 3 => 16 | 4 => 16 | 5 => 8 | 6 => 8 | 7 => 2 | 8 => 4 | 9 => 7 | 10 => 32 | _ => 32

/-- The grist format of a type code. -/
def typeGrist : Nat → Option Grist
  | 7 => some .mg2 | 8 => some .mg4 | 9 => some .mg7 | _ => none

/-- The floating format of a type code. -/
def typeFmt : Nat → Option Fmt
  | 3 => some .bf16 | 4 => some .b16 | 5 => some .e4m3 | 6 => some .e5m2 | 10 => some .b32 | _ => none

/-- Mantissa width of a BFP type code. -/
def typeMant (t : Nat) : Nat := if t = 0 then 16 else 24

/-- The type code and CPLX of a node's tokens, when the path to a node that fixes it does not come back to one of `seen`; `inT`
gives those of an IN. `fuel` bounds the path. -/
def edgeTypeFrom (cfg : Config) (inT : Nat → Option (Nat × Bool)) : Nat → List Nat → Nat → Option (Nat × Bool)
  | 0, _, _ => none
  | fuel + 1, seen, n =>
    if seen.contains n then none
    else
      let src (k : Nat) : Option (Nat × Bool) := edgeTypeFrom cfg inT fuel (n :: seen) (cfg.src n k).1
      match cfg.kind n with
      | 1 => inT n
      | 3 => some (cfg.sType n, cfg.sCplx n)
      | 6 => (match src 0 with
          | some x => some (cfg.pType n, x.2)
          | none => if cfg.binary n then (src 1).map fun x => (cfg.pType n, x.2) else none)
      | 8 => (match src 0 with | some x => some x | none => src 1)
      | _ => src 0

/-- The type code and CPLX of a node's tokens, as the handles are bound. -/
def edgeType (cfg : Config) (f : Fabric) (n : Nat) : Option (Nat × Bool) :=
  edgeTypeFrom cfg (fun m => (f.handles[Fin.ofNat 32 (cfg.handle m)]).desc.map fun d => (d.type, d.cplx)) (cfg.nnode + 1) [] n

/-- The type of a node's input `k`. -/
def inputType (cfg : Config) (f : Fabric) (n k : Nat) : Option (Nat × Bool) := edgeType cfg f (cfg.src n k).1

/-- The IN at the head of a node's path. -/
def Config.headFrom (cfg : Config) : Nat → List Nat → Nat → Option Nat
  | 0, _, _ => none
  | fuel + 1, seen, n =>
    if seen.contains n then none
    else if cfg.kind n = 1 then some n
    else (List.range (cfg.nsrc n)).findSome? fun k => Config.headFrom cfg fuel (n :: seen) (cfg.src n k).1

def Config.head (cfg : Config) (n : Nat) : Option Nat := cfg.headFrom (cfg.nnode + 1) [] n

/-- The frame length, as its logarithm, of the tokens that reach a node: that of the IN at the head of its path. -/
def flogOf (cfg : Config) (f : Fabric) (n : Nat) : Nat :=
  match cfg.head n with
  | some m => (match (f.handles[Fin.ofNat 32 (cfg.handle m)]).desc with | some d => d.flog | none => 8)
  | none => 8

/-- Bits of `n` elements of a type in memory. -/
def typeSpan (t : Nat × Bool) (n : Nat) : Nat :=
  let k := n * (if t.2 then 2 else 1)
  match typeGrist t.1 with
  | some g => (k + 15) / 16 * 8 * g.bytes
  | none => k * typeBits t.1

/-- The scratch region of an XPERM whose tokens are of a type ends within the slice (09 R232). -/
def Config.scratchFits (c : Config) (n : Nat) (t : Nat × Bool) : Bool :=
  8 * c.scratchAt n + typeSpan t (2 ^ c.xLogN n) ≤ 8 * 2 ^ 24

/-- The narrowest type that a mode carries; an XPERM's tokens have at least as many bits. -/
def leastType (mode : Nat) : Nat × Bool := (match mode with | 0 => 0 | 1 => 7 | _ => 2, false)

/-! ## Checks of an image (09 R246) -/

/-- The operations of a mode (09 Table 9.5). -/
def opAllowed (mode op : Nat) : Bool :=
  match mode with
  | 0 => op == 0 || op == 1 || op == 2 || op == 4 || op == 12 || op == 13
  | 1 => op ≤ 11 || op == 13
  | _ => op ≤ 3

/-- The factor formats of a mode (09 R233, R236, R237). -/
def factorAllowed (mode ft : Nat) : Bool :=
  match mode with
  | 0 => ft ≤ 1
  | 1 => ft == 2
  | _ => ft == 3

/-- The nodes that lead to node `m` without a CARRY between: `m` itself, and the sources of those that are no CARRY. -/
def Config.openFrom (c : Config) (m : Nat) : List Nat :=
  (List.range c.nnode).foldl (fun acc _ =>
    acc ++ ((acc.filter fun x => c.kind x != 9).flatMap fun x => (List.range (c.nsrc x)).map fun k => (c.src x k).1).eraseDups.filter
      fun y => !acc.contains y) [m]

/-- A later node `m` may be a source of node `n` only with a CARRY on the path: at `n`, or on every way round from `n` to `m`
(09 R246) (in part DEDUCED, log 48). -/
def Config.backOk (c : Config) (n m : Nat) : Bool :=
  c.kind n == 9 || (let l := c.openFrom m; !l.contains n && l.any fun x => c.kind x == 9)

/-- A source is named by a legal number: an existing node that has outputs, the F output only of a STEER, and a later node
only where a CARRY stands on the path (09 R246). -/
def Config.srcOk (c : Config) (n k : Nat) : Bool :=
  let (m, fOut) := c.src n k
  m != 0 && m ≤ c.nnode && c.kind m != 2 && (!fOut || c.kind m == 7) &&
    (m < n || c.backOk n m) && (!(c.kind n == 8 && k == 2) || c.kind m == 7)

/-- The outputs a node consumes, as source and F mark. A MERGE's SRC2 consumes nothing. -/
def Config.consumes (c : Config) (n : Nat) : List (Nat × Bool) :=
  (List.range (if c.kind n = 8 then 2 else c.nsrc n)).map (c.src n)

/-- The PE groups of a STAGE. -/
def Config.stageGroups (c : Config) (n : Nat) : List Nat := (List.range (c.ngroup n)).map (c.group n + ·)

/-- The checks of one node's parameter words. -/
def Config.paramsOk (c : Config) (n : Nat) : Bool :=
  let w1 := c.w n 1
  let zeroFrom (k : Nat) : Bool := (List.range (8 - k)).all fun i => c.w n (k + i) == 0
  match c.kind n with
  | 1 => zeroFrom 2 && w1 < 32 && (w1 == 0 || (8 ≤ w1 && w1 ≤ 30))
  | 2 => zeroFrom 1
  | 3 =>
    bits w1 31 17 == 0 && factorAllowed c.mode (c.sFtype n) && c.sGuard n ≤ 24 && c.sType n ≤ 11 && 1 ≤ c.sNb n && c.sNb n ≤ 16777216 && c.w n 2 < 2 ^ 24 && c.sFtab n % 64 == 0 &&
      c.sFtab n + c.sNb n * c.blockBytes n ≤ 2 ^ 24 && c.specOk (c.w n 3) && c.specOk (c.w n 4) && zeroFrom 5 &&
      c.group n + c.ngroup n ≤ 16 && (c.stageGroups n).all fun g => c.groups.getLsbD g
  | 4 => c.specOk w1 && zeroFrom 2
  | 5 =>
    w1 < 1024 && c.xLogN n ≤ 24 && c.xLogM n ≤ c.xLogN n && c.w n 2 < 2 ^ 24 &&
      c.scratchFits n ((edgeTypeFrom c (fun _ => none) (c.nnode + 1) [] n).getD (leastType c.mode)) && zeroFrom 3
  | 6 => w1 < 512 && opAllowed c.mode (c.pOp n) && c.pType n ≤ 11 && zeroFrom 3
  | 7 => w1 < 16 && bits w1 2 0 ≤ 5 && zeroFrom 3
  | 8 => zeroFrom 1
  | 9 => 1 ≤ w1 && w1 < 2 ^ 32 && zeroFrom 3
  | 0xA => 1 ≤ w1 && w1 < 2 ^ 32 && zeroFrom 2
  | 0xB =>
    bits w1 31 10 == 0 && 1 ≤ bits w1 9 7 && c.peerBase n + c.xP n ≤ 128 && 1 ≤ c.blk n && zeroFrom 2
  | _ => false

/-- Nodes of a reversible image (11 R310). -/
def Config.revOk (c : Config) (n : Nat) : Bool :=
  !c.rev ||
    (match c.kind n with
      | 6 => c.pOp n == 1 || c.pOp n == 4 || c.pOp n == 12
      | k => k ≤ 5 || k == 0xB)

/-- The check of one node record by itself. -/
def Config.nodeOk (c : Config) (n : Nat) : Bool :=
  let w0 := c.w n 0
  let handleOk := c.kind n == 1 || c.kind n == 2 || c.handle n == 0
  let groupOk := c.kind n == 3 || bits w0 55 48 == 0
  let unused := (List.range 3).all fun k => k < c.nsrc n || bits w0 (23 + 8 * k) (16 + 8 * k) == 0
  bits w0 14 8 == n && bits w0 15 15 == 0 && bits w0 47 45 == 0 && bits w0 63 56 == 0 && handleOk && groupOk && unused &&
    (List.range (c.nsrc n)).all (c.srcOk n) && c.paramsOk n && c.revOk n

/-- Whether two nodes clash: they consume one output, or two STAGEs share a PE group. -/
def Config.clash (c : Config) (a b : Nat) : Bool :=
  ((c.consumes a).any fun x => (c.consumes b).contains x) ||
    (c.kind a == 3 && c.kind b == 3 && (c.stageGroups a).any fun g => (c.stageGroups b).contains g)

/-- The header's check. -/
def Config.headerOk (c : Config) : Bool :=
  let w0 := lineWord (c.line 0) 0
  1 ≤ c.nline && c.nline ≤ 2048 && c.mode ≤ 2 && (c.rm ≤ 5 || c.rm == 7) && (!c.rev || c.mode == 0) &&
    1 ≤ c.nnode && c.nnode ≤ 127 && c.nnode < c.nline && w0 >>> 25 == 0 && lineWord (c.line 0) 1 < 65536 &&
    lineWord (c.line 0) 2 < 2 ^ 24 && c.save % 65536 == 0 &&
    (List.range 5).all fun k => lineWord (c.line 0) (3 + k) == 0

/-- The lowest-numbered line whose content fails a check, if any. -/
def Config.firstBad (c : Config) : Option Nat :=
  if !c.headerOk then some 0
  else c.nodes.find? fun n =>
    !c.nodeOk n || (c.nodes.any fun m => n < m && c.clash n m) ||
      (let l := c.consumes n; (List.range l.length).any fun i => (l.take i).contains (l.getD i (0, false)))

/-! ## Loading (09 R247) -/

/-- The NLINE of the image at an offset of a slice. -/
def State.imageLines (s : State) (loc : Nat) : Nat := bits (s.word loc).toNat 11 0

/-- The configuration that loading an image at a physical address gives cluster `c`. -/
def State.loadConfig (s : State) (c : ClusterId) (loc : Nat) : Config :=
  let lines := (List.range (s.imageLines loc)).map fun k => BitVec.ofNat 512 (ofBytes (s.bytes (loc + 64 * k) 64))
  let cfg : Config := ⟨loc, lines, [], none⟩
  match cfg.firstBad with
  | some n => { cfg with bad := some n }
  | none => s.withTablesOf c cfg

/-! ## Stream descriptors (09 R244) -/

/-- Bytes of an element in memory: for a block type, of the block. -/
def StreamDesc.eb (d : StreamDesc) : Nat :=
  match typeGrist d.type with
  | some g => g.bytes
  | none => typeBits d.type / 8 * (if d.cplx then 2 else 1)

/-- The offset of element `e` from BASE (09 R243). A block type addresses the block of the element. -/
def StreamDesc.offset (d : StreamDesc) (e : Nat) : Int :=
  let i0 := e % d.len 0
  let i1 := e / d.len 0 % d.len 1
  let i2 := e / (d.len 0 * d.len 1)
  let u : Nat := match typeGrist d.type with
    | some _ => i0 * (if d.cplx then 2 else 1) / 16
    | none => i0
  (u : Int) * d.stride 0 + (i1 : Int) * d.stride 1 + (i2 : Int) * d.stride 2

/-- The least and the greatest offset of a stream's elements. -/
def StreamDesc.extremes (d : StreamDesc) : Int × Int :=
  let n0 : Nat := match typeGrist d.type with
    | some _ => (d.len 0 * (if d.cplx then 2 else 1) - 1) / 16
    | none => d.len 0 - 1
  let t (n : Nat) (st : Int) : Int × Int := if st < 0 then ((n : Int) * st, 0) else (0, (n : Int) * st)
  let a := t n0 (d.stride 0)
  let b := t (d.len 1 - 1) (d.stride 1)
  let c := t (d.len 2 - 1) (d.stride 2)
  (a.1 + b.1 + c.1, a.2 + b.2 + c.2)

/-- A legal locator value. -/
def locatorOk (v : Nat) : Bool := v >>> 32 == 0

/-- The checks of a descriptor, for a handle of cluster `c` (09 R244). DIAG, MEAS and CHK are not in its list of fields: where the
space, the type or the direction does not use one, it is ignored. -/
def StreamDesc.ok (d : StreamDesc) (_c : ClusterId) : Bool :=
  let bfp := d.type ≤ 1
  let sp := d.space
  let noAddr := d.w 1 == 0 && d.w 2 == 0 && bits (d.w 3) 31 0 == 0 && d.w 4 == 0 && bits (d.w 5) 31 0 == 0
  let lens := 1 ≤ d.len 0 && 1 ≤ d.len 1 && 1 ≤ d.len 2
  let base := d.w 1
  let inSlice :=
    let x := d.extremes
    let o : Int := bits base 23 0
    0 ≤ o + x.1 && o + x.2 + d.eb ≤ 2 ^ 24
  bits (d.w 0) 63 26 == 0 && d.type ≤ 11 && d.w 3 >>> 32 == 0 && d.w 5 >>> 32 == 0 &&
    (if bfp then 8 ≤ d.flog && d.flog ≤ 24 else d.flog == 0) &&
    (!d.rev || bfp) && (!d.chk || d.type == 2) &&
    !(d.out && sp == 1) && (d.nprod == 1 || (sp == 3 && !d.out)) && (sp == 1 || d.ihandle == 0) &&
    (if sp = 3 then noAddr else lens && (sp == 2 || (inSlice && locatorOk base))) &&
    (if bfp then locatorOk (d.w 6) else d.w 6 == 0) && (d.rev || d.w 7 == 0)

/-! ## Types at SRUN (09 R383) -/

/-- Types a mode carries (09 R383). -/
def modeCarries (mode t : Nat) : Bool :=
  t == 11 || (match mode with
    | 0 => t ≤ 1
    | 1 => 3 ≤ t && t ≤ 10
    | _ => t == 2)

/-- The first failure of SRUN's type checks: a handle number, or 0x100 + a node number (09 R383). -/
def typeFault (cfg : Config) (f : Fabric) : Option Nat :=
  cfg.nodes.findSome? fun n =>
    let t (k : Nat) := inputType cfg f n k
    match cfg.kind n with
    | 1 =>
      (match (f.handles[Fin.ofNat 32 (cfg.handle n)]).desc with
        | some d => if modeCarries cfg.mode d.type then none else some (cfg.handle n)
        | none => some (cfg.handle n))
    | 2 =>
      (match (f.handles[Fin.ofNat 32 (cfg.handle n)]).desc with
        | some d =>
          if !modeCarries cfg.mode d.type then some (cfg.handle n)
          else if t 0 != some (d.type, d.cplx) then some (0x100 + n) else none
        | none => some (cfg.handle n))
    | 3 => if (t 0).map (·.1) == some 11 then some (0x100 + n) else none
    | 6 =>
      if (t 0).map (·.1) == some 11 || (cfg.binary n && (t 1).map (·.1) == some 11) then some (0x100 + n) else none
    | 8 => if t 0 != t 1 then some (0x100 + n) else none
    | _ => none

/-- The scratch region of every XPERM lies within the slice, by the types that the handles give (09 R232); an image in which one
does not is no valid one (R246) (in part DEDUCED, log 48). -/
def Config.scratchOk (cfg : Config) (f : Fabric) : Bool :=
  cfg.nodes.all fun n => cfg.kind n != 5 || (match edgeType cfg f n with | some t => cfg.scratchFits n t | none => true)

end Sys2Proof.Machine
end

