-- ==== Sys2Proof/Machine/FabricNode.lean ====
section
/-!
DEFINITION. What the nodes of a stream program compute from the tokens of one firing: alignment, stages, permutations and
pointwise operations in the three data modes (09 R229 to R241, 11 R310).
-/

namespace Sys2Proof.Machine

/-- What a firing adds beside its tokens: float flags, SATS and UFS, and lees records. -/
structure Fx where
  fl : FFlags
  sats : Bool
  ufs : Bool
  recs : List LeesRec
  deriving DecidableEq, Repr

def Fx.none : Fx := ⟨0, false, false, []⟩
def Fx.and (a b : Fx) : Fx := ⟨a.fl ||| b.fl, a.sats || b.sats, a.ufs || b.ufs, a.recs ++ b.recs⟩
def Fx.flag (fl : FFlags) : Fx := ⟨fl, false, false, []⟩

/-! ## Reading components -/

/-- The integer of a mantissa, an INT32 or the p lane. -/
def Val.i : Val → Int
  | .int i => i
  | .res p _ => p
  | _ => 0

/-- The value of a component as a number; an input of a floating operation flushes subnormals (03 R62). -/
def Val.f (flush : Bool) : Val → FVal
  | .int i => .ofInt i
  | .res p _ => .ofInt p
  | .flt t b => t.val flush b
  | .grist g blk i => g.elem blk i

/-- The components of a token. -/
def Tok.comps (cplx : Bool) : Tok → List Val
  | .err => []
  | .val re im => if cplx then [re, im] else [re]

def Tok.isErr : Tok → Bool
  | .err => true
  | _ => false

/-- A token of these components. -/
def tokOf (l : List Val) : Tok := .val (l.getD 0 (.int 0)) (l.getD 1 (.int 0))

/-- The zero component of a type: padding (09 R229, R231). -/
def zeroVal (t : Nat) : Val :=
  match typeGrist t, typeFmt t with
  | some g, _ => .grist g 0 0
  | _, some f => .flt f 0
  | _, _ => if t = 2 then .res 0 0 else .int 0

/-- A padding token with the scale of the frame it completes. -/
def zeroItem (t : Nat) (sc : Scale) : Item := ⟨.val (zeroVal t) (zeroVal t), sc⟩

/-- A list padded with zero tokens to a multiple of `m`. -/
def padTo (t m : Nat) (l : List Item) : List Item :=
  match l.getLast? with
  | some x => l ++ List.replicate (roundUp l.length m - l.length) (zeroItem t x.sc)
  | none => []

/-! ## Mantissas and scales (03 R51, R52, 09 R233) -/

/-- i / 2^k to nearest, ties to even; `down`: toward −∞, as the reversible mode has it. -/
def shiftMant (down : Bool) (i : Int) (k : Nat) : Int :=
  if down then i / (2 ^ k : Nat) else sman (i < 0) (roundAt .rne (i < 0) 0 i.natAbs 0 k).1

/-- A mantissa in its width, and whether it was saturated. -/
def satMant (w : Nat) (i : Int) : Int × Bool :=
  let r := intRange w false
  (clampInt r.1 r.2 i, i < r.1 || r.2 < i)

/-- A token whose mantissas are saturated into width `w`, and whether one was (03 R52). -/
def satTok (w : Nat) (cplx : Bool) (t : Tok) : Tok × Bool :=
  match t with
  | .err => (.err, false)
  | t =>
    let c := (t.comps cplx).map fun v => satMant w v.i
    (tokOf (c.map fun v => .int v.1), c.any (·.2))

/-- A scale with its exponent moved by `d` and its growth by `g`; each saturates. -/
def Scale.move (s : Scale) (d g : Int) : Scale :=
  let e := clampInt (-32768) 32767 (s.exp + d)
  { s with exp := e, growth := (clampInt 0 255 ((s.growth : Int) + g)).toNat, sats := s.sats || e != s.exp + d }

/-- Whether moving the exponent saturates it. -/
def Scale.moveSat (s : Scale) (d : Int) : Bool := s.exp + d < -32768 || 32767 < s.exp + d

/-- The scale of several tokens together: the largest exponent, and what any of them has. -/
def scaleOf (l : List Item) : Scale :=
  match l with
  | [] => Scale.zero
  | x :: r => r.foldl (fun a y =>
      ⟨if a.exp < y.sc.exp then y.sc.exp else a.exp, max a.growth y.sc.growth, a.ufs || y.sc.ufs, a.sats || y.sc.sats,
       max a.maxmag y.sc.maxmag⟩) x.sc

/-- The largest magnitude of the mantissas. -/
def maxMant (cplx : Bool) (l : List Item) : Nat :=
  l.foldl (fun a x => (x.tok.comps cplx).foldl (fun b v => max b v.i.natAbs) a) 0

/-- Tokens with the largest magnitude of their own mantissas: what their producer wrote of a frame (09 R233). -/
def ownMag (cplx : Bool) (l : List Item) : List Item :=
  l.map fun x => { x with sc := { x.sc with maxmag := maxMant cplx [x] } }

/-- Tokens saturated into width `w`, as a producer of them forms its results: SATS is set where one was (03 R52). -/
def satItems (w : Nat) (cplx : Bool) (l : List Item) : List Item × Bool :=
  let r := l.map fun x => let t := satTok w cplx x.tok; (({ x with tok := t.1 } : Item), t.2)
  let sat := r.any (·.2)
  (ownMag cplx (r.map fun x => { x.1 with sc := { x.1.sc with sats := x.1.sc.sats || sat } }), sat)

/-- Right shifts every mantissa by its own count, and says whether a nonzero one became zero. -/
def shiftItems (down cplx : Bool) (l : List (Item × Nat)) : List Tok × Bool :=
  (l.map fun x => match x.1.tok with
    | .err => .err
    | t => tokOf ((t.comps cplx).map fun v => .int (shiftMant down v.i x.2)),
   l.any fun x => (x.1.tok.comps cplx).any fun v => v.i != 0 && shiftMant down v.i x.2 == 0)

/-- Tokens aligned to the largest exponent among them by right shifts, their magnitudes those of the mantissas as shifted (09
R233, R259) (in part DEDUCED, log 45). -/
def alignItems (down cplx : Bool) (l : List Item) : List Item × Fx :=
  let top := (scaleOf l).exp
  let sh (x : Item) : Nat := (top - x.sc.exp).toNat
  if l.all fun x => x.sc.exp == top then (l, Fx.none)
  else
    let r := shiftItems down cplx (l.map fun x => (x, sh x))
    (ownMag cplx ((l.zip r.1).map fun p =>
        ⟨p.2, { p.1.sc.move (sh p.1) (sh p.1) with ufs := p.1.sc.ufs || r.2 }⟩),
      ⟨0, false, r.2, []⟩)

/-! ## Lees records (09 R235, 11 R308) -/

/-- Bits packed from bit 0 at `w` bits each, as whole 64-bit words. -/
def packWords (w : Nat) (l : List Nat) : List Byte :=
  let n := (w * l.length + 63) / 64 * 8
  toBytes n ((l.zipIdx).foldl (fun a x => a + (x.1 % 2 ^ w) <<< (w * x.2)) 0)

/-- The header word of a record (11 Table 11.7). -/
def recHeader (node : Nat) (input : Bool) (shift frame nesc : Nat) : Nat :=
  node + input.toNat <<< 7 + shift <<< 8 + (frame % 2 ^ 24) <<< 16 + nesc <<< 40

/-- A record: remainders of `shift` bits per mantissa, and the escapes as mantissa index and exact sum. -/
def leesRec (node : Nat) (input : Bool) (shift frame : Nat) (rems : List Int) (esc : List (Nat × Int)) : LeesRec :=
  let h := toBytes 8 (recHeader node input shift frame esc.length)
  ⟨frame, node, input,
    h ++ packWords shift (rems.map (wrap shift)) ++ packWords 32 (esc.map (·.1)) ++
      packWords 64 (esc.map fun e => wrap 64 e.2) ++ h⟩

/-- A record as a pop reads it. -/
structure PopRec where
  node : Nat
  input : Bool
  shift : Nat
  rems : List Nat
  esc : List (Nat × Int)
  /-- Its length in bytes. -/
  len : Nat
  deriving DecidableEq, Repr

/-- The length in bytes of a record of `n` mantissas with this header. -/
def recLen (h n : Nat) : Nat :=
  16 + (bits h 13 8 * n + 63) / 64 * 8 + (bits h 63 40 * 32 + 63) / 64 * 8 + bits h 63 40 * 8

/-- Reads a record from the bytes between its header and its trailer. -/
def parseRec (h n : Nat) (body : Nat) : PopRec :=
  let shift := bits h 13 8
  let nesc := bits h 63 40
  let remBits := (shift * n + 63) / 64 * 64
  let idxBits := (nesc * 32 + 63) / 64 * 64
  { node := bits h 6 0, input := bits h 7 7 == 1, shift := shift,
    rems := (List.range n).map fun i => (body >>> (shift * i)) % 2 ^ shift,
    esc := (List.range nesc).map fun i =>
      ((body >>> (remBits + 32 * i)) % 2 ^ 32, signed 64 (body >>> (remBits + idxBits + 64 * i))),
    len := recLen h n }

/-- The exact sum behind mantissa `i` of value `y` (11 Table 11.8). -/
def PopRec.restore (r : PopRec) (i : Nat) (y : Int) : Int :=
  match r.esc.find? fun e => e.1 == i with
  | some e => e.2
  | none => y * (2 ^ r.shift : Nat) + r.rems.getD i 0

/-- The mantissas of tokens, numbered (09 R234). -/
def mapMants (cplx : Bool) (l : List Item) (f : Nat → Int → Int) : List Item :=
  l.zipIdx.map fun x =>
    match x.1.tok with
    | .err => x.1
    | t =>
      let c := (t.comps cplx).zipIdx.map fun v => Val.int (f (x.2 * (if cplx then 2 else 1) + v.2) v.1.i)
      { x.1 with tok := tokOf c }

/-- The mantissas of tokens in order; an error token's are 0. -/
def mants (cplx : Bool) (l : List Item) : List Int :=
  l.flatMap fun x =>
    match x.tok with
    | .err => List.replicate (if cplx then 2 else 1) 0
    | t => (t.comps cplx).map Val.i

/-! ## Factors (09 R229, R230, Table 9.2) -/

/-- A 32-bit or 16-bit element of a factor block. -/
def blockElem (blk : Nat) (w i : Nat) : Nat := (blk >>> (w * i)) % 2 ^ w

/-- Real and imaginary part of an integer factor; none where a word is out of its range. -/
def intFactor (ftype : Nat) (cplx : Bool) (blk i : Nat) : Option (Int × Int) :=
  let lim : Int := if ftype = 0 then 32768 else 8388608
  let get (k : Nat) : Int := signed 32 (blockElem blk 32 k)
  let re := if cplx then get (2 * i) else get i
  let im := if cplx then get (2 * i + 1) else 0
  if -lim ≤ re ∧ re ≤ lim ∧ -lim ≤ im ∧ im ≤ lim then some (re, im) else none

/-- Real and imaginary part of a BF16 factor. -/
def fltFactor (flush cplx : Bool) (blk i : Nat) : FVal × FVal :=
  let get (k : Nat) : FVal := Fmt.bf16.val flush (blockElem blk 16 k)
  if cplx then (get (2 * i), get (2 * i + 1)) else (get i, .fin false 0 0)

/-! ## Grist blocks -/

/-- The shared exponent, the micro-exponent and the code of a component that is an element of a grist type. -/
def Val.gristParts (g : Grist) : Val → Option (Nat × Bool × Nat)
  | .grist g' blk i =>
    if g' = g then some (blk % 256, (blk >>> 8).testBit (i / 2), (blk >>> (16 + (g.k + 1) * i)) % 2 ^ (g.k + 1)) else none
  | _ => none

/-- The two scale bytes that hold elements as they are: one exponent, and one micro-exponent for each pair; an element of
magnitude 0 has any. -/
def gristScaleOf (g : Grist) (l : List (Nat × Bool × Nat)) : Option Nat :=
  let counts (x : Nat × Bool × Nat) : Bool := x.1 == 255 || x.2.2 % 2 ^ g.k != 0
  let e := ((l.find? counts).getD (0, false, 0)).1
  let uOf (j : Nat) : Bool := (((l.drop (2 * j)).take 2).find? counts).any fun x => x.2.1
  if l.zipIdx.all fun x => (!counts x.1 && e != 255) || (x.1.1 == e && x.1.2.1 == uOf (x.2 / 2)) then
    some (e + 256 * (List.range 8).foldl (fun a j => a + (uOf j).toNat <<< j) 0)
  else none

/-- A block of these scale bytes and elements' codes. -/
def gristPack (g : Grist) (scale : Nat) (l : List (Nat × Bool × Nat)) : Nat :=
  scale + 65536 * (l.zipIdx.foldl (fun a x => a + x.1.2.2 <<< ((g.k + 1) * x.2)) 0)

/-! ## Outputs of a node -/

/-- What a node needs to form its outputs: its number, the output type, whether tokens are complex, the rounding, and the
count of its output so far. -/
structure OutEnv where
  node : Nat
  type : Nat
  cplx : Bool
  env : FEnv
  base : Nat
  conv : Bool
  deriving DecidableEq, Repr

/-- The element index of 09 R236 of output `k` of this firing. -/
def OutEnv.idx (o : OutEnv) (k : Nat) : Nat := o.node <<< 40 + o.base + k

/-- A NaN result is the canonical NaN (03 R45, 09 R236), also where an overflow or an infinite result is one. -/
def Fmt.canonical (t : Fmt) (r : Nat × FFlags) : Nat × FFlags := if t.isNaN r.1 then (t.canonNaN, r.2) else r

/-- An exact result in a floating format: NaN results are canonical (09 R236). -/
def roundOut (t : Fmt) (env : FEnv) (conv : Bool) (i : Nat) (r : FVal × Bool) : Nat × FFlags :=
  match r with
  | (.nan sg, inv) => (t.canonNaN, if sg || inv then fNV else 0)
  | (v, true) => let _ := v; (t.canonNaN, fNV)
  | (v, false) => t.canonical (t.roundVal env conv i v)

/-- An exact result as INT32 (03 Table 3.9). -/
def toInt32 (env : FEnv) (i : Nat) (v : FVal) : Int × FFlags :=
  match v with
  | .nan _ => (0, fNV)
  | .inf neg => (if neg then -2147483648 else 2147483647, fNV)
  | .fin neg m e =>
    let r := roundAt env.mode neg (srDraw env.seed i) m e 0
    let x := sman neg r.1
    let y := satMant 32 x
    (y.1, if y.2 then fNV else if r.2 then fNX else 0)

/-- Exact results of components, as the output type has them. `k`: the output's number in this firing for component 0. -/
def roundComps (o : OutEnv) (l : List (FVal × Bool)) : List Val × FFlags :=
  let per := if o.cplx then 2 else 1
  match typeGrist o.type, typeFmt o.type with
  | some g, _ =>
    let chunks := (List.range ((l.length + 15) / 16)).map fun j => (j, (l.drop (16 * j)).take 16)
    let q := chunks.map fun ch =>
      let vs := ch.2.map fun x => if x.2 then FVal.nan false else x.1
      (g.quantiseAt o.env (fun i => o.idx ((16 * ch.1 + i) / per)) vs (vs.map FVal.sign), ch.2)
    (q.flatMap fun x => (List.range x.2.length).map fun i => .grist g x.1.1 i,
     q.foldl (fun a x => a ||| x.1.2 ||| (if x.2.any fun v => v.2 || v.1.isSig then fNV else 0)) 0)
  | _, some t =>
    let r := l.zipIdx.map fun x => roundOut t o.env o.conv (o.idx (x.2 / per)) x.1
    (r.map fun x => .flt t x.1, r.foldl (fun a x => a ||| x.2) 0)
  | _, _ =>
    let r := l.zipIdx.map fun x => toInt32 o.env (o.idx (x.2 / per)) (if x.1.2 then .nan false else x.1.1)
    (r.map fun x => .int x.1, r.foldl (fun a x => a ||| x.2) 0)

/-- Groups components into tokens. -/
def groupComps (cplx : Bool) (l : List Val) : List Tok :=
  if cplx then (List.range (l.length / 2)).map fun k => .val (l.getD (2 * k) (.int 0)) (l.getD (2 * k + 1) (.int 0))
  else l.map fun v => .val v (.int 0)

/-- Outputs of a floating firing: `none` stands for an error token (DESIGN CHOICE, log 46). -/
def floatOut (o : OutEnv) (l : List (Option (List (FVal × Bool)))) : List Item × Fx :=
  let per := if o.cplx then 2 else 1
  let r := roundComps o (l.flatMap fun x => x.getD (List.replicate per (.fin false 0 0, false)))
  let toks := groupComps o.cplx r.1
  ((l.zip toks).map fun p => ⟨if p.1.isNone then .err else p.2, Scale.zero⟩, Fx.flag r.2)

/-! ## Stages -/

/-- A stage's sums for one block of inputs: output `r` of `b`; none where an input or a factor gives an error token. -/
def stageInt (ftype : Nat) (cplx : Bool) (b blk : Nat) (u : List Item) : List (Option (Int × Int)) :=
  let bad := u.any (fun x => x.tok.isErr) || (List.range (b * b)).any fun i => (intFactor ftype cplx blk i).isNone
  (List.range b).map fun r =>
    if bad then none
    else some (u.zipIdx.foldl (fun (a : Int × Int) x =>
      let f := (intFactor ftype cplx blk (r * b + x.2)).getD (0, 0)
      match x.1.tok with
      | .val re im => if cplx then (a.1 + f.1 * re.i - f.2 * im.i, a.2 + f.1 * im.i + f.2 * re.i) else (a.1 + f.1 * re.i, 0)
      | .err => a) (0, 0))

/-- The same in float mode: one exact sum with a bias of +0, whose zero has its sign by the mode (03 R64, 09 R236). -/
def stageFlt (mode : RMode) (flush cplx : Bool) (b blk : Nat) (u : List Item) : List (Option (List (FVal × Bool))) :=
  let sum (l : List (FVal × Bool)) : FVal × Bool := FVal.sum mode (.fin false 0 0) l
  (List.range b).map fun r =>
    if u.any fun x => x.tok.isErr then none
    else
      let terms := u.zipIdx.map fun x =>
        let f := fltFactor flush cplx blk (r * b + x.2)
        match x.1.tok with
        | .val re im => (f, re.f flush, if cplx then im.f flush else .fin false 0 0)
        | .err => (f, .fin false 0 0, .fin false 0 0)
      let neg (p : FVal × Bool) : FVal × Bool := (p.1.neg, p.2)
      if cplx then
        some [sum (terms.flatMap fun t => [FVal.mul t.1.1 t.2.1, neg (FVal.mul t.1.2 t.2.2)]),
              sum (terms.flatMap fun t => [FVal.mul t.1.1 t.2.2, FVal.mul t.1.2 t.2.1])]
      else some [sum (terms.map fun t => FVal.mul t.1.1 t.2.1)]

/-- The two lanes of a component. -/
def Val.lanes : Val → Nat × Nat
  | .res a b => (a, b)
  | _ => (0, 0)

/-- x × y of complex elements on one lane, as remainders of `m`. -/
def laneMul (m : Nat) (x y : Nat × Nat) : Nat × Nat :=
  (modNat (x.1 * y.1 + (m - modNat (x.2 * y.2) m)) m, modNat (x.1 * y.2 + x.2 * y.1) m)

/-- x + y on one lane. -/
def laneAdd (m : Nat) (x y : Nat × Nat) : Nat × Nat := (modNat (x.1 + y.1) m, modNat (x.2 + y.2) m)

/-- Factor `i` of lane block `k` (0 mod p, 1 mod q) of a residue-pair table of `n` factors: a complex one is a pair of residues
(09 Table 9.2) (in part DEDUCED, log 45). -/
def resFactor (cplx : Bool) (n blk k i : Nat) : Nat × Nat :=
  if cplx then (blockElem blk 32 (2 * (k * n + i)), blockElem blk 32 (2 * (k * n + i) + 1)) else (blockElem blk 32 (k * n + i), 0)

/-- The same in modular mode, on both lanes (09 R237). -/
def stageMod (p q b : Nat) (cplx : Bool) (blk : Nat) (u : List Item) : List (Option Tok) :=
  (List.range b).map fun r =>
    if u.any fun x => x.tok.isErr then none
    else
      let sum (k m : Nat) (lane : Nat × Nat → Nat) : Nat × Nat := u.zipIdx.foldl (fun (a : Nat × Nat) x =>
        match x.1.tok with
        | .val re im =>
          laneAdd m a (laneMul m (resFactor cplx (b * b) blk k (r * b + x.2)) (lane re.lanes, if cplx then lane im.lanes else 0))
        | .err => a) (0, 0)
      let v := sum 0 p Prod.fst
      let w := sum 1 q Prod.snd
      some (.val (.res v.1 w.1) (.res v.2 w.2))

/-- Q of a factor format (09 R233). -/
def qOf (ftype : Nat) : Nat := if ftype = 0 then 15 else 23

/-- Exact sums formed into mantissas of width `w`, with a right shift of `k` bits (09 R233, R235): the tokens, SATS, UFS,
and the sums that saturated, by mantissa index. -/
def formMants (down cplx : Bool) (w k : Nat) (l : List (Option (Int × Int))) :
    List Tok × Bool × Bool × List (Nat × Int) :=
  let one (s : Int) : Int × Bool × Bool :=
    let m := shiftMant down s k
    let r := satMant w m
    (r.1, r.2, s != 0 && m == 0)
  let per := if cplx then 2 else 1
  let comps (x : Int × Int) : List Int := if cplx then [x.1, x.2] else [x.1]
  let all := l.map fun x => x.map fun s => (comps s).map fun i => (i, one i)
  (all.map fun x => match x with
      | none => .err
      | some c => tokOf (c.map fun v => .int v.2.1),
   all.any fun x => (x.getD []).any fun v => v.2.2.1,
   all.any fun x => (x.getD []).any fun v => v.2.2.2,
   all.zipIdx.flatMap fun x => (x.1.getD []).zipIdx.filterMap fun v =>
     if v.1.2.2.1 then some (x.2 * per + v.2, v.1.1) else none)

/-- The input shift of a MEASURED consumer of mantissa width `w` (09 R233) (in part DEDUCED, log 45). -/
def measShift (w maxmag : Nat) : Nat :=
  ((List.range 64).find? fun s => shiftMant false maxmag s ≤ 2 ^ (w - 1) - 1).getD 0

/-- Sums in blocks of `b`, block `j0` of the table first. -/
def inBlocks {α β : Type} (b nb j0 : Nat) (blk : Nat → Nat) (f : Nat → List α → List β) (l : List α) : List β :=
  (List.range (l.length / b)).flatMap fun j => f (blk ((j0 + j) % nb)) ((l.drop (b * j)).take b)

/-- The post permutation of a stage on its outputs: a short last window is padded with zero elements, which pass no factor
(09 R229, R231). -/
def Config.post {α : Type} (cfg : Config) (n : Nat) (zero dflt : α) (v : List α) : List α :=
  cfg.permute (cfg.w n 4) dflt (v ++ List.replicate (roundUp v.length (specWindow (cfg.w n 4)) - v.length) zero)

/-- A forward stage of a BFP program on the tokens of one firing, from element `base` (09 R229, R233, R235)
(in part DEDUCED, log 45). -/
def stageBfp (cfg : Config) (n base flog : Nat) (blk : Nat → Nat) (l : List Item) : List Item × Fx :=
  let cx := cfg.sCplx n
  let w := typeMant (cfg.sType n)
  let q := qOf (cfg.sFtype n)
  let frame := base / 2 ^ flog
  let (l, fx0) := alignItems cfg.rev cx l
  -- a MEASURED consumer reads the frame
  let s := if cfg.sMeasIn n then measShift w (scaleOf l).maxmag else 0
  let recIn := if cfg.rev && cfg.sMeasIn n then [leesRec n true s frame (mants cx l) []] else []
  let r := shiftItems cfg.rev cx (l.map fun x => (x, s))
  let sc := { (scaleOf l).move s s with ufs := (scaleOf l).ufs || r.2 }
  let fx1 : Fx := ⟨0, (scaleOf l).moveSat s, r.2, recIn⟩
  let u := cfg.permute (cfg.w n 3) ⟨.err, sc⟩ (r.1.map fun t => ⟨t, sc⟩)
  let v := inBlocks (cfg.sB n) (cfg.sNb n) (base / cfg.sB n) blk (fun b x => stageInt (cfg.sFtype n) cx (cfg.sB n) b x) u
  let y := cfg.post n (some (0, 0)) none v
  let g := if cfg.sMeasOut n then 0 else cfg.sGuard n
  let (toks, sat, uf, esc) := formMants cfg.rev cx (if cfg.sMeasOut n then 24 else w) (q + g) y
  let sums := y.flatMap fun x => if cx then [(x.getD (0, 0)).1, (x.getD (0, 0)).2] else [(x.getD (0, 0)).1]
  let recOut := if cfg.rev then [leesRec n false (q + g) frame sums esc] else []
  let sat := sat || sc.moveSat g
  let sc' := { sc.move g g with ufs := sc.ufs || uf, sats := sc.sats || sat }
  let items := toks.map fun t => (⟨t, sc'⟩ : Item)
  (items.map fun x => { x with sc := { x.sc with maxmag := maxMant cx items } }, (fx0.and fx1).and ⟨0, sat, uf, recOut⟩)

/-- An inverse stage (11 R310): `out` and `inp` are the records popped for the firing (in part DEDUCED, log 51). -/
def stageInv (cfg : Config) (n base : Nat) (blk : Nat → Nat) (out : PopRec) (inp : Option PopRec) (l : List Item) :
    List Item × Fx :=
  let cx := cfg.sCplx n
  let w := typeMant (cfg.sType n)
  let q := qOf (cfg.sFtype n)
  let sc := scaleOf l
  let back := (out.shift : Int) - q
  let s : Nat := (match inp with | some r => r.shift | none => 0)
  let u := cfg.permute (cfg.w n 3) ⟨.err, sc⟩ (mapMants cx l out.restore)
  let v := inBlocks (cfg.sB n) (cfg.sNb n) (base / cfg.sB n) blk (fun b x => stageInt (cfg.sFtype n) cx (cfg.sB n) b x) u
  let y := cfg.post n (some (0, 0)) none v
  let d : Int := (2 ^ (q + cfg.sGuard n) : Nat)
  let sc' := (sc.move (-back) (-back)).move (-(s : Int)) (-(s : Int))
  -- the range is asked of the quotient; the mantissas before the input shift are those of a MEASURED producer
  let undo (i : Nat) (t : Int) : Option Int :=
    if t % d ≠ 0 || (satMant w (t / d)).2 then none
    else
      some (match inp with
        | some r => t / d * ((2 ^ s : Nat) : Int) + ((r.rems.getD i 0 : Nat) : Int)
        | none => t / d)
  let toks : List Tok := y.zipIdx.map fun x =>
    match x.1 with
    | none => .err
    | some (a, b) =>
      if cx then
        (match undo (2 * x.2) a, undo (2 * x.2 + 1) b with
          | some p, some r => .val (.int p) (.int r)
          | _, _ => .err)
      else (match undo x.2 a with | some p => .val (.int p) (.int 0) | none => .err)
  let sat := sc.moveSat (-back) || (sc.move (-back) 0).moveSat (-(s : Int))
  let items := toks.map fun t => (⟨t, sc'⟩ : Item)
  let y := if inp.isSome then satItems 24 cx items else (items, false)
  (y.1.map fun x => { x with sc := { x.sc with maxmag := maxMant cx y.1 } }, ⟨0, sat || y.2, false, []⟩)

/-- A stage of a float program. -/
def stageFloat (cfg : Config) (n base : Nat) (o : OutEnv) (blk : Nat → Nat) (l : List Item) : List Item × Fx :=
  let u := cfg.permute (cfg.w n 3) ⟨.err, Scale.zero⟩ l
  let v := inBlocks (cfg.sB n) (cfg.sNb n) (base / cfg.sB n) blk
    (fun b x => stageFlt o.env.mode o.env.flushIn o.cplx (cfg.sB n) b x) u
  floatOut o (cfg.post n (some (List.replicate (if o.cplx then 2 else 1) (.fin false 0 0, false))) none v)

/-- A stage of a modular program. -/
def stageModular (cfg : Config) (n base p q : Nat) (blk : Nat → Nat) (l : List Item) : List Item × Fx :=
  let u := cfg.permute (cfg.w n 3) ⟨.err, Scale.zero⟩ l
  let v := inBlocks (cfg.sB n) (cfg.sNb n) (base / cfg.sB n) blk (fun b x => stageMod p q (cfg.sB n) (cfg.sCplx n) b x) u
  ((cfg.post n (some (.val (.res 0 0) (.res 0 0))) none v).map fun x => ⟨x.getD .err, Scale.zero⟩, Fx.none)

/-! ## Permutations -/

/-- The stride permutation S(2^logn, 2^logm) of one segment (09 R231) (in part DEDUCED, log 48). -/
def strideSegment {α : Type} (logn logm : Nat) (dflt : α) (l : List α) : List α :=
  let per := 2 ^ (logn - logm)
  (List.range l.length).map fun o => l.getD (o % per * 2 ^ logm + o / per) dflt

/-! ## Table functions (09 R241): references in fixed point -/

/-- log2 e in fixed point. -/
def log2eFix : Nat := 2 ^ (2 * expBits) / ln2Fix

/-- e^(±man × 2^exp). -/
def expVal (neg : Bool) (man : Nat) (exp : Int) : Nat × Int := exp2Val neg (man * log2eFix) (exp - expBits)

/-- A nonnegative value in fixed point at `2 × expBits`; values below vanish. -/
def toFix (v : Nat × Int) : Nat :=
  let k := v.2 + 2 * expBits
  if 0 ≤ k then v.1 <<< min k.toNat 65536 else v.1 >>> min (-k).toNat 65536

/-- A fixed-point value as a sticky magnitude. -/
def ofFix (n : Nat) : Nat × Int := (2 * n + 1, -(2 * expBits : Nat) - 1)

/-- log2 of m × 2^e, with 2^128 steps: sign, magnitude. -/
def log2Bits : Nat → Nat → Nat → Nat
  | 0, _, acc => acc
  | k + 1, x, acc =>
    let y := (x * x) >>> expBits
    if 2 ^ (expBits + 1) ≤ y then log2Bits k (y / 2) (2 * acc + 1) else log2Bits k y (2 * acc)

def log2Val (m : Nat) (e : Int) : FVal :=
  let whole := flog2 m e
  let x := (m <<< expBits) >>> Nat.log2 m
  let f : Int := whole * ((2 ^ 160 : Nat) : Int) + ((log2Bits 160 x 0 : Nat) : Int)
  if isPow2 m then .ofInt whole else .fin (f < 0) (2 * f.natAbs + 1) (-161)

/-- 1 / (1 + e^(−t)) for t = ±m × 2^e, to full relative precision. -/
def logistic (neg : Bool) (m : Nat) (e : Int) : Nat × Int :=
  let y := expVal true m e
  let d := 2 ^ (2 * expBits) + toFix y
  if neg then
    (2 * ((y.1 <<< (2 * expBits)) / d) + 1, y.2 - 1)
  else (2 * (2 ^ (4 * expBits) / d) + 1, -(2 * expBits : Nat) - 1)

/-- tanh of m × 2^e. -/
def tanhVal (m : Nat) (e : Int) : Nat × Int :=
  let y := toFix (expVal true m (e + 1))
  let one := 2 ^ (2 * expBits)
  ofFix ((one - y) * one / (one + y))

/-- 0.797885 × (a + 0.044715 a³) as magnitude and exponent, for |a| = m × 2^e. -/
def geluArg (m : Nat) (e : Int) : Nat × Int :=
  let c1 := 797885 * 2 ^ expBits / 1000000
  let c2 := 44715 * 2 ^ expBits / 1000000
  let cube := FVal.add .rne (.fin false (m * 2 ^ expBits) (e - expBits)) (.fin false (c2 * m * m * m) (3 * e - expBits))
  match cube.1 with
  | .fin _ k x => (k * c1, x - expBits)
  | _ => (0, 0)

/-- What a table function gives on an input: an exact special value with its flags, or the reference value. -/
inductive TableRef where
  | exact (v : FVal) (fl : FFlags)
  | near (v : FVal)
  deriving DecidableEq, Repr

/-- The exact reference of 09 Table 9.6 for operation `op`. -/
def tableRef (op : Nat) (a : FVal) : TableRef :=
  match op, a with
  | _, .nan sg => .exact (.nan false) (if sg then fNV else 0)
  | 5, .inf neg => .exact (if neg then .fin false 0 0 else .inf false) 0
  | 5, .fin neg m e => let r := exp2Val neg m e; .near (.fin false r.1 r.2)
  | 6, .inf neg => if neg then .exact (.nan false) fNV else .exact (.inf false) 0
  | 6, .fin neg m e => if m = 0 then .exact (.inf true) fDZ else if neg then .exact (.nan false) fNV else .near (log2Val m e)
  | 8, .inf neg => if neg then .exact (.nan false) fNV else .exact (.fin false 0 0) 0
  | 8, .fin neg m e =>
    if m = 0 then .exact (.inf neg) fDZ
    else if neg then .exact (.nan false) fNV
    else
      let q := quotient 1 0 m e
      let r := rootOf q.1 q.2
      .near (.fin false r.1 r.2)
  | 9, .inf neg => .exact (if neg then .fin false 0 0 else .inf false) 0
  | 9, .fin neg m e =>
    if m = 0 then .exact (.fin neg 0 0) 0
    else
      let t := geluArg m e
      let r := logistic neg t.1 (t.2 + 1)
      .near (.fin neg (m * r.1) (e + r.2))
  | 10, .inf neg => .exact (if neg then .fin true 0 0 else .inf false) 0
  | 10, .fin neg m e =>
    if m = 0 then .exact (.fin neg 0 0) 0 else let r := logistic neg m e; .near (.fin neg (m * r.1) (e + r.2))
  | 11, .inf neg => .exact (.fin neg 1 0) 0
  | 11, .fin neg m e => if m = 0 then .exact (.fin neg 0 0) 0 else let r := tanhVal m e; .near (.fin neg r.1 r.2)
  | _, v => .exact v 0

/-- The greatest error of a table function in units in the last place (09 Table 9.6). -/
def tableUlp (op : Nat) : Nat := if op ≤ 8 then 1 else 2

/-- A table function's result (09 R241): within its error of the reference, the exact place and the flags of rounding being
free values that the input fixes. An overflow is that of 03 R56 (DESIGN CHOICE, log 46). -/
def tableFun (op : Nat) (t : Fmt) (type : Nat) (env : FEnv) (i : Nat) (a : FVal) : Nat × FFlags :=
  match tableRef op a with
  | .exact v fl =>
    (match v with
      | .nan _ => (t.canonNaN, fl)
      | .inf neg => t.canonical (t.infResult env.sat8 neg, fl)
      | v => let r := t.roundVal env false i v; (r.1, r.2 ||| fl))
  | .near (.fin neg m e) =>
    let r := t.roundFin env false i neg m e
    if r.2 &&& fOF != 0 then t.canonical r
    else
      let key := (Fmt.b64.roundVal { env with mode := .rne, flush := 0 } false 0 a).1
      let low := (t.roundFin { env with mode := .rtz, flush := 0 } false 0 false m e).1
      let u : Int := tableUlp op
      let b : Int := clampInt 0 t.maxBits ((low : Int) + clampInt (1 - u) u (Config.tableOffset (op * 16 + type) key))
      let fl := Config.tableFlags (op * 16 + type) key &&& (fNX ||| fUF)
      if env.flushOut && t.flushable && t.isSub b.toNat then (t.signBit neg, fl ||| fUF ||| fNX)
      else (t.signBit neg + b.toNat, fl)
  | .near v => roundOut t env false i (v, false)

/-- RCP: correctly rounded. -/
def rcpFun (t : Fmt) (env : FEnv) (i : Nat) (a : FVal) : Nat × FFlags :=
  match a with
  | .nan sg => (t.canonNaN, if sg then fNV else 0)
  | a =>
    let (v, _, dz) := FVal.div (.fin false 1 0) a
    if dz then t.canonical (t.infResult env.sat8 v.sign, fDZ) else t.canonical (t.roundVal env false i v)

/-! ## Pointwise operations (09 R240) -/

/-- The constant K of a floating operation, as it stands: the input half of FLUSH does not act on it (in part DEDUCED, log 47). -/
def Config.kFlt (c : Config) (n : Nat) : FVal := Fmt.b32.val false (c.k n % 2 ^ 32)

/-- Components of a floating unary operation. -/
def pointFlt1 (cfg : Config) (n : Nat) (env : FEnv) (t : Tok) (cplx : Bool) : Option (List (FVal × Bool)) :=
  let c := (t.comps cplx).map (Val.f env.flushIn)
  if t.isErr then none
  else
    match cfg.pOp n with
    | 1 => some (c.map fun v => FVal.mul v (cfg.kFlt n))
    | 3 => some (c.zipIdx.map fun v => if v.2 = 0 then FVal.add env.mode v.1 (cfg.kFlt n) else (v.1, false))
    | 4 => some (c.map fun v => FVal.mul v (.fin false 1 (signed 16 (cfg.k n))))
    | _ => some (c.map fun v => (v, false))

/-- Components of a floating binary operation. -/
def pointFlt2 (cfg : Config) (n : Nat) (env : FEnv) (a b : Tok) (cplx : Bool) : Option (List (FVal × Bool)) :=
  if a.isErr || b.isErr then none
  else
    let x := (a.comps cplx).map (Val.f env.flushIn)
    let y := (b.comps cplx).map (Val.f env.flushIn)
    let z : FVal := .fin false 0 0
    let pair (p q : FVal × Bool) : FVal × Bool := let r := FVal.add env.mode p.1 q.1; (r.1, r.2 || p.2 || q.2)
    if cfg.pOp n = 2 then some ((x.zip y).map fun p => FVal.add env.mode p.1 p.2)
    else if cplx then
      let (a, b, c, d) := (x.getD 0 z, x.getD 1 z, y.getD 0 z, y.getD 1 z)
      some [pair (FVal.mul a c) (let m := FVal.mul b d; (m.1.neg, m.2)), pair (FVal.mul a d) (FVal.mul b c)]
    else some ((x.zip y).map fun p => FVal.mul p.1 p.2)

/-- A table operation on the tokens of a firing (DESIGN CHOICE, log 46). -/
def pointTable (cfg : Config) (n : Nat) (o : OutEnv) (l : List Item) : List Item × Fx :=
  let f (i : Nat) (a : FVal) : Nat × FFlags :=
    match typeFmt o.type with
    | some t => if cfg.pOp n = 7 then rcpFun t o.env i a else tableFun (cfg.pOp n) t o.type o.env i a
    -- a grist output quantises the function's value in binary32
    | none => if cfg.pOp n = 7 then rcpFun .b32 o.env i a else tableFun (cfg.pOp n) .b32 o.type o.env i a
  let t := (typeFmt o.type).getD .b32
  let r := l.zipIdx.map fun x => (x.1.tok.isErr, (x.1.tok.comps o.cplx).map fun v => f (o.idx x.2) (v.f o.env.flushIn))
  let fl : FFlags := r.foldl (fun a x => x.2.foldl (fun b v => b ||| v.2) a) 0
  if (typeFmt o.type).isSome then
    (r.map fun x => ⟨if x.1 then .err else tokOf (x.2.map fun v => .flt t v.1), Scale.zero⟩, Fx.flag fl)
  else
    let y := floatOut o (r.map fun x => if x.1 then none else some (x.2.map fun v => (t.val false v.1, false)))
    (y.1, y.2.and (Fx.flag fl))

/-- MULC of a BFP program: a 1×1 stage with Q15 factor K and g = 0 (in part DEDUCED, log 45). -/
def mulcBlock (cfg : Config) (n : Nat) : Nat := cfg.k n

/-- MUL and ADD of a BFP program on one pair (09 Table 9.5) (in part DEDUCED, log 45). -/
def pointBfp2 (cfg : Config) (n : Nat) (cx : Bool) (w : Nat) (a b : Item) : Item × Fx :=
  let growth := max a.sc.growth b.sc.growth
  let sc : Scale := { (scaleOf [a, b]) with growth := growth }
  match a.tok, b.tok with
  | .val ar ai, .val br bi =>
    let (ar, ai, br, bi) := (ar.i, ai.i, br.i, bi.i)
    if cfg.pOp n = 0 then
      let k := if cx then w else w - 1
      let d := a.sc.exp + b.sc.exp + k - sc.exp
      let s := if cx then some (ar * br - ai * bi, ar * bi + ai * br) else some (ar * br, 0)
      let (t, sat, uf, _) := formMants false cx w k [s]
      let sat := sat || sc.moveSat d
      let sc' := { sc.move d 0 with sats := sc.sats || sat, ufs := sc.ufs || uf }
      let it : Item := ⟨t.getD 0 .err, sc'⟩
      ({ it with sc := { sc' with maxmag := maxMant cx [it] } }, ⟨0, sat, uf, []⟩)
    else
      let al := alignItems false cx [a, b]
      let m := mants cx al.1
      let s := if cx then some (m.getD 0 0 + m.getD 2 0, m.getD 1 0 + m.getD 3 0) else some (m.getD 0 0 + m.getD 1 0, 0)
      let (t, sat, uf, _) := formMants false cx w 1 [s]
      let sat := sat || sc.moveSat 1
      let sc' := { sc.move 1 0 with sats := sc.sats || sat, ufs := sc.ufs || uf || al.2.ufs }
      let it : Item := ⟨t.getD 0 .err, sc'⟩
      ({ it with sc := { sc' with maxmag := maxMant cx [it] } }, al.2.and ⟨0, sat, uf, []⟩)
  | _, _ => (⟨.err, sc⟩, Fx.none)

/-- The sums behind MULC, CONJ: by token. -/
def pointSums (cfg : Config) (n : Nat) (cx : Bool) (l : List Item) : List (Option (Int × Int)) :=
  if cfg.pOp n = 1 then l.flatMap fun x => stageInt 0 cx 1 (mulcBlock cfg n) [x]
  else l.map fun x => match x.tok with
    | .val re im => some (re.i, -im.i)
    | .err => none

/-- MULC, SCALE, CONJ and CVT of a BFP program (09 Table 9.5, 11 R310). -/
def pointBfp1 (cfg : Config) (n base flog : Nat) (o : OutEnv) (l : List Item) : List Item × Fx :=
  let cx := o.cplx
  let w := typeMant o.type
  match cfg.pOp n with
  | 4 =>
    let d := signed 16 (cfg.k n)
    let y := satItems w cx l
    (y.1.map fun x => { x with sc := x.sc.move d 0 }, ⟨0, y.2 || l.any fun x => x.sc.moveSat d, false, []⟩)
  | 13 =>
    floatOut o (l.map fun x =>
      if x.tok.isErr then none
      else some ((x.tok.comps cx).map fun v => (FVal.fin (v.i < 0) v.i.natAbs x.sc.exp, false)))
  | op =>
    let k := if op = 1 then 15 else 0
    let y := pointSums cfg n cx l
    let (toks, sat, uf, esc) := formMants cfg.rev cx w k y
    let sums := y.flatMap fun x => if cx then [(x.getD (0, 0)).1, (x.getD (0, 0)).2] else [(x.getD (0, 0)).1]
    let items := (l.zip toks).map fun p => (⟨p.2, { p.1.sc with sats := p.1.sc.sats || sat, ufs := p.1.sc.ufs || uf }⟩ : Item)
    (items.map fun x => { x with sc := { x.sc with maxmag := maxMant cx items } },
      ⟨0, sat, uf, if cfg.rev then [leesRec n false k (base / 2 ^ flog) sums esc] else []⟩)

/-- MULC and CONJ of an inverse program. -/
def pointInv (cfg : Config) (n : Nat) (o : OutEnv) (r : PopRec) (l : List Item) : List Item × Fx :=
  let cx := o.cplx
  let w := typeMant o.type
  let y := pointSums cfg n cx (mapMants cx l r.restore)
  let d : Int := if cfg.pOp n = 1 then 32768 else 1
  let back := (r.shift : Int) - (if cfg.pOp n = 1 then 15 else 0)
  let part (t : Int) : Option Int := if t % d ≠ 0 || (satMant w (t / d)).2 then none else some (t / d)
  ((l.zip y).map fun p =>
      ⟨match p.2 with
        | none => .err
        | some (a, b) => (match part a, part b with | some x, some z => .val (.int x) (.int z) | _, _ => .err),
       p.1.sc.move (-back) (-back)⟩, ⟨0, l.any fun x => x.sc.moveSat (-back), false, []⟩)

/-- Pointwise operations of a modular program; those of complex elements are complex, and K is real
(in part DEDUCED, log 45). -/
def pointMod (cfg : Config) (n p q : Nat) (l : List Item) (m : List Item) : List Item × Fx :=
  let kp := cfg.k n % 2 ^ 32
  let kq := cfg.k n >>> 32
  let f (t u : Tok) : Tok :=
    match t, u with
    | .val x xi, .val y yi =>
      let (a, b) := (x.lanes, xi.lanes)
      let (c, d) := (y.lanes, yi.lanes)
      let op := if cfg.pOp n ≤ 1 then laneMul else laneAdd
      let v := op p (a.1, b.1) (c.1, d.1)
      let w := op q (a.2, b.2) (c.2, d.2)
      .val (.res v.1 w.1) (.res v.2 w.2)
    | _, _ => .err
  let rhs := if cfg.binary n then m.map (·.tok) else l.map fun _ => .val (.res kp kq) (.res 0 0)
  ((l.zip rhs).map fun x => ⟨f x.1.tok x.2, Scale.zero⟩, Fx.none)

/-- A POINT on the tokens of one firing; `m` is the second input of a binary operation. -/
def pointUnit (cfg : Config) (n base flog p q : Nat) (o : OutEnv) (l m : List Item) : List Item × Fx :=
  match cfg.mode with
  | 0 =>
    if cfg.binary n then
      let r := (l.zip m).map fun x => pointBfp2 cfg n o.cplx (typeMant o.type) x.1 x.2
      (r.map (·.1), r.foldl (fun a x => a.and x.2) Fx.none)
    else pointBfp1 cfg n base flog o l
  | 1 =>
    if cfg.binary n then floatOut o ((l.zip m).map fun x => pointFlt2 cfg n o.env x.1.tok x.2.tok o.cplx)
    else if 5 ≤ cfg.pOp n ∧ cfg.pOp n ≤ 11 then pointTable cfg n o l
    else floatOut o (l.map fun x => pointFlt1 cfg n o.env x.tok o.cplx)
  | _ => pointMod cfg n p q l m

/-! ## Conditions of a STEER (09 R248) -/

/-- cond(token, K): a comparison of integers for integer, mantissa and residue types, of numbers for float types. `type` is the
tokens' type: an error token is a NaN in a float type, and else 0 (07 R183). The input half of FLUSH acts on neither the token
nor K (in part DEDUCED, log 47). -/
def steerCond (cfg : Config) (n type : Nat) (t : Tok) : Bool :=
  let byOrder (lt eq : Bool) : Bool :=
    match bits (cfg.w n 1) 2 0 with
    | 0 => eq | 1 => !eq | 2 => lt | 3 => lt || eq | 4 => !lt && !eq | _ => !lt
  let num (v : FVal) : Bool :=
    let k := cfg.kFlt n
    if v.isNaN || k.isNaN then false else byOrder (FVal.lt v k) (FVal.eq v k)
  let int (i : Int) : Bool := let k := signed 64 (cfg.k n); byOrder (i < k) (i == k)
  match t with
  | .err => if (typeFmt type).isSome || (typeGrist type).isSome then false else int 0
  | .val (.int i) _ => int i
  | .val (.res p _) _ => int p
  | .val v _ => num (v.f false)

/-- A control token is nonzero; NaN makes it false (in part DEDUCED, log 47). -/
def ctrlCond (t : Tok) : Bool :=
  match t with
  | .err => false
  | .val (.int i) _ => i != 0
  | .val (.res p _) _ => p != 0
  | .val v _ => let x := v.f false; !x.isNaN && !x.isZero

end Sys2Proof.Machine
end

