-- ==== Sys2Proof/Machine/FabricGen.lean ====
section
/-!
DEFINITION. Stream generators: what an ingress reads for its next element, what an egress writes, and how a generator holds
(09 R233, R238, R243, R253, R254, 07 R183).
-/

namespace Sys2Proof.Machine

/-! ## Access to a running program -/

/-- The active configuration and the running program of a cluster, while its nodes move. -/
def State.live (s : State) (c : ClusterId) : Option (Config × Run) :=
  match (s.fabric c).active, (s.fabric c).run with
  | some cfg, some r => if r.ended || r.frozen != .no then none else some (cfg, r)
  | _, _ => none

def NodeState.start (n nsrc : Nat) : NodeState :=
  { id := n, ins := List.replicate nsrc Port.empty, fin := false, cnt := 0, out := 0, cur := none, dirs := [], acc := [],
    frame := 0, marked := false }

def Run.node (r : Run) (n : Nat) : NodeState := (r.nodes.find? fun x => x.id == n).getD (NodeState.start n 0)

def State.putNode (s : State) (c : ClusterId) (ns : NodeState) : State :=
  s.modRun c fun r => { r with nodes := r.nodes.map fun x => if x.id = ns.id then ns else x }

def NodeState.port (ns : NodeState) (k : Nat) : Port := ns.ins.getD k Port.empty

def NodeState.setPort (ns : NodeState) (k : Nat) (p : Port) : NodeState := { ns with ins := ns.ins.set k p }

/-- Takes `n` tokens from an input. -/
def NodeState.take (ns : NodeState) (k n : Nat) : List Item × NodeState :=
  let p := ns.port k
  (p.q.take n, ns.setPort k { p with q := p.q.drop n })

/-- Changes every input that output (n, f) feeds. -/
def State.feed (s : State) (c : ClusterId) (cfg : Config) (n : Nat) (f : Bool) (g : Port → Port) : State :=
  s.modRun c fun r => { r with nodes := r.nodes.map fun x =>
    let src := cfg.consumes x.id
    { x with ins := x.ins.zipIdx.map fun p => if src[p.2]? = some (n, f) then g p.1 else p.1 } }

/-- Sends tokens from output (n, f). -/
def State.emit (s : State) (c : ClusterId) (cfg : Config) (n : Nat) (f : Bool) (l : List Item) : State :=
  if l.isEmpty then s else s.feed c cfg n f fun p => { p with q := p.q ++ l }

/-- The node passes end of stream on every output (09 R248 rule 7). -/
def State.close (s : State) (c : ClusterId) (cfg : Config) (n : Nat) : State :=
  let s := [false, true].foldl (fun (s : State) f => s.feed c cfg n f fun p => { p with eos := true }) s
  s.modRun c fun r => { r with nodes := r.nodes.map fun x => if x.id = n then { x with fin := true } else x }

/-- ORs what a firing raised into the owner's SSTATUS, and keeps its records (09 R233, R236, R260). -/
def State.note (s : State) (c : ClusterId) (owner : HartId) (fx : Fx) : State :=
  let w := fx.fl.toNat <<< 4 + fx.sats.toNat <<< 9 + fx.ufs.toNat <<< 10
  let s := if w = 0 then s else s.modHart owner fun x => { x with sstatus := x.sstatus ||| BitVec.ofNat 64 w }
  if fx.recs.isEmpty then s else s.modRun c fun r => { r with recs := r.recs ++ fx.recs }

/-- An error token reached a sink (09 R260) (in part DEDUCED, log 49). -/
def State.errTok (s : State) (owner : HartId) : State :=
  s.modHart owner fun x => { x with sstatus := x.sstatus ||| 8#64 }

/-! ## Holds (09 R253, R254) -/

/-- One more entry in a stream fault record; the first of a new record when `fresh` (in part DEDUCED, log 45). -/
def addStreamEntry (r : BitVec 4096) (fresh : Bool) (sub k : Nat) (out : Bool) (e : Nat) (va : Word) : BitVec 4096 :=
  let r := if fresh then 0 else r
  let n := getBits r 0 4
  if n ≥ 8 then setBit r 4 true
  else
    let b := 8 * (0x20 + 32 * n)
    let r := setBits r 0 4 (n + 1)
    let r := setBits r b 64 (sub + k <<< 8 + out.toNat <<< 13)
    setBits (setBits r (b + 64) 64 e) (b + 128) 64 va.toNat

/-- The generator of handle `k` holds at element `e` (09 R253). -/
def State.holdGen (s : State) (c : ClusterId) (owner : HartId) (k sub e : Nat) (va : Word) : State :=
  let h := s.handleOf c k
  let out := (match h.desc with | some d => d.out | none => false)
  let fresh := !((s.hart owner).pend.any fun p => p.cause == 0x17)
  let s := s.modHandle c k fun h => { h with held := true }
  let s := s.modFabric c fun f => { f with faultRec := addStreamEntry f.faultRec fresh sub k out e va }
  let s := if fresh then
      s.modHart owner fun x => { x with pend := x.pend ++ [⟨0x17, BitVec.ofNat 64 (sub + k <<< 8), BitVec.ofNat 64 e⟩] }
    else s
  if suspends sub then
    match (s.hart owner).gang with
    | some (d, n) => s.suspendGang d n [owner]
    | none => s
  else s

/-! ## Elements -/

/-- What the attempt to move an element meets. -/
inductive Got (α : Type) where
  | now (a : α)
  | wait
  | hold (sub : Nat) (va : Word)
  /-- No element is left. -/
  | last
  deriving DecidableEq, Repr

/-- An offset under the diagonal placement of 06 R139 (SKEW 2). -/
def diagOffset (diag : Bool) (o : Nat) : Nat :=
  if diag then skewLine 2 cellarBase (o / 64) * 64 + o % 64 else o

/-- The physical address of a byte of a stream in the Cellar. -/
def streamByte (sl : ClusterId) (diag : Bool) (o : Nat) : Nat := cellarPa sl (diagOffset diag (o % 2 ^ 24))

/-- Reads bytes of a slice for a generator: it waits for copies (09 R252) and holds on poison, with the physical address
(14 R367) (in part DEDUCED, log 49). -/
def State.readSlice (s : State) (sl : ClusterId) (diag : Bool) (o n : Nat) : Got (List Byte) :=
  let a := (List.range n).map fun i => streamByte sl diag (o + i)
  if a.any fun p => s.ownedIn p 1 || s.absentIn p 1 then .wait
  else
    match a.find? s.poisoned with
    | some p => .hold 0x16 (BitVec.ofNat 64 p)
    | none => .now (a.map s.byte)

/-- Writes bytes of a slice for a generator. -/
def State.writeSlice (s : State) (sl : ClusterId) (diag : Bool) (o : Nat) (l : List Byte) : State :=
  if diag then (l.zipIdx).foldl (fun (s : State) b => s.setBytes (streamByte sl diag (o + b.2)) [b.1]) s
  else s.setBytes (cellarPa sl o) l

/-- The virtual address of element `e`. -/
def StreamDesc.va (d : StreamDesc) (e : Nat) : Word := BitVec.ofNat 64 (d.w 1) + BitVec.ofInt 64 (d.offset e)

/-- Reads the element at a virtual address for a program, checked as a load of Table 6.6; a DISC page reads as zero and sets the
owner's STATUS.DREAD (in part DEDUCED, log 49). -/
def State.readVirtual (s : State) (r : Run) (va : Word) (n : Nat) : State × Got (List Byte) :=
  let (s, ps) := checkRun s r.ctx true va n
  match worst ps with
  | some (cause, _, _) => (s, .hold cause va)
  | none =>
    if s.held true ps then (s, .wait)
    else
      let disc := ps.any fun p => match p with | .ok _ _ e => readsZero e.leaf | _ => false
      let s := if disc then s.modHart r.owner fun h => { h with status := { h.status with dread := true } } else s
      (s, .now (ps.flatMap fun p => match p with
        | .ok pa k e => if readsZero e.leaf then List.replicate k 0 else s.bytes pa k
        | _ => []))

/-- Writes bytes at a virtual address, checked as a store of Table 6.6. -/
def State.writeVirtual (s : State) (x : MemCtx) (va : Word) (l : List Byte) : State × Got Unit :=
  let (s, ps) := checkRun s x false va l.length
  match worst ps with
  | some (cause, _, _) => (s, .hold cause va)
  | none =>
    if s.held false ps then (s, .wait)
    else
      ((ps.foldl (fun (a : State × List Byte) p => match p with
        | .ok pa k e => ((a.1.markDirty x e).setBytes pa (a.2.take k), a.2.drop k)
        | _ => a) (s, l)).1, .now ())

/-- A component from the bits of its type; `q` pairs a residue (09 R237). -/
def valOfBits (t p q v : Nat) : Val :=
  match typeFmt t with
  | some f => .flt f (v % 2 ^ f.width)
  | none =>
    match t with
    | 0 => .int (signed 16 v)
    | 1 => .int (signed 24 v)
    | 2 => .res (if p = 0 then 0 else (signed 32 v % (p : Int)).toNat) (if q = 0 then 0 else (signed 32 v % (q : Int)).toNat)
    | 11 => .int (signed 32 v)
    -- a grist element at a hart port: its scale is not given
    | t => (match typeGrist t with
      | some g => .grist g ((Config.gristScale t).toNat + (v % 2 ^ (g.k + 1)) <<< 16) 0
      | none => .int 0)

/-- The bits of a component in its type, at its stored width. -/
def Val.bitsOf (t : Nat) (v : Val) : Nat :=
  match v with
  | .int i => wrap (typeBits t) i
  | .res p _ => p
  | .flt f b => b % 2 ^ f.width
  | .grist g blk i => (blk >>> (16 + (g.k + 1) * i)) % 2 ^ (g.k + 1)

/-- The token of an element's bytes; `e` is the element's place in its block. -/
def tokOfBytes (d : StreamDesc) (p q e : Nat) (l : List Byte) : Tok :=
  let v := ofBytes l
  match typeGrist d.type with
  | some g =>
    let i := e % d.len 0 * (if d.cplx then 2 else 1) % 16
    .val (.grist g v i) (.grist g v (i + 1))
  | none => .val (valOfBits d.type p q v) (if d.cplx then valOfBits d.type p q (v >>> typeBits d.type) else .int 0)

/-- The bytes of a token that is no grist. -/
def tokBytes (t : Nat) (cplx : Bool) (k : Tok) : List Byte :=
  (k.comps cplx).flatMap fun v => toBytes (typeBits t / 8) (v.bitsOf t)

/-- The bits of a hart-port token. -/
def tokBits (t : Nat) (cplx : Bool) (k : Tok) : Nat :=
  match k with
  | .err => (match typeFmt t with | some f => f.canonNaN | none => 0)
  | .val re im => re.bitsOf t + (if cplx then im.bitsOf t <<< typeBits t else 0)

/-- The scale entry that two words hold (09 R233). -/
def scaleOfBytes (l : List Byte) (bias : Int) : Scale × Bool :=
  let v := ofBytes l
  let sc : Scale := ⟨signed 16 v, bits v 23 16, v.testBit 30, v.testBit 31, bits v 55 32⟩
  (sc.move bias 0, sc.moveSat bias)

/-- The bytes of a scale entry, with the sticky bits already in memory kept (03 R52). -/
def Scale.bytes (sc : Scale) (old : Nat) : List Byte :=
  toBytes 8 (wrap 16 sc.exp + sc.growth <<< 16 + (sc.ufs || old.testBit 30).toNat <<< 30 +
    (sc.sats || old.testBit 31).toNat <<< 31 + (sc.maxmag % 2 ^ 24) <<< 32)

/-- Where the scale entry of element `e` lies. -/
def StreamDesc.scaleAt (d : StreamDesc) (c : ClusterId) (e : Nat) : ClusterId × Nat :=
  let l := locator c (d.w 6)
  (l.1, l.2 + 8 * (e / 2 ^ d.flog))

/-- Reads the scale of element `e` of a BFP ingress. -/
def State.readScale (s : State) (c : ClusterId) (h : Handle) (d : StreamDesc) (e : Nat) : Got (Scale × Bool) :=
  if d.type ≤ 1 then
    let (sl, o) := d.scaleAt c e
    match s.readSlice sl false o 8 with
    | .now l => .now (scaleOfBytes l h.bias)
    | .wait => .wait
    | .hold x va => .hold x va
    | .last => .last
  else .now (Scale.zero, false)

/-- The bytes of element `e` of an affine stream. -/
def State.readAffine (s : State) (c : ClusterId) (r : Run) (d : StreamDesc) (e : Nat) : State × Got (List Byte) :=
  if d.elems ≤ e then (s, .last)
  else if d.space = 2 then s.readVirtual r (d.va e) d.eb
  else
    let (sl, o) := locator c (d.w 1)
    (s, s.readSlice sl d.diag ((o : Int) + d.offset e).toNat d.eb)

/-- Where element index `i` of an indexed stream lies in the slice; none out of range (07 R183, 09 R243). -/
def StreamDesc.indexed (d : StreamDesc) (c : ClusterId) (i : Int) : Option (ClusterId × Nat) :=
  let (sl, o) := locator c (d.w 1)
  let a : Int := o + i * d.eb
  if a < 0 ∨ 2 ^ 24 < a + d.eb then none else some (sl, a.toNat)

/-- The next index of an indexed stream: a token of handle `j`, which may be an indexed stream itself (09 R243); none for an
error token or a handle that is no INT32 ingress (in part DEDUCED, log 49). -/
def State.readIndex (c : ClusterId) (r : Run) : Nat → Nat → State → State × Got (Option Int)
  | 0, _, s => (s, .now none)
  | fuel + 1, j, s =>
    let h := s.handleOf c j
    match h.desc with
    | none => (s, .now none)
    | some d =>
      let num (l : List Byte) : Option Int := some (signed 32 (ofBytes l))
      if d.out || d.type != 11 then (s, .now none)
      else if d.space = 3 then
        (s, match h.port with
          | v :: _ => .now (some (signed 32 v))
          | [] => if h.lanesClosed then .last else .wait)
      else if d.space = 1 then
        (if d.elems ≤ h.pos then (s, .last)
        else
          match State.readIndex c r fuel d.ihandle s with
          | (s, .now (some i)) =>
            (match d.indexed c i with
              | none => (s, .now none)
              | some (sl, a) =>
                (match s.readSlice sl d.diag a d.eb with
                  | .now l => (s, .now (num l))
                  | .wait => (s, .wait)
                  | .hold u va => (s, .hold u va)
                  | .last => (s, .last)))
          | g => g)
      else
        match s.readAffine c r d h.pos with
        | (s, .now l) => (s, .now (num l))
        | (s, .wait) => (s, .wait)
        | (s, .hold u va) => (s, .hold u va)
        | (s, .last) => (s, .last)

/-- The generators that give a handle its indices: its IHANDLE, and that one's, for an indexed stream (09 R243). -/
def State.indexers (s : State) (c : ClusterId) : Nat → Nat → List Nat
  | 0, _ => []
  | fuel + 1, k =>
    match (s.handleOf c k).desc with
    | some d => if d.space = 1 then d.ihandle :: State.indexers s c fuel d.ihandle else []
    | none => []

/-- The generator that fails when the next element of handle `k` does: the last of its index generators that does, or its
own (09 R253). -/
def State.failing (s : State) (c : ClusterId) (r : Run) (k : Nat) : Nat :=
  let fails (j : Nat) : Bool := (match (State.readIndex c r 32 j s).2 with | .hold _ _ => true | _ => false)
  ((s.indexers c 32 k).filter fails).getLast?.getD k

/-- Advances a generator past one element. -/
def State.advance (s : State) (c : ClusterId) (k : Nat) : State :=
  s.modHandle c k fun h => { h with pos := h.pos + 1, passed := h.passed + 1, port := h.port.drop 1 }

/-- The next token of an ingress: what the fabric would read now. The state carries what translation changed. -/
def State.nextTok (s : State) (c : ClusterId) (r : Run) (k : Nat) : State × Got (Item × Bool) :=
  let h := s.handleOf c k
  match h.desc with
  | none => (s, .last)
  | some d =>
    match s.readScale c h d h.pos with
    | .wait => (s, .wait)
    | .hold u va => (s, .hold u va)
    | .last => (s, .last)
    | .now sc =>
      let item (t : Tok) : Item × Bool := (⟨t, sc.1⟩, sc.2)
      if d.space = 3 then
        (s, match h.port with
          | v :: _ =>
            .now (item (.val (valOfBits d.type r.modp r.modq v)
              (if d.cplx then valOfBits d.type r.modp r.modq (v >>> typeBits d.type) else .int 0)))
          | [] => if h.lanesClosed then .last else .wait)
      else if d.space = 1 then
        (if d.elems ≤ h.pos then (s, .last)
        else
          match State.readIndex c r 32 d.ihandle s with
          | (s, .wait) => (s, .wait)
          | (s, .hold u va) => (s, .hold u va)
          | (s, .last) => (s, .last)
          | (s, .now none) => (s, .now (item .err))
          | (s, .now (some i)) =>
            match d.indexed c i with
            | none => (s, .now (item .err))
            | some (sl, a) =>
              match s.readSlice sl d.diag a d.eb with
              | .now l => (s, .now (item (tokOfBytes d r.modp r.modq 0 l)))
              | .wait => (s, .wait)
              | .hold u va => (s, .hold u va)
              | .last => (s, .last))
      else
        match s.readAffine c r d h.pos with
        | (s, .now l) => (s, .now (item (tokOfBytes d r.modp r.modq h.pos l)))
        | (s, .wait) => (s, .wait)
        | (s, .hold u va) => (s, .hold u va)
        | (s, .last) => (s, .last)

/-! ## Egress -/

/-- Where element `e` of an egress would be written, or why it cannot be now. -/
def State.writeElem (s : State) (c : ClusterId) (x : MemCtx) (d : StreamDesc) (e : Nat) (l : List Byte) :
    State × Got Unit :=
  if d.space = 2 then s.writeVirtual x (d.va e) l
  else
    let (sl, o) := locator c (d.w 1)
    let a := ((o : Int) + d.offset e).toNat
    if (List.range l.length).any fun i => s.ownedIn (streamByte sl d.diag (a + i)) 1 then (s, .wait)
    else (s.writeSlice sl d.diag a l, .now ())

/-- Whether the residues of a component disagree: the centred reading of the p lane, mod q, against the q lane (09 R238). -/
def Run.mismatch (r : Run) (v : Val) : Bool :=
  match v with
  | .res a b =>
    let cc : Int := if a ≤ (r.modp - 1) / 2 then a else (a : Int) - r.modp
    r.modq != 0 && (cc % (r.modq : Int)).toNat != b
  | _ => false

/-- The modular check of an element, of both parts of a complex one (09 R238). -/
def State.modCheck (s : State) (c : ClusterId) (r : Run) (cplx : Bool) (e : Nat) (t : Tok) : State :=
  if (t.comps cplx).any r.mismatch then
    let s := s.modHart r.owner fun x =>
      let w := x.sstatus
      let first := if w.getLsbD 0 then wbits w 39 16 else e % 2 ^ 24
      let n := min (wbits w 63 40 + 1) (2 ^ 24 - 1)
      { x with sstatus := setBits (setBits (w ||| 1) 16 24 first) 40 24 n }
    s.modRun c fun r => { r with ovf := true }
  else s

/-- What an egress writes in one access: its tokens, how many of them are error tokens, and the bytes. -/
structure OutWrite where
  toks : List Tok
  errs : Nat
  bytes : List Byte
  deriving DecidableEq, Repr

/-- The modular check of the tokens of an egress that asks for it, from element `e` on (09 R238). -/
def State.checkToks (s : State) (c : ClusterId) (r : Run) (d : StreamDesc) (e : Nat) (l : List Tok) : State :=
  if d.chk then l.zipIdx.foldl (fun (s : State) t => s.modCheck c r d.cplx (e + t.2) t.1) s else s

/-- An egress passes `n` tokens, `err` of them error tokens, which reach a sink (07 R183, 09 R260). -/
def State.passToks (s : State) (c : ClusterId) (r : Run) (k n err : Nat) : State :=
  let s := s.modHandle c k fun h =>
    { h with pos := h.pos + n, passed := h.passed + n, errs := min (h.errs + err) (2 ^ 24 - 1) }
  if err = 0 then s else s.errTok r.owner

/-- One step of an egress over its writes, stopping where it must wait or hold: tokens beyond its elements count as error
tokens; a write whose data holds an error token is not made (07 R183, 09 R243) (in part DEDUCED, log 49). -/
def State.writeToks (c : ClusterId) (r : Run) (k : Nat) (d : StreamDesc) : List OutWrite → State → State × Got Unit
  | [], s => (s, .now ())
  | w :: rest, s =>
    let e := (s.handleOf c k).pos
    let n := w.toks.length
    if d.elems ≤ e then State.writeToks c r k d rest (s.passToks c r k n n)
    else if w.errs != 0 then State.writeToks c r k d rest (s.passToks c r k n w.errs)
    else
      match s.writeElem c r.ctx d e w.bytes with
      | (s, .now ()) =>
        State.writeToks c r k d rest (((s.checkToks c r d e w.toks).passToks c r k n 0).modRun c fun r =>
          { r with written := r.written + n })
      | (s, g) => (s, g)

/-- The block that holds grist components, and the flags of forming it: the elements as they are where one block can hold them,
and for an OUT fed by an IN (`direct`, 15 R378) whatever their scales; else their requantisation (in part DEDUCED, log 49). -/
def gristBlock (g : Grist) (o : OutEnv) (direct : Bool) (l : List Val) : Nat × FFlags :=
  let requantised : Nat × FFlags :=
    let vs := l.map (Val.f o.env.flushIn)
    g.quantiseAt o.env (fun i => o.idx (i / (if o.cplx then 2 else 1))) vs (vs.map FVal.sign)
  let parts := l.filterMap (Val.gristParts g)
  let whole := (match l with
    | .grist _ b _ :: _ => if l = (List.range 16).map (Val.grist g b) then some b else none
    | _ => none)
  if let some b := whole then (b, 0) else
  if parts.length != l.length then requantised
  else
    match gristScaleOf g parts with
    | some sc => (gristPack g sc parts, 0)
    | none => if direct then (gristPack g (Config.mixedScale o.node o.base).toNat parts, 0) else requantised

end Sys2Proof.Machine
end

