-- ==== Sys2Proof/Machine/FabricRun.lean ====
section
/-!
DEFINITION. Nodes of a running stream program: when a node fires and what it does, end of stream, drain points, the pre-empt
marker and the end of a program (09 R229 to R259, 11 R307 to R310). Each is the step of an event row; a step that is not
due changes nothing.
-/

namespace Sys2Proof.Machine

/-! ## Shape of a program -/

/-- The nodes from which node `b` can be reached, `b` among them. -/
def Config.ancestors (cfg : Config) (b : Nat) : List Nat :=
  (List.range cfg.nnode).foldl (fun acc _ =>
    cfg.nodes.filter fun n => acc.contains n || acc.any fun m => (cfg.consumes m).any fun x => x.1 == n) [b]

/-- The handle of a node. -/
def State.nodeHandle (s : State) (c : ClusterId) (cfg : Config) (n : Nat) : Handle := s.handleOf c (cfg.handle n)

/-- Back-pressure: an egress that the node feeds is held (09 R253 step 2) (in part DEDUCED, log 49). -/
def State.blocked (s : State) (c : ClusterId) (cfg : Config) (n : Nat) : Bool :=
  cfg.nodes.any fun m => cfg.kind m == 2 && (s.nodeHandle c cfg m).held && (cfg.ancestors m).contains n

/-- Token type and CPLX of a node's output. -/
def Config.outType (cfg : Config) (f : Fabric) (n : Nat) : Nat × Bool := (edgeType cfg f n).getD (11, false)

/-- Token type and CPLX of a node's first input. -/
def Config.inType (cfg : Config) (f : Fabric) (n : Nat) : Nat × Bool := cfg.outType f (cfg.src n 0).1

/-- The logarithm of a node's frame length; that of an OUT is its handle's. -/
def Config.flog (cfg : Config) (f : Fabric) (n : Nat) : Nat := flogOf cfg f n

/-- The next multiple of a type's grist block, in tokens. -/
def gristUnit (t : Nat × Bool) : Nat := if (typeGrist t.1).isSome then (if t.2 then 8 else 16) else 1

/-- The tokens that an OUT takes at once: a frame; of a grist type in memory those that the next block still has, which ends
with its row (09 R243, 06 R158); else one. -/
def Handle.outUnit (h : Handle) : Nat :=
  match h.desc with
  | none => 1
  | some d =>
    let u := gristUnit (d.type, d.cplx)
    let i := h.pos % max 1 (d.len 0)
    if d.type ≤ 1 then 2 ^ d.flog else if d.space = 3 ∨ u = 1 ∨ d.elems ≤ h.pos then 1 else min (u - i % u) (d.len 0 - i)

/-- The tokens that a node takes at once. -/
def Config.unit (cfg : Config) (f : Fabric) (n : Nat) : Nat :=
  let out := cfg.outType f n
  match cfg.kind n with
  | 2 => (f.handles[Fin.ofNat 32 (cfg.handle n)]).outUnit
  | 3 =>
    if cfg.mode = 0 ∧ (cfg.rev ∨ cfg.sMeasIn n ∨ cfg.sMeasOut n) then 2 ^ cfg.flog f n
    else max (max (cfg.sB n) (gristUnit out)) (max (specWindow (cfg.w n 3)) (specWindow (cfg.w n 4)))
  | 4 => specWindow (cfg.w n 1)
  | 5 => 2 ^ cfg.xLogN n
  | 6 => if cfg.rev && (cfg.pOp n == 1 || cfg.pOp n == 12) then 2 ^ cfg.flog f n else gristUnit out
  | _ => 1

/-- To what multiple the last short unit is padded as it enters a node (09 R229, R231). -/
def Config.padUnit (cfg : Config) (n : Nat) : Nat :=
  match cfg.kind n with
  | 3 => max (cfg.sB n) (specWindow (cfg.w n 3))
  | 4 => specWindow (cfg.w n 1)
  | 5 => 2 ^ cfg.xLogN n
  | _ => 1

/-! ## Lees records of an inverse program (11 R307 to R310) -/

/-- The region of a REV handle: slice, offset and length in bytes. -/
def StreamDesc.region (d : StreamDesc) (c : ClusterId) : ClusterId × Nat × Nat :=
  let l := locator c (bits (d.w 7) 31 0)
  (l.1, l.2, 64 * bits (d.w 7) 63 32)

/-- Whether node `n` is of a kind bound to a REV handle of the direction. -/
def Config.revNode (cfg : Config) (f : Fabric) (kind : Nat) (n : Nat) : Bool :=
  cfg.kind n == kind &&
    (match (f.handles[Fin.ofNat 32 (cfg.handle n)]).desc with | some d => d.rev | none => false)

/-- The node whose handle names the region, and whether the program is an inverse one (11 R307, R309). -/
def Config.leesNode (cfg : Config) (f : Fabric) : Option (Nat × Bool) :=
  match cfg.nodes.find? (cfg.revNode f 1) with
  | some n => some (n, true)
  | none => (cfg.nodes.find? (cfg.revNode f 2)).map fun n => (n, false)

def Config.inverse (cfg : Config) (f : Fabric) : Bool :=
  cfg.rev && (match cfg.leesNode f with | some (_, b) => b | none => false)

/-- Whether a node of a reversible program has records (11 Table 11.8). -/
def Config.records (cfg : Config) (f : Fabric) (n : Nat) : Bool :=
  match cfg.kind n with
  | 3 => true
  | 5 => cfg.flog f n < cfg.xLogN n
  | 6 => cfg.pOp n == 1 || cfg.pOp n == 12
  | 0xB => true
  | _ => false

/-- Pops the record below byte `top` of a region at physical address `base`, of `nm` mantissas: subcause 0x0D below offset 64; it
waits for copies and holds on poison, as any Cellar read (14 R367). -/
def State.popOne (s : State) (base nm top : Nat) : Got (PopRec × Nat) :=
  let blocked (a n : Nat) : Option (Got (PopRec × Nat)) :=
    if s.ownedIn a n || s.absentIn a n then some .wait
    else if s.poisonedIn a n then some (.hold 0x16 (BitVec.ofNat 64 a)) else none
  if top < 80 then .hold 0x0D 0
  else
    match blocked (base + top - 8) 8 with
    | some g => g
    | none =>
      let h := (s.word (base + top - 8)).toNat
      let len := recLen h nm
      if top < 64 + len then .hold 0x0D 0
      else
        match blocked (base + top - len) len with
        | some g => g
        | none => .now (parseRec h nm (ofBytes (s.bytes (base + top - len + 8) (len - 16))), top - len)

/-- Mantissas of a token. -/
def perTok (cplx : Bool) : Nat := if cplx then 2 else 1

/-- The mantissas that the input record of an inverse stage may have, where its output record has `nm`: what the forward stage took
were whole blocks and pre windows, and what it gave whole post windows (09 R229, R231). -/
def Config.inputMants (cfg : Config) (f : Fabric) (n nm : Nat) : List Nat :=
  let per := perTok (cfg.inType f n).2
  let u := max (cfg.sB n) (specWindow (cfg.w n 4))
  let w := specWindow (cfg.w n 3)
  let l := ((List.range w).map (nm / per - ·)).filter fun k => 0 < k && k % u == 0 && roundUp k w == nm / per
  if l.isEmpty then [nm] else l.map (per * ·)

/-- The first of these numbers of mantissas with which the record below byte `top` begins with a header equal to its trailer (11
Table 11.7), or the first of them (in part DEDUCED, log 51). -/
def State.mantsBelow (s : State) (base top : Nat) (l : List Nat) : Nat :=
  let fits (k : Nat) : Bool :=
    let h := s.word (base + top - 8)
    let len := recLen h.toNat k
    64 + len ≤ top && s.word (base + top - len) == h
  (l.find? fits).getD (l.headD 0)

/-- The records of node `n` for one frame, of `nm` mantissas: for a stage, its input record lies below its output record. -/
def State.popNode (s : State) (cfg : Config) (f : Fabric) (base n nm top : Nat) : Got (PopRec × Option PopRec × Nat) :=
  match s.popOne base nm top with
  | .now (r, top) =>
    if cfg.kind n == 3 then
      (match s.popOne base (s.mantsBelow base top (cfg.inputMants f n nm)) top with
        | .now (r2, top2) => if r2.input ∧ r2.node = r.node then .now (r, some r2, top2) else .now (r, none, top)
        | .wait => .wait
        | .hold 0x0D _ => .now (r, none, top)
        | .hold u va => .hold u va
        | .last => .now (r, none, top))
    else .now (r, none, top)
  | .wait => .wait
  | .hold u va => .hold u va
  | .last => .last

/-- Pops for a list of nodes in turn, each with the mantissas of its frame (in part DEDUCED, log 51). -/
def State.popAll (s : State) (cfg : Config) (f : Fabric) (base : Nat) : List (Nat × Nat) → Nat → Got Nat
  | [], top => .now top
  | x :: rest, top =>
    match s.popNode cfg f base x.1 x.2 top with
    | .now (_, _, t) => s.popAll cfg f base rest t
    | .wait => .wait
    | .hold u va => .hold u va
    | .last => .last

/-- The mantissas in frame `t` of a recording node: those of its own frame length and type; fewer in a shorter final frame that
it has taken (09 R233) (in part DEDUCED, log 51). -/
def Run.frameMants (r : Run) (cfg : Config) (f : Fabric) (n t : Nat) : Nat :=
  let ns := r.node n
  let w := 2 ^ cfg.flog f n
  let c := if cfg.kind n = 0xB then ns.out else ns.cnt
  perTok (cfg.inType f n).2 * (if t < ns.frame then min w (c - t * w) else w)

/-- The recording nodes. -/
def Config.recNodes (cfg : Config) (f : Fabric) : List Nat := cfg.nodes.filter (cfg.records f)

/-- Whether it is known how long the records of node `n` for frame `t` are: it has taken the frame, or has ended without one, or
moves whole frames only. -/
def Run.recKnown (r : Run) (cfg : Config) (n t : Nat) : Bool := t < (r.node n).frame || (r.node n).fin || cfg.kind n == 5

/-- How the records of frame `t` lie, from the top: the nodes that have one, and its mantissas. -/
def Run.recShape (r : Run) (cfg : Config) (f : Fabric) (l : List Nat) (t : Nat) : List (Nat × Nat) :=
  (l.filter fun x => !(r.node x).fin || t < (r.node x).frame).map fun x => (x, r.frameMants cfg f x t)

/-- The records of node `n` for its frame `t`, of `nm` mantissas, counted from the top of the region and checked against
11 R309: subcause 0x0D on a mismatch or an underflow. It waits for the nodes before it, whose records of the frame lie above. -/
def State.popFor (s : State) (c : ClusterId) (cfg : Config) (r : Run) (n t nm : Nat) : Got (PopRec × Option PopRec) :=
  let f := s.fabric c
  match cfg.leesNode f with
  | none => .hold 0x0D 0
  | some (m, _) =>
    let h := s.nodeHandle c cfg m
    match h.desc with
    | none => .hold 0x0D 0
    | some d =>
      let (sl, o, _) := d.region c
      let base := cellarPa sl o
      let rn := cfg.recNodes f
      let ahead := rn.takeWhile (· != n)
      let at_ (t : Nat) (l : List Nat) (n nm : Nat) : Got (PopRec × Option PopRec × Nat) :=
        match s.popAll cfg f base ((List.range t).flatMap (r.recShape cfg f rn) ++ r.recShape cfg f l t) (8 * h.lees) with
        | .now top => s.popNode cfg f base n nm top
        | .wait => .wait
        | .hold u va => .hold u va
        | .last => .last
      if ahead.any fun x => !r.recKnown cfg x t then .wait else
      match at_ t ahead n nm, at_ 0 ahead n (if t = 0 then nm else r.frameMants cfg f n 0) with
      | .now (x, r2, _), .now (x0, _, _) =>
        let above := (match ahead.getLast? with
          | none => 128
          | some p => (match at_ 0 ahead.dropLast p (r.frameMants cfg f p 0) with
            | .now (y, _, _) => y.node
            | _ => 0))
        if x.node = x0.node ∧ x0.node < above then .now (x, r2) else .hold 0x0D 0
      | .now _, .wait => .wait
      | .now _, .hold u va => .hold u va
      | .now _, .last => .last
      | .wait, _ => .wait
      | .hold u va, _ => .hold u va
      | .last, _ => .last

/-- The region's generator holds: a record mismatch or an underflow (11 R309), or a full region (R308)
(in part DEDUCED, log 51). -/
def State.leesFault (s : State) (c : ClusterId) (cfg : Config) (r : Run) (sub : Nat) (va : Word) : State :=
  match cfg.leesNode (s.fabric c) with
  | some (m, _) =>
    let k := cfg.handle m
    if (s.handleOf c k).held then s else s.holdGen c r.owner k sub (s.handleOf c k).pos va
  | none => s

/-- A node's own read of the Cellar fails (14 R367): the generator at the head of its path holds (in part DEDUCED, log 49). -/
def State.nodeFault (s : State) (c : ClusterId) (cfg : Config) (r : Run) (n sub : Nat) (va : Word) : State :=
  match cfg.head n with
  | some m =>
    let k := cfg.handle m
    if (s.handleOf c k).held then s else s.holdGen c r.owner k sub (s.handleOf c k).pos va
  | none => s

/-! ## One firing of the unit nodes -/

/-- A factor block of a stage, as a number: from the factor buffers when the table is resident, where what no load has filled is
free; else from the Cellar (09 R230) (in part DEDUCED, log 44). -/
def State.factor (s : State) (c : ClusterId) (cfg : Config) (n j : Nat) : Nat :=
  let w := cfg.blockBytes n
  if cfg.resident n then
    let l := ((cfg.tables.find? fun t => t.1 == n).map (·.2)).getD []
    ofBytes ((List.range w).map fun i => (l[w * j + i]?).getD (Config.bufferByte n (w * j + i)))
  else ofBytes (s.bytes (cellarPa c (cfg.sFtab n + w * j)) w)

/-- What keeps a stage from reading the factor blocks of `m` runs from run `j0` on: a streamed table's copies or poison (07 R179,
09 R230, 14 R367). -/
def State.factorHold (s : State) (c : ClusterId) (cfg : Config) (n j0 m : Nat) : Got Unit :=
  if cfg.resident n then .now ()
  else
    let w := cfg.blockBytes n
    let runs := (List.range (min m (cfg.sNb n))).map fun j => cellarPa c (cfg.sFtab n + w * ((j0 + j) % cfg.sNb n))
    if runs.any fun a => s.ownedIn a w || s.absentIn a w then .wait
    else
      match runs.find? fun a => s.poisonedIn a w with
      | some a => .hold 0x16 (BitVec.ofNat 64 a)
      | none => .now ()

/-- The rounding environment of a node's outputs. -/
def outEnv (s : State) (c : ClusterId) (cfg : Config) (r : Run) (n : Nat) : OutEnv :=
  let t := cfg.outType (s.fabric c) n
  { node := n, type := t.1, cplx := t.2, env := r.env, base := (r.node n).out,
    conv := cfg.kind n == 6 && cfg.pOp n == 13 }

/-- Alignment of a segment or of received parts to the largest exponent, with an input record for each frame under REV; the
magnitudes of the new frames are those of the tokens in them (09 R233, R259, 11 R308). -/
def alignFrames (cfg : Config) (n base flog : Nat) (cx : Bool) (l : List Item) : List Item × Fx :=
  let top := (scaleOf l).exp
  let a := alignItems cfg.rev cx l
  let r := (ownMag cx a.1, a.2)
  let w := 2 ^ flog
  if cfg.rev then
    let frames := (List.range ((l.length + w - 1) / w)).map fun j => (base / w + j, (l.drop (w * j)).take w)
    let recs := frames.map fun fr =>
      let sh := min 47 (fr.2.foldl (fun a x => max a (top - x.sc.exp).toNat) 0)
      let rems := fr.2.flatMap fun x => (mants cx [x]).map fun m => m * (2 ^ (sh - (top - x.sc.exp).toNat) : Nat)
      leesRec n true sh fr.1 rems []
    (r.1, r.2.and ⟨0, false, false, recs⟩)
  else r

/-- The inverse of alignment: each frame's mantissas take back their remainders, saturated into width `w` (03 R52). -/
def unalign (w : Nat) (cx : Bool) (r : PopRec) (l : List Item) : List Item × Fx :=
  let y := satItems w cx (mapMants cx l r.restore)
  (y.1.map fun x => { x with sc := x.sc.move (-(r.shift : Int)) (-(r.shift : Int)) },
    ⟨0, y.2 || l.any fun x => x.sc.moveSat (-(r.shift : Int)), false, []⟩)

/-- Every result, or the first that is none. -/
def gotAll {α : Type} (l : List (Got α)) : Got (List α) :=
  l.foldr (fun x a => match x, a with
    | .now v, .now r => .now (v :: r)
    | .now _, g => g
    | .wait, _ => .wait
    | .hold u va, _ => .hold u va
    | .last, _ => .last) (.now [])

/-- A result changed. -/
def Got.map {α β : Type} (f : α → β) : Got α → Got β
  | .now a => .now (f a)
  | .wait => .wait
  | .hold u va => .hold u va
  | .last => .last

/-- Undoes the alignment of the frames of moved data, from frame `t` on. -/
def State.unalignAll (s : State) (c : ClusterId) (cfg : Config) (r : Run) (n t w : Nat) (y : List Item) :
    Got (List Item × Fx) :=
  let o := cfg.outType (s.fabric c) n
  let parts := (List.range ((y.length + w - 1) / w)).map fun j =>
    let l := (y.drop (w * j)).take w
    (s.popFor c cfg r n (t + j) (perTok o.2 * l.length)).map fun p => unalign (typeMant o.1) o.2 p.1 l
  (gotAll parts).map fun l => l.foldl (fun a x => (a.1 ++ x.1, a.2.and x.2)) ([], Fx.none)

/-- The tokens that an XPERM moves, its frames aligned where a segment has several (09 R233). -/
def State.xpermIn (s : State) (c : ClusterId) (cfg : Config) (r : Run) (n : Nat) (l : List Item) : List Item × Fx :=
  let f := s.fabric c
  if cfg.mode == 0 && cfg.flog f n < cfg.xLogN n && !cfg.inverse f then
    alignFrames cfg n (r.node n).cnt (cfg.flog f n) (cfg.outType f n).2 l
  else (l, Fx.none)

/-- What a unit node makes of the tokens of one firing, unless it must wait, or a record or a factor cannot be read. -/
def State.unitFn (s : State) (c : ClusterId) (cfg : Config) (r : Run) (n : Nat) (l m : List Item) : Got (List Item × Fx) :=
  let f := s.fabric c
  let ns := r.node n
  let o := outEnv s c cfg r n
  let flog := cfg.flog f n
  let inv := cfg.inverse f
  let blk := s.factor c cfg n
  let pop := s.popFor c cfg r n ns.frame (perTok (cfg.inType f n).2 * l.length)
  match cfg.kind n with
  | 3 =>
    (match s.factorHold c cfg n (ns.cnt / cfg.sB n) (l.length / cfg.sB n) with
      | .now () =>
        (match cfg.mode with
          | 0 =>
            if inv then pop.map fun p => stageInv cfg n ns.cnt blk p.1 p.2 l
            else .now (stageBfp cfg n ns.cnt flog blk l)
          | 1 => .now (stageFloat cfg n ns.cnt o blk l)
          | _ => .now (stageModular cfg n ns.cnt r.modp r.modq blk l))
      | .wait => .wait
      | .hold u va => .hold u va
      | .last => .last)
  | 4 => .now (cfg.permute (cfg.w n 1) ⟨.err, Scale.zero⟩ l, Fx.none)
  | 5 =>
    let a := s.xpermIn c cfg r n l
    let y := strideSegment (cfg.xLogN n) (cfg.xLogM n) ⟨.err, Scale.zero⟩ a.1
    if cfg.mode == 0 && flog < cfg.xLogN n && inv then s.unalignAll c cfg r n ns.frame (2 ^ flog) y else .now (y, a.2)
  | _ =>
    if inv && cfg.records f n then pop.map fun p => pointInv cfg n o p.1 l
    else .now (pointUnit cfg n ns.cnt flog r.modp r.modq o l m)

/-- The bytes of tokens as a scratch region holds them, by offset; an error token writes none (07 R183). -/
def scratchBytes (o : OutEnv) (l : List Item) : List (Nat × List Byte) :=
  match typeGrist o.type with
  | some g =>
    let u := 16 / perTok o.cplx
    (List.range ((l.length + u - 1) / u)).filterMap fun j =>
      let b := (l.drop (u * j)).take u
      if b.any fun x => x.tok.isErr then none
      else some (g.bytes * j,
        toBytes g.bytes (gristBlock g { o with base := o.base + u * j } true (b.flatMap fun x => x.tok.comps o.cplx)).1)
  | none =>
    let eb := typeBits o.type / 8 * perTok o.cplx
    l.zipIdx.filterMap fun x => if x.1.tok.isErr then none else some (eb * x.2, tokBytes o.type o.cplx x.1.tok)

/-- Writes the segment that an XPERM has taken, aligned, to its scratch region, as far as that lies in the slice (09 R232)
(in part DEDUCED, log 48). -/
def State.scratch (s : State) (c : ClusterId) (cfg : Config) (r : Run) (n : Nat) (l : List Item) : State :=
  if cfg.kind n = 5 then
    (scratchBytes (outEnv s c cfg r n) (s.xpermIn c cfg r n l).1).foldl (fun (s : State) b =>
      if cfg.scratchAt n + b.1 + b.2.length ≤ 2 ^ 24 then s.writeSlice c true (cfg.scratchAt n + b.1) b.2 else s) s
  else s

/-- A firing of a unit node on `l` and `m`, already taken from its inputs: `ns` is the node afterwards. None while it must
wait. -/
def State.fireOn (s : State) (c : ClusterId) (cfg : Config) (r : Run) (n : Nat) (ns : NodeState) (l m : List Item) :
    Option State :=
  match s.unitFn c cfg r n l m with
  | .wait => none
  | .last => none
  | .hold sub va =>
    some (if sub = 0x16 ∧ !(cfg.inverse (s.fabric c)) then s.nodeFault c cfg r n sub va else s.leesFault c cfg r sub va)
  | .now (y, fx) =>
    let frames := if cfg.rev then max 1 (l.length / 2 ^ cfg.flog (s.fabric c) n) else 0
    let s := s.scratch c cfg r n l
    let s := s.putNode c { ns with cnt := ns.cnt + l.length, out := ns.out + y.length, frame := ns.frame + frames }
    some ((s.emit c cfg n false y).note c r.owner fx)

/-- A unit node with one input fires when a whole unit has arrived. -/
def State.fireUnit (s : State) (c : ClusterId) (cfg : Config) (r : Run) (n : Nat) : Option State :=
  let ns := r.node n
  let u := cfg.unit (s.fabric c) n
  if (ns.port 0).q.length < u then none
  else let (l, ns) := ns.take 0 u; s.fireOn c cfg r n ns l []

/-- A binary POINT pairs tokens in order; a token that can no longer find a partner gives an error token (09 R248 rule
8). -/
def State.firePair (s : State) (c : ClusterId) (cfg : Config) (r : Run) (n : Nat) : Option State :=
  let ns := r.node n
  let u := cfg.unit (s.fabric c) n
  let a := ns.port 0
  let b := ns.port 1
  let k := min a.q.length b.q.length
  let ended := (a.eos && a.q.length == k) || (b.eos && b.q.length == k)
  let go (k : Nat) : Option State :=
    let (l, ns) := ns.take 0 k
    let (m, ns) := ns.take 1 k
    s.fireOn c cfg r n ns l m
  if u ≤ k then go u
  else if !ended then none
  else if 0 < k then go k
  else if a.q.isEmpty && b.q.isEmpty then none
  else
    let i := if a.q.isEmpty then 1 else 0
    let (l, ns) := ns.take i 1
    let s := s.putNode c { ns with cnt := ns.cnt + 1, out := ns.out + 1 }
    some (s.emit c cfg n false (l.map fun x => { x with tok := .err }))

/-! ## Control operators (09 R248) -/

def State.fireSteer (s : State) (c : ClusterId) (cfg : Config) (r : Run) (n : Nat) : Option State :=
  let ns := r.node n
  let a := ns.port 0
  let b := ns.port 1
  match a.q with
  | [] => none
  | x :: _ =>
    let go (d : Bool) (ns : NodeState) : Option State :=
      let s := s.putNode c { ns with cnt := ns.cnt + 1, out := ns.out + 1, dirs := ns.dirs ++ [d] }
      some (s.emit c cfg n (!d) [x])
    let (_, ns1) := ns.take 0 1
    if cfg.ctrl n then
      (match b.q with
        | y :: _ => go (ctrlCond y.tok) (ns1.take 1 1).2
        | [] => if b.eos then go false ns1 else none)
    else go (steerCond cfg n (cfg.inType (s.fabric c) n).1 x.tok) ns1

/-- The order of a MERGE: the record of its STEER; a token that never arrives is skipped (in part DEDUCED, log 47). -/
def State.fireMerge (s : State) (c : ClusterId) (cfg : Config) (r : Run) (n : Nat) : Option State :=
  let ns := r.node n
  let dirs := (r.node (cfg.src n 2).1).dirs
  let t := ns.port 0
  let f := ns.port 1
  let ended := t.eos && f.eos
  let emit (k : Nat) : Option State :=
    let (l, ns) := ns.take k 1
    let s := s.putNode c { ns with cnt := ns.cnt + 1, out := ns.out + 1 }
    some (s.emit c cfg n false l)
  match dirs[ns.cnt]? with
  | some d =>
    if !(if d then t else f).q.isEmpty then emit (if d then 0 else 1)
    else if ended && !(t.q.isEmpty && f.q.isEmpty) then some (s.putNode c { ns with cnt := ns.cnt + 1 })
    else none
  | none => if !ended then none else if !t.q.isEmpty then emit 0 else if !f.q.isEmpty then emit 1 else none

/-- The nodes of the loop that a CARRY closes. -/
def Config.loop (cfg : Config) (n : Nat) : List Nat :=
  (cfg.ancestors n).filter fun m => (cfg.ancestors m).contains n

/-- The inputs that enter the loop of a CARRY from outside it. -/
def Run.entries (r : Run) (cfg : Config) (n : Nat) : List Port :=
  let lp := cfg.loop n
  lp.flatMap fun m => (cfg.consumes m).zipIdx.filterMap fun x =>
    if lp.contains x.1.1 then none else some ((r.node m).port x.2)

/-- The constant of a CARRY as a token. -/
def carryInit (cfg : Config) (r : Run) (t : Nat × Bool) (n : Nat) : Item :=
  let k := cfg.k n
  ⟨.val (valOfBits t.1 r.modp r.modq k) (if t.2 then valOfBits t.1 r.modp r.modq (k >>> typeBits t.1) else .int 0), Scale.zero⟩

/-- A CARRY emits its next token when the loop has work: a token waits where the loop is entered, and none of its own waits
(in part DEDUCED, log 47). -/
def State.fireCarry (s : State) (c : ClusterId) (cfg : Config) (r : Run) (n : Nat) : Option State :=
  let ns := r.node n
  let p := ns.port 0
  let ports := r.entries cfg n
  let k := ns.out
  let init := k % cfg.period n = 0
  let waiting := cfg.nodes.any fun m => (cfg.consumes m).zipIdx.any fun x =>
    x.1.1 == n && !((r.node m).port x.2).q.isEmpty
  if waiting || (!ports.isEmpty && !ports.any fun q => !q.q.isEmpty) then none
  else if k != 0 && p.q.isEmpty then none
  else
    let (l, ns) := if k = 0 then ([], ns) else ns.take 0 1
    let s := s.putNode c { ns with cnt := ns.cnt + l.length, out := k + 1 }
    some (s.emit c cfg n false (if init then [carryInit cfg r (cfg.outType (s.fabric c) n) n] else l))

/-- In part DEDUCED, log 47. -/
def State.fireInv (s : State) (c : ClusterId) (cfg : Config) (r : Run) (n : Nat) : Option State :=
  let ns := r.node n
  let v := ns.port 0
  match (ns.port 1).q with
  | [] => none
  | x :: _ =>
    let go (cur : Option Item) (ns : NodeState) : Option State :=
      let (_, ns) := ns.take 1 1
      let s := s.putNode c { ns with cnt := ns.cnt + 1, out := ns.out + 1, cur := cur }
      some (s.emit c cfg n false [cur.getD { x with tok := .err }])
    if ns.cnt % cfg.period n = 0 then
      (match v.q with
        | y :: _ => go (some y) (ns.take 0 1).2
        | [] => if v.eos then go (some { x with tok := .err }) ns else none)
    else go ns.cur ns

/-! ## XCHG (09 R259) -/

/-- The peer clusters of an XCHG. -/
def Config.peers (cfg : Config) (n : Nat) : List ClusterId :=
  (List.range (cfg.xP n)).map fun j => Fin.ofNat 128 (cfg.peerBase n + j)

/-- Sends one round: part `j` to cluster PEERBASE + j. Every peer must be running the same image
(in part DEDUCED, log 48). -/
def State.xchgSend (s : State) (c : ClusterId) (cfg : Config) (r : Run) (n : Nat) (l : List Item) (ns : NodeState) :
    Option State :=
  let peers := cfg.peers n
  let me := c.val - cfg.peerBase n
  let same (p : ClusterId) : Bool := match s.live p with | some (g, _) => g.lines == cfg.lines | none => false
  if peers.contains c && peers.all same then
    let s := s.putNode c { ns with cnt := ns.cnt + l.length }
    let _ := r
    some (peers.zipIdx.foldl (fun (s : State) p =>
      s.modRun p.1 fun q => { q with nodes := q.nodes.map fun x =>
        if x.id = n then
          { x with acc := (List.range peers.length).map fun i =>
              x.acc.getD i [] ++ (if i = me then (l.drop (cfg.blk n * p.2)).take (cfg.blk n) else []) }
        else x }) s)
  else none

/-- The rounds an XCHG of BFP data collects before it emits, so that it holds whole output frames
(in part DEDUCED, log 48). -/
def Config.xchgRounds (cfg : Config) (f : Fabric) (n : Nat) : Nat :=
  if cfg.mode = 0 then max 1 (2 ^ cfg.flog f n / (cfg.xP n * cfg.blk n)) else 1

/-- Emits rounds whose parts have all arrived, in the order of the senders (in part DEDUCED, log 48). -/
def State.xchgEmit (s : State) (c : ClusterId) (cfg : Config) (r : Run) (n rounds : Nat) : Option State :=
  let ns := r.node n
  let f := s.fabric c
  let b := cfg.blk n
  let p := cfg.xP n
  if rounds = 0 || (List.range p).any fun i => (ns.acc.getD i []).length < b * rounds then none
  else
    let l := (List.range rounds).flatMap fun k => (List.range p).flatMap fun i => ((ns.acc.getD i []).drop (b * k)).take b
    let cx := (cfg.outType f n).2
    let flog := cfg.flog f n
    let w := 2 ^ flog
    let frames := (l.length + w - 1) / w
    let y : Got (List Item × Fx) :=
      if cfg.mode != 0 then .now (l, Fx.none)
      else if cfg.inverse f then s.unalignAll c cfg r n ns.frame w l
      else
        .now ((List.range frames).foldl (fun (a : List Item × Fx) j =>
          let x := alignFrames cfg n (ns.out + w * j) flog cx ((l.drop (w * j)).take w)
          (a.1 ++ x.1, a.2.and x.2)) ([], Fx.none))
    match y with
    | .wait => none
    | .last => none
    | .hold sub va => some (s.leesFault c cfg r sub va)
    | .now (y, fx) =>
      let s := s.putNode c { ns with acc := ns.acc.map (·.drop (b * rounds)), out := ns.out + y.length,
                                     frame := ns.frame + (if cfg.rev then frames else 0) }
      some ((s.emit c cfg n false y).note c r.owner fx)

def State.fireXchg (s : State) (c : ClusterId) (cfg : Config) (r : Run) (n : Nat) : Option State :=
  let ns := r.node n
  let u := cfg.xP n * cfg.blk n
  let send := if (ns.port 0).q.length < u then none else
    let (l, ns) := ns.take 0 u
    s.xchgSend c cfg r n l ns
  match send with
  | some s => some s
  | none => s.xchgEmit c cfg r n (cfg.xchgRounds (s.fabric c) n)

/-! ## Generators -/

/-- PBOUND of a hart's task, in slots (08 Table 8.1) (DESIGN CHOICE, log 50). -/
def State.pboundOf (s : State) (h : HartId) : Nat :=
  match s.taskOf h with
  | some t => (match t.hdr with | some x => x.pbound | none => 0)
  | none => 0

/-- Whether a pre-emption of the program's owner waits for a drain point (09 R257, 14 R361); with PBOUND 0 the program is never
pre-empted there, and one with an IN without drain points only at its end: it runs on. -/
def State.draining (s : State) (cfg : Config) (r : Run) : Bool :=
  (s.hart r.owner).preempt.pend && r.gang.isSome && s.pboundOf r.owner != 0 &&
    cfg.nodes.all fun n => cfg.kind n != 1 || cfg.param n != 0

/-- Whether an IN stands at a drain point: at a multiple of 2^DPLOG elements (09 R257). -/
def State.atDrain (s : State) (c : ClusterId) (cfg : Config) (n : Nat) : Bool :=
  cfg.param n != 0 && (s.nodeHandle c cfg n).pos % 2 ^ cfg.param n == 0

/-- Every IN stands at a drain point or has ended, and every admitted token has left (09 R257). -/
def State.drained (s : State) (c : ClusterId) (cfg : Config) (r : Run) : Bool :=
  cfg.nodes.all fun n =>
    (cfg.kind n != 1 || (r.node n).fin || s.atDrain c cfg n) &&
      (cfg.kind n == 9 || (r.node n).ins.all fun p => p.q.isEmpty) && (r.node n).acc.all List.isEmpty

/-- Whether a node can do nothing until a token more is admitted: an IN stands at a drain point or has ended, and another has less
than it takes at once. -/
def State.starved (s : State) (c : ClusterId) (cfg : Config) (r : Run) (n : Nat) : Bool :=
  let f := s.fabric c
  let ns := r.node n
  let short (k u : Nat) : Bool := (ns.port k).q.length < u && !(ns.port k).eos
  ns.fin ||
    (match cfg.kind n with
      | 1 => s.atDrain c cfg n
      | 6 => if cfg.binary n then short 0 (cfg.unit f n) || short 1 (cfg.unit f n) else short 0 (cfg.unit f n)
      | 7 => short 0 1 || (cfg.ctrl n && short 1 1)
      | 8 => (s.fireMerge c cfg r n).isNone
      | 9 => (s.fireCarry c cfg r n).isNone
      | 0xA => short 1 1 || (ns.cnt % cfg.period n == 0 && short 0 1)
      | 0xB => short 0 (cfg.xP n * cfg.blk n) &&
          (List.range (cfg.xP n)).any fun i => (ns.acc.getD i []).length < cfg.blk n * cfg.xchgRounds f n
      | _ => short 0 (cfg.unit f n))

/-- Whether the INs have stopped where the admitted tokens cannot all leave: no drain point of the program, so that they go on to
the next multiple (09 R257) (in part DEDUCED, log 50). -/
def State.pastDrain (s : State) (c : ClusterId) (cfg : Config) (r : Run) : Bool :=
  !s.drained c cfg r && cfg.nodes.all (s.starved c cfg r)

/-- Whether an IN may admit another token now. -/
def State.admits (s : State) (c : ClusterId) (cfg : Config) (r : Run) (n : Nat) : Bool :=
  let h := s.nodeHandle c cfg n
  let idx := (s.indexers c 32 (cfg.handle n)).any fun j => (s.handleOf c j).held
  !(r.node n).fin && !h.held && !idx && !r.marking &&
    !(s.draining cfg r && s.atDrain c cfg n && !s.pastDrain c cfg r)

def State.fireIn (s : State) (c : ClusterId) (cfg : Config) (r : Run) (n : Nat) : Option State :=
  let k := cfg.handle n
  if !s.admits c cfg r n then none
  else
    match s.nextTok c r k with
    | (t, .now (x, sat)) =>
      let t := (s.indexers c 32 k).eraseDups.foldl (fun (t : State) j => t.advance c j) t
      let ns := r.node n
      let t := (t.advance c k).putNode c { ns with cnt := ns.cnt + 1, out := ns.out + 1 }
      some ((t.emit c cfg n false [x]).note c r.owner ⟨0, sat, false, []⟩)
    | _ => none

/-- An OUT fed by an IN of its own type writes each token's bits unchanged (15 R378). -/
def Config.direct (cfg : Config) (f : Fabric) (n : Nat) (d : StreamDesc) : Bool :=
  let m := (cfg.src n 0).1
  cfg.kind m == 1 && (match (f.handles[Fin.ofNat 32 (cfg.handle m)]).desc with | some x => x.type == d.type | none => false)

/-- The tokens of a frame as an OUT of a BFP type writes them, its scale, and what alignment raised: mantissas that come from an
IN stay as they are, under an exponent that is free where their own differ (15 R378) (in part DEDUCED, log 49). -/
def Config.outFrame (cfg : Config) (f : Fabric) (n : Nat) (d : StreamDesc) (pos : Nat) (l : List Item) :
    List Item × Scale × Fx :=
  if cfg.direct f n d then
    let sc := scaleOf l
    let e := if l.all fun x => x.sc.exp == sc.exp then sc.exp else (Config.mixedExp n pos).toInt
    (l, { sc with exp := e, maxmag := maxMant d.cplx l }, Fx.none)
  else
    let (y, fx) := alignItems false d.cplx l
    (y, { scaleOf y with maxmag := maxMant d.cplx y }, fx)

/-- What an OUT writes for the tokens of one firing in memory (in part DEDUCED, log 49). -/
def State.outPlan (s : State) (c : ClusterId) (cfg : Config) (r : Run) (n : Nat) (d : StreamDesc) (l : List Item) :
    List OutWrite × FFlags :=
  match typeGrist d.type with
  | some g =>
    let o := { outEnv s c cfg r n with type := d.type, cplx := d.cplx, base := (s.handleOf c (cfg.handle n)).pos }
    let toks := l.map (·.tok)
    let errs := (toks.filter Tok.isErr).length
    let b := if errs = 0 then gristBlock g o (cfg.direct (s.fabric c) n d) (toks.flatMap fun t => t.comps d.cplx) else (0, 0)
    ([⟨toks, errs, toBytes g.bytes b.1⟩], b.2)
  | none => (l.map fun x => ⟨[x.tok], x.tok.isErr.toNat, tokBytes d.type d.cplx x.tok⟩, 0)

/-- Writes the scale entry of the frame at element `e` (09 R233, R264). -/
def State.writeScale (s : State) (c : ClusterId) (r : Run) (h : Handle) (d : StreamDesc) (e : Nat) (sc : Scale) : State :=
  let (sl, o) := d.scaleAt c e
  let pa := cellarPa sl (o % 2 ^ 24)
  (s.setBytes pa ((sc.move h.bias 0).bytes (ofBytes (s.bytes pa 8)))).note c r.owner ⟨0, sc.moveSat h.bias, false, []⟩

/-- Sends tokens to a hart port (09 R249, R265). -/
def State.outPort (s : State) (c : ClusterId) (r : Run) (k : Nat) (d : StreamDesc) (l : List Tok) : State :=
  let errs := (l.filter Tok.isErr).length
  let e := (s.handleOf c k).pos
  let s := s.modHandle c k fun h => { h with port := h.port ++ l.map (tokBits d.type d.cplx) }
  ((s.checkToks c r d e l).passToks c r k l.length errs).modRun c fun r => { r with written := r.written + l.length - errs }

/-- An OUT moves the tokens `l`; a frame is written with its scale entry (09 R233). It waits or holds as its generator
does. -/
def State.outMove (s : State) (c : ClusterId) (cfg : Config) (r : Run) (n : Nat) (l : List Item) (ns : NodeState) :
    State × Got Unit :=
  let k := cfg.handle n
  let h := s.handleOf c k
  match h.desc with
  | none => (s, .wait)
  | some d =>
    let fr := if d.type ≤ 1 then cfg.outFrame (s.fabric c) n d h.pos l else (l, Scale.zero, Fx.none)
    let scaled (s : State) : State :=
      if d.type ≤ 1 ∧ (d.space = 3 ∨ h.pos < d.elems) then s.writeScale c r h d h.pos fr.2.1 else s
    let done (s : State) (fx : Fx) : State := ((scaled s).putNode c { ns with cnt := ns.cnt + l.length }).note c r.owner fx
    if d.space = 3 then
      if h.portFull then (s, .wait) else (done (s.outPort c r k d (fr.1.map (·.tok))) fr.2.2, .now ())
    else
      let plan := s.outPlan c cfg r n d fr.1
      match State.writeToks c r k d plan.1 s with
      | (t, .now ()) => (done t (fr.2.2.and (Fx.flag plan.2)), .now ())
      -- nothing is written while the unit cannot be written whole
      | (_, g) => (s, g)

/-- The element at which an OUT that would write the tokens `l` stops. -/
def State.outStops (s : State) (c : ClusterId) (cfg : Config) (r : Run) (n : Nat) (l : List Item) : Nat :=
  let h := s.nodeHandle c cfg n
  match h.desc with
  | none => h.pos
  | some d =>
    let fr := if d.type ≤ 1 then (cfg.outFrame (s.fabric c) n d h.pos l).1 else l
    ((State.writeToks c r (cfg.handle n) d (s.outPlan c cfg r n d fr).1 s).1.nodeHandle c cfg n).pos

def State.fireOut (s : State) (c : ClusterId) (cfg : Config) (r : Run) (n : Nat) : Option State :=
  let ns := r.node n
  let u := cfg.unit (s.fabric c) n
  if (s.nodeHandle c cfg n).held || (ns.port 0).q.length < u then none
  else
    let (l, ns) := ns.take 0 u
    match s.outMove c cfg r n l ns with
    | (s, .now ()) => some s
    | _ => none

/-! ## The node events -/

/-- The step of a node of one of the kinds, when the program runs, nothing downstream of it is held, and it is due. -/
def State.nodeStep (s : State) (c : ClusterId) (n kind : Nat) (go : Config → Run → Option State) : Out :=
  match s.live c with
  | some (cfg, r) =>
    if cfg.nodes.contains n && cfg.kind n == kind && !(r.node n).fin && !s.blocked c cfg n then .next ((go cfg r).getD s)
    else .next s
  | none => .next s

def execNodeIn (c : ClusterId) (n : Nat) (s : State) : Out := s.nodeStep c n 1 fun cfg r => s.fireIn c cfg r n
def execNodeOut (c : ClusterId) (n : Nat) (s : State) : Out := s.nodeStep c n 2 fun cfg r => s.fireOut c cfg r n
def execNodeStage (c : ClusterId) (n : Nat) (s : State) : Out := s.nodeStep c n 3 fun cfg r => s.fireUnit c cfg r n
def execNodePerm (c : ClusterId) (n : Nat) (s : State) : Out := s.nodeStep c n 4 fun cfg r => s.fireUnit c cfg r n
def execNodeXperm (c : ClusterId) (n : Nat) (s : State) : Out := s.nodeStep c n 5 fun cfg r => s.fireUnit c cfg r n
def execNodePoint (c : ClusterId) (n : Nat) (s : State) : Out :=
  s.nodeStep c n 6 fun cfg r => if cfg.binary n then s.firePair c cfg r n else s.fireUnit c cfg r n
def execNodeSteer (c : ClusterId) (n : Nat) (s : State) : Out := s.nodeStep c n 7 fun cfg r => s.fireSteer c cfg r n
def execNodeMerge (c : ClusterId) (n : Nat) (s : State) : Out := s.nodeStep c n 8 fun cfg r => s.fireMerge c cfg r n
def execNodeCarry (c : ClusterId) (n : Nat) (s : State) : Out := s.nodeStep c n 9 fun cfg r => s.fireCarry c cfg r n
def execNodeInv (c : ClusterId) (n : Nat) (s : State) : Out := s.nodeStep c n 0xA fun cfg r => s.fireInv c cfg r n
def execNodeXchg (c : ClusterId) (n : Nat) (s : State) : Out := s.nodeStep c n 0xB fun cfg r => s.fireXchg c cfg r n

/-! ## End of stream (09 R248 rule 7) -/

/-- Every input has ended and is empty. -/
def NodeState.dry (ns : NodeState) (k : Nat) : Bool :=
  (List.range k).all fun i => (ns.port i).eos && (ns.port i).q.isEmpty

/-- The last tokens of a unit node: padded, then end of stream. -/
def State.endUnit (s : State) (c : ClusterId) (cfg : Config) (r : Run) (n : Nat) : Option State :=
  let ns := r.node n
  let f := s.fabric c
  let p := ns.port 0
  if !p.eos || cfg.unit f n ≤ p.q.length then none
  else if p.q.isEmpty then some (s.close c cfg n)
  else
    let (l, ns) := ns.take 0 p.q.length
    (s.fireOn c cfg r n ns (padTo (cfg.inType f n).1 (cfg.padUnit n) l) []).map fun t =>
      -- a record or a factor that cannot be read holds the program
      if (cfg.nodes.any fun m => cfg.kind m ≤ 2 && (t.nodeHandle c cfg m).held) then t else t.close c cfg n

/-- The node passes end of stream when it is due. -/
def State.endNode (s : State) (c : ClusterId) (cfg : Config) (r : Run) (n : Nat) : Option State :=
  let ns := r.node n
  match cfg.kind n with
  | 1 =>
    if !s.admits c cfg r n then none
    else
      (match s.nextTok c r (cfg.handle n) with
        | (t, .last) => some ((t.modHandle c (cfg.handle n) fun h => { h with ended := true }).close c cfg n)
        | _ => none)
  | 2 =>
    let p := ns.port 0
    let fin (s : State) : State := (s.modHandle c (cfg.handle n) fun h => { h with ended := true }).close c cfg n
    if !p.eos || cfg.unit (s.fabric c) n ≤ p.q.length || (s.nodeHandle c cfg n).held then none
    else if p.q.isEmpty then some (fin s)
    else
      let (l, ns) := ns.take 0 p.q.length
      (match s.outMove c cfg r n l ns with
        | (t, .now ()) => some (fin t)
        | _ => none)
  | 7 => if ((ns.port 0).eos && (ns.port 0).q.isEmpty) then some (s.close c cfg n) else none
  | 8 =>
    if ns.dry 2 && (r.node (cfg.src n 2).1).fin then some (s.close c cfg n) else none
  | 9 =>
    let ports := r.entries cfg n
    let idle := (cfg.loop n).all fun m => m == n || (List.range (cfg.nsrc m)).all fun i => ((r.node m).port i).q.isEmpty
    if !ports.isEmpty && idle && ports.all fun q => q.eos && q.q.isEmpty then
      some ((s.putNode c (ns.setPort 0 { ns.port 0 with q := [] })).close c cfg n)
    else if (ns.port 0).eos && (ns.port 0).q.isEmpty then some (s.close c cfg n) else none
  | 0xA => if (ns.port 1).eos && (ns.port 1).q.isEmpty && (ns.port 0).eos then some (s.close c cfg n) else none
  | 0xB =>
    let u := cfg.xP n * cfg.blk n
    let p := ns.port 0
    if !p.eos || u ≤ p.q.length then none
    else if !p.q.isEmpty then
      let (l, ns) := ns.take 0 p.q.length
      s.xchgSend c cfg r n (padTo (cfg.inType (s.fabric c) n).1 u l) ns
    else if ns.acc.any fun a => !a.isEmpty then
      s.xchgEmit c cfg r n (ns.acc.foldl (fun m a => min m (a.length / cfg.blk n)) (cfg.xchgRounds (s.fabric c) n))
    else
      -- no peer has a part still to send
      let quiet := (cfg.peers n).all fun q => match s.live q with
        | some (g, x) => g.lines == cfg.lines && ((x.node n).port 0).eos && ((x.node n).port 0).q.isEmpty
        | none => true
      if quiet then some (s.close c cfg n) else none
  | 6 => if cfg.binary n then (if ns.dry 2 then some (s.close c cfg n) else none) else s.endUnit c cfg r n
  | _ => s.endUnit c cfg r n

def execEndOfStream (c : ClusterId) (n : Nat) (s : State) : Out :=
  match s.live c with
  | some (cfg, r) =>
    if cfg.nodes.contains n && !(r.node n).fin && !s.blocked c cfg n then .next ((s.endNode c cfg r n).getD s) else .next s
  | none => .next s

/-! ## Holds and faults (09 R253) -/

/-- The failure that holds the generator of handle `k` now: its subcause, element and address. An index stream's failure is
its own generator's. -/
def State.genFault (s : State) (c : ClusterId) (cfg : Config) (r : Run) (k : Nat) : Option (State × Nat × Nat × Word) :=
  cfg.nodes.findSome? fun n =>
    if (r.node n).fin then none
    else if cfg.kind n = 1 ∧ s.admits c cfg r n ∧ s.failing c r (cfg.handle n) = k then
      (match s.nextTok c r (cfg.handle n) with
        | (t, .hold sub va) => some (t, sub, (s.handleOf c k).pos, va)
        | _ => none)
    else if cfg.handle n != k then none
    else if cfg.kind n = 2 ∧ !(s.handleOf c k).held ∧ !((r.node n).port 0).q.isEmpty then
      let ns := r.node n
      let u := cfg.unit (s.fabric c) n
      let q := (ns.port 0).q
      if q.length < u && !(ns.port 0).eos then none
      else
        let (l, ns) := ns.take 0 u
        (match s.outMove c cfg r n l ns with
          | (t, .hold sub va) => some (t, sub, s.outStops c cfg r n l, va)
          | _ => none)
    else none

def execStreamGeneratorHold (c : ClusterId) (k : Fin 32) (s : State) : Out :=
  match s.live c with
  | some (cfg, r) =>
    (match s.genFault c cfg r k.val with
      | some (t, sub, e, va) => .next (t.holdGen c r.owner k.val sub e va)
      | none => .next s)
  | none => .next s

/-! ## The end of a program (09 R251, 11 R307, R308) -/

/-- The order in which records are written (11 R308). -/
def recBefore (a b : LeesRec) : Bool :=
  a.frame < b.frame || (a.frame == b.frame && (a.node < b.node || (a.node == b.node && (a.input || !b.input))))

/-- Inserts a record at its place. -/
def insertRec (x : LeesRec) : List LeesRec → List LeesRec
  | [] => [x]
  | y :: r => if recBefore y x then y :: insertRec x r else x :: y :: r

/-- Writes records from TOP while they fit: the state, TOP, and those left (in part DEDUCED, log 51). -/
def State.writeRecs (base len : Nat) : List LeesRec → Nat → State → State × Nat × List LeesRec
  | [], top, s => (s, top, [])
  | x :: r, top, s =>
    if len < top + x.data.length then (s, top, x :: r)
    else State.writeRecs base len r (top + x.data.length) (s.setBytes (base + top) x.data)

/-- The records of a forward program, or the position of an inverse one, reach the region (in part DEDUCED, log 51). -/
def State.flushLees (s : State) (c : ClusterId) (cfg : Config) (r : Run) : State :=
  let f := s.fabric c
  match cfg.leesNode f with
  | none => s
  | some (m, inv) =>
    let h := s.nodeHandle c cfg m
    match h.desc with
    | none => s
    | some d =>
      let (sl, o, len) := d.region c
      let base := cellarPa sl o
      if inv then
        let rn := cfg.recNodes f
        let frames := rn.foldl (fun a n => min a (r.node n).frame) (match rn with | n :: _ => (r.node n).frame | [] => 0)
        let top := (match s.popAll cfg f base ((List.range frames).flatMap (r.recShape cfg f rn)) (8 * h.lees) with
          | .now top => top
          | _ => 8 * h.lees)
        s.setNum base 8 top
      else
        let sorted := r.recs.foldl (fun l x => insertRec x l) []
        let (t, top, rest) := State.writeRecs base len sorted (8 * h.lees) s
        let t := (t.setNum base 8 top).modHandle c (cfg.handle m) fun h => { h with lees := top / 8 }
        let t := t.modRun c fun r => { r with recs := rest }
        if rest.isEmpty then t else t.leesFault c cfg r 0x0B 0

/-- Every OUT has passed end of stream and every node is idle (09 R251): an IN has sent its last element, and no token waits on a
node that has not ended: what an ended node's inputs still hold, a surplus value of INV or control token of STEER, is never
taken. -/
def Run.idle (r : Run) (cfg : Config) : Bool :=
  cfg.nodes.all fun n => (r.node n).fin ||
    (2 < cfg.kind n && ((r.node n).ins.all fun p => p.q.isEmpty) && (r.node n).acc.all List.isEmpty)

/-- In part DEDUCED, log 51. -/
def execProgramEnd (c : ClusterId) (s : State) : Out :=
  match s.live c with
  | some (cfg, r) =>
    if r.idle cfg && !(cfg.nodes.any fun n => cfg.kind n ≤ 2 && (s.nodeHandle c cfg n).held) then
      let s := if cfg.rev then s.flushLees c cfg r else s
      let left := (match (s.fabric c).run with | some r => !r.recs.isEmpty | none => false)
      .next (if cfg.rev && left then s else s.modRun c fun r => { r with ended := true })
    else .next s
  | none => .next s

/-! ## Drain points and the pre-empt marker (09 R256 to R258) -/

/-- The region is frozen at a drain point, and the request can be granted; PBLATE when it waited beyond PBOUND
(DESIGN CHOICE, log 50). -/
def execDrainPoint (c : ClusterId) (s : State) : Out :=
  match s.live c with
  | some (cfg, r) =>
    if s.draining cfg r && s.drained c cfg r then
      let late := s.pboundOf r.owner < s.slot - (s.hart r.owner).preempt.since
      let s := if late then s.modHart r.owner fun x => { x with sstatus := x.sstatus ||| 0x800#64 } else s
      .next (s.freeze c)
    else .next s
  | none => .next s

/-- The marker leaves a node: on every output, once it has arrived on every input and nothing complete waits before it
(09 R258). -/
def execPreemptMarker (c : ClusterId) (n : Nat) (s : State) : Out :=
  match s.live c with
  | some (cfg, r) =>
    let ns := r.node n
    let quiet (k : Nat) : Bool := match k with
      | 2 => (s.fireOut c cfg r n).isNone
      | 3 => (s.fireUnit c cfg r n).isNone
      | 4 => (s.fireUnit c cfg r n).isNone
      | 5 => (s.fireUnit c cfg r n).isNone
      | 6 => if cfg.binary n then (s.firePair c cfg r n).isNone else (s.fireUnit c cfg r n).isNone
      | 7 => (s.fireSteer c cfg r n).isNone
      | 8 => (s.fireMerge c cfg r n).isNone
      | 9 => (s.fireCarry c cfg r n).isNone
      | 0xA => (s.fireInv c cfg r n).isNone
      | 0xB => (s.fireXchg c cfg r n).isNone
      | _ => true
    let arrived := if cfg.kind n = 9 then (r.entries cfg n).all fun p => p.marked || p.eos
      else (List.range (cfg.consumes n).length).all fun i => (ns.port i).marked || (ns.port i).eos
    if cfg.nodes.contains n && r.marking && !ns.marked && arrived && quiet (cfg.kind n) then
      let s := s.putNode c { ns with marked := true }
      .next ([false, true].foldl (fun (s : State) f => s.feed c cfg n f fun p => { p with marked := true }) s)
    else .next s
  | none => .next s

/-- The marker has reached every OUT. -/
def Run.allMarked (r : Run) (cfg : Config) : Bool := cfg.nodes.all fun n => cfg.kind n != 2 || (r.node n).marked

end Sys2Proof.Machine
end

