-- ==== Sys2Proof/Machine/Issue.lean ====
section
/-!
DEFINITION. What a hart does before an instruction runs: asynchronous causes (14 R359, R361), fetch (04 R84, 14 R357),
the holds and the latch of the scheduling fields (02 R26 to R30).
-/

namespace Sys2Proof.Machine

/-! ## Asynchronous causes -/

/-- Whether asynchronous causes are enabled (14 R361). -/
def Hart.asyncOn (x : Hart) : Bool := !x.status.sys || x.status.ie

/-- The asynchronous cause a hart would take next, in the order of 14 Table 14.4. -/
inductive Async where
  | pending (p : Pending)
  | preempt
  | hostInterrupt
  | event
  deriving DecidableEq, Repr

/-- The first pending cause in the order of Table 14.4 among 0x0E, 0x16, 0x17, 0x10, 0x15. -/
def firstPending (l : List Pending) : Option Pending :=
  [0x0E#8, 0x16#8, 0x17#8, 0x10#8, 0x15#8].findSome? fun c => l.find? fun p => p.cause == c

/-- The cause to take at this boundary (14 R359, R361). -/
def State.nextAsync (s : State) (h : HartId) : Option Async :=
  let x := s.hart h
  if !x.asyncOn then none
  else match firstPending x.pend with
    | some p => some (.pending p)
    | none =>
      if x.preempt.pend && !s.mustDrain h then some .preempt
      else if x.hipend != 0 then some .hostInterrupt
      else if x.status.eve && x.evpend != 0 then some .event
      else none

/-- Where an asynchronous cause of a hart resumes: the instruction to be issued next, which a withdrawn instruction is
(14 R356, R361). -/
def State.takeAsync (s : State) (h : HartId) (cause : Nat) (eidx eaddr : Word) (suspend : Bool) : State :=
  raise (s.withdraw h) h cause (s.hart h).pc eidx eaddr suspend

/-- A pending cause of Table 14.4's first five is taken (08 R222). -/
def State.takePending (s : State) (h : HartId) (p : Pending) : State :=
  let s := s.modHart h fun x => { x with pend := x.pend.erase p }
  s.takeAsync h p.cause.toNat p.eidx p.eaddr p.suspends

/-! ## Fetch -/

/-- What the fetch of a word gives. -/
inductive Fetched where
  | word (w : IWord)
  | bad (cause : Nat)
  | fault (x : Fault)
  | refuse (x : Refusal)
  deriving DecidableEq, Repr

/-- Fetches the word at a hart's pc (02 R17, 04 R84): translation and X, at task level T. A frame of control space that passes
them gives no word: the spec states none there (in part DEDUCED, log 19). -/
def fetch (s : State) (h : HartId) : State × Fetched :=
  let pc := (s.hart h).pc
  match checkAccess s (s.ctxOf h) .fetch pc with
  | (s, .bad c _) => (s, .bad c)
  | (s, .ok pa _) =>
    match spaceOf pa with
    | .none => (s, .fault (.noSuchAddress pa))
    | .control => (s, .refuse (.unnamedControlWord pa))
    | _ => if s.poisoned pa then (s, .bad 0x16) else (s, .word (wordOfBytes (s.bytesFor h pa 16)))

/-- The fetch at TVEC faults: the hart stops with CAUSE and EPC (14 R357). -/
def Hart.stopAtHandler (x : Hart) (cause : Nat) : Hart :=
  { x with run := .stopped, atHandler := false, tr := { x.tr with cause := BitVec.ofNat 8 cause, epc := align16 x.pc } }

/-! ## Scheduling fields -/

/-- Entries of a completion counter (02 R28). -/
def Hart.entries (x : Hart) (k : BitVec 2) : Nat := x.cc[k.toFin].length

/-- HL holds the instruction, so that it is not hint-ready (02 R27). -/
def Hart.hlHolds (x : Hart) (n : Hints) : Bool :=
  match n.hl.toNat with
  | 0 => false
  | 7 => x.cc.toList.any fun l => !l.isEmpty
  | k => x.entries n.hk ≥ k

/-- What keeps the instruction from issuing (02 R27): the hold of HL, or a full counter, which is a hazard. -/
def Hart.holds (x : Hart) (n : Hints) : Option WaitFor :=
  if x.hlHolds n then some .hint else if n.ce && x.entries n.ck ≥ 16 then some .hazard else none

/-- HL holds the instruction that hart `h` is to issue next. -/
def State.hlHolds (s : State) (h : HartId) : Bool :=
  match fetch s h with
  | (_, .word w) => (s.hart h).hlHolds (hintsOf w)
  | _ => false

/-- The kind of register an operand field names; none for a weight slot and for no operand. -/
def latchKind (k : Kind) : Option LatchKind :=
  match k with
  | .scalar => some .scalar
  | .vector => some .vector
  | .mask => some .mask
  | .acc => some .acc
  | .handle => some .handle
  | .queue => some .queue
  | _ => none

/-- The operands that a form names and does not read, by their KEEP codes: destinations in the field of a source, and fields of
the entry's other forms. Undo forms read D and write A (11 R304). -/
def unreadOperands (i : Instr) : List Nat :=
  match i with
  | .leaPc _ => [1, 2]
  | .mset f => if f.modField 44 42 ≤ 1 then [1] else []
  | .vchain f => if f.x.getLsbD 0 then [1] else []
  | .modmul f => if f.modField 43 42 ≤ 1 then [3] else []
  | .modadd f => if f.modField 43 42 ≤ 1 then [3] else []
  | .tlbinv f => (match f.modField 43 42 with | 0 => [1, 2] | 1 => [1] | 2 => [2] | _ => [])
  | .vsetl _ => [3]
  | .mtolist _ => [3]
  | .vldff _ => [3]
  | .qtry _ => [3]
  | .sext _ => [3]
  | .kquery _ => [3]
  | .unadd _ => [1]
  | .unsub _ => [1]
  | .unmul _ => [1]
  | .unfma _ => [1]
  | .unnarrow _ => [1]
  | .unshr _ => [1]
  | .unrelu _ => [1]
  | .unscale _ => [1]
  | .uncvt _ => [1]
  | _ => []

/-- The register a KEEP names; none when the instruction does not read the operand as a register (02 R30). A latch holds one
register: of a group, the first. B is a scalar where MOD[47] makes it one (05 R108, R112)
(in part DEDUCED, log 15). -/
def keepOperand (i : Instr) (r : Row) : Option Latch :=
  let f := r.f
  let pick (k : Kind) (v : BitVec 5) : Option Latch := (latchKind k).map fun x => ⟨x, v.toNat⟩
  if (unreadOperands i).contains f.hints.keep.toNat then none
  else match f.hints.keep.toNat with
  | 1 => pick r.e.a f.a
  | 2 => if f.immB then none else pick (if r.e.immB && r.e.b == .vector && f.scalarB then .scalar else r.e.b) f.b
  | 3 => pick r.e.c f.c
  | _ => none

/-- The latch that KEEP asks for (02 R30). -/
def Hart.loadLatch (x : Hart) (i : Instr) : Hart :=
  match i.row.bind (keepOperand i) with
  | none => x
  | some l => { x with latch := some l }

/-- The scheduling fields of an instruction. -/
def hintsOfInstr (i : Instr) : Hints := match i.row with | some r => r.f.hints | none => Hints.none

/-- The hart as its next instruction issues: it runs, and its latch is loaded. -/
def State.prepare (s : State) (h : HartId) (i : Instr) : State :=
  s.modHart h fun x => { (x.loadLatch i) with run := .running, atHandler := false }

/-- The entries that have left from the oldest end (02 R28). -/
def dropDone (l : List Nat) : List Nat := l.dropWhile (· == 0)

/-- The hart once its instruction has run: what held the instruction counts for no later one, unless a hazard still holds it. -/
def Hart.settled (x : Hart) : Hart := if x.run = .waiting .hazard then x else { x with mis := MisHint.none }

/-- The hint-audit record (02 Table 2.6). -/
def auditWord (n : Hints) (r : AuditRecord) : Word :=
  BitVec.ofNat 64 (n.gap.toNat + r.gapExp.toNat <<< 3 + n.hk.toNat <<< 6 + n.hl.toNat <<< 8 + r.hkExp.toNat <<< 11 +
    r.hlExp.toNat <<< 13 + r.cycles.toNat <<< 16 + r.kind.toNat <<< 24)

/-- The hart audits hints, and the instruction it is to issue next has been held: a mis-hint (02 R32). -/
def Hart.misHinted (x : Hart) : Bool := x.status.audit && (x.mis.held != 0 || x.mis.hlHeld != 0)

/-- The record of that mis-hint: an under-hint when a hazard has held the instruction. GAPEXP, HKEXP and HLEXP rest on
latencies and are free (DESIGN CHOICE, log 4 and 7). -/
def Hart.auditRecord (x : Hart) (draw : Nat) : AuditRecord :=
  { kind := x.mis.held == 0
    cycles := BitVec.ofNat 8 (min 255 (if x.mis.held = 0 then x.mis.hlHeld else x.mis.held))
    gapExp := (Config.auditHint draw).extractLsb' 0 3
    hkExp := (Config.auditHint draw).extractLsb' 3 2
    hlExp := (Config.auditHint draw).extractLsb' 5 3 }

/-- Hint audit before the instruction issues (02 R32). -/
def State.auditTrap (s : State) (h : HartId) (n : Hints) : State :=
  { s.takeAsync h 0x1D 0 (auditWord n ((s.hart h).auditRecord s.freeCtr)) false with freeCtr := s.freeCtr + 1 }

/-- Adds the entry that CE asks for, once the instruction has run (02 R26, R28). Its release point is reached at once unless
it is a store whose RDUP elements wait in the store buffer (06 R142). A hart that waits or has entered a handler
adds none. -/
def State.addEntry (s0 s : State) (h : HartId) (n : Hints) : State :=
  let s := s.modHart h Hart.settled
  let x := s.hart h
  if !n.ce || x.atHandler || (match x.run with | .waiting _ => true | _ => false) then s
  else
    let old := s.storeBuf.take s0.storeBuf.length
    let new := s.storeBuf.drop s0.storeBuf.length
    let fresh := new.any fun (e : HeldStore) => !e.plain
    let mark := if fresh then s.copySeq + 1 else 0
    let s := if fresh then
        { s with copySeq := s.copySeq + 1,
                 storeBuf := old ++ new.map fun (e : HeldStore) => if e.plain then e else { e with mark := mark } }
      else s
    s.modHart h fun x => { x with cc := x.cc.set n.ck.toFin (dropDone (x.cc[n.ck.toFin] ++ [mark])) }

end Sys2Proof.Machine
end

