-- ==== Sys2Proof/Machine/Fabric.lean ====
section
/-!
DEFINITION. Class 0x6: stream instructions (09 R247, R250, R251, R255, R258, R261 to R266), and the events of configurations,
faults and booked groups (R247, R250, R253).
-/

namespace Sys2Proof.Machine

/-- A Cellar locator operand (09 R261): cause 0x01 for a nonzero bit in [63:32], 0x04 for an offset that is no multiple
of `al`. -/
def withLocator (s : State) (opc : BitVec 12) (f : Fields) (al : Nat) (v : Word) (k : ClusterId × Nat → Eff) : Eff :=
  if wbits v 63 32 ≠ 0 then illegalWord s opc f
  else
    let l := locator s.cur.cluster v.toNat
    if l.2 % al ≠ 0 then .trap s { cause := 0x04, eaddr := v } else k l

/-- Cause 0x01 with a number of its own in EADDR (09 R244, R246, R383). -/
def badAt (s : State) (n : Nat) : Eff := .trap s { cause := 0x01, eaddr := BitVec.ofNat 64 n }

/-- Whether generator `j` gives handle `k` its indices, itself or through another. -/
def Fabric.indexes (f : Fabric) : Nat → Nat → Nat → Bool
  | 0, _, _ => false
  | fuel + 1, k, j =>
    match (f.handles[Fin.ofNat 32 k]).desc with
    | some d => d.space == 1 && (d.ihandle == j || Fabric.indexes f fuel d.ihandle j)
    | none => false

/-- The handle is used by the running configuration. -/
def Fabric.uses (f : Fabric) (k : Nat) : Bool :=
  f.running &&
    (match f.active with
      | some cfg => cfg.nodes.any fun n => cfg.kind n ≤ 2 && (cfg.handle n == k ||
          f.indexes 32 (cfg.handle n) k)
      | none => false)

/-- NLINE is legal and the image ends within its slice (09 R262). -/
def State.imageFits (s : State) (l : ClusterId × Nat) : Bool :=
  let n := s.imageLines (cellarPa l.1 l.2)
  n ≤ 2048 && l.2 + 64 * n ≤ 2 ^ 24

/-- Reads of the own Cellar by the fabric: they wait for copies of their bytes, and take 0x16 on a poisoned line, with its physical
address, since a locator names no virtual one (07 R179, 14 R367). -/
def withRuns (s : State) (l : List (Nat × Nat)) (k : Eff) : Eff :=
  if l.any fun x => s.ownedIn x.1 x.2 || s.absentIn x.1 x.2 then .wait s .copy
  else
    match l.findSome? fun x => s.poisonFrom x.1 x.2 with
    | some pa => .trap s { cause := 0x16, eaddr := BitVec.ofNat 64 pa }
    | none => k

/-- The bytes of the image at a physical address. -/
def State.imageRun (s : State) (pa : Nat) : Nat × Nat := (pa, max 1 (s.imageLines pa) * 64)

/-- Reading an image: its header, its length (09 R262), and its bytes. -/
def withImage (s : State) (opc : BitVec 12) (f : Fields) (l : ClusterId × Nat) (k : Nat → Eff) : Eff :=
  let pa := cellarPa l.1 l.2
  withRuns s [(pa, 64)] (if !s.imageFits l then illegalWord s opc f else withRuns s [s.imageRun pa] (k pa))

/-- Loading reads the resident factor tables too (09 R247). -/
def withTables (s : State) (cfg : Config) (k : Eff) : Eff := withRuns s (cfg.tableRuns s.cur.cluster) k

def execSprog (f : Fields) (s : State) : Out :=
  commit (withLocator s 0x600 f 64 (s.rs f.a) fun l => withImage s 0x600 f l fun pa =>
    let c := s.cur.cluster
    let cfg := s.loadConfig c pa
    match cfg.bad with
    | some n => badAt s n
    | none => withTables s cfg <| .done (s.modFabric c fun x => { x with shadow := some cfg, loading := none }))

/-- SSWAP: a drain point of the whole program, then the image named becomes active (09 R247, R262)
(in part DEDUCED, log 44). -/
def execSswap (f : Fields) (s : State) : Out :=
  commit (withLocator s 0x601 f 64 (s.rs f.a) fun l =>
    let c := s.cur.cluster
    let x := s.fabric c
    let pa := cellarPa l.1 l.2
    if x.running then .wait s .other
    else
      let swap (cfg : Config) : Eff :=
        match cfg.bad with
        | some n => badAt s n
        | none => withTables s cfg <| .done (s.modFabric c fun y =>
            { y with active := some cfg, shadow := y.active, loading := if y.loading = some pa then none else y.loading })
      match x.shadow with
      | some cfg => if cfg.loc = pa ∧ x.loading ≠ some pa then swap cfg
                    else withImage s 0x601 f l fun pa => swap (s.loadConfig c pa)
      | none => withImage s 0x601 f l fun pa => swap (s.loadConfig c pa))

def execSpref (f : Fields) (s : State) : Out :=
  commit (withLocator s 0x602 f 64 (s.rs f.a) fun l =>
    withRuns s [(cellarPa l.1 l.2, 64)] (
      if !s.imageFits l then illegalWord s 0x602 f
      else .done (s.modFabric s.cur.cluster fun x => { x with loading := some (cellarPa l.1 l.2) })))

/-- The prefetcher has loaded its image; an invalid one is marked (09 R246, R247). It waits for copies of the bytes it reads, and
one that cannot be read for poison is not loaded, so that the SSWAP that names it loads it cold and takes 0x16
(in part DEDUCED, log 44). -/
def execPrefetchLoadComplete (c : ClusterId) (s : State) : Out :=
  match (s.fabric c).loading with
  | some pa =>
    let cfg := s.loadConfig c pa
    let runs := s.imageRun pa :: (if cfg.bad.isSome then [] else cfg.tableRuns c)
    if runs.any fun x => s.ownedIn x.1 x.2 || s.absentIn x.1 x.2 then .next s
    else
      let readable := (runs.findSome? fun x => s.poisonFrom x.1 x.2).isNone
      .next (s.modFabric c fun x => { x with shadow := if readable then some cfg else x.shadow, loading := none })
  | none => .next s

/-! ## Binding -/

/-- Reads `n` words of 8 bytes from `va` up, each as LD does, so that the first failing one is reported. -/
def readDesc : Nat → Word → State → (State → Nat → Eff) → Eff
  | 0, _, s, k => k s 0
  | n + 1, va, s, k => scalarLoad s 8 va fun s v => readDesc n (va + 8) s fun s r => k s (v + r * 2 ^ 64)

/-- The handle a descriptor makes; V = 0 leaves it unbound (09 R242). -/
def Handle.bind (d : StreamDesc) : Handle := { Handle.reset with desc := if d.valid then some d else none }

/-- In part DEDUCED, log 44. -/
def execSbind (f : Fields) (s : State) : Out :=
  let c := s.cur.cluster
  let k := f.d.toNat
  commit (
    if (s.fabric c).uses k then illegalWord s 0x603 f
    else readDesc 8 (s.rs f.a) s fun s v =>
      let d : StreamDesc := BitVec.ofNat 512 v
      if d.valid && !d.ok c then badAt s k else .done (s.setMyHandle k (Handle.bind d)))

def execSunbind (f : Fields) (s : State) : Out :=
  let c := s.cur.cluster
  commit (if (s.fabric c).uses f.d.toNat then illegalWord s 0x604 f
    else .done (s.setMyHandle f.d.toNat Handle.reset))

/-! ## Running -/

/-- PE groups that a hart holds in dense mode (10 Table 10.1, R270). -/
def Hart.denseGroups (x : Hart) : BitVec 16 :=
  if x.mxcfg.getLsbD 20 then
    BitVec.ofNat 16 ((2 ^ ((x.mxcfg.toNat >>> 4) % 16 + 1) - 1) <<< (x.mxcfg.toNat % 16))
  else 0

/-- The harts of a cluster. -/
def hartsOf (c : ClusterId) : List HartId := (List.finRange 4).map fun k => hartOf c k

/-- PE groups of a cluster that a program, running and not frozen, or dense mode holds, but for those of hart `but`
(in part DEDUCED, log 26). -/
def State.heldGroups (s : State) (c : ClusterId) (but : Option HartId) : BitVec 16 :=
  let run : BitVec 16 := (match (s.fabric c).run with | some r => if r.ended || r.frozen != .no then 0 else r.groups | none => 0)
  let resting (h : HartId) : Bool := (match s.taskOf h with | some t => t.st != .running | none => false)
  (hartsOf c).foldl (fun a h => if some h = but || resting h then a else a ||| (s.hart h).denseGroups) run

/-- The PE group of a cluster as a resource (08 Table 8.4). -/
def groupRes (c : ClusterId) (g : Nat) : Resource := (0, c.val * 32 + g)

/-- Whether the running hart can take PE groups: claimed now by its gang, or for a free hart without a booked occurrence
within the horizon; and held by no other (09 R250, 10 R270). -/
def State.canTake (s : State) (groups : BitVec 16) (held : BitVec 16) : Bool :=
  let c := s.cur.cluster
  groups &&& held == 0 &&
    (List.range 16).all fun g => !groups.getLsbD g ||
      (if s.me.gang.isSome then s.claimed s.cur (groupRes c g) else !s.occursAhead (groupRes c g))

/-- Every IN and OUT has a bound handle of its direction. -/
def Config.bound (cfg : Config) (f : Fabric) : Bool :=
  cfg.nodes.all fun n => cfg.kind n > 2 ||
    (match (f.handles[Fin.ofNat 32 (cfg.handle n)]).desc with | some d => d.out == (cfg.kind n == 2) | none => false)

/-- The handles that a program starts: those of its INs and OUTs, and of their indices. -/
def State.startNames (s : State) (c : ClusterId) (cfg : Config) : List Nat :=
  (cfg.nodes.filter fun n => cfg.kind n ≤ 2).flatMap fun n => cfg.handle n :: s.indexers c 32 (cfg.handle n)

/-- The TOP words that starting a program reads (11 R307, R309). -/
def State.topRuns (s : State) (c : ClusterId) (cfg : Config) : List (Nat × Nat) :=
  (s.startNames c cfg).filterMap fun k =>
    match (s.handleOf c k).desc with
    | some d => if d.rev then let l := d.region c; some (cellarPa l.1 l.2.1, 8) else none
    | none => none

/-- The handles of a program started: positions begin again (09 R262, start every IN) (in part DEDUCED, log 44). -/
def State.startHandles (s : State) (c : ClusterId) (cfg : Config) : State :=
  (s.startNames c cfg).foldl (fun (s : State) k => s.modHandle c k fun h =>
    let top := (match h.desc with
      | some d => if d.rev then let l := d.region c; (s.word (cellarPa l.1 l.2.1)).toNat / 8 else h.lees
      | none => h.lees)
    { h with pos := 0, ended := false, held := false, passed := 0, errs := 0, lees := top }) s

/-- Whether a program rounds under the header's mode: in float mode, and in BFP mode a POINT CVT (03 R52, R58, 09 R236). -/
def Config.rounds (cfg : Config) : Bool :=
  cfg.mode == 1 || (cfg.mode == 0 && cfg.nodes.any fun n => cfg.kind n == 6 && cfg.pOp n == 13)

def execSrun (f : Fields) (s : State) : Out :=
  let c := s.cur.cluster
  let x := s.fabric c
  commit (
    match x.active with
    | none => illegalWord s 0x605 f
    | some cfg =>
      if x.running || cfg.bad.isSome || !cfg.bound x || (cfg.mode == 2 && !s.me.sstatus.getLsbD 2) ||
          (cfg.rev && (cfg.leesNode x).isNone) || !cfg.scratchOk x then illegalWord s 0x605 f
      else
        match typeFault cfg x with
        | some n => badAt s n
        | none =>
          if !s.canTake cfg.groups (s.heldGroups c none) then
            if s.me.gang.isSome then illegalWord s 0x605 f else .done (s.ws f.d (failCode 1))
          else withRuns s (s.topRuns c cfg) (
            let h := s.me
            let s := (s.drainStores s.cur).startHandles c cfg
            let run : Run :=
              { owner := s.cur, gang := h.gang, groups := cfg.groups,
                nodes := cfg.nodes.map fun n => NodeState.start n (cfg.nsrc n), env := h.fenv cfg.rm, rounds := cfg.rounds, modp := h.modp.toNat,
                modq := h.modq.toNat, ctx := s.ctx, written := 0, ovf := false, ended := false, frozen := .no,
                marking := false, recs := [] }
            .done ((s.modFabric c fun y => { y with run := some run }).ws f.d 0)))

/-- SDRAIN: the owner waits for the end; the trap of 09 R238 comes after completion (in part DEDUCED, log 44). -/
def execSdrain (f : Fields) (s : State) : Out :=
  let c := s.cur.cluster
  let x := s.fabric c
  commit (
    match x.run with
    | none => illegalWord s 0x606 f
    | some r =>
      if r.owner ≠ s.cur then illegalWord s 0x606 f
      else if !r.ended then .wait s .drain
      else
        let s := (s.modFabric c fun y => { y with run := none }).modMe fun h =>
          let h := h.ws f.d (BitVec.ofNat 64 r.written)
          if r.rounds then h.stepSeed r.env.mode else h
        let w := s.me.sstatus
        if r.ovf && w.getLsbD 1 then
          .trap s { cause := 0x10, eaddr := BitVec.ofNat 64 (wbits w 63 40 * 2 ^ 32 + wbits w 39 16), next := true }
        else .done s)

def execSstat (f : Fields) (s : State) : Out :=
  let h := s.myHandle f.a.toNat
  commit (.done (s.ws f.d (BitVec.ofNat 64 (h.passed % 2 ^ 32 + h.ended.toNat <<< 32 + h.held.toNat <<< 33 +
    h.desc.isSome.toNat <<< 34 + h.errs <<< 40))))

def execSstatCfg (f : Fields) (s : State) : Out :=
  let x := s.fabric s.cur.cluster
  let frozen : Bool := (match x.run with | some r => !r.ended && r.frozen != Frozen.no | none => false)
  let own := (match x.run with | some r => r.owner.val | none => 0)
  let ok (c : Option Config) : Nat := (match c with | some c => c.bad.isNone | none => false).toNat
  commit (.done (s.ws f.d (BitVec.ofNat 64 (ok x.active + x.running.toNat <<< 1 + ok x.shadow <<< 2 +
    x.loading.isSome.toNat <<< 3 + frozen.toNat <<< 4 + (own / 4) <<< 5 + (own % 4) <<< 12))))

/-! ## Changing a configuration in place (09 R263) -/

/-- The configuration that STWID and SPATCH name; none where they may not. -/
def Fabric.target (x : Fabric) (sh : Bool) : Option Config :=
  if sh then x.shadow else if x.running then none else x.active

def Fabric.setTarget (x : Fabric) (sh : Bool) (c : Config) : Fabric :=
  if sh then { x with shadow := some c } else { x with active := some c }

def execStwid (f : Fields) (s : State) : Out :=
  let c := s.cur.cluster
  let n := f.immField 6 0
  let sh := f.modBit 42
  commit (
    match (s.fabric c).target sh with
    | none => illegalWord s 0x608 f
    | some cfg =>
      if cfg.bad.isSome || !cfg.nodes.contains n || cfg.kind n != 3 || !cfg.resident n then illegalWord s 0x608 f
      else
        withRuns s [(cellarPa c (cfg.sFtab n), cfg.sNb n * cfg.blockBytes n)] <|
          let t := cfg.tables.filter (fun t => t.1 != n) ++ [(n, s.readTable c cfg n)]
          .done (s.modFabric c fun x => x.setTarget sh { cfg with tables := t }))

def execSpatch (f : Fields) (s : State) : Out :=
  let c := s.cur.cluster
  let n := f.immField 6 0
  let k := f.immField 10 8
  let sh := f.modBit 42
  commit (
    match (s.fabric c).target sh with
    | none => illegalWord s 0x60B f
    | some cfg =>
      let line := setBits (cfg.line n) (64 * k) 64 (s.rs f.a).toNat
      let new := { cfg with lines := cfg.lines.set n line }
      if cfg.bad.isSome || k == 0 || !cfg.nodes.contains n || new.firstBad.isSome then illegalWord s 0x60B f
      else .done (s.modFabric c fun x => x.setTarget sh new))

/-! ## Moduli and exponent bias (09 R264) -/

/-- No divisor from `d` on, among `k` candidates, up to the root. -/
def noDivisor (n : Nat) : Nat → Nat → Bool
  | 0, _ => true
  | k + 1, d => if n < d * d then true else if n % d = 0 then false else noDivisor n k (d + 1)

/-- Primality of a number below 2^31. -/
def isPrime31 (n : Nat) : Bool := 2 ≤ n && noDivisor n 46341 2

def execSmod (f : Fields) (s : State) : Out :=
  let p := (s.rs f.a).toNat
  let q := (s.rs f.b).toNat
  let n := (s.rs f.c).toNat
  let x := s.fabric s.cur.cluster
  let mine := x.running && (match x.run, x.active with | some r, some cfg => r.owner == s.cur && cfg.mode == 2 | _, _ => false)
  commit (
    if p ≥ 2 ^ 31 ∨ q ≥ 2 ^ 31 ∨ p = q ∨ n = 0 ∨ !isPrime31 p ∨ !isPrime31 q ∨ (p - 1) % n ≠ 0 ∨ (q - 1) % n ≠ 0 ∨ mine then
      illegalWord s 0x609 f
    else .done (s.modMe fun h =>
      { h with modp := BitVec.ofNat 31 p, modq := BitVec.ofNat 31 q, sstatus := h.sstatus ||| 4#64 }))

/-- DESIGN CHOICE, log 9. -/
def execSscale (f : Fields) (s : State) : Out :=
  let k := f.d.toNat
  commit (
    match (s.myHandle k).desc with
    | some d => if d.type ≤ 1 then .done (s.setMyHandle k { s.myHandle k with bias := signed 16 (s.rs f.a).toNat })
                else illegalWord s 0x60A f
    | none => illegalWord s 0x60A f)

/-! ## Hart ports (09 R249, R265) -/

/-- Bits of a token of a hart port. -/
def StreamDesc.tokWidth (d : StreamDesc) : Nat := typeBits d.type * (if d.cplx then 2 else 1)

def execSinj (f : Fields) (s : State) : Out :=
  let k := f.d.toNat
  let h := s.myHandle k
  let w := (match h.desc with | some d => d.tokWidth | none => 0)
  commit (
    if !h.isPort false then laneFault s
    else
      match h.send (producerOf s.cur) [(s.rs f.a).toNat % 2 ^ w] with
      | none => laneFault s
      | some h' => if h.portFull then .wait s .stream else .done (s.setMyHandle k h'))

def execSext (f : Fields) (s : State) : Out :=
  let k := f.a.toNat
  let h := s.myHandle k
  commit (
    if !h.isPort true then laneFault s
    else
      match h.port with
      | v :: r => .done (((s.setMyHandle k { h with port := r }).ws f.d (BitVec.ofNat 64 v)).ws f.c 1)
      | [] => if h.ended then .done ((s.ws f.d 0).ws f.c 0) else .wait s .stream)

def execSeos (f : Fields) (s : State) : Out :=
  let k := f.d.toNat
  let h := s.myHandle k
  commit (
    if !h.isPort false then laneFault s
    else match h.close (producerOf s.cur) with
      | none => laneFault s
      | some h' => .done (s.setMyHandle k h'))

/-! ## SMARK and SRESUME (09 R255, R258, R266) -/

/-- DESIGN CHOICE, log 50. -/
def execSmark (f : Fields) (s : State) : Out :=
  let c := s.cur.cluster
  commit (withSys s (withLocator s 0x60F f 65536 (s.rs f.a) fun l =>
    match s.live c with
    | none => illegalWord s 0x60F f
    | some (cfg, r) =>
      if !r.marking then
        -- the marker enters at every ingress
        .wait (s.modRun c fun r => { r with marking := true }) .other
      else if r.allMarked cfg then
        .done ((s.saveRegion c l.1 l.2).modRun c fun r => { r with frozen := .marked })
      else .wait s .other))

/-- The region must hold the configuration that was saved, by its lines; an image saved for another cluster is restored for the
hart of the same number here (DESIGN CHOICE, log 50). -/
def execSresumeImg (f : Fields) (s : State) : Out :=
  let c := s.cur.cluster
  commit (withSys s (withLocator s 0x610 f 65536 (s.rs f.a) fun l =>
    let area := s.bytes (cellarPa l.1 l.2) 65536
    match (s.fabric c).active with
    | none => illegalWord s 0x610 f
    | some cfg => withRuns s [(cellarPa l.1 l.2, 65536)] <|
      match s.imageIn area cfg.lines with
      | none => illegalWord s 0x610 f
      | some v => .done (s.loadRegion c area v (hartOf c (Fin.ofNat 4 v.run.owner.val)))))

/-- A resume of handle `k` recorded for a gang's frozen program, when the generator is held (09 R255). -/
def Parked.resume (p : Parked) (g : Option (DieId × Nat)) (k : Fin 32) : Parked :=
  if p.saved.run.gang = g ∧ p.saved.handles[k].held then { p with resumes := p.resumes ++ [k.val] } else p

/-- SRESUME: at once, or recorded for the rebooked start of a suspended gang (in part DEDUCED, log 44). -/
def execSresume (f : Fields) (s : State) : Out :=
  let c := s.cur.cluster
  let k := f.a.toNat
  let g := s.me.gang
  commit (
    if g.isSome && (s.fabric c).parked.any fun p => p.saved.run.gang == g then
      .done (s.modFabric c fun x => { x with parked := x.parked.map fun p => p.resume g f.a.toFin })
    else if !(s.myHandle k).held then .done s
    else .done (s.modHandle c k fun h => { h with held := false }))

/-! ## Events of the owner and of booked groups -/

/-- The owner takes its pending Stream fault at an instruction boundary where it is enabled (09 R253, 14 R359). -/
def execStreamFault (h : HartId) (s : State) : Out :=
  let x := s.hart h
  match x.run with
  | .stopped => .next s
  | .suspended => .next s
  | _ =>
    match firstPending x.pend with
    | some p => if p.cause = 0x17 ∧ x.asyncOn then .next (s.takePending h p) else .next s
    | none => .next s

/-- Whether an update of a tile that the hart holds may still be in flight on its dense groups (10 R280): one that no read or
MCFG has waited for. -/
def State.updating (s : State) (h : HartId) : Bool :=
  (List.finRange 8).any fun t => (s.hart h).mxcfg.getLsbD (8 + t.val) && !((s.cluster h.cluster).tileHist[t]).isEmpty

/-- The gang member whose stream (09 R250) or matrix update (10 R287) occupies a PE group. -/
def State.occupant (s : State) (c : ClusterId) (g : Nat) : Option HartId :=
  let stream := (match s.live c with
    | some (_, r) => if r.gang.isSome && r.groups.getLsbD g then some r.owner else none
    | none => none)
  stream.or ((hartsOf c).find? fun h => (s.hart h).gang.isSome && (s.hart h).denseGroups.getLsbD g && s.updating h)

/-- Another booking's occurrence begins on a PE group that a gang's stream or matrix update still occupies (09 R250, 10 R287):
the gang's remaining slack is charged and Overrun follows (in part DEDUCED, log 40). -/
def execBookedOccurrenceConflict (c : ClusterId) (g : Fin 16) (s : State) : Out :=
  match s.occupant c g.val with
  | none => .next s
  | some h =>
    match (s.hart h).gang, s.taskOf h with
    | some (d, n), some t =>
      if s.occupied (d, n) (groupRes c g.val) s.slot then
        .next (((s.charge h t.remain).modTask d n fun t => { t with lateness := max t.lateness t.budget }).overrunGang d n)
      else .next s
    | _, _ => .next s

end Sys2Proof.Machine
end

