-- ==== Sys2Proof/Machine/CalTask.lean ====
section
/-!
DEFINITION. Tasks: headers and declarations as the dispatcher reads and checks them (08 R203 to R212), the search of the
calendar (R213 to R216), the start of a gang (R217) and the end of a task (R221).
-/

namespace Sys2Proof.Machine

/-! ## Reading a header and a declaration (08 R203, R205) -/

/-- The context in which the dispatcher reads for a task: the tables and address space of its entry, at system level. -/
def taskCtx (ptbase : Word) (asid : BitVec 16) (d : DieId) : MemCtx := { ptbase := ptbase, asid := asid, sys := true, die := d }

/-- Bytes read for the dispatcher; none when they cannot be translated or read. -/
def calRead (s : State) (x : MemCtx) (va : Word) (n : Nat) : State × Option (List Byte) :=
  (lineRuns (n / 64 + 2) va n).foldl (fun (a : State × Option (List Byte)) r =>
    match a.2 with
    | none => a
    | some l =>
      match checkAccess a.1 x .load r.1 with
      | (s, .bad _ _) => (s, none)
      | (s, .ok pa e) =>
        match spaceOf pa with
        | .none => (s, none)
        | .control => (s, none)
        | _ =>
          if leafDisc e.leaf then (s, some (l ++ List.replicate r.2 0))
          else if s.poisonedIn pa r.2 then (s, none)
          else (s, some (l ++ s.bytes pa r.2))) (s, some [])

/-- The 8-byte word at an offset of bytes read. -/
def wordIn (l : List Byte) (off : Nat) : Nat := ofBytes ((l.drop off).take 8)

/-- An input entry and whether it is legal (08 Table 8.2). Here and in the header and the claims a field shown as "—" is
ignored (00 R3) (in part DEDUCED, log 38). -/
def parseIn (w0 w1 : Nat) : InEntry × Bool :=
  let e : InEntry :=
    { cluster := bits w0 6 0, offset := bits w0 31 8, length := bits w0 56 32, producer := bits w1 15 0,
      firstUse := bits w1 27 16 }
  (e, e.offset % 64 == 0 && 1 ≤ e.length && e.offset + e.length ≤ 2 ^ 24)

/-- A header, and whether every field is within the limits of 08 Table 8.1 (in part DEDUCED, log 38). -/
def parseHeader (l : List Byte) : Header × Bool :=
  let w0 := wordIn l 0
  let nin := bits w0 19 16
  let ins := (List.range nin).map fun i => parseIn (wordIn l (0x80 + 16 * i)) (wordIn l (0x88 + 16 * i))
  let w10 := wordIn l 0x50
  let w13 := wordIn l 0x68
  let h : Header :=
    { prio := bits w0 2 0, movable := bits w0 3 3 == 1, harts := bits w0 5 4, qmask := BitVec.ofNat 8 (bits w0 15 8),
      slack := bits w0 31 20, pbound := bits w0 43 32, nclaim := bits w0 51 44, decl := BitVec.ofNat 64 (wordIn l 8),
      cell := BitVec.ofNat 64 (wordIn l 0x10), arg := BitVec.ofNat 64 (wordIn l 0x18),
      cmask := BitVec.ofNat 128 (wordIn l 0x20 + wordIn l 0x28 <<< 64),
      entry := (List.range 4).map fun k => BitVec.ofNat 64 (wordIn l (0x30 + 8 * k)), roff := bits w10 23 0,
      rlen := bits w10 48 24, streams := BitVec.ofNat 64 (wordIn l 0x58), larea := BitVec.ofNat 64 (wordIn l 0x60),
      lsize := bits w13 31 0, ins := ins.map (·.1) }
  (h, nin ≤ 8 && ins.all (·.2) &&
    ((List.range (8 - min nin 8)).all fun i =>
      wordIn l (0x80 + 16 * (nin + i)) == 0 && wordIn l (0x88 + 16 * (nin + i)) == 0) &&
    (h.nclaim == 0 || h.decl.toNat % 16 == 0) && h.cmask != 0 &&
    ((List.range 4).all fun k => wordIn l (0x30 + 8 * k) % 16 == 0 && (k ≤ h.harts || wordIn l (0x30 + 8 * k) == 0)) &&
    h.roff % 64 == 0 && h.rlen ≤ 2 ^ 24 && h.roff + h.rlen ≤ 2 ^ 24 &&
    h.larea.toNat % 2048 == 0 && h.lsize % 2048 == 0 && ((h.larea == 0) == (h.lsize == 0)))

/-- The home die: that of the lowest gang cluster (08 R204). -/
def Header.home (h : Header) : Option DieId := h.clusters.head?.map ClusterId.die

/-- A claim (08 Table 8.3). -/
def parseClaim (w0 w1 : Nat) : Claim :=
  let cls := bits w0 7 0
  { cls := cls, index := bits w0 23 8, offset := bits w0 35 24, length := bits w0 47 36, period := bits w0 59 48,
    count := bits w1 15 0, wlog := bits w1 19 16, env := if cls = 8 then 0 else bits w1 33 24,
    use := if cls = 8 then 0 else bits w1 41 34, vpage := if cls = 8 then bits w1 63 20 else 0, groups := [] }

/-- Whether a claim is within 08 Table 8.3 and Table 8.4; `n` is the number of claims and `i` its own number (R209)
(in part DEDUCED, log 38). -/
def Claim.legal (c : Claim) (n i : Nat) : Bool :=
  c.cls ≤ 8 && 1 ≤ c.length && (c.period == 0 || c.length ≤ c.period) && (c.period != 0 || c.count == 0) &&
  c.wlog ≤ 7 && c.env ≤ 512 &&
  (if c.cls = 8 then 1 ≤ c.index && c.wlog == 0
   else (List.range (2 ^ c.wlog)).all fun k => indexOk c.cls (c.index + k)) &&
  (if c.cls = 2 then c.use == 0xFF || (c.use < n && c.use != i) else c.env == 0 && c.use == 0)

/-- Whether a claim covers a slot of a run from `a` to before `b`, counted from the start. -/
def Claim.meets (c : Claim) (a b : Nat) : Bool :=
  if c.length = 0 then false
  else if c.period = 0 then c.offset < b && a < c.offset + c.length
  else
    let k := if a < c.offset + c.length then 0 else (a - c.offset - c.length) / c.period + 1
    c.offset + k * c.period < b && c.exists_ k

/-- Whether two rolling claims, from slots `o1` and `o2`, ever cover one slot: their occurrences take every distance that
agrees with o2 - o1 modulo the greatest common divisor of their periods. -/
def rollClash (o1 l1 p1 o2 l2 p2 : Nat) : Bool :=
  let g := Nat.gcd p1 p2
  let r := ((o2 : Int) - o1).emod g |>.toNat
  r < l1 || g - r < l2

/-- Whether an occurrence of a claim that does not roll meets another claim. -/
def Claim.overlapsFin (c d : Claim) : Bool :=
  (List.range (if c.period = 0 then 1 else c.count)).any fun k =>
    d.meets (c.offset + k * c.period) (c.offset + k * c.period + c.length)

/-- Whether two claims of one declaration cover one slot. -/
def Claim.overlaps (c d : Claim) : Bool :=
  if c.rolling && d.rolling then rollClash c.offset c.length c.period d.offset d.length d.period
  else if c.rolling then d.overlapsFin c else c.overlapsFin d

/-- Whether two claims share a resource. -/
def Claim.shares (c d : Claim) : Bool := c.resources.any fun r => d.resources.contains r

/-- R209's condition on a Racker claim and the claim that first uses its data. -/
def Claim.envelopeOk (c : Claim) (l : List Claim) : Bool :=
  c.cls != 2 || c.use == 0xFF ||
  (match l[c.use]? with
    | none => true
    | some u =>
      c.offset + (if c.env = 0 then 64 else c.env) ≤ u.offset &&
      ((c.period == 0 && u.period == 0) || (c.period == u.period && c.count == u.count)))

/-! ## The checks of the dispatcher (08 R203, R211) -/

/-- A page of a class 8 claim: its channel groups, or the code that refuses it (08 R206). -/
def pageGroups (s : State) (x : MemCtx) (va : Word) : State × List Nat × List Nat :=
  match translate s x .load va with
  | (s, .fail _) => (s, [], [0x08])
  | (s, .ok pa e) =>
    let pas := (List.range 64).map fun j => e.pa (va.toNat + 64 * j)
    let codes := (if leafNobook e.leaf || leafRdup e.leaf then [0x03] else []) ++
      (if spaceOf pa != .hbm then [0x04] else []) ++ (if pas.contains none then [0x08] else [])
    (s, ((pas.filterMap id).map fun p => bits p 39 38 * 128 + bits p 12 6).eraseDups, codes)

/-- A claim with its channel groups, and the codes that refuse it (in part DEDUCED, log 39). -/
def Claim.resolve (s : State) (x : MemCtx) (c : Claim) : State × Claim × List Nat :=
  if c.cls != 8 then (s, c, [])
  else
    let r := (List.range c.index).foldl (fun (a : State × List Nat × List Nat) k =>
      let q := pageGroups a.1 x (BitVec.ofNat 64 ((c.vpage + k) * 4096))
      (q.1, (a.2.1 ++ q.2.1).eraseDups, a.2.2 ++ q.2.2)) (s, [], [])
    (r.1, { c with groups := r.2.1 }, r.2.2)

/-- The check of a completion cell (08 R203): the code that refuses it (in part DEDUCED, log 38). -/
def cellCheck (s : State) (x : MemCtx) (cell : Word) : State × List Nat :=
  if cell = 0 then (s, [])
  else if cell.toNat % 8 ≠ 0 then (s, [0x02])
  else
    match translate s x .load cell with
    | (s, .fail _) => (s, [0x08])
    | (s, .ok pa e) =>
      (s, if leafR e.leaf && leafW e.leaf && leafPres e.leaf && (spaceOf pa == .hbm || spaceOf pa == .cellar) then []
          else [0x02])

/-- What the dispatcher finds. `refused`: the code, and the completion cell when it passed its own check. -/
inductive Dispatched where
  | refused (code : Nat) (cell : Word)
  | ok (h : Header) (claims : List Claim) (streams : List StreamDesc)
  deriving DecidableEq, Repr

/-- The first of Table 8.6's codes, in its order, among those found (in part DEDUCED, log 38). -/
def firstCode (l : List Nat) : Option Nat := [0x02, 0x03, 0x04, 0x05, 0x06, 0x08].find? fun c => l.contains c

/-- The stream table, and the codes that refuse it (09 R244) (in part DEDUCED, log 38). -/
def readStreams (s : State) (x : MemCtx) (h : Header) : State × List StreamDesc × List Nat :=
  if h.streams = 0 then (s, [], [])
  else
    match calRead s x h.streams 2048 with
    | (s, none) => (s, [], [0x08])
    | (s, some l) =>
      let ds : List StreamDesc := (List.range 32).map fun k => BitVec.ofNat 512 (ofBytes ((l.drop (64 * k)).take 64))
      (s, ds, if ds.all fun d => !d.valid || h.clusters.all fun c => d.ok c then [] else [0x02])

/-- The declaration, and the codes that refuse it (08 R205, R206, R209) (in part DEDUCED, log 38). -/
def readClaims (s : State) (x : MemCtx) (h : Header) : State × List Claim × List Nat :=
  if h.nclaim = 0 then (s, [], [])
  else
    match calRead s x h.decl (16 * h.nclaim) with
    | (s, none) => (s, [], [0x08])
    | (s, some l) =>
      let ws := (List.range h.nclaim).map fun i => (i, wordIn l (16 * i), wordIn l (16 * i + 8))
      let legal := ws.all fun w => (parseClaim w.2.1 w.2.2).legal h.nclaim w.1
      let r := ws.foldl (fun (a : State × List Claim × List Nat) w =>
        let q := (parseClaim w.2.1 w.2.2).resolve a.1 x
        (q.1, a.2.1 ++ [q.2.1], a.2.2 ++ q.2.2)) (s, [], [])
      let cs := r.2.1
      if !legal then (r.1, [], r.2.2 ++ [0x04])
      else
        let idx := List.range cs.length
        let clash := idx.any fun i => idx.any fun j => i < j &&
          (match cs[i]?, cs[j]? with | some c, some d => c.shares d && c.overlaps d | _, _ => false)
        (r.1, cs, r.2.2 ++ (if clash then [0x04] else []) ++ (if cs.all (·.envelopeOk cs) then [] else [0x05]) ++
          (if cs.all fun c => c.rolling || c.lastEnd + h.slack ≤ 4096 then [] else [0x06]))

/-- The dispatcher's read and check of a task (08 R211); `queue` is the die whose queue holds the entry, if one does
(in part DEDUCED, log 38). -/
def dispatch (s : State) (x : MemCtx) (va : Word) (queue : Option DieId) : State × Dispatched :=
  match calRead s x va 256 with
  | (s, none) => (s, .refused 0x08 0)
  | (s, some l) =>
    let p := parseHeader l
    let h := p.1
    let away := (match queue, h.home with | some d, some e => d != e | _, _ => false)
    let c := cellCheck s x h.cell
    let st := readStreams c.1 x h
    let cl := readClaims st.1 x h
    let codes := (if p.2 && !away then [] else [0x02]) ++ c.2 ++ st.2.2 ++ cl.2.2
    (cl.1, match firstCode codes with
      | some code => .refused code (if c.2.isEmpty then h.cell else 0)
      | none => .ok h cl.2.1 st.2.1)

/-! ## Task numbers and queues (08 R204, R210) -/

/-- The first number from `n` on, in increasing order with a wrap, that no task holds. -/
def numFrom (used : List Nat) : Nat → Nat → Option Nat
  | 0, _ => none
  | k + 1, n => if used.contains n then numFrom used k (n % 65535 + 1) else some n

/-- The next task number of a die (DESIGN CHOICE, log 10). -/
def CalUnit.nextNum (u : CalUnit) : Option Nat := numFrom (u.tasks.map Task.num) 65535 (u.lastNum % 65535 + 1)

/-- Whether all 256 entries of the queue are in use. -/
def CalUnit.queueFull (u : CalUnit) : Bool := 256 ≤ (u.fifo.toList.map List.length).foldl (· + ·) 0

/-- A task as it enters a queue. -/
def Task.queued (num : Nat) (header : Word) (level slot : Nat) (ptbase : Word) (asid : BitVec 16) (tvec : Word)
    (node : Option (DieId × Fin 16 × Nat)) : Task :=
  { num := num, header := header, level := level, since := slot, ptbase := ptbase, asid := asid, tvec := tvec, hdr := none,
    claims := [], streams := [], st := .queued, reserved := false, kept := [], bookStart := 0, bookEnd := 0, span := 0, tail := 0, rolls := false,
    code := 0, tmin := 0, budget := 0, lateness := 0, members := [], allMembers := [], status := none, awaiting := [],
    overrun := false, remainder := false, node := node }

/-- Appends a task to the queue of a die: its number, or the code of the failure. -/
def State.enqueue (s : State) (d : DieId) (header : Word) (level : Nat) (ptbase : Word) (asid : BitVec 16) (tvec : Word)
    (node : Option (DieId × Fin 16 × Nat)) : State × Except Nat Nat :=
  let u := (s.die d).cal
  if u.queueFull then (s, .error 0x01)
  else
    match u.nextNum with
    | none => (s, .error 0x0E)
    | some n =>
      let l : Fin 8 := Fin.ofNat 8 level
      (s.modCal d fun u =>
        { u with tasks := u.tasks ++ [Task.queued n header level s.slot ptbase asid tvec node],
                 fifo := u.fifo.set l (u.fifo[l] ++ [n]), lastNum := n }, .ok n)

/-- Whether a task has a header on more than its home die, by its claims or its clusters (08 R216). -/
def Task.dies (t : Task) : List DieId :=
  let rs := t.claims.flatMap Claim.resources ++ t.holds
  (List.finRange 4).filter fun d => rs.any fun r => r.dies.contains d

/-! ## The scoreboard (08 R212) -/

/-- The regions of Cellar slices that a task reserves or reads: cluster, offset, length. -/
def Task.results (t : Task) : List (Nat × Nat × Nat) :=
  match t.hdr with
  | some h => if h.rlen = 0 then [] else h.clusters.map fun c => (c.val, h.roff, h.rlen)
  | none => []
/-- In part DEDUCED, log 38. -/
def Task.inputs (t : Task) : List (Nat × Nat × Nat) :=
  match t.hdr with
  | some h => h.ins.map fun e => (e.cluster, e.offset, e.length)
  | none => []

def regionsMeet (a b : Nat × Nat × Nat) : Bool := a.1 == b.1 && a.2.1 < b.2.1 + b.2.2 && b.2.1 < a.2.1 + a.2.2

/-- The state of an input's producer for the search: none when it is neither ended nor booked, else the least start. -/
def CalUnit.inputBound (u : CalUnit) (e : InEntry) : Option Nat :=
  if e.producer = 0 then some 0
  else
    match u.task e.producer with
    | none => some 0
    | some p =>
      match p.st with
      | .ended => some 0
      | .booked => some (p.bookEnd - e.firstUse)
      | .running => some (p.bookEnd - e.firstUse)
      | _ => none

/-- The producer bounds of a task; none while an input is not resident. -/
def CalUnit.bound (u : CalUnit) (t : Task) : Option Nat :=
  match t.hdr with
  | none => none
  | some h => h.ins.foldl (fun a e => match a, u.inputBound e with | some x, some y => some (max x y) | _, _ => none) (some 0)

/-- Whether a checked task may become ready: its inputs are resident and its result space is free. -/
def State.readyOk (s : State) (d : DieId) (t : Task) : Bool :=
  ((s.die d).cal.bound t).isSome &&
  (List.finRange 4).all fun e => (s.die e).cal.tasks.all fun o =>
    (e == d && o.num == t.num) || o.st == .ended ||
    t.results.all fun r => !((if o.reserved then o.results ++ o.inputs else []) ++ o.kept).any (regionsMeet r)

/-! ## The search (08 R213) -/

/-- PE groups that a free hart holds, in a running program or in dense mode (09 R250, 10 R270). -/
def State.freeHolds (s : State) (r : Resource) : Bool :=
  r.1 == 0 &&
    (let c : ClusterId := Fin.ofNat 128 (r.2 / 32)
     let run : BitVec 16 := (match (s.fabric c).run with
       | some x => if x.gang.isSome || x.ended || x.frozen != .no then 0 else x.groups
       | none => 0)
     let all := (hartsOf c).foldl (fun a h => if (s.hart h).gang.isSome then a else a ||| (s.hart h).denseGroups) run
     all.getLsbD (r.2 % 32))

/-- Whether a hart is available to a task (08 R208): stopped with no copy outstanding, held by the task's own gang, or by a
running gang, whose booking says until when (in part DEDUCED, log 43). -/
def State.hartFree (s : State) (d : DieId) (n : Nat) (h : HartId) : Bool :=
  let x := s.hart h
  match x.gang with
  | some g => g == (d, n) || (match s.taskOf h with | some t => t.st == .running | none => true)
  | none => x.run == .stopped && x.tags.busy == 0

/-- The resources of a task (in part DEDUCED, log 39). -/
def Task.resources (t : Task) : List Resource := (t.claims.flatMap Claim.resources).eraseDups ++ t.holds

/-- Whether a booking of task `t` of die `d` from a slot fits on die `e`: its resources there are free, over the horizon from
slot `now`, with one slot more on either side on another die than its own. -/
def State.fitsOn (s : State) (d e : DieId) (t : Task) (now start : Nat) : Bool :=
  let t := t.shaped
  let rs := t.resources.filter fun r => r.dies.contains e
  let near := d != e
  let last := if t.rolls then now + 4096 else min (now + 4096) (start + t.span + t.tail + 1)
  (rs.all fun r => !s.freeHolds r && (r.1 != 100 || s.hartFree d t.num (Fin.ofNat 512 r.2)) &&
    (List.range (last - (start - 1))).all fun k =>
      let sl := start - 1 + k
      !(if near then t.holdsNear start r sl else t.holdsAt start r sl) || !s.heldOn e (d, t.num) r sl) &&
  (t.claims.all fun c => !c.rolling ||
    (List.finRange 4).all fun od => (s.die od).cal.tasks.all fun o =>
      (od == d && o.num == t.num) || !o.standing ||
      o.claims.all fun oc => !oc.rolling || !(c.resources.any fun r => rs.contains r && oc.resources.contains r) ||
        (let pad := near.toNat + (od != e).toNat
         !rollClash (start + c.offset) (c.length + pad) c.period (o.bookStart + oc.offset) (oc.length + pad) oc.period))

/-- The cycles of a search (08 R213). -/
def Task.searchCycles (t : Task) : Nat := 8 + ((match t.hdr with | some h => h.nclaim | none => 0) + 1) / 2

/-- Whether the task is booked across dies. -/
def Task.crossDie (t : Task) (d : DieId) : Bool := t.dies.any (· != d)

/-- The first slot of a search that begins in a cycle; none while an input is not resident. -/
def State.searchLow (s : State) (d : DieId) (t : Task) (cyc : Nat) : Option Nat :=
  let lead := 1 + (cyc % 16 + t.searchCycles + 15) / 16 + (if t.crossDie d then 186 else 0)
  ((s.die d).cal.bound t).map fun b => max (cyc / 16 + lead) (max t.tmin b)

/-- Whether the unit holds all the bookings that it can (08 R213). -/
def CalUnit.bookingsFull (u : CalUnit) : Bool :=
  4096 ≤ (u.tasks.filter fun t => t.st == .booked || t.st == .running || t.st == .suspended).length

/-- The earliest slot from `lo` on that fits on a die, in a search that begins in slot `now`. -/
def State.earliest (s : State) (d e : DieId) (t : Task) (now lo : Nat) : Option Nat :=
  let e' := lastEnd t.claims + t.tailNow
  ((List.range (now + 4097 - e' - lo)).find? fun k => s.fitsOn d e t now (lo + k)).map (lo + ·)

/-- The search of R213 on the home die. -/
def State.search (s : State) (d : DieId) (t : Task) (cyc : Nat) : Option Nat :=
  if (s.die d).cal.bookingsFull then none
  else match s.searchLow d t cyc with
    | none => none
    | some lo => s.earliest d d t (cyc / 16) lo

/-- The task as it is booked from a slot. -/
def Task.booked (t : Task) (start : Nat) : Task :=
  let t := t.shaped
  { t with st := .booked, bookStart := start, bookEnd := if t.rolls then 2 ^ 64 - 1 else start + t.span + t.tail }

/-- Books a task: it leaves the ready set. -/
def CalUnit.book (u : CalUnit) (n start : Nat) : CalUnit :=
  { u with tasks := u.tasks.map fun t => if t.num = n then t.booked start else t, ready := u.ready.filter (· != n) }

/-- The unit begins a search that it has made up its mind about: it ends after the search's cycles (08 R213). -/
def CalUnit.searching (u : CalUnit) (kind : SearchKind) (t : Task) (found : Option Nat) (cyc : Nat) : CalUnit :=
  { u with busy := cyc + t.searchCycles
           search := some ⟨kind, t.num, found, (u.tasks.filter fun t => t.st == .ended).map Task.num⟩ }

/-- The search of the unit is over: the numbers that had ended before it are free again (08 Table 8.12). -/
def CalUnit.searched (u : CalUnit) (j : CalSearch) : CalUnit :=
  { u with search := none, tasks := u.tasks.filter fun t => !(t.st == .ended && j.ended.contains t.num) }

/-- A pass runs: it has a search to make or is making one (08 R213). -/
def CalUnit.passing (u : CalUnit) : Bool := !u.pass.isEmpty || u.search.any (·.kind == .pass)

/-- The unit can make a search of a BOOK in this cycle: it makes none, no pass has one to make, and no compaction is called for or
runs (08 R223). -/
def CalUnit.idle (u : CalUnit) (cyc : Nat) : Bool :=
  u.busy ≤ cyc && u.search.isNone && u.pass.isEmpty && u.calls.isEmpty && u.compaction.isNone

/-! ## The start of a gang (08 R217) -/

/-- GANGID of a member (08 Table 8.7). -/
def gangIdOf (h : Header) (n : Nat) (c : ClusterId) : Word :=
  let lead := (match h.clusters.head? with | some x => x.val | none => 0)
  BitVec.ofNat 64 (n + lead <<< 16 + h.clusters.length <<< 24 + h.harts <<< 32 + (h.clusters.idxOf c) <<< 40)

/-- A member as its gang starts: its lees registers hold the fields of 11 Table 11.1 alone (00 R3). -/
def Hart.gangStart (x : Hart) (t : Task) (h : Header) (d : DieId) (c : ClusterId) (k : Nat) : Hart :=
  let i := h.clusters.idxOf c
  let y := x.spawned (h.entry.getD k 0) h.arg false t.ptbase t.asid t.tvec
  let base : Word := if h.larea = 0 then 0 else h.larea + BitVec.ofNat 64 ((i * (h.harts + 1) + k) * h.lsize)
  let fields := fun a : Word => a &&& 0xFFFFFFFFFFF800#64
  { y with
    s := (y.s.set 2 (BitVec.ofNat 64 i)).set 3 (BitVec.ofNat 64 t.num)
    lees := { sp := fields base, base := fields base,
              lim := if h.larea = 0 then 0 else fields (base + BitVec.ofNat 64 h.lsize), win := 0, held := [] }
    cal := { y.cal with gangid := gangIdOf h t.num c }
    gang := some (d, t.num) }

/-- The queues of a mask emptied, and bound to a gang or to none (07 R199). -/
def Cluster.bindQueues (x : Cluster) (m : Byte) (g : Option (DieId × Nat)) : Cluster :=
  { x with queues := Vector.ofFn (fun q : Fin 8 => if m.getLsbD q.val then ⟨[], g, []⟩ else x.queues[q]) }

/-- The queues that a task declares are emptied and bound (08 R217). -/
def State.bindQueues (s : State) (h : Header) (g : Option (DieId × Nat)) : State :=
  h.clusters.foldl (fun (s : State) c => s.modCluster c fun x => x.bindQueues h.qmask g) s

/-- The copies of a gang that met a fault go on from their failed lines, before the copies queued since (07 R172)
(in part DEDUCED, log 35). -/
def Racker.unpark (r : Racker) (g : DieId × Nat) : Racker :=
  let back := r.parked.filter fun (x : Copy) => x.gang == some g
  let rest := r.parked.filter fun (x : Copy) => x.gang != some g
  back.reverse.foldl (fun (r : Racker) (x : Copy) => r.setQueue x.ch (x :: r.queue x.ch)) { r with parked := rest }

/-- A member goes on at its recorded position; one that has stopped stays so (14 R357). -/
def Hart.resumed (x : Hart) : Hart := if x.run = .suspended then { x with run := .running } else x

/-- Releases a gang at its start slot: as new, or at its recorded positions (08 R217, R222). -/
def State.startGang (s : State) (d : DieId) (t : Task) (h : Header) : State :=
  let n := t.num
  if t.remainder then
    let s := s.modTask d n fun t => { t with st := .running, remainder := false }
    let s := t.members.foldl (fun (s : State) m => s.modHart m Hart.resumed) s
    h.clusters.foldl (fun (s : State) c =>
      let back := (s.cluster c).racker.parked.filter fun (x : Copy) => x.gang == some (d, n)
      let s := back.foldl State.reclaim (s.modRacker c fun r => r.unpark (d, n))
      s.thaw c (d, n)) s
  else
    let s := s.modTask d n fun t => { t with st := .running, members := h.harts', allMembers := h.harts' }
    let s := h.clusters.foldl (fun (s : State) c =>
      let s := (List.range (h.harts + 1)).foldl (fun (s : State) k =>
        s.modHart (hartOf c (Fin.ofNat 4 k)) fun x => x.gangStart t h d c k) s
      s.modFabric c fun f =>
        { f with handles := Vector.ofFn (fun k : Fin 32 => Handle.bind (t.streams.getD k.val 0)) }) s
    s.bindQueues h (some (d, n))

/-! ## The end of a task (08 R221) -/

/-- A member leaves its gang and stops: it releases its tiles and groups (04 R88, 10 R270). -/
def Hart.leaveGang (x : Hart) : Hart :=
  { x.halted with gang := none, gbars := 0, gbarHere := false, inWait := false,
                  cal := { x.cal with gangid := 0 } }

def State.leaveGang (s : State) (h : HartId) : State := (s.withdraw h).modHart h Hart.leaveGang

/-- A node of a graph ends, normally or not (13 R339). -/
def Graph.nodeEnds (y : Graph) (i : Nat) (failed : Bool) : Graph :=
  let phase : NodePhase := if failed then .failed else .ended
  { y with nodes := y.nodes.modify i (fun n => { n with phase := phase }),
           failed := if failed && y.failed.isNone then some i else y.failed }

/-- A node of a graph of a die ends (13 R339). -/
def State.nodeEnds (s : State) (g : DieId × Fin 16 × Nat) (failed : Bool) : State :=
  s.modDie g.1 fun x => { x with graphs := x.graphs.set g.2.1 (x.graphs[g.2.1].nodeEnds g.2.2 failed) }

/-- Writes a word to a completion cell as FUTWR writes: the code 0x0B or 0x0F where it cannot (08 R221). -/
def State.writeCell (s : State) (x : MemCtx) (cell : Word) (v : Word) : State × Option Nat :=
  match checkAccess s x .store cell with
  | (s, .bad _ _) => (s, some 0x0F)
  | (s, .ok pa e) =>
    if !leafPres e.leaf || leafWonce e.leaf || cell.toNat % 8 != 0 || !(spaceOf pa == .hbm || spaceOf pa == .cellar) then
      (s, some 0x0F)
    else if s.full pa then (s, some 0x0B)
    else ((s.markDirty x e).fill pa (toBytes 8 v.toNat), none)

/-- The reservations of an ending task (08 R212): its result space passes to the first task in the ready set or booked
that names it as a producer (in part DEDUCED, log 41). -/
def CalUnit.passOn (u : CalUnit) (t : Task) : CalUnit :=
  let wants (o : Task) : Bool :=
    o.num != t.num && (o.st == .ready || o.st == .booked) &&
    (match o.hdr with | some h => h.ins.any fun e => e.producer == t.num | none => false)
  match u.tasks.find? wants with
  | some o => u.setTask { o with kept := o.kept ++ (if t.reserved then t.results else []) }
  | none => u

/-- Ends a task (08 R221): `cell` is its completion cell, 0 for none, and `cancel` says that its members' copies are
cancelled. It calls for a compaction (08 R223) (in part DEDUCED, log 41). -/
def State.endTask (s : State) (d : DieId) (n code : Nat) (refused cancel : Bool) (cell : Word) : State :=
  match s.task d n with
  | none => s
  | some t =>
    let g := some (d, n)
    let s := (match t.hdr with
      | some h =>
        let parked : List Copy := h.clusters.flatMap fun c => (s.cluster c).racker.parked.filter fun (x : Copy) => x.gang == g
        let s := parked.foldl (fun (s : State) (x : Copy) => s.cancelTags x.hart (tagBit x.tag)) s
        let s := t.members.foldl (fun (s : State) m =>
          (if cancel then s.cancelTags m (BitVec.allOnes 64) else s).leaveGang m) s
        let s := h.clusters.foldl (fun (s : State) c =>
          let s := s.modFabric c fun f => { f with parked := f.parked.filter fun (p : Parked) => p.saved.run.gang != g }
          match (s.fabric c).run with
          | some r => if r.gang = g then s.modFabric c fun f => { f with run := none } else s
          | none => s) s
        if t.allMembers.isEmpty then s else s.bindQueues h none
      | none => s)
    let s : State := { s with clusters := s.clusters.map fun (c : Cluster) =>
      { c with racker := { c.racker with stamps := c.racker.stamps.filter fun x => x.1 != (d, n) } } }
    let low : Nat := (if refused then 2 ^ 63 else 0) + code <<< 32 + (if refused then 0 else (t.status.getD 0).toNat <<< 16) + n
    let w : State × Option Nat :=
      if cell = 0 then (s, none) else s.writeCell (taskCtx t.ptbase t.asid d) cell (BitVec.ofNat 64 low)
    let s := w.1
    let s := s.modCal d fun u =>
      let u := u.passOn t
      { u with
        tasks := u.tasks.map fun x => if x.num = n then
          { x with st := .ended, code := w.2.getD code, members := [], awaiting := [], reserved := false, kept := [] } else x
        fifo := u.fifo.map fun l => l.filter (· != n)
        ready := u.ready.filter (· != n)
        calls := u.calls ++ [⟨none, s.cycle⟩] }
    match t.node with | some g => s.nodeEnds g (code != 0) | none => s

/-- The completion cell of a task: its header's as it was read, or as it stands while the dispatcher has not read it. -/
def State.cellOf (s : State) (d : DieId) (t : Task) : State × Word :=
  match t.hdr with
  | some h => (s, h.cell)
  | none =>
    match calRead s (taskCtx t.ptbase t.asid d) (t.header + 0x10) 8 with
    | (s, some l) => (s, BitVec.ofNat 64 (wordIn l 0))
    | (s, none) => (s, 0)

end Sys2Proof.Machine
end

