-- ==== Sys2Proof/Machine/Calendar.lean ====
section
/-!
DEFINITION. Class 0xB (08 R225, R226) and the steps of the dispatcher and the calendar unit (R210 to R217, R221, R223).
-/

namespace Sys2Proof.Machine

/-! ## The dispatcher -/

/-- The codes of task states (08 Table 8.12). -/
def TaskState.code : TaskState → Nat
  | .free => 0 | .queued => 1 | .ready => 2 | .booked => 3 | .running => 4 | .suspended => 5 | .ended => 6

/-- A task as the dispatcher has checked it. -/
def Task.checked (t : Task) (h : Header) (claims : List Claim) (streams : List StreamDesc) : Task :=
  { t with hdr := some h, claims := claims, streams := streams, budget := 16 * h.slack }

/-- DISPATCH_CHECK: an entry that has reached one of the first 8 positions of its FIFO is read and checked (08 R211). -/
def execDispatchCheck (d : DieId) (task : Nat) (s : State) : Out :=
  .next (match s.task d task with
    | none => s
    | some t =>
      if t.st != .queued || t.hdr.isSome || !((s.die d).cal.fifo.toList.any fun l => (l.take 8).contains task) then s
      else
        match dispatch s (taskCtx t.ptbase t.asid d) t.header (some d) with
        | (s, .refused code cell) => s.endTask d task code true false cell
        | (s, .ok h claims streams) => s.modTask d task fun t => t.checked h claims streams)

/-- The position of a task in order of arrival at its level. -/
def CalUnit.place (u : CalUnit) (n : Nat) : Nat := (u.tasks.map Task.num).idxOf n

/-- Adds a task to the ready set, in order of priority and then of arrival. -/
def CalUnit.addReady (u : CalUnit) (t : Task) : CalUnit :=
  let before := u.ready.takeWhile fun n =>
    match u.task n with
    | some x => x.level < t.level || (x.level == t.level && (x.remainder || u.place n < u.place t.num))
    | none => true
  { u with ready := before ++ t.num :: u.ready.drop before.length }

/-- READY_SET_ENTRY: a checked task whose inputs are resident and whose result space is free becomes ready (08 R212). -/
def execReadySetEntry (d : DieId) (task : Nat) (s : State) : Out :=
  .next (match s.task d task with
    | none => s
    | some t =>
      if t.st != .queued || t.hdr.isNone || 64 ≤ (s.die d).cal.ready.length || !s.readyOk d t then s
      else s.modCal d fun u =>
        let t := { t with st := .ready, reserved := true }
        { (u.setTask t).addReady t with fifo := u.fifo.map fun l => l.filter (· != task) })

/-- QUEUE_AGE_PROMOTION: an entry that has waited 4,096 slots at its level moves to the tail of the next higher one, or at
level 0 to its head (08 R210) (in part DEDUCED, log 39). -/
def execQueueAgePromotion (d : DieId) (task : Nat) (s : State) : Out :=
  .next (match s.task d task with
    | none => s
    | some t =>
      if (t.st != .queued && t.st != .ready) || s.slot < t.since + 4096 then s
      else s.modCal d fun u =>
        let t' := { t with level := t.level - 1, since := s.slot }
        let rest := u.tasks.filter fun x => x.num != task
        let u := { u with tasks := if t.level = 0 then t' :: rest else rest ++ [t'] }
        if t.st == .ready then
          let u := { u with ready := u.ready.filter (· != task) }
          if t.level = 0 then u.readyHead t' else u.addReady { t' with remainder := false }
        else
          let cut := u.fifo.map fun l => l.filter (· != task)
          let l : Fin 8 := Fin.ofNat 8 (t.level - 1)
          { u with fifo := if t.level = 0 then cut.set 0 (task :: cut[0]) else cut.set l (cut[l] ++ [task]) })

/-! ## Passes and rounds -/

/-- Starts the round of a cross-die booking (08 R216). -/
def CalUnit.startRound (u : CalUnit) (d : DieId) (t : Task) (start : Nat) : CalUnit :=
  { u.setTask t.shaped with
    holds := u.holds ++ [⟨d, t.num, start⟩]
    rounds := u.rounds ++ [⟨t.num, start, t.dies.filter (· != d), [], [], none, none⟩] }

/-- Whether a task may be searched: it is ready, and no round of it runs. -/
def CalUnit.searchable (u : CalUnit) (n : Nat) : Bool :=
  (match u.task n with | some t => t.st == .ready | none => false) && !u.rounds.any fun r => r.task == n

/-- A compaction moves a booking to an earlier slot (08 R223). -/
def CalUnit.moveTo (u : CalUnit) (n start : Nat) : CalUnit :=
  { u.book n start with compaction := u.compaction.map fun k => { k with moved := k.moved + 1 } }

/-- Whether a compaction may move the booking: it is MOVABLE, not yet started and booked only on its home die (08 R223). -/
def Task.movable (t : Task) (d : DieId) : Bool :=
  t.st == .booked && !t.remainder && !t.crossDie d && (match t.hdr with | some h => h.movable | none => false)

/-- The search of the unit ends: the task that found a slot is booked, or its round begins, or the booking moves to an earlier
slot, if the slot still fits (08 R213, R216, R223) (in part DEDUCED, log 39). -/
def State.endSearch (s : State) (d : DieId) : State :=
  let u := (s.die d).cal
  match u.search with
  | none => s
  | some j =>
    let s := s.modCal d fun u => u.searched j
    match s.task d j.task, j.found with
    | some t, some start =>
      if !s.fitsOn d d t s.slot start then s
      else
        match j.kind with
        | .pass =>
          if u.searchable j.task then
            s.modCal d fun u => if t.crossDie d then u.startRound d t start else u.book j.task start
          else s
        | .move => if t.movable d && start < t.bookStart then s.modCal d fun u => u.moveTo j.task start else s
        | .book => s
    | _, _ => s

/-- The next search of a pass begins, with the state of this cycle (08 R213): tasks that left the ready set are passed over
(in part DEDUCED, log 39). -/
def State.beginSearch (s : State) (d : DieId) (pass : List Nat) : State :=
  match pass.dropWhile fun n => !(s.die d).cal.searchable n with
  | [] => s.modCal d fun u => { u with pass := [] }
  | n :: rest =>
    match s.task d n with
    | none => s
    | some t =>
      let found := s.search d t s.cycle
      (s.modTask d n fun t => { t with tmin := 0 }).modCal d fun u =>
        { u.searching .pass t found s.cycle with pass := rest }

/-- At a slot boundary a pass begins, over the tasks then in the ready set, when no pass and no compaction runs (08 R213). -/
def CalUnit.beginPass (u : CalUnit) (cyc : Nat) : CalUnit :=
  if cyc % 16 = 0 ∧ !u.passing ∧ u.compaction.isNone then { u with pass := u.ready } else u

/-- A compaction runs, or one called for before this cycle begins: it comes before the next search of a pass (08 R223). -/
def CalUnit.compactDue (u : CalUnit) (cyc : Nat) : Bool := u.compaction.isSome || u.calls.any fun k => k.at_ < cyc

/-- CALENDAR_PASS: the calendar unit ends its search and begins the next one of its pass, unless a compaction is due; a pass
begins at a slot boundary (08 R213, R223) (in part DEDUCED, log 39). -/
def execCalendarPass (d : DieId) (s : State) : Out :=
  let free := (s.die d).cal.busy ≤ s.cycle
  let s := (if free then s.endSearch d else s).modCal d fun u => u.beginPass s.cycle
  let u := (s.die d).cal
  .next (if free && !u.compactDue s.cycle then s.beginSearch d u.pass else s)

/-- ROLLING_OCCURRENCE_RESERVE: an occurrence of a rolling claim that enters the horizon is reserved as its booking was made:
a booking's claims hold their resources in every slot they cover (08 R214) (in part DEDUCED, log 39). -/
def execRollingOccurrenceReserve (_d : DieId) (s : State) : Out := .next s

/-- The rounds of a die with one changed. -/
def CalUnit.setRound (u : CalUnit) (r : XRound) : CalUnit :=
  { u with rounds := u.rounds.map fun x => if x.task = r.task then r else x }

def State.roundOf (s : State) (d : DieId) (task : Nat) : Option XRound := (s.die d).cal.rounds.find? fun r => r.task == task

/-- The reply of a die to a prepare: none accepts, else its own earliest fit, or the horizon's end. -/
def State.prepareReply (s : State) (home remote : DieId) (t : Task) (start : Nat) : Option Nat :=
  if s.fitsOn home remote t s.slot start then none else some ((s.earliest home remote t s.slot start).getD (s.slot + 4096))

/-- XDIE_PREPARE: the prepare message reaches a die, which holds the slots or refuses (08 R216). -/
def execXdiePrepare (home : DieId) (task : Nat) (remote : DieId) (s : State) : Out :=
  .next (match s.roundOf home task, s.task home task with
    | some r, some t =>
      if !r.asked.contains remote then s
      else
        let reply := s.prepareReply home remote t r.start
        let s := if reply.isNone then
            s.modCal remote fun u => { u with holds := u.holds ++ [⟨home, task, r.start⟩] }
          else s
        s.modCal home fun u =>
          u.setRound { r with asked := r.asked.filter (· != remote), replies := r.replies ++ [(remote, reply)] }
    | _, _ => s)

/-- Removes the holds of a task's round from a die. -/
def State.dropHold (s : State) (on home : DieId) (task : Nat) : State :=
  s.modCal on fun u => { u with holds := u.holds.filter fun x => !(x.home == home && x.task == task) }

/-- Removes a round that has nobody left to tell. -/
def CalUnit.closeRound (u : CalUnit) (task : Nat) : CalUnit :=
  { u with rounds := u.rounds.filter fun r => !(r.task == task && r.outcome.isSome && r.accepted.isEmpty) }

/-- XDIE_REPLY: a reply reaches the home die; the last one decides between commit and abort (08 R216)
(in part DEDUCED, log 40). -/
def execXdieReply (home : DieId) (task : Nat) (remote : DieId) (s : State) : Out :=
  .next (match s.roundOf home task with
    | none => s
    | some r =>
      match r.replies.find? fun x => x.1 == remote with
      | none => s
      | some x =>
        let r := { r with replies := r.replies.filter fun y => y.1 != remote
                          accepted := if x.2.isNone then r.accepted ++ [remote] else r.accepted
                          refused := (match x.2, r.refused with
                            | some a, some b => some (max a b)
                            | some a, none => some a
                            | none, b => b) }
        if !(r.asked.isEmpty && r.replies.isEmpty) then s.modCal home fun u => u.setRound r
        else
          let ready := (match s.task home task with | some t => t.st == .ready | none => false)
          let go := r.refused.isNone && ready && s.slot < r.start
          let s := s.dropHold home home task
          let s := if go then s.modCal home fun u => u.book task r.start
            else s.modTask home task fun t => { t with tmin := r.refused.getD 0 }
          s.modCal home fun u => (u.setRound { r with outcome := some go }).closeRound task)

/-- The end of a round reaches a die: its hold becomes the booking, or goes. -/
def State.endRound (s : State) (home : DieId) (task : Nat) (remote : DieId) (commit : Bool) : State :=
  match s.roundOf home task with
  | none => s
  | some r =>
    if r.outcome = some commit ∧ r.accepted.contains remote then
      (s.dropHold remote home task).modCal home fun u =>
        (u.setRound { r with accepted := r.accepted.filter (· != remote) }).closeRound task
    else s

/-- XDIE_COMMIT: the commit reaches a die. -/
def execXdieCommit (home : DieId) (task : Nat) (remote : DieId) (s : State) : Out := .next (s.endRound home task remote true)
/-- XDIE_ABORT: the abort reaches a die. -/
def execXdieAbort (home : DieId) (task : Nat) (remote : DieId) (s : State) : Out := .next (s.endRound home task remote false)

/-! ## Start, overrun, compaction -/

/-- GANG_START: at BOOKSTART the gang is released, once its harts are stopped and have no copy outstanding (08 R208, R217). -/
def execGangStart (d : DieId) (task : Nat) (s : State) : Out :=
  .next (match s.task d task with
    | none => s
    | some t =>
      match t.hdr with
      | none => s
      | some h =>
        let free (m : HartId) : Bool :=
          let x := s.hart m
          if t.remainder then x.gang == some (d, task) else x.gang.isNone && x.run == .stopped && x.tags.busy == 0
        if t.st == .booked && t.bookStart ≤ s.slot && !s.dev.tripped && (if t.remainder then t.members else h.harts').all free then
          s.startGang d t h
        else s)

/-- OVERRUN: CALSLOT has reached BOOKEND before the task has ended (08 R221). -/
def execOverrun (d : DieId) (task : Nat) (s : State) : Out :=
  .next (match s.task d task with
    | some t => if t.st == .running && t.bookEnd ≤ s.slot then s.overrunGang d task else s
    | none => s)

/-- The bookings that a compaction takes, in order of BOOKSTART. -/
def CalUnit.movable (u : CalUnit) (d : DieId) : List Nat :=
  ((u.tasks.filter fun t => t.movable d).mergeSort fun a b => a.bookStart ≤ b.bookStart).map Task.num

/-- The first compaction called for before this cycle begins, when none runs (08 R223). -/
def CalUnit.beginCompaction (u : CalUnit) (d : DieId) (cyc : Nat) : CalUnit :=
  match u.compaction, u.calls with
  | none, k :: rest => if k.at_ < cyc then { u with compaction := some ⟨k.hart, u.movable d, 0⟩, calls := rest } else u
  | _, _ => u

/-- A compaction is over: a COMPACT that waits for it has its answer (08 R223, R226). -/
def CalUnit.endCompaction (u : CalUnit) (k : Compaction) : CalUnit :=
  { u with compaction := none, answers := u.answers ++ k.hart.toList.map fun h => (h, k.moved) }

/-- A compaction searches its next booking, with the state of this cycle, or is over (08 R223). -/
def State.compactNext (s : State) (d : DieId) (k : Compaction) : State :=
  match k.left.dropWhile fun n => !(s.task d n).any (·.movable d) with
  | [] => s.modCal d fun u => u.endCompaction k
  | n :: rest =>
    match s.task d n with
    | none => s
    | some t =>
      let found := s.search d t s.cycle
      s.modCal d fun u => { u.searching .move t found s.cycle with compaction := some { k with left := rest } }

/-- COMPACTION: once the unit's search has ended, a compaction that was called for begins, or the one that runs goes on by one
search (08 R223) (in part DEDUCED, log 39). -/
def execCompaction (d : DieId) (s : State) : Out :=
  .next (if s.cycle < (s.die d).cal.busy || !(s.die d).cal.compactDue s.cycle then s
    else
      let s := (s.endSearch d).modCal d fun u => u.beginCompaction d s.cycle
      match (s.die d).cal.compaction with
      | some k => s.compactNext d k
      | none => s)

/-! ## LAUNCH, BOOK, BOOKQ, UNBOOK, COMPACT -/

/-- The alignment check of a header address (08 R225). -/
def withHeader (s : State) (va : Word) (k : Eff) : Eff :=
  if va.toNat % 256 ≠ 0 then .trap s { cause := 0x04, eaddr := va } else k

/-- The home die that a CMASK gives (08 R204). -/
def homeOfMask (m : Nat) : Option DieId := ((List.finRange 128).find? fun c => m.testBit c.val).map ClusterId.die

/-- LAUNCH (08 R226). -/
def execLaunch (f : Fields) (s : State) : Out :=
  let va := s.rs f.a
  commit (withHeader s va
    (scalarLoad s 8 va fun s w0 =>
      scalarLoad s 8 (va + 0x20) fun s m0 =>
        scalarLoad s 8 (va + 0x28) fun s m1 =>
          let home := (homeOfMask (m0 + m1 <<< 64)).getD s.cur.die
          let level := if f.modBit 42 then f.modField 45 43 else w0 % 8
          let r := s.enqueue home va level s.me.ptbase s.me.asid s.me.tr.tvec none
          .done (r.1.ws f.d (match r.2 with | .ok n => BitVec.ofNat 64 n | .error c => failCode c))))

/-- The rounds of a BOOK (08 R216, R226): the slot found, or the code of the failure. -/
def State.bookRounds (s : State) (d : DieId) (t : Task) (now : Nat) : Nat → Nat → Except Nat Nat
  | 0, _ => .error 0x07
  | k + 1, lo =>
    match s.earliest d d t now lo with
    | none => .error 0x0D
    | some start =>
      let replies := (t.dies.filter (· != d)).map fun r => s.prepareReply d r t start
      if replies.all Option.isNone then .ok start
      else State.bookRounds s d t now k (replies.foldl (fun a r => max a (r.getD 0)) start)

/-- What BOOK and BOOKQ find (08 R226): the checked task under a number, and its slot; or the code of the failure. -/
abbrev BookFound := Except Nat (Task × Nat)

/-- The search of a BOOK or BOOKQ in this cycle, by the calendar unit of its home die (08 R213, R216). -/
def State.bookFind (s : State) (home : DieId) (t : Task) : State × BookFound :=
  let s' := s.modCal home fun u => u.searching .book t none s.cycle
  if (s.die home).cal.bookingsFull then (s', .error 0x0D)
  else
    match s.searchLow home t s.cycle with
    | none => (s', .error 0x0C)
    | some lo =>
      (s', (s.bookRounds home t s.slot (if t.crossDie home then 8 else 1) lo).map fun start => (t, start))

/-- BOOK and BOOKQ up to what they find, with the home die (08 R226): the search waits until the calendar unit is free. A number
that BOOK takes and frees is used up in the order of R204 (in part DEDUCED, log 38). -/
def withBooking (s0 : State) (va tmin : Word) (num : Bool) (k : State → DieId → BookFound → Eff) : Eff :=
  let x := taskCtx s0.me.ptbase s0.me.asid s0.cur.die
  let m := calRead s0 x (va + 0x20) 16
  let s := m.1
  let home := ((m.2.map ofBytes).bind homeOfMask).getD s.cur.die
  match (if num then (s.die home).cal.nextNum else some 0) with
  | none => k s home (.error 0x0E)
  | some n =>
    let s := if num then s.modCal home fun u => { u with lastNum := n } else s
    match dispatch s { x with die := home } va none with
    | (s, .refused c _) => k s home (.error c)
    | (s, .ok h claims streams) =>
      let t := (Task.queued n va h.prio s.slot s.me.ptbase s.me.asid s.me.tr.tvec none).checked h claims streams
      let t := { t with reserved := true, tmin := tmin.toNat, st := .ready }
      if 64 ≤ (s.die home).cal.ready.length || !s.readyOk home t then k s home (.error 0x0C)
      else if !(s.die home).cal.idle s.cycle then .wait s0 .other
      else
        let r := s.bookFind home t
        k r.1 home r.2

/-- The page of a header is checked as a load (08 R225). -/
def withHeaderPage (s : State) (va : Word) (k : State → Eff) : Eff :=
  withHeader s va (match checkAccess s s.ctx .load va with
    | (s, .bad c _) => .trap s { cause := c, eaddr := va }
    | (s, .ok _ _) => k s)

def execBook (f : Fields) (s : State) : Out :=
  commit (withHeaderPage s (s.rs f.a) fun s => withBooking s (s.rs f.a) (s.rs f.b) true fun s d found =>
    match found with
    | .error c => .done (s.ws f.d (failCode c))
    | .ok (t, start) =>
      let s := s.modCal d fun u => { u with tasks := u.tasks ++ [t.booked start] }
      .done (s.ws f.d (BitVec.ofNat 64 (t.num <<< 48 + start % 2 ^ 48))))

def execBookq (f : Fields) (s : State) : Out :=
  commit (withHeaderPage s (s.rs f.a) fun s => withBooking s (s.rs f.a) (s.rs f.b) false fun s _ found =>
    match found with
    | .error c => .done (s.ws f.d (failCode c))
    | .ok (_, start) => .done (s.ws f.d (BitVec.ofNat 64 start)))

/-- UNBOOK (08 R226) (in part DEDUCED, log 41). -/
def execUnbook (f : Fields) (s : State) : Out :=
  let d := s.cur.die
  let n := (s.rs f.a).toNat
  commit (match s.task d n with
    | none => .done (s.ws f.d (failCode 0))
    | some t =>
      let st := t.st.code
      if (1 ≤ st ∧ st ≤ 3) ∨ ((st = 4 ∨ st = 5) ∧ s.me.status.sys) then
        let c := s.cellOf d t
        .done ((c.1.ws f.d (BitVec.ofNat 64 st)).endTask d n 0x09 false true c.2)
      else .done (s.ws f.d (failCode st)))

/-- The hart has called for a compaction that has not answered it yet. -/
def CalUnit.called (u : CalUnit) (h : HartId) : Bool :=
  u.calls.any (·.hart == some h) || u.compaction.any (·.hart == some h)

/-- COMPACT (08 R226): it calls for a compaction, and waits until it is over (in part DEDUCED, log 39). -/
def execCompact (f : Fields) (s : State) : Out :=
  let d := s.cur.die
  let u := (s.die d).cal
  commit (match u.answers.find? fun x => x.1 == s.cur with
    | some x =>
      .done ((s.modCal d fun u => { u with answers := u.answers.filter fun x => x.1 != s.cur }).ws f.d (BitVec.ofNat 64 x.2))
    | none =>
      if u.called s.cur then .wait s .other
      else .wait (s.modCal d fun u => { u with calls := u.calls ++ [⟨some s.cur, s.cycle⟩] }) .other)

/-! ## GBAR, TDONE, SLACKRD, CALRD, YIELDT -/

/-- The scope of GBAR: the die, or the device for a gang on several dies. -/
def Task.barScope (t : Task) : Nat :=
  match t.hdr with
  | some h => if (h.clusters.map ClusterId.die).eraseDups.length ≤ 1 then 2 else 3
  | none => 3

/-- Whether a member has reached its `n`-th GBAR. -/
def Hart.reached (x : Hart) (n : Nat) : Bool := n ≤ x.gbars + x.gbarHere.toNat

/-- GBAR (08 R226): as MBAR, then until every member still in the gang has reached the same one
(in part DEDUCED, log 41). -/
def execGbar (f : Fields) (s : State) : Out :=
  commit (match s.taskOf s.cur with
    | none => illegalWord s 0xB05 f
    | some t =>
      match s.barHold t.barScope with
      | some w => .wait s w
      | none =>
        let n := s.me.gbars + 1
        let s := s.modMe fun h => { h with gbarHere := true }
        if t.members.all fun m => (s.hart m).reached n then
          .done (s.modMe fun h => { h with gbars := n, gbarHere := false })
        else .wait s .gbar)

/-- The running hart leaves its gang: the last member ends the task, as does the leader from Overrun's handler (08 R221,
R226). -/
def State.taskLeft (s : State) (d : DieId) (t : Task) : State :=
  let n := t.num
  let me := s.cur
  let cell := (match t.hdr with | some h => h.cell | none => 0)
  if t.overrun && t.awaiting.contains me then s.endTask d n 0x0A false false cell
  else
    let s := (s.leaveGang me).modTask d n fun t =>
      { t with members := t.members.filter (· != me), awaiting := t.awaiting.filter (· != me) }
    match s.task d n with
    | none => s
    | some t => if t.members.isEmpty then s.endTask d n 0 false false cell else s.modCal d fun u => u.rejoin n s.slot

/-- The leader's TDONE leaves the task's status. -/
def State.taskDone (s : State) (d : DieId) (t : Task) (status : Word) : State :=
  let n := t.num
  let me := s.cur
  let s := if t.allMembers.head? = some me then
      s.modTask d n fun t => { t with status := some (status.setWidth 16) } else s
  s.taskLeft d t

/-- TDONE (08 R226) (in part DEDUCED, log 41). -/
def execTdone (f : Fields) (s : State) : Out :=
  commit (match s.me.gang, s.taskOf s.cur with
    | some (d, _), some t =>
      (match s.barHold 3 with
        | some w => .wait s w
        | none => .done (s.taskDone d t (s.rs f.a)))
    | _, _ => illegalWord s 0xB06 f)

/-- HALT (04 R88). A halted hart holds no booked resource: a gang member that halts in its handler leaves its gang as with TDONE,
and with it the hold of R208 (in part DEDUCED, log 62). -/
def execHalt (_f : Fields) (s : State) : Out :=
  let s0 := s.drainStores s.cur
  commit (withSys s (.done ((match s0.me.gang, s0.taskOf s.cur with
    | some (d, _), some t =>
      (s0.modTask d t.num fun t => { t with halted := t.halted ++ [s.cur] }).taskLeft d t
    | _, _ => s0).modMe Hart.halted)))

/-- SLACK of the running hart: the gang's remaining slack and its own charges (08 Table 8.10). -/
def State.slackRemain (s : State) (h : HartId) : Nat := match s.taskOf h with | some t => min t.remain (2 ^ 32 - 1) | none => 0

def execSlackrd (f : Fields) (s : State) : Out :=
  commit (.done (s.ws f.d (if f.modBit 42 then s.me.cal.slackOwn.setWidth 64 else BitVec.ofNat 64 (s.slackRemain s.cur))))

def execCalrdSlot (f : Fields) (s : State) : Out := commit (.done (s.ws f.d (BitVec.ofNat 64 s.slot)))

/-- The calendar that CALRD reads for a resource: its own die's when the resource is of that die, else that of the resource's
lowest die (in part DEDUCED, log 41). -/
def Resource.readOn (r : Resource) (d : DieId) : DieId := if r.dies.contains d then d else r.dies.head?.getD d

/-- CALRD.occ (08 R226): the resource is laid out as a claim's class and first index; tentative holds are no bookings
(in part DEDUCED, log 41). -/
def execCalrdOcc (f : Fields) (s : State) : Out :=
  let r : Resource := (wbits (s.rs f.a) 7 0, wbits (s.rs f.a) 23 8)
  let off := f.imm.toNat
  commit (if 4032 < off ∨ !indexOk r.1 r.2 then illegalWord s 0xB08 f
    else .done (s.ws f.d (BitVec.ofNat 64 ((List.range 64).foldl (fun a i =>
      a + (s.bookedOn (r.readOn s.cur.die) (0, 0) r (s.slot + off + i)).toNat <<< i) 0))))

/-- CALRD.task (08 R226). A number whose task has no booking has no BOOKSTART: that field is free
(in part DEDUCED, log 41). -/
def execCalrdTask (f : Fields) (s : State) : Out :=
  let t := s.task s.cur.die (s.rs f.a).toNat
  let st := (match t with | some t => t.st.code | none => 0)
  let code := (match t with | some t => t.code | none => 0)
  let has : Bool := (match t with | some t => t.st == .booked || t.st == .running || t.st == .suspended | none => false)
  let start := (match t with
    | some t => if has then t.bookStart % 2 ^ 48 else (Config.noBookStart s.freeCtr).toNat
    | none => (Config.noBookStart s.freeCtr).toNat)
  let s := if has then s else { s with freeCtr := s.freeCtr + 1 }
  commit (.done (s.ws f.d (BitVec.ofNat 64 (start <<< 16 + code <<< 8 + st))))

/-- What is left of a claim that ends `el` slots after the start; the resource stays claimed for the slack tail
(in part DEDUCED, log 41). -/
def Claim.cut (c : Claim) (el : Nat) : List Claim :=
  if c.period = 0 then [{ c with length := min c.length (el - c.offset), period := 0, count := 0 }]
  else
    let whole := if el < c.offset + c.length then 0 else (el - c.offset - c.length) / c.period + 1
    let n := if c.count = 0 then whole else min whole c.count
    let next := c.offset + n * c.period
    let part := if c.exists_ n then el - next else 0
    (if n = 0 then [] else [{ c with count := n }]) ++
      [{ c with offset := next, length := min c.length part, period := 0, count := 0 }]

/-- The remaining claims that YIELDT leaves of a claim: from the next slot on, or all of it while the gang is suspended, whose
claims are those of its remainder (08 R222, R226) (in part DEDUCED, log 41). -/
def Task.yielded (t : Task) (slot : Nat) (c : Claim) : List Claim :=
  if t.st = .suspended then [{ c with offset := 0, length := 0, period := 0, count := 0 }] else c.cut (slot + 1 - t.bookStart)

/-- YIELDT (08 R226). -/
def execYieldt (f : Fields) (s : State) : Out :=
  let m := s.rs f.a
  commit (match s.me.gang, s.taskOf s.cur with
    | some (d, n), some t =>
      if t.leader ≠ some s.cur ∨ wbits m 63 9 ≠ 0 then illegalWord s 0xB09 f
      else .done (s.modTask d n fun t =>
        { t with claims := t.claims.flatMap fun c =>
            if m.getLsbD c.cls then t.yielded s.slot c else [c] })
    | _, _ => illegalWord s 0xB09 f)

end Sys2Proof.Machine
end

