-- ==== Sys2Proof/Machine/Exchange.lean ====
section
/-!
DEFINITION. Class 0xE (13 R338 to R347): graphs, collectives and point-to-point messages, and the steps that the
dispatcher, the edge gateways and the exchange engines take for them.
-/

namespace Sys2Proof.Machine

/-! ## Reading descriptors -/

/-- Why a graph or a collective is not accepted. -/
inductive XErr where
  | fail (c : Nat)
  /-- A cause with its EADDR; none where EADDR holds the instruction's word (02 R34). -/
  | cause (c : Nat) (ea : Option Word)
  | wait
  | nowhere (pa : Nat)
  deriving DecidableEq, Repr

/-- How an instruction ends on one. -/
def XErr.eff (e : XErr) (s : State) (opc : BitVec 12) (f : Fields) : Eff :=
  match e with
  | .fail c => .done (s.ws f.d (failCode c))
  | .cause c (some ea) => .trap s { cause := c, eaddr := ea }
  | .cause c none => .trap s { cause := c, eaddr := (packWord opc f).setWidth 64 }
  | .wait => .wait s .copy
  | .nowhere pa => .fault (.noSuchAddress pa)

/-- The first failed check of a run, in the order of its lines. -/
def Piece.err (p : Piece) : Option XErr :=
  match p with
  | .bad _ c _ va => some (.cause c (some va))
  | .nowhere pa => some (.nowhere pa)
  | .ok _ _ _ => none

/-- Bytes of a descriptor (13 R347), read for a hart or for a graph start from a host. A hart's read waits for copies, and of
a DISC page sets DREAD (in part DEDUCED, log 52). -/
def descRead (s : State) (x : MemCtx) (h : Option HartId) (va : Word) (n : Nat) : State × Except XErr (List Byte) :=
  let r := checkRun s x true va n
  match r.2.findSome? Piece.err with
  | some e => (r.1, .error e)
  | none =>
    if h.isSome && r.1.held true r.2 then (r.1, .error .wait)
    else
      let disc := r.2.any fun p => match p with | .ok _ _ e => readsZero e.leaf | _ => false
      let s := (match h with
        | some h => if disc then r.1.modHart h fun y => { y with status := { y.status with dread := true } } else r.1
        | none => r.1)
      (s, .ok (r.2.flatMap fun p => match p with
        | .ok pa n e =>
          if readsZero e.leaf then List.replicate n 0
          else (match h with | some h => s.bytesFor h pa n | none => s.bytes pa n)
        | _ => []))

/-! ## Collectives: descriptors and slots (13 R340) -/

def State.coll (s : State) (c : ClusterId) (k : Fin 8) : CollSlot := (s.cluster c).coll[k]
def State.modColl (s : State) (c : ClusterId) (k : Fin 8) (f : CollSlot → CollSlot) : State :=
  s.modCluster c fun x => { x with coll := x.coll.set k (f x.coll[k]) }

/-- Bytes of an element. -/
def CollDesc.eb (d : CollDesc) : Nat := redBytes d.int d.type
/-- The bytes of a rank's share (13 R341). -/
def CollDesc.share (d : CollDesc) : Nat := d.count * d.eb
/-- Bytes of DST. -/
def CollDesc.dstBytes (d : CollDesc) : Nat :=
  match d.op with
  | 1 => d.ranks * d.share
  | 2 => d.share / d.ranks
  | _ => d.share
/-- NSTEP (13 R341). -/
def CollDesc.nstep (d : CollDesc) : Nat := (d.share + d.stepb - 1) / d.stepb

/-- A descriptor without its peers, and whether its fields are within 13 Table 13.2, those shown as "—" ignored (00 R3)
(in part DEDUCED, log 52). -/
def parseColl (l : List Byte) : CollDesc × Bool :=
  let w0 := wordIn l 0
  let w3 := wordIn l 24
  let w4 := wordIn l 32
  let w6 := wordIn l 48
  let d : CollDesc :=
    { op := bits w0 2 0, rop := bits w0 4 3, type := bits w0 8 5, int := bits w0 9 9 == 1, ranks := bits w0 17 10 + 1,
      rank := bits w0 25 18, src := wordIn l 8, dst := wordIn l 16, count := bits w3 31 0, stepb := w3 >>> 32,
      grace := bits w4 11 0, rate := bits w4 31 16, gate := BitVec.ofNat 32 w6, peersAt := BitVec.ofNat 64 (wordIn l 40),
      peers := [] }
  (d,
    d.op ≤ 4 && d.rop ≤ 2 && (d.op == 0 || d.op == 2 || d.rop == 0) &&
    (if d.int then d.type == 5 else d.type == 4 || d.type == 5 || d.type == 8) && d.rank < d.ranks &&
    locatorOk d.src && locatorOk d.dst && 1 ≤ d.count && d.count ≤ 2 ^ 24 && d.stepb % 64 == 0 && 4096 ≤ d.stepb &&
    d.stepb ≤ 1048576 && 1 ≤ d.rate &&
    ((d.op != 2 && d.op != 4) || d.count % d.ranks == 0))

/-- The peer identifiers, as package and cluster, and whether their zero bits are zero. -/
def parsePeers (l : List Byte) : List (Nat × Nat) × Bool :=
  let ws := (chunks 4 l.length l).map ofBytes
  (ws.map fun w => (bits w 22 7, bits w 6 0), ws.all fun w => w >>> 23 == 0)

/-- Whether SRC and DST of a descriptor of a cluster lie apart. -/
def CollDesc.apart (d : CollDesc) (c : ClusterId) : Bool :=
  let a := locator c d.src
  let b := locator c d.dst
  a.1 != b.1 || a.2 + d.share ≤ b.2 || b.2 + d.dstBytes ≤ a.2

/-- Reads and checks a collective descriptor (13 R340, R347) for a cluster, or for the one it names as its own rank. -/
def readColl (s : State) (x : MemCtx) (h : Option HartId) (c : Option ClusterId) (va : Word) :
    State × Except XErr (ClusterId × CollDesc) :=
  if va.toNat % 64 ≠ 0 then (s, .error (.cause 0x04 (some va)))
  else
    match descRead s x h va 128 with
    | (s, .error e) => (s, .error e)
    | (s, .ok l) =>
      let p := parseColl l
      if !p.2 then (s, .error (.cause 0x01 none))
      else
        match descRead s x h p.1.peersAt (4 * p.1.ranks) with
        | (s, .error e) => (s, .error e)
        | (s, .ok l) =>
          let q := parsePeers l
          let d := { p.1 with peers := q.1 }
          let own := d.peers.getD d.rank (0, 0)
          let at_ := Fin.ofNat 128 own.2
          (s, if q.2 && own.1 == s.dev.pkgNum.toNat && (c == none || c == some at_) && d.apart at_ then .ok (at_, d)
              else .error (.cause 0x01 none))

/-- The lowest unbound slot of a cluster that is not among those already taken. -/
def State.freeSlot (s : State) (c : ClusterId) (taken : List (ClusterId × Fin 8)) : Option (Fin 8) :=
  (List.finRange 8).find? fun k => (s.coll c k).st == .unbound && !taken.contains (c, k)

/-- A slot as it is bound. -/
def CollSlot.bind (d : CollDesc) (owner : HartId) (gang : Option (DieId × Nat)) : CollSlot :=
  { CollSlot.reset with st := .bound, desc := some d, owner := owner, gang := gang }

/-- A slot started by CSTART or by a graph (13 R342, R347). -/
def CollSlot.start (x : CollSlot) : CollSlot :=
  { x with st := .running, fixed := x.contrib, waitFrom := none,
           step := if x.st = .done then 0 else x.step, flags := if x.st = .done then 0 else x.flags }

def CollState.code : CollState → Nat
  | .unbound => 0 | .bound => 1 | .running => 2 | .waiting => 3 | .done => 4 | .aborted => 5

/-- RUNNING, WAITING included (13 R347). -/
def CollState.runs (x : CollState) : Bool := x == .running || x == .waiting
/-- The slot may be started, and its contribution changed. -/
def CollState.rests (x : CollState) : Bool := x == .bound || x == .done

/-! ## Graphs (13 R338, R339) -/

/-- A node entry and whether it is legal in a graph of `n` nodes; here and in the header a field shown as "—" is ignored
(00 R3) (in part DEDUCED, log 52). -/
def parseNode (n : Nat) (l : List Byte) : GNode × Bool :=
  let w0 := wordIn l 0
  let succ := BitVec.ofNat 256 (ofBytes ((l.drop 16).take 32))
  ({ coll := bits w0 1 0 == 1, desc := BitVec.ofNat 64 (wordIn l 8), succ := succ, preds := bits w0 9 2, phase := .waiting,
     slot := none },
    bits w0 1 0 ≤ 1 && succ.toNat >>> n == 0)

/-- The nodes that name a node as a successor. -/
def predsOf (l : List GNode) (m : Nat) : List GNode := l.filter fun x => x.succ.getLsbD m

/-- What is left after `k` rounds that each drop the nodes with no predecessor left: some node, when the edges have a
cycle. -/
def peelNodes (l : List GNode) : Nat → List Nat → List Nat
  | 0, r => r
  | k + 1, r => peelNodes l k (r.filter fun m => r.any fun p =>
      match l[p]? with | some x => x.succ.getLsbD m | none => false)

/-- GLOAD's checks of the edges. -/
def edgesOk (l : List GNode) : Bool :=
  ((List.range l.length).all fun m => (predsOf l m).length == (match l[m]? with | some x => x.preds | none => 0)) &&
    (peelNodes l l.length (List.range l.length)).isEmpty

/-- Reads and checks a graph descriptor: its nodes and its cell (in part DEDUCED, log 52). -/
def readGraph (s : State) (x : MemCtx) (h : Option HartId) (va : Word) : State × Except XErr (List GNode × Word) :=
  match descRead s x h va 64 with
  | (s, .error e) => (s, .error e)
  | (s, .ok l) =>
    let n := bits (wordIn l 0) 7 0
    if n = 0 then (s, .error (.cause 0x01 none))
    else
      match descRead s x h (va + 64) (64 * n) with
      | (s, .error e) => (s, .error e)
      | (s, .ok l') =>
        let ns := (chunks 64 l'.length l').map (parseNode n)
        (s, if ns.all (·.2) && edgesOk (ns.map (·.1)) then .ok (ns.map (·.1), BitVec.ofNat 64 (wordIn l 8))
            else .error (.cause 0x01 none))

/-- Chooses a slot for every collective node, in order (13 R347) (in part DEDUCED, log 52). -/
def chooseSlots (x : MemCtx) (h : Option HartId) :
    List GNode → State → List (ClusterId × Fin 8) → State × Except XErr (List (GNode × Option CollDesc))
  | [], s, _ => (s, .ok [])
  | g :: rest, s, taken =>
    if !g.coll then
      match chooseSlots x h rest s taken with
      | (s, .ok l) => (s, .ok ((g, none) :: l))
      | (s, .error e) => (s, .error e)
    else
      match readColl s x h none g.desc with
      | (s, .error e) => (s, .error e)
      | (s, .ok (c, d)) =>
        match s.freeSlot c taken with
        | none => (s, .error (.fail 0x02))
        | some k =>
          match chooseSlots x h rest s ((c, k) :: taken) with
          | (s, .ok l) => (s, .ok (({ g with slot := some (c, k) }, some d) :: l))
          | (s, .error e) => (s, .error e)

def State.graph (s : State) (d : DieId) (g : Fin 16) : Graph := (s.die d).graphs[g]
def State.modGraph (s : State) (d : DieId) (g : Fin 16) (f : Graph → Graph) : State :=
  s.modDie d fun x => { x with graphs := x.graphs.set g (f x.graphs[g]) }

def Graph.setPhase (y : Graph) (i : Nat) (p : NodePhase) : Graph :=
  { y with nodes := y.nodes.modify i fun n => { n with phase := p } }

/-- Starts a slot for a graph node; a slot that may not be started fails the node (in part DEDUCED, log 52). -/
def State.startNode (s : State) (d : DieId) (g : Fin 16) (i : Nat) (c : ClusterId) (k : Fin 8) : State :=
  if (s.coll c k).st.rests then
    (s.modColl c k fun x => { x.start with node := some (d, g, i) }).modGraph d g fun y => y.setPhase i .launched
  else s.nodeEnds (d, g, i) true

/-- Launches a node (13 R339): a task is placed in the queue of its home die, as LAUNCH places it; one that finds no room or
no number is pending. A header that cannot be read goes to the queue of the graph's own die, whose dispatcher refuses it
(in part DEDUCED, log 52). -/
def State.launchNode (s : State) (d : DieId) (g : Fin 16) (i : Nat) : State :=
  let y := s.graph d g
  match y.nodes[i]? with
  | none => s
  | some n =>
    match n.slot with
    | some (c, k) => s.startNode d g i c k
    | none =>
      if n.desc.toNat % 256 ≠ 0 then s.nodeEnds (d, g, i) true
      else
        let x := taskCtx y.ptbase y.asid d
        let r := calRead s x n.desc 256
        let level := (match r.2 with | some l => bits (wordIn l 0) 2 0 | none => 0)
        let home := ((r.2.map fun l => wordIn l 0x20 + wordIn l 0x28 <<< 64).bind homeOfMask).getD d
        match r.1.enqueue home n.desc level y.ptbase y.asid y.tvec (some (d, g, i)) with
        | (s, .ok _) => s.modGraph d g fun y => y.setPhase i .launched
        | (s, .error _) => s.modGraph d g fun y => y.setPhase i .pending

/-- Loads and starts a graph on a die (13 R347): its number (in part DEDUCED, log 52). -/
def State.loadGraph (s : State) (d : DieId) (x : MemCtx) (h : Option HartId) (tvec va : Word) : State × Except XErr Nat :=
  match (List.finRange 16).find? fun g => !(s.graph d g).used with
  | none => (s, .error (.fail 0x01))
  | some g =>
    if va.toNat % 64 ≠ 0 then (s, .error (.cause 0x04 (some va)))
    else
      match readGraph s x h va with
      | (s, .error e) => (s, .error e)
      | (s, .ok (ns, cell)) =>
        match chooseSlots x h ns s [] with
        | (s, .error e) => (s, .error e)
        | (s, .ok l) =>
          let s := l.foldl (fun (s : State) n =>
            match n.1.slot, n.2 with
            | some (c, k), some desc => s.modColl c k fun _ => CollSlot.bind desc (hartOf c 0) none
            | _, _ => s) s
          let s := s.modGraph d g fun _ =>
            { used := true, cell := cell, nodes := l.map (·.1), failed := none, ptbase := x.ptbase, asid := x.asid, tvec := tvec }
          let first := (List.range l.length).filter fun i => match l[i]? with | some n => n.1.preds == 0 | none => false
          (first.foldl (fun (s : State) i => s.launchNode d g i) s, .ok g.val)

/-- GLOAD (13 R347). -/
def execGload (f : Fields) (s : State) : Out :=
  commit (withSys s
    (match s.loadGraph s.cur.die s.ctx (some s.cur) s.me.tr.tvec (s.rs f.a) with
      | (s, .ok g) => .done (s.ws f.d (BitVec.ofNat 64 g))
      | (s, .error e) => e.eff s 0xE00 f))

/-- GSADDR_WRITE: a graph start through GSADDR, its result in GSRESULT (13 R349). GSPTBASE is used as a PTBASE
(06 Table 6.1). -/
def execGsaddrWrite (d : DieId) (va : Word) (s : State) : Out :=
  let y := s.die d
  match s.loadGraph d (taskCtx (ptbaseBits y.gsptbase) y.gsasid d) none y.gstvec va with
  | (s, .ok g) => .next (s.modDie d fun x => { x with gsresult := BitVec.ofNat 64 g })
  | (s, .error (.fail c)) => .next (s.modDie d fun x => { x with gsresult := failCode c })
  | (s, .error (.cause c _)) => .next (s.modDie d fun x => { x with gsresult := BitVec.ofNat 64 (2 ^ 62 + c) })
  | (s, .error .wait) => .next s
  | (_, .error (.nowhere pa)) => .fault (.noSuchAddress pa)

/-- A node may be launched: it waits, its predecessors have ended normally, and its graph has not failed. -/
def Graph.due (y : Graph) (i : Nat) : Bool :=
  y.used && y.failed.isNone &&
  (match y.nodes[i]? with
    | some n => n.phase == .waiting && (predsOf y.nodes i).all fun p => p.phase == .ended
    | none => false)

/-- GRAPH_NODE_LAUNCH (13 R339). -/
def execGraphNodeLaunch (d : DieId) (graph : Fin 16) (node : Nat) (s : State) : Out :=
  .next (if (s.graph d graph).due node then s.launchNode d graph node else s)

/-- GRAPH_PENDING_RETRY: the pending nodes of a graph, which are launched and never dropped, try again in node order
(13 R339). -/
def execGraphPendingRetry (d : DieId) (graph : Fin 16) (s : State) : Out :=
  let y := s.graph d graph
  .next (if !y.used then s
    else (List.range y.nodes.length).foldl (fun (s : State) i =>
      match (s.graph d graph).nodes[i]? with
      | some n => if n.phase == .pending then s.launchNode d graph i else s
      | none => s) s)

/-- Every launched node has ended, the pending ones among them, and no node is left to launch or the graph has failed
(13 R339) (in part DEDUCED, log 52). -/
def Graph.finished (y : Graph) : Bool :=
  y.used && (y.nodes.all fun n => n.phase != .launched && n.phase != .pending) &&
    (y.failed.isSome || y.nodes.all fun n => n.phase == .ended)

/-- GRAPH_COMPLETE: the completion word is written and the number is free again (13 R339) (in part DEDUCED, log 52). -/
def execGraphComplete (d : DieId) (graph : Fin 16) (s : State) : Out :=
  let y := s.graph d graph
  .next (if !y.finished then s
    else
      let v : Word := BitVec.ofNat 64 ((match y.failed with | some i => 2 ^ 63 + i <<< 8 | none => 0) + graph.val)
      let s := if y.cell = 0 then s else (s.writeCell (taskCtx y.ptbase y.asid d) y.cell v).1
      s.modGraph d graph fun _ => Graph.reset)

/-! ## Collectives: ranks and steps (13 R340 to R343) -/

/-- What every rank's descriptor agrees in (in part DEDUCED, log 53). -/
def CollDesc.key (d : CollDesc) : CollDesc := { d with rank := 0, src := 0, dst := 0 }

/-- The slots of a cluster that are bound to a rank of a collective. -/
def State.slotsOf (s : State) (c : ClusterId) (key : CollDesc) (rank : Nat) : List (Fin 8) :=
  (List.finRange 8).filter fun k =>
    let x := s.coll c k
    x.st != .unbound && x.st != .aborted &&
    (match x.desc with | some d => d.key == key && d.rank == rank | none => false)

/-- Whether a running slot of the cluster of rank `r` is the other side of a collective that it describes otherwise: it names
cluster `c` among its own peers, where no slot agrees with it (in part DEDUCED, log 53). -/
def State.disagrees (s : State) (c : ClusterId) (d e : CollDesc) (r : Nat) : Bool :=
  let at_ := (List.range e.peers.length).filter fun i => e.peers.getD i (0, 0) == (s.dev.pkgNum.toNat, c.val)
  (e.rank == r || e.peers != d.peers) && !at_.isEmpty && at_.all fun i => (s.slotsOf c e.key i).isEmpty

/-- The slot of rank `r` of the collective that a slot holds, and whether its descriptor agrees; none while no slot of the
peer takes part. Slots that hold the same collective twice correspond in order (DESIGN CHOICE, log 14). -/
def State.rankSlot (s : State) (c : ClusterId) (k : Fin 8) (d : CollDesc) (r : Nat) : Option ((ClusterId × Fin 8) × Bool) :=
  match d.peers[r]? with
  | none => none
  | some (pkg, cl) =>
    if pkg ≠ s.dev.pkgNum.toNat then none
    else
      let c' : ClusterId := Fin.ofNat 128 cl
      match (s.slotsOf c' d.key r)[(s.slotsOf c d.key d.rank).idxOf k]? with
      | some k' => some ((c', k'), true)
      | none => ((List.finRange 8).find? fun k' =>
          let x := s.coll c' k'
          x.st.runs && x.desc.any fun e => s.disagrees c d e r).map fun k' => ((c', k'), false)

/-- The slots of every rank that is found (in part DEDUCED, log 53). -/
def State.rankSlots (s : State) (c : ClusterId) (k : Fin 8) (d : CollDesc) : List ((ClusterId × Fin 8) × Bool) :=
  (List.range d.ranks).filterMap (s.rankSlot c k d)

/-- A rank is absent while the gang that started it does not run (13 R343) (in part DEDUCED, log 53). -/
def State.rankAbsent (s : State) (x : CollSlot) : Bool :=
  match x.gang with
  | none => false
  | some (d, n) => (match s.task d n with | some t => t.st == .suspended || t.st == .ready || t.st == .booked | none => false)

/-- Whether the owning hart of a rank still has what its slot's completion or abort gives it (13 R340). -/
def State.ownerHere (s : State) (x : CollSlot) : Bool :=
  (s.hart x.owner).run != .stopped && (x.gang.isNone || (s.hart x.owner).gang == x.gang)

/-- EADDR of cause 0x15 (13 Table 13.3). -/
def abortAddr (step : Nat) (k : Fin 8) (abort : Bool) : Word :=
  BitVec.ofNat 64 (step % 2 ^ 24 + k.val <<< 24 + abort.toNat <<< 27)

/-- A rank's owning hart takes cause 0x15 at its next instruction boundary; the slot returns to BOUND, or is ABORTED; a
graph's node fails. -/
def State.abortRank (s : State) (c : ClusterId) (k : Fin 8) (step : Nat) (abort : Bool) : State :=
  let x := s.coll c k
  let s := if s.ownerHere x then
      s.modHart x.owner fun h => { h with pend := h.pend ++ [⟨0x15, abortAddr step k abort, 0⟩] }
    else s
  let s := (match x.node with | some g => s.nodeEnds g true | none => s)
  s.modColl c k fun x =>
    { x with st := if abort then .aborted else .bound, step := step, waitFrom := none, node := none }

/-- Ends a collective early on every rank, with the lowest step that is not finished on every rank (13 R343)
(in part DEDUCED, log 53). -/
def State.abortColl (s : State) (c : ClusterId) (k : Fin 8) (abort : Bool) : State :=
  match (s.coll c k).desc with
  | none => s
  | some d =>
    let l := (s.rankSlots c k d).map (·.1)
    let step := l.foldl (fun a y => min a (s.coll y.1 y.2).step) (s.coll c k).step
    l.foldl (fun (s : State) y => s.abortRank y.1 y.2 step abort) s

/-- Bytes of a Cellar slice; those beyond its end are free values (in part DEDUCED, log 53). -/
def State.sliceRead (s : State) (a : ClusterId × Nat) (n : Nat) : List Byte :=
  (List.range n).map fun i =>
    if a.2 + i < 2 ^ 24 then s.byte (cellarPa a.1 (a.2 + i)) else Config.beyondSlice a.1.val (a.2 + i)

/-- Writes bytes of a Cellar slice, but for those beyond its end; the lines become poisoned when the data is
(in part DEDUCED, log 53). -/
def State.sliceWrite (s : State) (a : ClusterId × Nat) (l : List Byte) (bad : Bool) : State :=
  let l := l.take (2 ^ 24 - a.2)
  if l.isEmpty then s
  else
    let pa := cellarPa a.1 a.2
    let s := s.setBytes pa l
    let lines := (List.range ((pa + l.length - 1) / 64 + 1 - pa / 64)).map (· + pa / 64)
    if bad then s.poisonLines lines else s

/-- Whether a run of a slice holds poisoned data (in part DEDUCED, log 53). -/
def State.slicePoisoned (s : State) (a : ClusterId × Nat) (n : Nat) : Bool :=
  s.poisonedIn (cellarPa a.1 a.2) (min n (2 ^ 24 - a.2))

/-- A locator `off` bytes further on. -/
def locatorAt (c : ClusterId) (loc off : Nat) : ClusterId × Nat := ((locator c loc).1, (locator c loc).2 + off)

/-- The fold of the ranks' elements, in rank order (13 R341). -/
def foldRanks (d : CollDesc) (xs : List (List Byte)) : List Byte × FFlags :=
  let op : RedOp := (match d.rop with | 0 => .add | 1 => .max | _ => .min)
  let elems (l : List Byte) : List Nat := (chunks d.eb l.length l).map ofBytes
  let r : List (Nat × FFlags) :=
    (match xs with
      | [] => []
      | x :: rest => rest.foldl (fun (a : List (Nat × FFlags)) y =>
          (a.zip (elems y)).map fun (p : (Nat × FFlags) × Nat) =>
            let q := redElem op d.int d.type p.1.1 p.2
            (q.1, p.1.2 ||| q.2)) ((elems x).map fun v => (v, 0)))
  let fix (v : Nat) : Nat :=
    if d.int then v else (match fltOf d.type with | .fmt f => if f.isNaN v then f.canonNaN else v | _ => v)
  (r.flatMap fun p => toBytes d.eb (fix p.1), r.foldl (fun a p => a ||| p.2) 0)

/-- The part of bytes [lo, lo + length) that lies in block `q` of `blk` bytes: its offset in the block, and it. -/
def inBlock (blk q lo : Nat) (l : List Byte) : Option (Nat × List Byte) :=
  let a := max lo (q * blk)
  let b := min (lo + l.length) ((q + 1) * blk)
  if a < b then some (a - q * blk, (l.drop (a - lo)).take (b - a)) else none

/-- What a step writes in the DST of rank `q`, from the bytes of every rank's SRC from `lo` on (13 Table 13.2, R341), with the
flags of the folds. -/
def stepWrites (d : CollDesc) (lo : Nat) (src : List (List Byte)) (q : Nat) : List (Nat × List Byte) × FFlags :=
  let blk := d.share / d.ranks
  match d.op with
  | 0 => let r := foldRanks d src; ([(lo, r.1)], r.2)
  | 1 => ((List.range src.length).zip src |>.map fun x => (x.1 * d.share + lo, x.2), 0)
  | 2 => let r := foldRanks d src; ((inBlock blk q lo r.1).toList, r.2)
  | 3 => ([(lo, src.headD [])], 0)
  | _ => (((List.range src.length).zip src).filterMap fun x =>
      (inBlock blk q lo x.2).map fun y => (x.1 * blk + y.1, y.2), 0)

/-- Performs step `n` on every rank (13 R341); the last one fixes the final flag word (13 R342)
(in part DEDUCED, log 53). -/
def State.collStep (s : State) (l : List (ClusterId × Fin 8)) (d : CollDesc) (n : Nat) : State :=
  let lo := n * d.stepb
  let len := min d.stepb (d.share - lo)
  let ds := l.filterMap fun y => (s.coll y.1 y.2).desc.map fun e => (y.1, e)
  let src := ds.map fun y => s.sliceRead (locatorAt y.1 y.2.src lo) len
  let bad := ds.any fun y => s.slicePoisoned (locatorAt y.1 y.2.src lo) len
  let last := l.foldl (fun a y => a ||| (s.coll y.1 y.2).fixed) (0 : BitVec 32)
  let raised := (stepWrites d lo src 0).2
  let s := ds.foldl (fun (s : State) y =>
    (stepWrites d lo src y.2.rank).1.foldl (fun (s : State) w => s.sliceWrite (locatorAt y.1 y.2.dst w.1) w.2 bad) s) s
  l.foldl (fun (s : State) y => s.modColl y.1 y.2 fun x =>
    { x with st := .running, waitFrom := none, step := n + 1, flags := x.flags ||| raised,
             finalOr := if n + 1 = d.nstep then last else x.finalOr }) s

/-- Every present rank waits for the absent ones, its grace counting from the first slot in which it does (13 R343). -/
def State.collWait (s : State) (l : List (ClusterId × Fin 8)) : State :=
  l.foldl (fun (s : State) y =>
    if s.rankAbsent (s.coll y.1 y.2) then s
    else s.modColl y.1 y.2 fun x => { x with st := .waiting, waitFrom := some (x.waitFrom.getD s.slot) }) s

/-- A task has claimed links, die-to-die channels or ports in a slot, an occurrence that begins in it when `first`; in its start
slot it may still be about to start. -/
def Task.linksIn (t : Task) (sl : Nat) (first : Bool) : Bool :=
  t.standing && t.bookStart ≤ sl && t.claims.any fun (c : Claim) =>
    (c.cls == 4 || c.cls == 5 || c.cls == 7) && c.covers (sl - t.bookStart) && (!first || c.begins (sl - t.bookStart))

/-- A slot of cluster `c` is in a claimed occurrence, one that begins in slot `sl` when `first` (13 R343): of the gang that
started it, or, for one that waits to be started, of a gang on the cluster (in part DEDUCED, log 53). -/
def State.occurrence (s : State) (c : ClusterId) (x : CollSlot) (sl : Nat) (first : Bool) : Bool :=
  if x.st.runs then (match x.gang with | some (d, n) => (s.task d n).any fun t => t.linksIn sl first | none => false)
  else s.dies.toList.any fun (d : Die) => d.cal.tasks.any fun t =>
    (match t.hdr with | some h => h.has c | none => false) && t.linksIn sl first

/-- COLLECTIVE_STEP: once every rank has executed CSTART, the lowest unfinished step is performed on all of them; descriptors
that disagree abort the collective, and an absent rank makes the others wait. Within a claimed occurrence the gateways move
the collective once its configuration is active (13 R341, R343). -/
def execCollectiveStep (c : ClusterId) (slot : Fin 8) (s : State) : Out :=
  .next (match (s.coll c slot).desc with
    | none => s
    | some d =>
      let found := s.rankSlots c slot d
      let l := found.map (·.1)
      let runs (y : ClusterId × Fin 8) : Bool :=
        let x := s.coll y.1 y.2
        x.st.runs && (match x.desc with | some e => x.step < e.nstep | none => false)
      if !(s.coll c slot).st.runs || l.length != d.ranks || !l.all runs then s
      else if found.any fun y => !y.2 then s.abortColl c slot true
      else if l.any fun y => !(s.coll y.1 y.2).swapped && s.occurrence y.1 (s.coll y.1 y.2) s.slot false then s
      else if l.any fun y => s.rankAbsent (s.coll y.1 y.2) then s.collWait l
      else s.collStep l d (l.foldl (fun a y => min a (s.coll y.1 y.2).step) (s.coll c slot).step))

/-- COLLECTIVE_COMPLETE: every step is finished; the rank's DST is released (13 R341, R342, R344). -/
def execCollectiveComplete (c : ClusterId) (slot : Fin 8) (s : State) : Out :=
  let x := s.coll c slot
  .next (match x.desc with
    | none => s
    | some d =>
      if !x.st.runs || x.step < d.nstep then s
      else
        let s := if s.ownerHere x then s.modHart x.owner fun h => h.addFlags x.flags else s
        let s := (match x.node with | some g => s.nodeEnds g false | none => s)
        s.modColl c slot fun x => { x with st := .done, contrib := 0, waitFrom := none, node := none })

/-- COLLECTIVE_GRACE_EXPIRY: an absent rank has not returned within GRACE slots (13 R343) (in part DEDUCED, log 53). -/
def execCollectiveGraceExpiry (c : ClusterId) (slot : Fin 8) (s : State) : Out :=
  let x := s.coll c slot
  .next (match x.desc, x.waitFrom with
    | some d, some w =>
      if x.st == .waiting && w + d.grace ≤ s.slot && (s.rankSlots c slot d).any (fun y => s.rankAbsent (s.coll y.1.1 y.1.2))
      then s.abortColl c slot false else s
    | _, _ => s)

/-- CONTEXT_SEQUENCER_SWAP: at the first cycle of a claimed occurrence the gateways' shadow that holds the collective becomes
active, until the occurrence ends (13 R343). -/
def execContextSequencerSwap (c : ClusterId) (slot : Fin 8) (s : State) : Out :=
  .next (if (s.coll c slot).desc.isSome then s.modColl c slot fun x => { x with swapped := true } else s)

/-! ## The collective instructions (13 R347) -/

/-- The check of a slot operand (13 R346). -/
def withCollSlot (opc : BitVec 12) (f : Fields) (s : State) (k : Fin 8 → CollSlot → Eff) : Eff :=
  let v := (s.rs f.a).toNat
  if 8 ≤ v then illegalWord s opc f else k (Fin.ofNat 8 v) (s.coll s.cur.cluster (Fin.ofNat 8 v))

def execGbind (f : Fields) (s : State) : Out :=
  let c := s.cur.cluster
  commit (withSys s
    (match readColl s s.ctx (some s.cur) (some c) (s.rs f.a) with
      | (s, .error e) => e.eff s 0xE01 f
      | (s, .ok (_, d)) =>
        match s.freeSlot c [] with
        | none => .done (s.ws f.d (failCode 0x02))
        | some k => .done ((s.modColl c k fun _ => CollSlot.bind d s.cur s.me.gang).ws f.d (BitVec.ofNat 64 k.val))))

def execGbindFree (f : Fields) (s : State) : Out :=
  commit (withSys s (withCollSlot 0xE01 f s fun k x =>
    if x.st.runs then illegalWord s 0xE01 f else .done (s.modColl s.cur.cluster k fun _ => CollSlot.reset)))

def execCstart (f : Fields) (s : State) : Out :=
  commit (withCollSlot 0xE02 f s fun k x =>
    if !x.st.rests then illegalWord s 0xE02 f
    else .done (s.modColl s.cur.cluster k fun x => { x.start with owner := s.cur, gang := s.me.gang }))

def execCpoll (f : Fields) (s : State) : Out :=
  commit (withCollSlot 0xE03 f s fun _ x =>
    let n := (match x.desc with | some d => d.nstep | none => 0)
    .done (s.ws f.d (BitVec.ofNat 64 (x.st.code + x.step <<< 16 + (min n (2 ^ 24 - 1)) <<< 40))))

/-- The state is checked once: a wait that finds the slot neither DONE nor running any more fails. -/
def execCflagrd (f : Fields) (s : State) : Out :=
  commit (withCollSlot 0xE04 f s fun _ x =>
    match x.st with
    | .unbound => if s.me.inWait then .done (s.ws f.d (failCode 0x15)) else illegalWord s 0xE04 f
    | .bound => if s.me.inWait then .done (s.ws f.d (failCode 0x15)) else illegalWord s 0xE04 f
    | .running => .wait s .flagrd
    | .waiting => .wait s .flagrd
    | .done => .done (s.ws f.d (x.finalOr.setWidth 64))
    | .aborted => .done (s.ws f.d (failCode 0x15)))

def execCflagset (f : Fields) (s : State) : Out :=
  let v := s.rs f.b
  commit (withCollSlot 0xE05 f s fun k x =>
    if wbits v 63 32 ≠ 0 ∨ !x.st.rests then illegalWord s 0xE05 f
    else .done (s.modColl s.cur.cluster k fun x => { x with contrib := x.contrib ||| v.setWidth 32 }))

def execCabort (f : Fields) (s : State) : Out :=
  commit (withCollSlot 0xE06 f s fun k x =>
    if !x.st.runs then illegalWord s 0xE06 f else .done (s.abortColl s.cur.cluster k true))

/-! ## Point-to-point messages (13 R345) -/

/-- Posts one side of a message after its checks (13 R347) (in part DEDUCED, log 54). -/
def postMessage (opc : BitVec 12) (f : Fields) (s : State) (send : Bool) : Eff :=
  let tag := f.xField 5 0
  let len := (s.rs f.c).toNat
  let loc := s.rs f.a
  let peer := s.rs f.b
  let own := s.cur.cluster
  let other : ClusterId := Fin.ofNat 128 (wbits peer 6 0)
  if s.me.tags.busy.getLsbD tag then .trap s { cause := 0x01 }
  else if len % 64 ≠ 0 ∨ len < 64 ∨ 16777216 < len ∨ !locatorOk loc.toNat then illegalWord s opc f
  else if loc.toNat % 64 ≠ 0 then .trap s { cause := 0x04, eaddr := loc }
  else
    let m : Msg :=
      { send := send, src := if send then own else other, dst := if send then other else own, pkg := wbits peer 22 7,
        mtag := BitVec.ofNat 16 (f.immField 15 0), hart := s.cur, tag := tag, loc := loc, len := len, mate := none,
        faulted := false }
    .done ((s.modCluster own fun c => { c with msgs := c.msgs ++ [m] }).modMe fun h => h.tagRunning tag)

def execXsend (f : Fields) (s : State) : Out := commit (postMessage 0xE07 f s true)
def execXrecv (f : Fields) (s : State) : Out := commit (postMessage 0xE08 f s false)

/-- Whether a posted side belongs to the messages from one cluster of the package to another under a message tag
(DESIGN CHOICE, log 14, in part DEDUCED, log 54). -/
def Msg.of (m : Msg) (send : Bool) (src dst : ClusterId) (mtag : BitVec 16) (pkg : Nat) : Bool :=
  m.send == send && m.src == src && m.dst == dst && m.mtag == mtag && m.pkg == pkg && !m.faulted

/-- A posted side that is not matched and that holds this hart's tag is changed. -/
def Cluster.modMsg (c : Cluster) (m : Msg) (f : Msg → Msg) : Cluster :=
  { c with msgs := c.msgs.map fun x => if x.hart = m.hart ∧ x.tag = m.tag then f x else x }

/-- The tag of a message whose lengths differ is Faulted (13 R345). -/
def State.faultMsg (s : State) (m : Msg) : State :=
  (s.modCluster m.hart.cluster fun c => c.modMsg m fun x => { x with faulted := true }).modHart m.hart fun h =>
    { h with tags := { h.tags with faults := h.tags.faults ++ [⟨m.tag, 0x17, m.loc⟩] } }

/-- MESSAGE_MATCH: the first unmatched send and receive of a pair of clusters and a message tag match (13 R345)
(in part DEDUCED, log 54). -/
def execMessageMatch (src dst : ClusterId) (mtag : BitVec 16) (s : State) : Out :=
  let pkg := s.dev.pkgNum.toNat
  let a := (s.cluster src).msgs.find? fun m => m.of true src dst mtag pkg && m.mate.isNone
  let b := (s.cluster dst).msgs.find? fun m => m.of false src dst mtag pkg && m.mate.isNone
  .next (match a, b with
    | some a, some b =>
      if a.len ≠ b.len then (s.faultMsg a).faultMsg b
      else
        (s.modCluster src fun c => c.modMsg a fun x => { x with mate := some (b.hart, b.tag) }).modCluster dst
          fun c => c.modMsg b fun x => { x with mate := some (a.hart, a.tag) }
    | _, _ => s)

/-- Copies the data of a message, line by line, with its poison (in part DEDUCED, log 54). -/
def State.moveData (s : State) (a b : ClusterId × Nat) (len : Nat) : State :=
  (List.range (len / 64)).foldl (fun (t : State) i =>
    let x := (a.1, a.2 + 64 * i)
    t.sliceWrite (b.1, b.2 + 64 * i) (s.sliceRead x 64) (s.slicePoisoned x 64)) s

/-- A side of a message is complete: its tag is Done. -/
def State.msgDone (s : State) (m : Msg) : State :=
  (s.modCluster m.hart.cluster fun c => { c with msgs := c.msgs.filter fun x => !(x.hart == m.hart && x.tag == m.tag) }).modHart
    m.hart fun h => h.tagDone m.tag

/-- MESSAGE_TRANSFER_COMPLETE: the data of the first matched pair has moved, and both tags are Done (13 R345). -/
def execMessageTransferComplete (src dst : ClusterId) (mtag : BitVec 16) (s : State) : Out :=
  let pkg := s.dev.pkgNum.toNat
  .next (match (s.cluster src).msgs.find? fun m => m.of true src dst mtag pkg && m.mate.isSome with
    | none => s
    | some a =>
      match (s.cluster dst).msgs.find? fun m => m.of false src dst mtag pkg && m.mate == some (a.hart, a.tag) with
      | none => s
      | some b =>
        ((s.moveData (locator src a.loc.toNat) (locator dst b.loc.toNat) a.len).msgDone a).msgDone b)

end Sys2Proof.Machine
end

