-- ==== Sys2Proof/Machine/Matrix.lean ====
section
/-!
DEFINITION. Class 0x7: the matrix configuration, weight slots, products, and moves of accumulator tiles (10 R269 to R288).
-/

namespace Sys2Proof.Machine

/-! ## MXCFG and tiles -/

def Hart.g0 (x : Hart) : Nat := x.mxcfg.toNat % 16
def Hart.ngm1 (x : Hart) : Nat := (x.mxcfg.toNat >>> 4) % 16
def Hart.holdsTile (x : Hart) (t : Nat) : Bool := x.mxcfg.getLsbD (8 + t)
def Hart.f64 (x : Hart) : Bool := x.mxcfg.getLsbD 19
def Hart.dense (x : Hart) : Bool := x.mxcfg.getLsbD 20

/-- The format of tile elements (03 R53). -/
def Hart.tileFmt (x : Hart) : Fmt := if x.f64 then .b64 else .aw64

def tileAt (t : SMap Word) (r c : Nat) : Nat := (SMap.get 0 t (256 * r + c)).toNat
def setTileAt (t : SMap Word) (r c v : Nat) : SMap Word := SMap.set 0 t (256 * r + c) (BitVec.ofNat 64 v)

/-- A tile of the running hart's cluster. -/
def State.tile (s : State) (t : Nat) : SMap Word := (s.cluster s.cur.cluster).tiles[Fin.ofNat 8 t]

/-- An update of a tile: the value before it may still be seen by an MPEEK (10 R280, R281). -/
def State.updateTile (s : State) (t : Nat) (v : SMap Word) : State :=
  let i : Fin 8 := Fin.ofNat 8 t
  (s.modCluster s.cur.cluster fun c =>
    { c with tiles := c.tiles.set i v, tileHist := c.tileHist.set i (c.tiles[i] :: c.tileHist[i]) }).modMe fun h =>
      h.unlatch .acc i.val

/-- Every earlier update of a tile has completed. -/
def State.drainTile (s : State) (t : Nat) : State :=
  s.modCluster s.cur.cluster fun c => { c with tileHist := c.tileHist.set (Fin.ofNat 8 t) [] }

/-- The checks of 10 R275: VSTART is 0 and the tiles are held. -/
def withTiles (s : State) (opc : BitVec 12) (f : Fields) (ts : List (BitVec 5)) (k : Eff) : Eff :=
  if s.me.vstart ≠ 0 ∨ ts.any (fun t => !s.me.holdsTile t.toNat) then illegalWord s opc f else k

/-- Adds flags to FPFLAGS and steps SRSEED, as an instruction completes (03 R58, R59). -/
def State.rounded (s : State) (fl : FFlags) (m : RMode) : State := s.modMe fun h => (h.addFlags fl).stepSeed m

/-- A rounding whose result is never flushed (10 R276). -/
def FEnv.noFlush (e : FEnv) : FEnv := { e with flush := 0 }

/-! ## Element types -/

/-- The type of a matrix element. -/
inductive ATy where
  | flt (t : FTy)
  | int (w : Nat) (u : Bool)
  deriving DecidableEq, Repr

def ATy.width : ATy → Nat
  | .flt t => t.width
  | .int w _ => w

/-- The type that INT, U and W give; W = 0 takes VTYPE's (02 R22, 05 R91). -/
def Hart.aTy (h : Hart) (int u : Bool) (code : Nat) : Option ATy :=
  if int then (h.intW code).map fun w => .int w u else (h.fltT code).map .flt

/-- The W code of a type. -/
def ATy.code : ATy → Nat
  | .flt (.fmt .b64) => 6
  | .flt (.fmt .b32) => 5
  | .flt (.fmt .b16) => 8
  | .flt (.fmt .bf16) => 4
  | .flt (.fmt .e4m3) => 3
  | .flt (.fmt .e5m2) => 7
  | .flt (.fmt _) => 0
  | .flt (.grist .mg2) => 1
  | .flt (.grist .mg4) => 2
  | .flt (.grist .mg7) => 10
  | .flt .mx => 9
  | .int w _ => match w with | 2 => 1 | 4 => 2 | 8 => 3 | 16 => 4 | 32 => 5 | _ => 6

/-- The types of a product (10 Table 10.3). -/
def ATy.prod : ATy → Bool
  | .flt (.fmt .b32) => false
  | .flt _ => true
  | .int w _ => w ≤ 8

def ATy.isInt : ATy → Bool
  | .int _ _ => true
  | _ => false

/-- Elements of a block of the type; 1 for the others. -/
def ATy.block : ATy → Nat
  | .flt (.grist _) => 16
  | .flt .mx => 32
  | _ => 1

/-- Bytes of `k` elements in memory (06 R143, 10 R272). -/
def ATy.rowBytes (t : ATy) (k : Nat) : Nat :=
  match t with
  | .flt (.grist g) => k / 16 * g.bytes
  | .flt .mx => k / 32 * 17
  | t => (k * t.width + 7) / 8

/-- Element `k` of a row of bytes given as a number. -/
def ATy.ofRow (t : ATy) (flush : Bool) (row k : Nat) : FVal :=
  match t with
  | .int w u => FVal.ofInt (intVal w u ((row >>> (k * w)) % 2 ^ w))
  | .flt (.fmt f) => f.val flush ((row >>> (k * f.width)) % 2 ^ f.width)
  | .flt (.grist g) => g.elem ((row >>> (8 * g.bytes * (k / 16))) % 2 ^ (8 * g.bytes)) (k % 16)
  | .flt .mx => mxElem ((row >>> (136 * (k / 32))) % 2 ^ 136) (k % 32)

/-- The element at a storage position of a register group (05 R92, R94). -/
def ATy.ofReg (t : ATy) (h : Hart) (flush : Bool) (n p : Nat) : FVal :=
  match t with
  | .int w u => FVal.ofInt (intVal w u (h.getE n w p))
  | .flt (.fmt f) => f.val flush (h.getE n f.width p)
  | .flt (.grist g) => g.elem (h.slotOf n p) (p % 16)
  | .flt .mx => mxElem (h.getE n 256 (p / 32)) (p % 32)

/-! ## Checked memory (10 R279, R284, R285) -/

/-- A run of bytes after its checks; a poisoned line is told apart (14 R367). -/
inductive MPiece where
  | ok (p : Piece)
  | poison (va : Word) (n : Nat)
  deriving DecidableEq, Repr

/-- The checks of `n` bytes at `va`. -/
def checkMat (s : State) (load : Bool) (va : Word) (n : Nat) : State × List MPiece :=
  (lineRuns (n / 64 + 2) va n).foldl (fun (a : State × List MPiece) r =>
    let c := checkPiece a.1 a.1.ctx load r.1 r.2
    (c.1, a.2 ++ [match c.2 with
      | .bad 7 _ _ _ => .poison r.1 r.2
      | p => .ok p])) (s, [])

/-- The checks of several rows. -/
def checkRows (s : State) (load : Bool) (rows : List (Word × Nat)) : State × List (List MPiece) :=
  rows.foldl (fun (a : State × List (List MPiece)) r =>
    let c := checkMat a.1 load r.1 r.2
    (c.1, a.2 ++ [c.2])) (s, [])

/-- The failing pieces, by rising address, once per page (in part DEDUCED, log 26). -/
def matFaults (l : List MPiece) : List Faulted :=
  let bad := l.filterMap fun p => match p with
    | .ok (.bad _ c lv va) => some (⟨0, c, lv, va, [], true⟩ : Faulted)
    | _ => none
  let ins (x : Faulted) (a : List Faulted) : List Faulted :=
    a.takeWhile (fun y => y.va.toNat < x.va.toNat) ++ x :: a.dropWhile fun y => y.va.toNat < x.va.toNat
  (bad.foldl (fun a x => ins x a) []).foldl (fun a x =>
    if a.any fun y => wbits y.va 55 12 == wbits x.va 55 12 && y.cause == x.cause then a else a ++ [x]) []

/-- Bytes of checked pieces; none for those of a poisoned line. A DISC page reads as zero. -/
def State.readMat (s : State) (l : List MPiece) : List (Option Byte) :=
  l.flatMap fun p => match p with
    | .ok (.ok pa n e) =>
      if readsZero e.leaf then List.replicate n (some 0) else (s.bytesFor s.cur pa n).map some
    | .poison _ n => List.replicate n none
    | _ => []

/-- A DISC page was read (06 Table 6.6). -/
def readsDisc (load : Bool) (l : List MPiece) : Bool :=
  load && l.any fun p => match p with | .ok (.ok _ _ e) => readsZero e.leaf | _ => false

/-- Checks the rows of a class 0x7 access, as one: a failure writes the fault record and traps with nothing changed (10 R279,
R284). -/
def withRows (s : State) (opc : BitVec 12) (load : Bool) (rows : List (Word × Nat))
    (k : State → List (List MPiece) → Eff) : Eff :=
  let r := checkRows s load (rows.filter fun x => x.2 != 0)
  let all := r.2.flatten
  let s := r.1
  let plain := all.filterMap fun p => match p with | .ok q => some q | _ => none
  match matFaults all with
  | x :: xs =>
    .trap (s.modMe fun h => { h with faultRec := faultRecord opc 0 (x :: xs) }) { cause := x.cause, eaddr := x.va }
  | [] =>
    match nowhereOf plain with
    | some pa => .fault (.noSuchAddress pa)
    | none =>
      if s.held load plain then .wait s .copy
      else
        let s := if readsDisc load all then s.modMe fun h => { h with status := { h.status with dread := true } } else s
        k s r.2

/-- The address of the first poisoned piece. -/
def poisonAt (l : List MPiece) : Option Word :=
  l.findSome? fun p => match p with | .poison va _ => some va | _ => none

/-- Cause 0x16 after completion, when a read met a poisoned line (10 R279, R284). -/
def State.afterPoison (s : State) (p : Option Word) : State :=
  match p with
  | some va => s.modMe fun h => { h with pend := h.pend ++ [⟨0x16, va, 0⟩] }
  | none => s

/-! ## Weight slots (10 R272 to R274, R285) -/

def WSlot.ty (w : WSlot) : Option ATy :=
  if w.int then (intCode w.type.toNat).map fun n => .int n w.u else (fltCode w.type.toNat).map .flt

/-- 2:4 sparse types (10 R272). -/
def ATy.sparse : ATy → Bool
  | .flt (.fmt .bf16) => true
  | .flt (.fmt .b16) => true
  | .flt (.fmt .e4m3) => true
  | .flt (.fmt .e5m2) => true
  | .int 8 _ => true
  | _ => false

/-- Bytes of an image row. -/
def WSlot.rowBytes (w : WSlot) : Nat :=
  match w.ty with
  | some t => if w.sp24 then t.rowBytes (w.k.toNat / 2) + w.k.toNat / 8 else t.rowBytes w.k.toNat
  | none => 0

/-- The descriptor's shape and type are legal (10 R272, R285, 14 R355). -/
def WSlot.legal (w : WSlot) : Bool :=
  match w.ty with
  | some t =>
    t.prod && !(w.u && !w.int) && (!w.sp24 || t.sparse) && 16 ≤ w.k.toNat && w.k.toNat ≤ 256 && w.k.toNat % 16 == 0 &&
      w.k.toNat % t.block == 0 && 1 ≤ w.n.toNat && w.n.toNat ≤ 256 && w.n.toNat * w.rowBytes ≤ 65536
  | none => false

/-- Element (k, n) of B, expanded from the image (10 R272, R273). -/
def WSlot.elem (w : WSlot) (rows : List Nat) (flush : Bool) (k n : Nat) : FVal :=
  match w.ty with
  | none => .fin false 0 0
  | some t =>
    let row := rows.getD n 0
    if w.sp24 then
      let q := k / 4
      let nib := (row >>> (8 * t.rowBytes (w.k.toNat / 2) + 4 * q)) % 16
      if nib % 4 = k % 4 then t.ofRow flush row (2 * q)
      else if nib / 4 = k % 4 then t.ofRow flush row (2 * q + 1)
      else .fin false 0 0
    else t.ofRow flush row k

/-- The image's rows as numbers. -/
def WSlot.rows (w : WSlot) : List Nat :=
  match w.image with
  | some b => (List.range w.n.toNat).map fun i => ofBytes ((b.drop (w.rowBytes * i)).take w.rowBytes)
  | none => []

/-- The first metadata nibble whose first index is not below its second: row and group (10 R273). -/
def WSlot.badNibble (w : WSlot) (b : List Byte) : Option (Nat × Nat) :=
  if !w.sp24 then none
  else
    let meta0 := w.rowBytes - w.k.toNat / 8
    (List.range (w.n.toNat * (w.k.toNat / 4))).findSome? fun i =>
      let n := i / (w.k.toNat / 4)
      let q := i % (w.k.toNat / 4)
      let nib := ((b.getD (w.rowBytes * n + meta0 + q / 2) 0).toNat >>> (4 * (q % 2))) % 16
      if nib % 4 < nib / 4 then none else some (n, q)

def State.setSlot (s : State) (i : Nat) (w : WSlot) : State :=
  s.modMe fun h => { h with wslot := h.wslot.set (Fin.ofNat 2 i) w }

def State.slot' (s : State) (i : Nat) : WSlot := s.me.wslot[Fin.ofNat 2 i]

/-- Loads the image of a descriptor into slot `i`, its rows `pitch` bytes apart, with the checks of MWLOAD (10 R273, R274,
R285). -/
def loadSlot (s : State) (opc : BitVec 12) (i : Nat) (w : WSlot) (pitch : Word) (k : State → Eff) : Eff :=
  let row (n : Nat) : Word := w.addr + BitVec.ofNat 64 n * pitch
  withRows s opc true ((List.range w.n.toNat).map fun n => (row n, w.rowBytes)) fun s ps =>
    match poisonAt ps.flatten with
    | some va => .trap (s.setSlot i { s.slot' i with valid := false, image := none }) { cause := 0x16, eaddr := va }
    | none =>
      let b := (s.readMat ps.flatten).map fun x => x.getD 0
      match w.badNibble b with
      | some (n, q) =>
        .trap (s.setSlot i { s.slot' i with valid := false, image := none })
          { cause := 0x01, eidx := BitVec.ofNat 64 (n * (w.k.toNat / 4) + q),
            eaddr := row n + BitVec.ofNat 64 (w.rowBytes - w.k.toNat / 8 + q / 2) }
      | none => k (s.setSlot i { w with valid := true, image := some b })

/-- A slot that a product names, loaded again at the pitch its descriptor keeps when its buffer contents are absent
(10 R274). -/
def withSlot (s : State) (opc : BitVec 12) (f : Fields) (k : State → WSlot → Eff) : Eff :=
  let i := f.b.toNat
  let w := s.slot' i
  match w.image with
  | some _ => k s w
  | none => loadSlot s opc i w (w.pitch.signExtend 64) fun s => k s (s.slot' i)

/-- The descriptor keeps the low 32 bits of the pitch (14 Table 14.3b); the load itself uses the whole register (10 R285)
(DESIGN CHOICE, log 61). -/
def execMwload (f : Fields) (s : State) : Out :=
  let h := s.me
  commit (
    if h.vstart ≠ 0 ∨ !h.dense then illegalWord s 0x70B f
    else
      match h.aTy (f.modBit 43) (f.modBit 44) f.w.toNat with
      | none => illegalWord s 0x70B f
      | some t =>
        let w : WSlot :=
          { addr := s.rs f.a, valid := true, type := BitVec.ofNat 4 t.code, int := f.modBit 43, sp24 := f.modBit 42,
            u := f.modBit 44, k := BitVec.ofNat 9 (f.immField 8 0), n := BitVec.ofNat 9 (f.immField 17 9),
            pitch := (s.rs f.b).setWidth 32, image := none }
        if !w.legal then illegalWord s 0x70B f else loadSlot s 0x70B f.d.toNat w (s.rs f.b) .done)

/-! ## Products (10 R276 to R279) -/

/-- One element of a product: blocks of `bl` exact products, each rounded once into the tile's format. `c`: the row scale of
MMAS; `idx`: (i << 8) + j. -/
def prodElem (t : Fmt) (env : FEnv) (neg : Bool) (c : Option FVal) (bl k idx : Nat) (a b : Nat → FVal) (acc : Nat) :
    Nat × FFlags :=
  (List.range ((k + bl - 1) / bl)).foldl (fun (r : Nat × FFlags) n =>
    let ps := (List.range bl).map fun q => FVal.mul (a (n * bl + q)) (b (n * bl + q))
    let s := (match ps with
      | p :: rest => let x := FVal.sum env.mode p.1 rest; (x.1, x.2 || p.2)
      | [] => (.fin false 0 0, false))
    let s : FVal × Bool := if neg then (s.1.neg, s.2) else s
    let s : FVal × Bool := match c with
      | some v => let x := FVal.mul v s.1; (x.1, x.2 || s.2)
      | none => s
    let x := FVal.add env.mode (t.val false r.1) s.1
    let y := roundOut t env.noFlush false ((n <<< 16) + idx) (x.1, x.2 || s.2)
    (y.1, r.2 ||| y.2)) (acc, 0)

/-- A product over M × K values of A and the slot's B, into tile `d` (10 R276). -/
def product (s : State) (f : Fields) (w : WSlot) (m k : Nat) (a : Nat → Nat → FVal) (c : Option (Nat → FVal)) : State :=
  let h := s.me
  let code := f.modField 46 44
  let env := h.fenv code
  let t := h.tileFmt
  let rows := w.rows
  let old := s.tile f.d.toNat
  let r := (List.range (m * w.n.toNat)).foldl (fun (r : SMap Word × FFlags) e =>
    let i := e / w.n.toNat
    let j := e % w.n.toNat
    let acc := if f.modBit 47 then 0 else tileAt old i j
    let y := prodElem t env (f.modBit 42) (c.map fun g => g i) (if h.f64 then 4 else 16) k ((i <<< 8) + j) (a i)
      (fun q => w.elem rows env.flushIn q j) acc
    (setTileAt r.1 i j y.1, r.2 ||| y.2)) (old, 0)
  (s.updateTile f.d.toNat r.1).rounded r.2 env.mode

/-- The type checks of a product: A against the slot (10 R278). -/
def prodTypes (h : Hart) (t : ATy) (w : WSlot) : Bool :=
  match w.ty with
  | none => false
  | some b =>
    t.prod && b.prod && t.isInt == b.isInt && ((t == .flt (.fmt .b64)) == h.f64) && ((b == .flt (.fmt .b64)) == h.f64)

/-- What MMA, MMAS and MMAX have in common, in the order of 14 Table 14.4: tile, EN, slot, types, the alignment of the groups
(02 R19), and the shape, which an empty operand does not have; the registers of the groups in the save area; the reload of the
slot; and the empty operand (10 R275, R276, R278). -/
def withProduct (s : State) (opc : BitVec 12) (f : Fields) (m : Nat) (k : WSlot → Nat) (shape : ATy → WSlot → Bool)
    (groups : ATy → List Opnd) (go : State → WSlot → ATy → Eff) : Eff :=
  let h := s.me
  withTiles s opc f [f.d] (
    if !h.dense then illegalWord s opc f
    else
      match h.aTy (f.modBit 43) (f.x.getLsbD 0) f.w.toNat with
      | none => illegalWord s opc f
      | some t =>
        let w := s.slot' f.b.toNat
        let empty : Bool := m == 0 || k w == 0
        if !w.valid || !prodTypes h t w || (groups t).any (fun o => o.reg % o.size h != 0) then illegalWord s opc f
        else if !empty && (!shape t w || k w != w.k.toNat || 16 * (h.ngm1 + 1) < m) then illegalWord s opc f
        else
          withRegs s ((groups t).flatMap fun o => o.regs h) (withSlot s opc f fun s w =>
            if empty then .done (s.rounded 0 (s.me.rmode (f.modField 46 44))) else go s w t))

/-- The A group of MMA and MMAS holds the body and whole blocks (10 R276, 05 R95). -/
def aGroup (h : Hart) (f : Fields) (t : ATy) : Bool :=
  (⟨f.a.toNat, t.width, false⟩ : Opnd).ok h && h.colcap % t.block == 0 && h.cols % t.block == 0

/-- Element (i, k) of the group of operand A. -/
def regA (h : Hart) (f : Fields) (t : ATy) (i k : Nat) : FVal :=
  t.ofReg h (h.flush.getLsbD 0) f.a.toNat (i * h.colcap + k)

def execMma (f : Fields) (s : State) : Out :=
  let h := s.me
  commit (withProduct s 0x700 f h.rows (fun _ => h.cols) (fun t _ => aGroup h f t) (fun t => [⟨f.a.toNat, t.width, false⟩])
    fun s w t => .done (product s f w h.rows h.cols (regA h f t) none))

/-- In part DEDUCED, log 26. -/
def execMmas (f : Fields) (s : State) : Out :=
  let h := s.me
  let fits (t : ATy) (_ : WSlot) : Bool := aGroup h f t && h.rows ≤ h.g * 512
  commit (withProduct s 0x702 f h.rows (fun _ => h.cols) fits
    (fun t => [⟨f.a.toNat, t.width, false⟩, ⟨f.c.toNat, 32, false⟩])
    fun s w t => .done (product s f w h.rows h.cols (regA h f t)
      (some fun i => Fmt.b32.val (h.flush.getLsbD 0) (h.getE f.c.toNat 32 i))))

/-- Bytes of a row as a number, a poisoned one as 0, and whether bytes of elements `k0` to `k0` + 15 are poisoned. -/
def rowNum (b : List (Option Byte)) : Nat := ofBytes (b.map fun x => x.getD 0)

/-- Whether the bytes that hold elements `k0` to `k0 + 15` of a row are poisoned (in part DEDUCED, log 26). -/
def chunkBad (t : ATy) (k0 : Nat) (b : List (Option Byte)) : Bool :=
  let lo := t.rowBytes (k0 / t.block * t.block)
  let hi := t.rowBytes (roundUp (k0 + 16) t.block)
  ((b.take hi).drop lo).any Option.isNone

/-- MMAX reads its A rows from memory; a chunk that cannot be read is NaN, or +0 for integers, and cause 0x16 follows (10
R279) (in part DEDUCED, log 26). -/
def execMmax (f : Fields) (s : State) : Out :=
  let h := s.me
  let m := f.immField 8 0
  commit (withProduct s 0x701 f m (fun w => w.k.toNat) (fun t w => w.k.toNat % t.block == 0) (fun _ => [])
    fun s w t =>
      let k := w.k.toNat
      let rows := (List.range m).map fun i => (s.rs f.a + BitVec.ofNat 64 i * s.rs f.c, t.rowBytes k)
      withRows s 0x701 true rows fun s ps =>
        let bytes := ps.map s.readMat
        let nums := bytes.map rowNum
        let bad := (List.range (k / 16)).map fun n => bytes.any (chunkBad t (16 * n))
        let a (i q : Nat) : FVal :=
          if bad.getD (q / 16) false then (if t.isInt then .fin false 0 0 else .nan false)
          else t.ofRow (h.flush.getLsbD 0) (nums.getD i 0) q
        .done ((product s f w m k a none).afterPoison (poisonAt ps.flatten)))

/-! ## Conversions between tiles and other elements (10 R282 to R284) -/

/-- A value into the tile's format: floats under FPCTL.RM where they do not fit, integers by RNE (03 R53, R54)
(in part DEDUCED, log 26). -/
def intoTile (h : Hart) (t : ATy) (idx : Nat) (v : FVal) : Nat × FFlags :=
  let env := (h.fenv 7).noFlush
  let env := if t.isInt then { env with mode := .rne } else env
  roundOut h.tileFmt env true idx (v, false)

/-- The mode under which an instruction that fills a tile rounds (in part DEDUCED, log 26). -/
def tileMode (h : Hart) (t : ATy) : RMode := if t.isInt then .rne else h.rmode 7

/-- A tile element into a scalar type (03 Table 3.9); outputs of class 0x7 are not flushed (03 R62), and a NaN result is
the canonical NaN (03 R45). -/
def fromTile (h : Hart) (t : ATy) (code idx v : Nat) : Nat × FFlags :=
  let env := (h.fenv code).noFlush
  match t with
  | .int w u => convFI h.tileFmt w u env idx v
  | .flt (.fmt d) => d.canonical (roundOut d env true idx (h.tileFmt.val false v, false))
  | .flt _ => (0, 0)

/-- 16 tile elements of row `r` from column `c` into a grist block; the element index is that of each (10 R282). -/
def gristTile (h : Hart) (g : Grist) (code r c : Nat) (el : Nat → Nat) : Nat × FFlags :=
  let vs := (List.range 16).map fun i => h.tileFmt.val false (el i)
  g.quantise (h.fenv code) ((r <<< 8) + c) vs ((List.range 16).map fun i => h.tileFmt.signOf (el i))

def execMzero (f : Fields) (s : State) : Out :=
  commit (withTiles s 0x703 f [f.d]
    (.done (s.updateTile f.d.toNat ((s.tile f.d.toNat).filter fun e => 256 * f.immField 8 0 ≤ e.1))))

/-- MCVT: every element times 2^k, into the other format. -/
def execMcvt (f : Fields) (s : State) : Out :=
  let h := s.me
  commit (withTiles s 0x70A f [f.d, f.a] (
    let src : Fmt := if f.modBit 42 then .b64 else .aw64
    let dst : Fmt := if f.modBit 42 then .aw64 else .b64
    let env := (h.fenv (f.modField 46 44)).noFlush
    let k := f.imm.toInt
    let scale (v : FVal) : FVal := match v with | .fin n m e => .fin n m (e + k) | v => v
    -- an element that is +0 stays +0
    let r := (s.tile f.a.toNat).foldl (fun (r : SMap Word × FFlags) e =>
      let y := roundOut dst env true e.1 (scale (src.val false e.2.toNat), false)
      (SMap.set 0 r.1 e.1 (BitVec.ofNat 64 y.1), r.2 ||| y.2)) ([], 0)
    .done (((s.drainTile f.a.toNat).updateTile f.d.toNat r.1).rounded r.2 env.mode)))

/-! ## Memory moves (10 R284) -/

/-- Element types of MLDACC and MSTACC. -/
def memTile : ATy → Bool
  | .flt (.fmt _) => true
  | .flt _ => false
  | .int w _ => 8 ≤ w

/-- The canonical AW64 NaN, written for words that cannot be read (10 R284). -/
def badWord : Nat := 0x7FF0000000000000

def execMldacc (f : Fields) (s : State) : Out :=
  let h := s.me
  let rows := f.immField 8 0
  let cols := f.immField 17 9
  commit (withTiles s 0x704 f [f.d] (
    match h.aTy (f.modBit 43) (f.modBit 47) f.w.toNat with
    | none => illegalWord s 0x704 f
    | some t =>
      if !memTile t then illegalWord s 0x704 f
      else if rows = 0 ∨ cols = 0 then .done (s.rounded 0 (tileMode h t))
      else
        let eb := t.width / 8
        withRows s 0x704 true ((List.range rows).map fun i => (s.rs f.a + BitVec.ofNat 64 i * s.rs f.b, cols * eb))
          fun s ps =>
            let bytes := ps.map s.readMat
            let r := (List.range (rows * cols)).foldl (fun (r : SMap Word × FFlags) e =>
              let i := e / cols
              let j := e % cols
              let b := ((bytes.getD i []).drop (j * eb)).take eb
              if b.any Option.isNone then (setTileAt r.1 i j badWord, r.2)
              else
                let y := intoTile h t ((i <<< 8) + j) (t.ofRow false (rowNum b) 0)
                (setTileAt r.1 i j y.1, r.2 ||| y.2)) (s.tile f.d.toNat, 0)
            .done (((s.updateTile f.d.toNat r.1).rounded r.2 (tileMode h t)).afterPoison (poisonAt ps.flatten))))

/-- Stores checked rows: each piece's bytes in turn. -/
def State.writeMat (s : State) (ps : List (List MPiece)) (b : List Byte) : State :=
  s.writeRun (ps.flatten.filterMap fun p => match p with | .ok q => some q | _ => none) b

def execMstacc (f : Fields) (s : State) : Out :=
  let h := s.me
  let rows := f.immField 8 0
  let cols := f.immField 17 9
  let code := f.modField 46 44
  commit (withTiles s 0x705 f [f.c] (
    match h.aTy (f.modBit 43) (f.modBit 47) f.w.toNat with
    | none => illegalWord s 0x705 f
    | some t =>
      if !memTile t then illegalWord s 0x705 f
      else if rows = 0 ∨ cols = 0 then .done (s.rounded 0 (h.rmode code))
      else
        let eb := t.width / 8
        withRows s 0x705 false ((List.range rows).map fun i => (s.rs f.a + BitVec.ofNat 64 i * s.rs f.b, cols * eb))
          fun s ps =>
            let tl := s.tile f.c.toNat
            let r := (List.range (rows * cols)).map fun e =>
              fromTile h t code ((e / cols) <<< 8 + e % cols) (tileAt tl (e / cols) (e % cols))
            let fl := r.foldl (fun a x => a ||| x.2) 0
            .done (((s.drainTile f.c.toNat).writeMat ps (r.flatMap fun x => toBytes eb x.1)).rounded fl (h.rmode code))))

/-- The rows of a raw move: 2,048 bytes each, 64-byte aligned. -/
def rawRows (a : Word) (rows : Nat) : List (Word × Nat) :=
  (List.range rows).map fun i => (a + BitVec.ofNat 64 (2048 * i), 2048)

def execMsavea (f : Fields) (s : State) : Out :=
  let a := s.rs f.a
  let rows := f.immField 8 0
  commit (withTiles s 0x706 f [f.c] (
    if rows ≠ 0 ∧ a.toNat % 64 ≠ 0 then .trap s { cause := 0x04, eaddr := a }
    else withRows s 0x706 false (rawRows a rows) fun s ps =>
      let tl := s.tile f.c.toNat
      .done ((s.drainTile f.c.toNat).writeMat ps ((List.range (rows * 256)).flatMap fun e =>
        toBytes 8 (tileAt tl (e / 256) (e % 256))))))

def execMresta (f : Fields) (s : State) : Out :=
  let a := s.rs f.a
  let rows := f.immField 8 0
  commit (withTiles s 0x707 f [f.d] (
    if rows ≠ 0 ∧ a.toNat % 64 ≠ 0 then .trap s { cause := 0x04, eaddr := a }
    else withRows s 0x707 true (rawRows a rows) fun s ps =>
      if rows = 0 then .done s
      else
        let b := s.readMat ps.flatten
        let t := (List.range (rows * 256)).foldl (fun (t : SMap Word) e =>
          let x := (b.drop (8 * e)).take 8
          SMap.set 0 t e (BitVec.ofNat 64 (if x.any Option.isNone then badWord else rowNum x))) (s.tile f.d.toNat)
        .done ((s.updateTile f.d.toNat t).afterPoison (poisonAt ps.flatten))))

/-! ## Moves between tiles and vectors (10 R281, R282) -/

/-- The window of a tile that VLROW, VLCOL and IMM give lies within it. -/
def windowOk (h : Hart) (f : Fields) : Bool := f.immField 7 0 + h.rows ≤ 256 && f.immField 15 8 + h.cols ≤ 256

/-- Types of a move. -/
def moveTile : ATy → Bool
  | .flt .mx => false
  | .flt _ => true
  | .int w _ => 8 ≤ w

/-- Writes the window into the destination group; `el` reads the tile. -/
def moveOut (h : Hart) (f : Fields) (t : ATy) (el : Nat → Nat → Nat) : Hart × FFlags :=
  let code := f.modField 46 44
  let r0 := f.immField 7 0
  let c0 := f.immField 15 8
  let d : Opnd := ⟨f.d.toNat, t.width, false⟩
  let r := (match t with
    | .flt (.grist g) =>
      (List.range (h.vl / 16)).foldl (fun (a : Hart × FFlags) b =>
        let i := 16 * b / h.cols
        let j := 16 * b % h.cols
        let y := gristTile h g code (r0 + i) (c0 + j) fun q => el (r0 + i) (c0 + j + q)
        (a.1.setE d.reg 128 (h.pos (16 * b) / 16) y.1, a.2 ||| y.2)) (h, (0 : FFlags))
    | t =>
      (List.range h.vl).foldl (fun (a : Hart × FFlags) k =>
        let i := r0 + k / h.cols
        let j := c0 + k % h.cols
        let y := fromTile h t code (i <<< 8 + j) (el i j)
        (a.1.setE d.reg d.w (h.pos k) y.1, a.2 ||| y.2)) (h, (0 : FFlags)))
  (r.1.applyTp d, r.2)

/-- MMV and MPEEK: the checks, that of VSTART at VL = 0 too (10 R275), and the move of what `el` reads. -/
def moveForm (s : State) (opc : BitVec 12) (f : Fields) (go : State → (State × (Nat → Nat → Nat))) : Eff :=
  let h := s.me
  match h.aTy (f.modBit 43) (f.modBit 47) f.w.toNat with
  | none => illegalWord s opc f
  | some t =>
    let d : Opnd := ⟨f.d.toNat, t.width, false⟩
    if h.vstart ≠ 0 ∨ !moveTile t || !windowOk h f || h.colcap % t.block != 0 || h.cols % t.block != 0 ||
        !h.holdsTile f.a.toNat then
      illegalWord s opc f
    else
      nonResumable s opc f (.vec d) [] [] true fun s =>
        let g := go s
        let mode := h.rmode (f.modField 46 44)
        if h.vl = 0 then .done (g.1.rounded 0 mode)
        else
          let r := moveOut g.1.me f t g.2
          .done (pushAll ((g.1.modMe fun _ => r.1).rounded r.2 mode) [d])

def execMmv (f : Fields) (s : State) : Out :=
  commit (moveForm s 0x708 f fun s => (s.drainTile f.a.toNat, fun i j => tileAt (s.tile f.a.toNat) i j))

/-- How many updates each panel's value lacks: a free choice that never falls from one panel to the next (10 R281)
(DESIGN CHOICE, log 27). -/
def peekAges (draw n : Nat) : List Nat :=
  (List.range 16).foldl (fun l p => l ++ [max (l.getLastD 0) (min n (Config.peekAge draw p))]) []

/-- DESIGN CHOICE, log 27. -/
def execMpeek (f : Fields) (s : State) : Out :=
  commit (moveForm s 0x709 f fun s =>
    let hist := (s.cluster s.cur.cluster).tileHist[Fin.ofNat 8 f.a.toNat]
    let ages := peekAges s.freeCtr hist.length
    ({ s with freeCtr := s.freeCtr + 1 }, fun i j =>
      match ages.getD (i / 16) 0 with
      | 0 => tileAt (s.tile f.a.toNat) i j
      | n + 1 => tileAt (hist.getD n []) i j))

/-- MMV.TOACC: body elements of A into the window. -/
def execMmvToacc (f : Fields) (s : State) : Out :=
  let h := s.me
  commit (withTiles s 0x708 f [f.d] (
    match h.aTy (f.modBit 43) (f.modBit 47) f.w.toNat with
    | none => illegalWord s 0x708 f
    | some t =>
      let a : Opnd := ⟨f.a.toNat, t.width, false⟩
      if !moveTile t || !windowOk h f || h.colcap % t.block != 0 || h.cols % t.block != 0 then illegalWord s 0x708 f
      else
        nonResumable s 0x708 f .none [a] [] true fun s =>
          if h.vl = 0 then .done (s.rounded 0 (tileMode h t))
          else
            let r := (List.range h.vl).foldl (fun (r : SMap Word × FFlags) k =>
              let i := f.immField 7 0 + k / h.cols
              let j := f.immField 15 8 + k % h.cols
              let y := intoTile h t (i <<< 8 + j) (t.ofReg h false f.a.toNat (h.pos k))
              (setTileAt r.1 i j y.1, r.2 ||| y.2)) (s.tile f.d.toNat, 0)
            .done ((s.updateTile f.d.toNat r.1).rounded r.2 (tileMode h t))))

/-! ## MCFG (10 R269 to R271, R286) -/

/-- A legal value of MXCFG. -/
def mxcfgOk (v : Word) : Bool := wbits v 63 21 == 0 && wbits v 3 0 + wbits v 7 4 ≤ 15

/-- A write that moves the array waits for the hart's updates (10 R271), and a tile that changes hands shows none of them to
an MPEEK of its next holder (10 R270, R281) (in part DEDUCED, log 26). -/
def execMcfg (f : Fields) (s : State) : Out :=
  let h := s.me
  let v := s.rs f.a
  let new : Hart := { h with mxcfg := v.setWidth 21 }
  let c := s.cur.cluster
  let others := (hartsOf c).filter (· != s.cur)
  commit (
    if h.vstart ≠ 0 ∨ !mxcfgOk v then illegalWord s 0x70C f
    else if (List.range 8).any fun t => new.holdsTile t && others.any fun o => (s.hart o).holdsTile t then
      .done (s.ws f.d (failCode 2))
    else if new.dense && !s.canTake new.denseGroups (s.heldGroups c (some s.cur)) then .done (s.ws f.d (failCode 1))
    else
      let moved := h.g0 != new.g0 || h.ngm1 != new.ngm1 || h.dense != new.dense || h.f64 != new.f64
      let waits (t : Nat) : Bool := h.holdsTile t && moved || h.holdsTile t != new.holdsTile t
      let s := (List.range 8).foldl (fun (s : State) t => if waits t then s.drainTile t else s) s
      .done ((s.modMe fun h =>
        { h with mxcfg := v.setWidth 21,
                 wslot := if moved then h.wslot.map fun w => { w with valid := false, image := none } else h.wslot }).ws f.d
        (h.mxcfg.setWidth 64)))

def execMcfgRd (f : Fields) (s : State) : Out :=
  commit (if s.me.vstart ≠ 0 then illegalWord s 0x70C f else .done (s.ws f.d (s.me.mxcfg.setWidth 64)))

end Sys2Proof.Machine
end

