-- ==== Sys2Proof/Machine/KeyIndex.lean ====
section
/-!
DEFINITION. Class 0xA: the key-index directory, projections and signatures, and the instructions that build, query and
maintain a head (12 R311 to R332).
-/

namespace Sys2Proof.Machine

/-! ## Heads and their regions -/

def State.kHead (s : State) (d : DieId) (n : Nat) : KHead := (s.die d).keys[Fin.ofNat 256 n]

def State.setKHead (s : State) (d : DieId) (n : Nat) (x : KHead) : State :=
  s.modDie d fun y => { y with keys := y.keys.set (Fin.ofNat 256 n) x }

/-- The physical address of a virtual one in region `r` (0 the key area, 1 the pool, 2 + l table l) by the recorded frame
(12 R327). -/
def KHead.pa (x : KHead) (r va : Nat) : Nat :=
  match x.frames[r]? with
  | none => va
  | some f => let o := va - f.va; f.pa + 64 * skewLine f.skew f.pa (o / 64) + o % 64

/-- The base of bucket table l. -/
def KDesc.table (x : KDesc) (l : Nat) : Nat := x.tbase.getD l 0

/-- Accesses of the directory under way: the state, whether one of them meets a copy's hold, the address of the first
failing read (12 R332), and a physical address outside HBM and Cellar. -/
structure KRun where
  s : State
  hold : Bool
  bad : Option Word
  out : Option Nat
  deriving DecidableEq, Repr

def KRun.start (s : State) : KRun := ⟨s, false, none, none⟩

/-- Reads `n` bytes of one line; none when the read fails (in part DEDUCED, log 32). -/
def KRun.read (k : KRun) (x : KHead) (r va n : Nat) : KRun × Option Nat :=
  let pa := x.pa r va
  let sp := spaceOf pa
  if sp != .hbm && sp != .cellar then ({ k with out := some (k.out.getD pa) }, none)
  else if k.s.ownedIn pa n || k.s.absentIn pa n then ({ k with hold := true }, some 0)
  else if k.s.poisonedIn pa n then ({ k with bad := some (k.bad.getD (BitVec.ofNat 64 va)) }, none)
  else (k, some (ofBytes (k.s.bytesFor k.s.cur pa n)))

/-- Writes bytes of one line. -/
def KRun.write1 (k : KRun) (x : KHead) (r va : Nat) (l : List Byte) : KRun :=
  let pa := x.pa r va
  let sp := spaceOf pa
  if sp != .hbm && sp != .cellar then { k with out := some (k.out.getD pa) }
  else if k.s.ownedIn pa l.length then { k with hold := true }
  else { k with s := k.s.setBytes pa l }

/-- Writes bytes from a line's start on. -/
def KRun.write (k : KRun) (x : KHead) (r va : Nat) (l : List Byte) : KRun :=
  (List.range ((l.length + 63) / 64)).foldl (fun (k : KRun) i =>
    k.write1 x r (va + 64 * i) ((l.drop (64 * i)).take 64)) k

/-- How the accesses end: a hold makes the instruction wait with nothing done. -/
def KRun.finish (k : KRun) (s0 : State) (go : State → Option Word → Eff) : Eff :=
  match k.out with
  | some pa => .fault (.noSuchAddress pa)
  | none => if k.hold then .wait s0 .copy else go k.s k.bad

/-- A head operand names a valid head (12 R311, R320); VSTART is 0 (in part DEDUCED, log 19). -/
def withHead (s : State) (opc : BitVec 12) (f : Fields) (reg : BitVec 5) (k : Nat → KHead → Eff) : Eff :=
  let n := (s.rs reg).toNat
  if s.me.vstart ≠ 0 ∨ 256 ≤ n ∨ !(s.kHead s.cur.die n).valid then illegalWord s opc f
  else k n (s.kHead s.cur.die n)

/-- The cluster's key-index unit accepts one class 0xA instruction at a time: in the cycle in which it has accepted one,
an instruction of another hart is held (12 R311) (in part DEDUCED, log 31). -/
def onUnit (s : State) (k : State → Eff) : Out :=
  commit (
    if (s.cluster s.cur.cluster).keyUnit.any (· != s.cur) then .wait s .unit
    else k (s.modCluster s.cur.cluster fun c => { c with keyUnit := some s.cur }))

/-! ## Registration and projections (12 R312, R313, R327) -/

/-- The descriptor of 16 words, when its fields are legal (12 Table 12.1), with the initial dense mark. What stands in a
field shown as "—" is ignored (00 R3) (in part DEDUCED, log 31). -/
def parseKDesc (w : Nat → Nat) : Option (KDesc × Bool) :=
  let l := bits (w 0) 1 0 + 1
  let bm8 := bits (w 0) 5 2
  let dh := bits (w 0) 14 6
  let kpitch := bits (w 2) 31 0
  let krows := bits (w 2) 63 32
  let pblk := bits (w 4) 31 0
  let tb := (List.range 4).map fun i => w (5 + i)
  if bm8 ≤ 8 ∧ 1 ≤ dh ∧ dh ≤ 256 ∧ w 1 % 64 = 0 ∧ kpitch % 64 = 0 ∧ 2 * dh ≤ kpitch ∧ 1 ≤ krows ∧
      w 3 % 64 = 0 ∧ 2 ≤ pblk ∧
      (List.range 4).all (fun i => tb.getD i 0 % 64 == 0 && ((tb.getD i 0 != 0) == decide (i < l))) then
    some (⟨l, bm8 + 8, dh, w 1, kpitch, krows, w 3, pblk, tb.take l⟩, bits (w 0) 15 15 = 1)
  else none

/-- The regions of a descriptor: base and bytes. -/
def KDesc.regions (x : KDesc) : List (Nat × Nat) :=
  (x.kbase, x.krows * x.kpitch) :: (x.pool, 64 * x.pblk) :: x.tbase.map fun t => (t, 64 + 8 * 2 ^ x.b)

/-- What the check of a region finds: its frame, a page that does not hold it, a failure, or nothing there. -/
inductive KCheck where
  | ok (f : KFrame)
  | split
  | bad (cause : Nat)
  | nowhere (pa : Nat)
  deriving DecidableEq, Repr

/-- Checks one region as a store (12 R327), and marks its page written. Untranslated, every page of it is checked: one that
runs on into control space fails (in part DEDUCED, log 31). -/
def checkRegion (s : State) (base size : Nat) : State × KCheck :=
  match translate s s.ctx .store (BitVec.ofNat 64 base) with
  | (s, .fail _) => (s, .bad 0x06)
  | (s, .ok pa e) =>
    let en := s.me.ptbase.getLsbD 0
    let w := e.leaf
    let sp := spaceOf pa
    if en && (e.va + 2 ^ e.lg < base + size || (e.pa (base + size - 1)).isNone) then (s, .split)
    else if sp = .none then (s, .nowhere pa)
    else if !en && controlBase < pa + size then (s, .bad 0x07)
    else if !en && cellarBase + 0x80000000 < pa + size then (s, .nowhere (cellarBase + 0x80000000))
    else if !permitted s.ctx .store w || sp = .control || leafPres w || leafWonce w || leafDisc w || leafRdup w then
      (s, .bad 0x07)
    else
      (s.markDirty s.ctx e,
        .ok (if en then ⟨e.va, leafPfn w * 4096, leafSkew w⟩ else ⟨0, 0, 0⟩))

/-- KPROJ.DESC (12 R327) (in part DEDUCED, log 31). -/
def execKprojDesc (f : Fields) (s : State) : Out :=
  let n := (s.rs f.a).toNat
  let va := s.rs f.b
  let d := s.cur.die
  onUnit s fun s =>
    if s.me.vstart ≠ 0 ∨ 256 ≤ n then illegalWord s 0xA00 f
    else if va.toNat % 64 ≠ 0 then .trap s { cause := 0x04, eaddr := va }
    else
      let r := checkRun s s.ctx true va 128
      match worst r.2 with
      | some (c, _, x) => .trap r.1 { cause := c, eaddr := x }
      | none =>
        match nowhereOf r.2 with
        | some pa => .fault (.noSuchAddress pa)
        | none =>
          if r.1.held true r.2 then .wait s .copy
          else
            let g := r.1.readRun r.2
            let num := ofBytes g.2
            match parseKDesc fun i => (num >>> (64 * i)) % 2 ^ 64 with
            | none => illegalWord g.1 0xA00 f
            | some (x, dense) =>
              let c := x.regions.foldl (fun (a : State × List (Nat × KCheck)) q =>
                let y := checkRegion a.1 q.1 q.2
                (y.1, a.2 ++ [(q.1, y.2)])) (g.1, [])
              if c.2.any fun y => y.2 == .split then illegalWord g.1 0xA00 f
              else
                match c.2.findSome? fun y => match y.2 with
                    | .bad k => some (Eff.trap g.1 { cause := k, eaddr := BitVec.ofNat 64 y.1 })
                    | .nowhere pa => some (.fault (.noSuchAddress pa))
                    | _ => none with
                | some e => e
                | none =>
                  let h := c.1.kHead d n
                  .done (c.1.setKHead d n
                    { h with
                      valid := true, desc := x, dense := dense, firstReset := true, alloc := 1, free := 0, wbase := 0,
                      frames := c.2.filterMap fun y => match y.2 with | .ok f => some f | _ => none,
                      stale := Vector.replicate 4 true, loaded := Vector.replicate 4 false })

/-- The code of entry `i` of a projection row given as a number (12 Table 12.2). -/
def projCode (row i : Nat) : Nat := (row >>> (2 * i)) % 4

/-- The byte of the projection store at which slot (head, table) starts. -/
def projBase (n l : Nat) : Nat := (n * 4 + l) * 1024

/-- KPROJ (12 R327) (in part DEDUCED, log 31). -/
def execKproj (f : Fields) (s : State) : Out :=
  let va := s.rs f.b
  let l := (s.rs f.c).toNat
  let d := s.cur.die
  onUnit s fun s => (withHead s 0xA00 f f.a fun n h =>
    if h.desc.l ≤ l then illegalWord s 0xA00 f
    else if va.toNat % 64 ≠ 0 then .trap s { cause := 0x04, eaddr := va }
    else
      let r := checkRun s s.ctx true va (64 * h.desc.b)
      match worst r.2 with
      | some (c, _, x) => .trap r.1 { cause := c, eaddr := x }
      | none =>
        match nowhereOf r.2 with
        | some pa => .fault (.noSuchAddress pa)
        | none =>
          if r.1.held true r.2 then .wait s .copy
          else
            let g := r.1.readRun r.2
            let num := ofBytes g.2
            if (List.range h.desc.b).any fun j =>
                (List.range h.desc.dh).any fun i => projCode (num >>> (512 * j)) i == 2 then illegalWord g.1 0xA00 f
            else
              let t : Fin 4 := Fin.ofNat 4 l
              let s := g.1.modDie d fun y => { y with proj := SMap.setMany 0 y.proj (projBase n l) g.2 }
              .done (s.setKHead d n
                { h with version := h.version.set t (h.version[t] + 1), stale := h.stale.set t true,
                         loaded := h.loaded.set t true }))

/-! ## Signatures and probes (12 R314, R315) -/

/-- Vector j of slot (n, l) as a number. -/
def State.projRow (s : State) (d : DieId) (n l j : Nat) : Nat :=
  ofBytes (SMap.getMany 0 (s.die d).proj (projBase n l + 64 * j) 64)

/-- D_j: entries 0 leave their elements out (in part DEDUCED, log 31). -/
def kDot (row : Nat) (k : List FVal) : FVal :=
  ((List.range k.length).zip k).foldl (fun (a : FVal) x =>
    match projCode row x.1 with
    | 1 => (FVal.add .rne a x.2).1
    | 3 => (FVal.add .rne a x.2.neg).1
    | _ => a) (.fin false 0 0)

/-- A bit of a signature: D_j ≥ 0. -/
def dotBit (v : FVal) : Bool :=
  match v with
  | .nan _ => false
  | .inf n => !n
  | .fin n m _ => !n || m == 0

/-- The dots of table l. -/
def State.dots (s : State) (d : DieId) (n : Nat) (x : KDesc) (l : Nat) (k : List FVal) : List FVal :=
  (List.range x.b).map fun j => kDot (s.projRow d n l j) k

/-- The signature that dots give. -/
def sigOf (l : List FVal) : Nat := ((List.range l.length).zip l).foldl (fun a x => a + (dotBit x.2).toNat <<< x.1) 0

/-- The bits in order of rising margin, lower bits first among equals. -/
def byMargin (l : List FVal) : List Nat :=
  (((List.range l.length).zip l).foldl (fun (a : List (Nat × FVal)) x =>
    let le (y : Nat × FVal) : Bool := !FVal.lt x.2.abs y.2.abs
    a.takeWhile le ++ x :: a.dropWhile le) []).map (·.1)

/-- The probes of a table: the signature, and NFLIP flips of it. -/
def probesOf (nflip : Nat) (l : List FVal) : List Nat :=
  let sg := sigOf l
  sg :: ((byMargin l).take nflip).map fun j => sg ^^^ (1 <<< j)

/-- Row r of vector A as BF16 values; FLUSH is ignored. -/
def keyRow (h : Hart) (f : Fields) (dh r : Nat) : List FVal :=
  (List.range dh).map fun i => Fmt.bf16.val false (h.getE f.a.toNat 16 (r * h.colcap + i))

/-- Whether an element is infinite or a NaN. -/
def notFinite (l : List FVal) : Bool := l.any fun v => v.isNaN || v.isInf

/-- Vector A is BF16, fits, and has DH columns (12 R320). -/
def keyVec (h : Hart) (f : Fields) (x : KDesc) : Bool :=
  h.sew == 16 && vtFalt h.vc.vtype == 0 && (⟨f.a.toNat, 16, false⟩ : Opnd).ok h && (h.vl == 0 || h.cols == x.dh)

/-! ## Bucket entries (12 R316 to R318) -/

/-- A bucket entry. -/
structure Bucket where
  head : Nat
  count : Nat
  ovf : Bool
  deriving DecidableEq, Repr

/-- An entry's word under a version. -/
def Bucket.word (e : Bucket) (ver : BitVec 16) : Nat :=
  e.head % 2 ^ 32 + e.count <<< 40 + e.ovf.toNat <<< 56 + (ver.toNat % 128) <<< 57

/-- Reads a word, lazily empty when its version is another (12 R318). -/
def Bucket.ofWord (w : Nat) (ver : BitVec 16) : Bucket :=
  if bits w 63 57 = ver.toNat % 128 then ⟨bits w 39 0, bits w 55 40, bits w 56 56 = 1⟩ else ⟨0, 0, false⟩

/-- The address of entry s of table l. -/
def KDesc.entryVa (x : KDesc) (l sg : Nat) : Nat := x.table l + 64 + 8 * sg

def KHead.ver (h : KHead) (l : Nat) : BitVec 16 := h.version[Fin.ofNat 4 l]

/-- Reads entry s of table l. -/
def KRun.entry (k : KRun) (h : KHead) (l sg : Nat) : KRun × Option Bucket :=
  let r := k.read h (2 + l) (h.desc.entryVa l sg) 8
  (r.1, r.2.map fun w => Bucket.ofWord w (h.ver l))

def KRun.putEntry (k : KRun) (h : KHead) (l sg : Nat) (e : Bucket) : KRun :=
  k.write1 h (2 + l) (h.desc.entryVa l sg) (toBytes 8 (e.word (h.ver l)))

/-- The address of block n. -/
def KDesc.blockVa (x : KDesc) (n : Nat) : Nat := x.pool + 64 * n

/-- Reads block n as a number. -/
def KRun.block (k : KRun) (h : KHead) (n : Nat) : KRun × Option Nat := k.read h 1 (h.desc.blockVa n) 64

def slotOfBlock (b i : Nat) : Nat := (b >>> (32 * i)) % 2 ^ 32
def nextOf (b : Nat) : Nat := slotOfBlock b 15
def emptySlot : Nat := 0xFFFFFFFF

/-- The tokens of a block. -/
def tokensOf (b : Nat) : List Nat := ((List.range 15).map (slotOfBlock b)).filter (· != emptySlot)

/-- The checks of R318 on every table: the one that fails first, or a failing read of its header
(in part DEDUCED, log 31). -/
def checkTables (s : State) (h : KHead) (k : Eff) : Eff :=
  match (List.range h.desc.l).findSome? fun l =>
      let va : Word := BitVec.ofNat 64 (h.desc.table l)
      let r := (KRun.start s).read h (2 + l) (h.desc.table l) 8
      match r.2 with
      | some w =>
        if r.1.hold then some (Eff.wait s .copy)
        else if h.stale[Fin.ofNat 4 l] ∨ w % 65536 ≠ (h.ver l).toNat then some (.trap s { cause := 0x12, eaddr := va })
        else none
      | none => some (r.1.finish s fun s _ => .trap s { cause := 0x16, eaddr := va }) with
  | some e => e
  | none => k

/-! ## KSTORE (12 R321) -/

/-- Takes a block from FREE, or from ALLOC (12 R317): the head and the block, none when the pool is exhausted; `some none` when
the free block cannot be read. A broken NEXT ends the free list (in part DEDUCED, log 31). -/
def KRun.allocate (k : KRun) (h : KHead) : KRun × KHead × Option (Option Nat) :=
  if h.free ≠ 0 then
    let r := k.block h h.free
    match r.2 with
    | some b =>
      let nx := nextOf b
      (r.1, { h with free := if nx < h.desc.pblk then nx else 0 }, some (some h.free))
    | none => (r.1, h, some none)
  else if h.alloc = h.desc.pblk then (k, h, none)
  else (k, { h with alloc := h.alloc + 1 }, some (some h.alloc))

/-- link(l, s, t): whether the token was linked (in part DEDUCED, log 31). -/
def KRun.link (k : KRun) (h : KHead) (l sg t : Nat) : KRun × KHead × Bool :=
  match k.entry h l sg with
  | (k, none) => (k, h, false)
  | (k, some e) =>
    let e : Bucket := if e.head ≥ h.desc.pblk then { e with head := 0, ovf := true } else e
    let bump (e : Bucket) : Bucket := { e with count := min (e.count + 1) 65535 }
    let fresh (k : KRun) : KRun × KHead × Bool :=
      (match k.allocate h with
        | (k, h, none) => (k.putEntry h l sg { e with ovf := true }, h, false)
        | (k, h, some none) => (k, h, false)
        | (k, h, some (some n)) =>
          let blk := toBytes 4 t ++ List.replicate 56 0xFF ++ toBytes 4 e.head
          ((k.write h 1 (h.desc.blockVa n) blk).putEntry h l sg (bump { e with head := n }), h, true))
    if e.head = 0 then fresh k
    else
      match k.block h e.head with
      | (k, none) => (k, h, false)
      | (k, some b) =>
        match (List.range 15).find? fun i => slotOfBlock b i == emptySlot with
        | some i =>
          ((k.write1 h 1 (h.desc.blockVa e.head + 4 * i) (toBytes 4 t)).putEntry h l sg (bump e), h, true)
        | none => fresh k

def execKstore (f : Fields) (s : State) : Out :=
  let x := s.me
  let d := s.cur.die
  let t0 := (s.rs f.c).toNat
  onUnit s fun s => (withHead s 0xA01 f f.b fun n h =>
    if !keyVec x f h.desc ∨ 32 < x.rows ∨ h.desc.krows < t0 + x.rows ∨ 0xFFFFFFFF < t0 + x.rows then
      illegalWord s 0xA01 f
    else
      withRegs s ((⟨f.a.toNat, 16, false⟩ : Opnd).regs x) (checkTables s h (
        if x.vl = 0 then .done (s.ws f.d 0)
        else withRelease s 2 <|
          let keys := (List.range x.rows).foldl (fun (k : KRun) r =>
            k.write h 0 (h.desc.kbase + (t0 + r) * h.desc.kpitch)
              ((List.range h.desc.dh).flatMap fun i => toBytes 2 (x.getE f.a.toNat 16 (r * x.colcap + i)))) (KRun.start s)
          let r := (List.range x.rows).foldl (fun (a : KRun × KHead × Nat × Nat) r =>
            let v := keyRow x f h.desc.dh r
            if notFinite v then (a.1, a.2.1, a.2.2.1 + 1 <<< r, a.2.2.2)
            else
              (List.range h.desc.l).foldl (fun (a : KRun × KHead × Nat × Nat) l =>
                let y := a.1.link a.2.1 l (sigOf (s.dots d n h.desc l v)) (t0 + r)
                (y.1, y.2.1, a.2.2.1, if y.2.2 then a.2.2.2 else a.2.2.2 ||| 1 <<< r)) a) (keys, h, 0, 0)
          r.1.finish s fun s bad =>
            .done (((s.setKHead d n r.2.1).ws f.d (BitVec.ofNat 64 (r.2.2.2 <<< 32 + r.2.2.1))).afterPoison bad))))

/-! ## KQUERY, KCOUNT, KSIG (12 R322 to R325) -/

/-- Adds a member to a set kept in decreasing order. -/
def insertTok (l : List Nat) (t : Nat) : List Nat :=
  let hi := l.takeWhile (t < ·)
  let lo := l.drop hi.length
  if lo.head? = some t then l else hi ++ t :: lo

/-- The walk of a chain from block b: tokens found, and whether the chain is broken or too long; none when a read fails. -/
def KRun.walkChain (h : KHead) : Nat → KRun → Nat → List Nat → KRun × Option (List Nat × Bool)
  | m, k, b, acc =>
    if b = 0 then (k, some (acc, false))
    else if h.desc.pblk ≤ b then (k, some (acc, true))
    else
      match m with
      | 0 => (k, some (acc, true))
      | m + 1 =>
        match k.block h b with
        | (k, none) => (k, none)
        | (k, some x) =>
          KRun.walkChain h m k (nextOf x) (((tokensOf x).filter fun t => h.wbase ≤ t).foldl insertTok acc)

/-- One probe: tokens joined to the set, and whether it overflows. A probe whose read fails is skipped and counts as an
overflow (12 R332) (in part DEDUCED, log 32). -/
def KRun.probe (h : KHead) (a : KRun × List Nat × Bool) (l sg : Nat) : KRun × List Nat × Bool :=
  match a.1.entry h l sg with
  | (k, none) => (k, a.2.1, true)
  | (k, some e) =>
    match KRun.walkChain h 4096 k e.head a.2.1 with
    | (k, none) => (k, a.2.1, true)
    | (k, some (t, broken)) => (k, t, a.2.2 || e.ovf || broken)

/-- The probes of a query over all tables. -/
def queryProbes (s : State) (n : Nat) (h : KHead) (q : List FVal) : List (Nat × Nat) :=
  (List.range h.desc.l).flatMap fun l =>
    (probesOf (s.me.kmode.toNat % 4) (s.dots s.cur.die n h.desc l q)).map fun sg => (l, sg)

/-- KMODE's FLAG and MIN (12 Table 12.6). -/
def Hart.kflag (x : Hart) : Bool := x.kmode.getLsbD 2
def Hart.kmin (x : Hart) : Nat := x.kmode.toNat >>> 8

/-- In part DEDUCED, log 32. -/
def execKquery (f : Fields) (s : State) : Out :=
  let x := s.me
  let w := if f.w = 5 then 32 else 16
  let dst : Opnd := ⟨f.d.toNat, w, false⟩
  let a : Opnd := ⟨f.a.toNat, 16, false⟩
  onUnit s fun s => (withHead s 0xA03 f f.b fun n h =>
    if !keyVec x f h.desc ∨ 1 < x.rows ∨ !dst.ok x ∨ overlaps dst.reg (dst.size x) a.reg (a.size x) then
      illegalWord s 0xA03 f
    else
      withRegs s (dst.regs x ++ a.regs x) (withStreams s [dst] [] fun s => checkTables s h (
        if x.vl = 0 then .done (s.ws f.c 0)
        else
          let q := keyRow x f h.desc.dh 0
          let cap := x.g * 16384 / w
          let lim := min x.klimit.toNat cap
          let dense := h.dense || notFinite q
          let r := if dense then (KRun.start s, [], false)
            else (queryProbes s n h q).foldl (fun a p => KRun.probe h a p.1 p.2) (KRun.start s, [], false)
          let total := r.2.1.length
          let reason := if dense then 1 else if r.2.2 then 2 else if lim < total then 3
            else if total < x.kmin then 4 else 0
          let cnt := min total lim
          let res := (if reason = 0 then 0 else 2 ^ 63) + reason <<< 60 + (min total (2 ^ 24 - 1)) <<< 32 + cnt
          r.1.finish s fun s bad =>
            let trapOn := reason ≠ 0 ∧ x.gang.isNone ∧ !x.kflag
            if trapOn ∧ bad.isNone then .trap s { cause := 0x11, eaddr := BitVec.ofNat 64 res }
            else
              let list := r.2.1.take cnt
              let s := s.modMe fun y =>
                let y := ((List.range cnt).zip list).foldl (fun (y : Hart) e =>
                  y.setE dst.reg w e.1 (if w = 32 then e.2 else (e.2 + 2 ^ 32 - h.wbase) % 65536)) y
                if y.tp then
                  (List.range (dst.size x)).foldl (fun (y : Hart) i =>
                    y.keepBits (dst.reg + i) ((2 ^ (cnt * w) - 1) >>> (16384 * i))) y
                else y
              let s := pushAll (s.ws f.c (BitVec.ofNat 64 res)) [dst]
              match bad with
              | some va => if trapOn then .trap s { cause := 0x16, eaddr := va } else .done (s.afterPoison bad)
              | none => .done s)))

def execKcount (f : Fields) (s : State) : Out :=
  let x := s.me
  let a : Opnd := ⟨f.a.toNat, 16, false⟩
  onUnit s fun s => (withHead s 0xA04 f f.b fun n h =>
    if !keyVec x f h.desc ∨ 1 < x.rows then illegalWord s 0xA04 f
    else
      withRegs s (a.regs x) (checkTables s h (
        if x.vl = 0 then .done (s.ws f.d 0)
        else
          let q := keyRow x f h.desc.dh 0
          let r := if h.dense || notFinite q then (KRun.start s, 0, false)
            else (queryProbes s n h q).foldl (fun (a : KRun × Nat × Bool) p =>
              match a.1.entry h p.1 p.2 with
              | (k, none) => (k, a.2)
              | (k, some e) => (k, a.2.1 + e.count, a.2.2 || e.ovf)) (KRun.start s, 0, false)
          r.1.finish s fun s bad =>
            .done ((s.ws f.d (BitVec.ofNat 64 (r.2.2.toNat <<< 63 + h.dense.toNat <<< 62 + r.2.1 % 2 ^ 32))).afterPoison
              bad))))

def execKsig (f : Fields) (s : State) : Out :=
  let x := s.me
  let dst : Opnd := ⟨f.d.toNat, 16, false⟩
  let a : Opnd := ⟨f.a.toNat, 16, false⟩
  onUnit s fun s => (withHead s 0xA02 f f.b fun n h =>
    if !keyVec x f h.desc ∨ x.g * 1024 < 4 * x.rows ∨ dst.reg % x.g ≠ 0 ∨
        overlaps dst.reg (dst.size x) a.reg (a.size x) then illegalWord s 0xA02 f
    else
      withRegs s (dst.regs x ++ a.regs x) (withStreams s [dst] [] fun s =>
        match (List.range h.desc.l).find? fun l => !h.loaded[Fin.ofNat 4 l] with
        | some l => .trap s { cause := 0x12, eaddr := BitVec.ofNat 64 (h.desc.table l) }
        | none =>
          if x.vl = 0 then .done s
          else
            .done (pushAll (s.modMe fun y =>
              (List.range x.rows).foldl (fun (y : Hart) r =>
                (List.range h.desc.l).foldl (fun (y : Hart) l =>
                  y.setE dst.reg 16 (4 * r + l)
                    (sigOf (s.dots s.cur.die n h.desc l (keyRow x f h.desc.dh r)))) y) y) [dst])))

/-! ## Maintenance (12 R326, R328, R329) -/

/-- A legal value of KMODE and of KLIMIT; bits of RO fields are ignored (12 R326, 14 R353). -/
def kmodeOk (v : Word) : Bool := wbits v 1 0 ≤ 2
def klimitOk (v : Word) : Bool := 1 ≤ wbits v 13 0 && wbits v 13 0 ≤ 8192

/-- KMODE as it is written: bits [7:3] read as zero (in part DEDUCED, log 32). -/
def kmodeVal (v : Word) : BitVec 24 := v.setWidth 24 &&& 0xFFFF07#24

def execKmode (f : Fields) (s : State) : Out :=
  onUnit s fun s =>
    if s.me.vstart ≠ 0 ∨ !kmodeOk (s.rs f.a) ∨ !klimitOk (s.rs f.b) then illegalWord s 0xA06 f
    else .done (s.modMe fun h => { h with kmode := kmodeVal (s.rs f.a), klimit := (s.rs f.b).setWidth 14 })

def execKmodeDense (f : Fields) (s : State) : Out :=
  onUnit s fun s => (withHead s 0xA06 f f.a fun n h =>
    if wbits (s.rs f.b) 63 1 ≠ 0 then illegalWord s 0xA06 f
    else .done (s.setKHead s.cur.die n { h with dense := (s.rs f.b).getLsbD 0 }))

/-- KRESET of table l. -/
def KRun.resetTable (k : KRun) (h : KHead) (l : Nat) : KRun × KHead :=
  let t : Fin 4 := Fin.ofNat 4 l
  let v := h.version[t] + 1
  let h' := { h with version := h.version.set t v, stale := h.stale.set t false }
  let eager := h.firstReset || 128 ≤ (v - h.lastclr[t]).toNat
  let k := if eager then
      k.write h' (2 + l) (h.desc.table l + 64)
        ((List.range (2 ^ h.desc.b)).flatMap fun _ => toBytes 8 ((⟨0, 0, false⟩ : Bucket).word v))
    else k
  let h' := if eager then { h' with lastclr := h'.lastclr.set t v } else h'
  (k.write1 h' (2 + l) (h.desc.table l) (toBytes 8 v.toNat), h')

def execKreset (f : Fields) (s : State) : Out :=
  onUnit s fun s => (withHead s 0xA05 f f.a fun n h =>
    match (List.range h.desc.l).find? fun l => !h.loaded[Fin.ofNat 4 l] with
    | some l => .trap s { cause := 0x12, eaddr := BitVec.ofNat 64 (h.desc.table l) }
    | none =>
      withRelease s 2 <|
      let r := (List.range h.desc.l).foldl (fun (a : KRun × KHead) l => a.1.resetTable a.2 l) (KRun.start s, h)
      r.1.finish s fun s _ =>
        .done (s.setKHead s.cur.die n { r.2 with firstReset := false, free := 0, alloc := 1, wbase := 0 }))

/-- What a walk of KTRIM finds: the blocks that stay, from the newest, the tokens they hold, and the blocks cut. -/
structure Trim where
  keep : List Nat
  count : Nat
  cut : List Nat
  deriving DecidableEq, Repr

/-- Walks a chain for KTRIM; none when a read fails (in part DEDUCED, log 32). -/
def KRun.trimChain (h : KHead) (wbase : Nat) : Nat → KRun → Nat → Trim → KRun × Option Trim
  | m, k, b, t =>
    if b = 0 ∨ h.desc.pblk ≤ b then (k, some t)
    else
      match m with
      | 0 => (k, some t)
      | m + 1 =>
        match k.block h b with
        | (k, none) => (k, none)
        | (k, some x) =>
          let old := !t.cut.isEmpty || (tokensOf x).all fun v => decide (v < wbase)
          KRun.trimChain h wbase m k (nextOf x)
            (if old then { t with cut := t.cut ++ [b] }
              else { t with keep := t.keep ++ [b], count := t.count + (tokensOf x).length })

/-- KTRIM of one bucket: its chain is cut, the cut blocks go to FREE, and the entry is written; a broken HEAD, which is never
written (12 R317), becomes 0 (in part DEDUCED, log 32). -/
def KRun.trimBucket (a : KRun × KHead × Nat) (l sg : Nat) : KRun × KHead × Nat :=
  let h := a.2.1
  let r := a.1.read h (2 + l) (h.desc.entryVa l sg) 8
  match r.2 with
  | none => (r.1, a.2)
  | some w =>
    if bits w 63 57 ≠ (h.ver l).toNat % 128 then (r.1, a.2)
    else
      let e := Bucket.ofWord w (h.ver l)
      match KRun.trimChain h h.wbase 4096 r.1 e.head ⟨[], 0, []⟩ with
      | (k, none) => (k, a.2)
      | (k, some t) =>
        let k := if t.cut.isEmpty then k
          else (match t.keep.getLast? with
            | some p => k.write1 h 1 (h.desc.blockVa p + 60) (toBytes 4 0)
            | none => k)
        let f := t.cut.foldl (fun (y : KRun × Nat) n => (y.1.write1 h 1 (h.desc.blockVa n + 60) (toBytes 4 y.2), n))
          (k, h.free)
        let e' : Bucket := { e with count := t.count, head := if t.keep.isEmpty then 0 else e.head }
        (f.1.putEntry h l sg e', { h with free := f.2 }, a.2.2 + t.cut.length)

/-- In part DEDUCED, log 32. -/
def execKtrim (f : Fields) (s : State) : Out :=
  onUnit s fun s => (withHead s 0xA07 f f.a fun n h =>
    if wbits (s.rs f.b) 63 32 ≠ 0 then illegalWord s 0xA07 f
    else
      withRelease s 2 <|
      let h := { h with wbase := max h.wbase (s.rs f.b).toNat }
      let r := (List.range h.desc.l).foldl (fun (a : KRun × KHead × Nat) l =>
        (List.range (2 ^ h.desc.b)).foldl (fun a sg => KRun.trimBucket a l sg) a) (KRun.start s, h, 0)
      r.1.finish s fun s bad =>
        .done (((s.setKHead s.cur.die n r.2.1).ws f.d (BitVec.ofNat 64 r.2.2)).afterPoison bad))

end Sys2Proof.Machine
end

