-- ==== Sys2Proof/Machine/ControlRegs.lean ====
section
/-!
DEFINITION. The control registers (14 R352 to R355, Tables 14.1 to 14.3b): numbers, rights, values and writes; CRR and CRW
(14 R353, R372).
-/

namespace Sys2Proof.Machine

/-- The assigned control registers (14 Table 14.2). -/
inductive CReg where
  | hartid | gangid | clusterid | status | cause | epc | eidx | eaddr | tvec | escratch
  | vtype | vlrow | vlcol | vstart | vdirty | vvalid | vsaveptr
  | vhigh (n : Fin 32)
  | dl (k : Fin 3)
  | ds (k : Fin 3)
  | nfflag | fpflags | fpctl | srseed | leesp | leesbase | leeslim | leeswin | tagbits | tagbusy
  | calslot | bookstart | bookend | slack | overruns | hintstalls | ptbase | asid | modp | modq | sstatus
  | kmode | klimit | preempt | hsem
  | vbind (k : Fin 4)
  | wslotA (n : Fin 2)
  | wslotB (n : Fin 2)
  deriving DecidableEq, Repr

/-- The registers by number; the ranges VHIGH, DL, DS, VBIND and WSLOT are taken apart in `CReg.of`. -/
def cregTable : List (Nat × CReg) :=
  [(0x000, .hartid), (0x001, .gangid), (0x002, .clusterid), (0x003, .status), (0x004, .cause), (0x005, .epc), (0x006, .eidx),
   (0x007, .eaddr), (0x008, .tvec), (0x009, .escratch), (0x010, .vtype), (0x011, .vlrow), (0x012, .vlcol), (0x013, .vstart),
   (0x014, .vdirty), (0x015, .vvalid), (0x016, .vsaveptr), (0x050, .nfflag), (0x051, .fpflags), (0x052, .fpctl),
   (0x053, .srseed), (0x060, .leesp), (0x061, .leesbase), (0x062, .leeslim), (0x063, .leeswin), (0x070, .tagbits),
   (0x071, .tagbusy)] ++
  [(0x080, .calslot), (0x081, .bookstart), (0x082, .bookend), (0x083, .slack), (0x084, .overruns), (0x085, .hintstalls),
   (0x090, .ptbase), (0x091, .asid), (0x0A0, .modp), (0x0A1, .modq), (0x0A2, .sstatus), (0x0B0, .kmode), (0x0B1, .klimit),
   (0x0C0, .preempt), (0x0D0, .hsem), (0x0E8, .wslotA 0), (0x0E9, .wslotB 0), (0x0EA, .wslotA 1), (0x0EB, .wslotB 1)]

/-- The register of a number; none for an unassigned number (14 R353). -/
def CReg.of (n : Nat) : Option CReg :=
  if 0x018 ≤ n ∧ n ≤ 0x037 then some (.vhigh (Fin.ofNat 32 (n - 0x018)))
  else if 0x040 ≤ n ∧ n ≤ 0x042 then some (.dl (Fin.ofNat 3 (n - 0x040)))
  else if 0x043 ≤ n ∧ n ≤ 0x045 then some (.ds (Fin.ofNat 3 (n - 0x043)))
  else if 0x0E0 ≤ n ∧ n ≤ 0x0E3 then some (.vbind (Fin.ofNat 4 (n - 0x0E0)))
  else (cregTable.find? fun x => x.1 == n).map (·.2)

/-- What task level may do (14 Table 14.2). -/
inductive TaskRight where
  | none | read | write
  deriving DecidableEq, Repr

/-- In part DEDUCED, log 56. -/
def CReg.right (r : CReg) : TaskRight :=
  match r with
  | .hartid | .gangid | .clusterid | .status | .vdirty | .vvalid | .vsaveptr | .vhigh _ | .leesp | .tagbusy | .calslot
  | .bookstart | .bookend | .slack | .overruns | .hintstalls => .read
  | .vtype | .vlrow | .vlcol | .vstart | .dl _ | .ds _ | .nfflag | .fpflags | .fpctl | .srseed | .tagbits | .modp | .modq
  | .sstatus | .kmode | .klimit => .write
  | _ => .none

/-- Every field of the register is RO (14 R353). -/
def CReg.readOnly (r : CReg) : Bool :=
  match r with
  | .hartid | .gangid | .clusterid | .tagbusy | .calslot | .bookstart | .bookend | .slack | .preempt => true
  | _ => false

/-! ## Values -/

/-- STATUS as a word (14 Table 14.1). -/
def Status.word (t : Status) : Word :=
  BitVec.ofNat 64 (t.sys.toNat + 2 * t.psys.toNat + 4 * t.ie.toNat + 8 * t.pie.toNat + 16 * t.eve.toNat + 32 * t.audit.toNat +
    64 * t.mfr.toNat + 128 * t.pmfr.toNat + 256 * t.dread.toNat)

/-- STATUS written with a word: SYS stays (14 R352). -/
def Status.write (t : Status) (w : Word) : Status :=
  { sys := t.sys, psys := w.getLsbD 1, ie := w.getLsbD 2, pie := w.getLsbD 3, eve := w.getLsbD 4, audit := w.getLsbD 5,
    mfr := w.getLsbD 6, pmfr := w.getLsbD 7, dread := w.getLsbD 8 }

/-- FPCTL as a word (03 Table 3.7). -/
def FpCtl.word (x : FpCtl) : Word := BitVec.ofNat 64 (x.rm.toNat + x.sat8.toNat <<< 3 + x.enables.toNat <<< 5)

/-- FPCTL written: codes 6 and 7 leave RM as it is (03 R60). -/
def FpCtl.write (x : FpCtl) (w : Word) : FpCtl :=
  { rm := if wbits w 2 0 ≤ 5 then w.setWidth 3 else x.rm, sat8 := w.getLsbD 3, enables := w.extractLsb' 5 5 }

/-- PREEMPT as a word (14 Table 14.3): DRAIN says that the request waits for a drain point (14 R361). -/
def PreemptReg.word (x : PreemptReg) (waits : Bool) : Word :=
  BitVec.ofNat 64 (x.pend.toNat + (x.pend && waits).toNat <<< 1 + x.req.toNat <<< 2)

/-- VBINDk as a word (14 Table 14.3a). -/
def VBind.word (b : VBind) : Word :=
  BitVec.ofNat 64 (b.v.toNat + b.out.toNat <<< 1 + b.drained.toNat <<< 2 + b.group.toNat <<< 3 + b.lg.toNat <<< 8 +
    b.handle.toNat <<< 10 + b.type.toNat <<< 15)

def VBind.ofWord (w : Word) : VBind :=
  { v := w.getLsbD 0, out := w.getLsbD 1, drained := w.getLsbD 2, group := w.extractLsb' 3 5, lg := w.extractLsb' 8 2,
    handle := w.extractLsb' 10 5, type := w.extractLsb' 15 4 }

/-- WSLOTnB as a word (14 Table 14.3b). -/
def WSlot.word (x : WSlot) : Word :=
  BitVec.ofNat 64 (x.valid.toNat + x.type.toNat <<< 1 + x.int.toNat <<< 5 + x.sp24.toNat <<< 6 + x.u.toNat <<< 7 +
    x.k.toNat <<< 8 + x.n.toNat <<< 17 + x.pitch.toNat <<< 32)

/-- WSLOTnB written: the buffer contents become absent (14 R355). -/
def WSlot.write (x : WSlot) (w : Word) : WSlot :=
  { addr := x.addr, valid := w.getLsbD 0, type := w.extractLsb' 1 4, int := w.getLsbD 5, sp24 := w.getLsbD 6,
    u := w.getLsbD 7, k := w.extractLsb' 8 9, n := w.extractLsb' 17 9, pitch := w.extractLsb' 32 32, image := none }

/-- The value of a register of the running hart, HSEM's without its acquire. -/
def State.crValue (s : State) (r : CReg) : Word :=
  let h := s.me
  match r with
  | .hartid => BitVec.ofNat 64 (s.cur.local).val
  | .gangid => h.cal.gangid
  | .clusterid => BitVec.ofNat 64 (s.cur.cluster.val + s.dev.pkgNum.toNat <<< 7)
  | .status => h.status.word
  | .cause => h.tr.cause.setWidth 64
  | .epc => h.tr.epc
  | .eidx => h.tr.eidx
  | .eaddr => h.tr.eaddr
  | .tvec => h.tr.tvec
  | .escratch => h.tr.escratch
  | .vtype => h.vc.vtype.setWidth 64
  | .vlrow => h.vc.vlrow.setWidth 64
  | .vlcol => h.vc.vlcol.setWidth 64
  | .vstart => h.vc.vstart.setWidth 64
  | .vdirty => h.vc.vdirty.setWidth 64
  | .vvalid => h.vc.vvalid.setWidth 64
  | .vsaveptr => h.vc.vsaveptr
  | .vhigh n => (h.vc.vhigh[n]).setWidth 64
  | .dl k => h.vc.dl[k]
  | .ds k => h.vc.ds[k]
  | .nfflag => h.vc.nfflag.setWidth 64
  | .fpflags => h.fp.flags.setWidth 64
  | .fpctl => h.fp.ctl.word
  | .srseed => h.fp.seed
  | .leesp => h.lees.sp
  | .leesbase => h.lees.base
  | .leeslim => h.lees.lim
  | .leeswin => h.lees.win.setWidth 64
  | .tagbits => h.tags.bits
  | .tagbusy => h.tags.busy
  | .calslot => BitVec.ofNat 64 s.slot
  | .bookstart => match s.taskOf s.cur with | some t => BitVec.ofNat 64 t.bookStart | none => BitVec.allOnes 64
  | .bookend => match s.taskOf s.cur with | some t => BitVec.ofNat 64 t.bookEnd | none => BitVec.allOnes 64
  | .slack => BitVec.ofNat 64 (s.slackRemain s.cur + h.cal.slackOwn.toNat <<< 32)
  | .overruns => h.cal.overruns.setWidth 64
  | .hintstalls => h.cal.hintstalls
  | .ptbase => h.ptbase
  | .asid => h.asid.setWidth 64
  | .modp => h.modp.setWidth 64
  | .modq => h.modq.setWidth 64
  | .sstatus => h.sstatus
  | .kmode => h.kmode.setWidth 64
  | .klimit => h.klimit.setWidth 64
  | .preempt => h.preempt.word (s.mustDrain s.cur)
  | .hsem => s.dev.hsem.word
  | .vbind k => (h.vbind[k]).word
  | .wslotA n => (h.wslot[n]).addr
  | .wslotB n => (h.wslot[n]).word

/-! ## Writes -/

/-- The lees registers with new bounds, when they accept them (11 R290) (in part DEDUCED, log 29). -/
def LeesRegs.checked (x y : LeesRegs) : Option LeesRegs :=
  if x.win = 0 ∧ y.base.toNat ≤ y.sp.toNat ∧ y.sp.toNat ≤ y.lim.toNat then some y else none

/-- A binding that a CRW may establish in register `k` (06 R165, 14 R354). -/
def Hart.bindOk (h : Hart) (k : Fin 4) (b : VBind) : Bool :=
  b.group.toNat % b.size == 0 &&
  (List.finRange 4).all fun i =>
    let x := h.vbind[i]
    i == k || !x.v || !(overlaps x.group.toNat x.size b.group.toNat b.size || x.handle == b.handle)

/-- A hart with its vector configuration changed. -/
def Hart.modVc (h : Hart) (f : VecCfg → VecCfg) : Hart := { h with vc := f h.vc }

/-- VTYPE, VLROW, VLCOL, VSTART and DLk written (05 R90, R96, R101): none where the value is out of bounds. A VTYPE whose
ROWCAP or COLCAP is below the lengths that stand leaves those lengths as they are (DESIGN CHOICE, log 29). -/
def Hart.writeVec (h : Hart) (r : CReg) (w : Word) : Option Hart :=
  match r with
  | .vtype => if vtypeOk (w.setWidth 16) then some (h.modVc fun v => { v with vtype := w.setWidth 16 }) else none
  | .vlrow =>
    if wbits w 13 0 ≤ h.rowcap then some (h.modVc fun v => { v with vlrow := w.setWidth 14 }) else none
  | .vlcol =>
    if wbits w 13 0 ≤ h.colcap then some (h.modVc fun v => { v with vlcol := w.setWidth 14 }) else none
  | .vstart => if wbits w 13 0 ≤ 8192 then some (h.modVc fun v => { v with vstart := w.setWidth 14 }) else none
  | .vhigh n =>
    if wbits w 11 0 ≤ 2048 then some (h.modVc fun v => { v with vhigh := v.vhigh.set n (w.setWidth 12) }) else none
  | .dl k =>
    let x := w &&& (if k = 2 then 0x1FFFFFF#64 else 0x1FFFFF#64)
    if x.toNat ≤ dlLimit k.val then some (h.modVc fun v => { v with dl := v.dl.set k x }) else none
  | _ => some h

/-- A hart with a register written (14 R353): none where the value breaks the register's rules
(in part DEDUCED, log 29). -/
def Hart.crWrite (h : Hart) (r : CReg) (w : Word) : Option Hart :=
  match r with
  | .status => some { h with status := h.status.write w }
  | .cause => some { h with tr := { h.tr with cause := w.setWidth 8 } }
  | .epc => some { h with tr := { h.tr with epc := align16 w } }
  | .eidx => some { h with tr := { h.tr with eidx := w } }
  | .eaddr => some { h with tr := { h.tr with eaddr := w } }
  | .tvec => some { h with tr := { h.tr with tvec := align16 w } }
  | .escratch => some { h with tr := { h.tr with escratch := w } }
  | .vdirty => some (h.modVc fun v => { v with vdirty := w.setWidth 41 })
  | .vvalid => some (h.modVc fun v => { v with vvalid := w.setWidth 41 })
  | .vsaveptr => some (h.modVc fun v => { v with vsaveptr := w &&& 0xFFFFFFFFFFF000#64 })
  | .ds k => some (h.modVc fun v => { v with ds := v.ds.set k w })
  | .nfflag => some (h.modVc fun v => { v with nfflag := w.setWidth 3 })
  | .fpflags => some { h with fp := { h.fp with flags := w.setWidth 5 } }
  | .fpctl => some { h with fp := { h.fp with ctl := h.fp.ctl.write w } }
  | .srseed => some { h with fp := { h.fp with seed := w } }
  | .leesp => (h.lees.checked { h.lees with sp := w &&& 0xFFFFFFFFFFFFC0#64 }).map fun x => { h with lees := x }
  | .leesbase => (h.lees.checked { h.lees with base := w &&& 0xFFFFFFFFFFF800#64 }).map fun x => { h with lees := x }
  | .leeslim => (h.lees.checked { h.lees with lim := w &&& 0xFFFFFFFFFFF800#64 }).map fun x => { h with lees := x }
  | .leeswin => if wbits w 4 0 = 0 then some { h with lees := { h.lees with win := 0, held := [] } } else none
  | .tagbits => some { h with tags := { h.tags with bits := (h.tags.bits &&& h.tags.busy) ||| (w &&& ~~~h.tags.busy) } }
  | .overruns => some { h with cal := { h.cal with overruns := w.setWidth 32 } }
  | .hintstalls => some { h with cal := { h.cal with hintstalls := w } }
  | .ptbase => some { h with ptbase := ptbaseBits w }
  | .asid => some { h with asid := w.setWidth 16 }
  | .modp => some { h with modp := w.setWidth 31, sstatus := h.sstatus &&& ~~~4#64 }
  | .modq => some { h with modq := w.setWidth 31, sstatus := h.sstatus &&& ~~~4#64 }
  | .sstatus =>
    let x := (h.sstatus &&& ~~~0xFFB#64) ||| (w &&& 0xFFB#64)
    some { h with sstatus := if w.getLsbD 0 then x else x &&& 0xFFFF#64 }
  | .kmode => if kmodeOk w then some { h with kmode := kmodeVal w } else none
  | .klimit => if klimitOk (w &&& 0x3FFF#64) then some { h with klimit := w.setWidth 14 } else none
  | .vbind k =>
    let b := VBind.ofWord w
    if !b.v then some { h with vbind := h.vbind.set k b }
    else if !h.bindOk k b then none
    else (h.bindType b.type).map fun t => { h with vbind := h.vbind.set k { b with type := t } }
  | .wslotA n => some { h with wslot := h.wslot.set n { h.wslot[n] with addr := w, image := none } }
  | .wslotB n =>
    let x := (h.wslot[n]).write w
    if x.valid && !(h.dense && x.legal) then none else some { h with wslot := h.wslot.set n x }
  | r => h.writeVec r w

/-! ## CRR and CRW -/

/-- The register that an instruction names, once its number and the level are checked (14 R353). -/
def withCReg (opc : BitVec 12) (f : Fields) (s : State) (write : Bool) (k : CReg → Eff) : Eff :=
  match CReg.of (f.immField 11 0) with
  | none => illegalWord s opc f
  | some r =>
    let may := s.me.status.sys || r.right == .write || (!write && r.right == .read)
    if may then k r else .trap s { cause := 0x03 }

/-- CRR (14 R372): of HSEM, the acquire read. -/
def execCrr (f : Fields) (s : State) : Out :=
  commit (withCReg 0xF02 f s false fun r =>
    if r = .hsem then
      let a := s.hsemAcq (whoOf s.cur)
      .done (a.1.ws f.d a.2)
    else .done (s.ws f.d (s.crValue r)))

/-- What CRW writes (14 R372). -/
def crwValue (op : Nat) (old a : Word) : Word :=
  match op with
  | 0 => a
  | 1 => old ||| a
  | _ => old &&& ~~~a

/-- CRW (14 R353, R372): of HSEM, the release write (in part DEDUCED, log 56). -/
def execCrw (f : Fields) (s : State) : Out :=
  commit (withCReg 0xF03 f s true fun r =>
    if r.readOnly then illegalWord s 0xF03 f
    else
      let old := s.crValue r
      if r = .hsem then withRelease s 4 (.done ((s.hsemRel (whoOf s.cur)).ws f.d old))
      else
        match s.me.crWrite r (crwValue (f.modField 43 42) old (s.rs f.a)) with
        | none => illegalWord s 0xF03 f
        | some h => .done ((s.modMe fun _ => h).ws f.d old))

end Sys2Proof.Machine
end

