-- ==== Sys2Proof/Machine/HostEvents.lean ====
section
/-!
DEFINITION. What reaches the device from outside, and what the whole device does: links, hosts, HSEM, register writes, reset,
and stretching (13 R334, R335, R337, R348 to R350, 14 R368 to R370).
-/

namespace Sys2Proof.Machine

/-! ## Links -/

/-- One more on a saturating counter. -/
def satInc (x : BitVec 32) : BitVec 32 := if x = BitVec.allOnes 32 then x else x + 1

/-- One more transient, or one more permanent, error (13 Table 13.7). -/
def State.countError (s : State) (permanent : Bool) : State :=
  { s with dev := if permanent then { s.dev with errPermanent := satInc s.dev.errPermanent }
                  else { s.dev with errTransient := satInc s.dev.errTransient } }

/-- FLIT_RECEIVE (13 R334, R337): a CRC error is retried once; a second one poisons the payload
(DESIGN CHOICE, log 14, in part DEDUCED, log 58). -/
def execFlitReceive (f : Flit) (s : State) : Out :=
  let ok := f.data.length ≤ 224 && !f.data.isEmpty && (spaceOf f.pa == .hbm || spaceOf f.pa == .cellar) &&
    spaceOf (f.pa + f.data.length - 1) == spaceOf f.pa
  let lines := (List.range ((f.pa + f.data.length - 1) / 64 + 1 - f.pa / 64)).map (· + f.pa / 64)
  .next (
    if f.err1 && f.err2 then
      let s := s.countError true
      if ok then s.poisonLines lines else s
    else
      let s := if f.err1 then s.countError false else s
      if ok then s.setBytes f.pa f.data else s)

/-- An error and its one retry (13 R337): a corrected one, or one that the second attempt does not meet, counts as transient; one
that it meets again counts as permanent, and the data is poisoned (DESIGN CHOICE, log 14, in part DEDUCED, log 58). -/
def State.meetError (s : State) (e : ErrorKind) : State :=
  let data (k : Nat) : Bool := spaceOf (64 * k) == .hbm || spaceOf (64 * k) == .cellar
  match e with
  | .corrected => s.countError false
  | .read k again => if again then (s.poisonLines ([k].filter data)).countError true else s.countError false
  | .cxl l again => if again then (s.poisonLines (l.toList.filter data)).countError true else s.countError false

/-- SLOT_SYNC_SEND (13 R335) (in part DEDUCED, log 58). -/
def execSlotSyncSend (_d : DieId) (s : State) : Out :=
  .next (if s.dev.syncm && s.slot % 256 == 0 then { s with dev := { s.dev with syncSent := s.dev.syncSent ++ [s.slot] } } else s)

/-- SLOT_SYNC_RECEIVE (13 R335): the flit is forwarded, and a die that is ahead of its count, adjusted by the link's measured
delay, stretches its next slots. The dies of the package share one counter, so none is ahead of another (DESIGN CHOICE,
log 14, in part DEDUCED, log 58). -/
def execSlotSyncReceive (d : DieId) (count : Word) (s : State) : Out :=
  let s := { s with dev := { s.dev with syncSent := s.dev.syncSent ++ [count.toNat] } }
  .next (s.modDie d fun x => { x with stretch := s.slot - (count.toNat + Config.linkDelay d.val) })

/-! ## Hosts -/

/-- HOST_HDM_ACCESS (13 R348): a host reads or writes HBM; a read changes nothing. -/
def execHostHdmAccess (_port : Fin 2) (pa : Nat) (data : Option (List Byte)) (s : State) : Out :=
  .next (match data with
    | none => s
    | some l => if pa + l.length ≤ cellarBase then s.setBytes pa l else s)

/-- HSEM_ACQUIRE (13 R350). -/
def execHsemAcquire (id : BitVec 8) (s : State) : Out := .next (s.hsemAcq id).1
/-- HSEM_RELEASE (13 R350). -/
def execHsemRelease (id : BitVec 8) (s : State) : Out := .next (s.hsemRel id)
/-- HSEM_RENEW (13 R350). -/
def execHsemRenew (id : BitVec 8) (s : State) : Out := .next (s.hsemRenew id)

/-- The lease counts down by one slot (13 R350). -/
def Hsem.count1 (x : Hsem) : Hsem :=
  if x.owner ≠ 0 ∧ x.lease ≠ 0 then
    if x.lease = 1 then { x with lease := 0, owner := 0, expired := true } else { x with lease := x.lease - 1 }
  else x

/-- HSEM_LEASE_EXPIRY: the lease's count in a slot (13 R350). -/
def execHsemLeaseExpiry (s : State) : Out := .next { s with dev := { s.dev with hsem := s.dev.hsem.count1 } }

/-- REGISTER_WRITE: a write by the management controller to a word of control space (13 R349, 14 R360, R369)
(in part DEDUCED, log 13 and 56). -/
def execRegisterWrite (offset : Nat) (v : Word) (s : State) : Out :=
  match ctlWrite s 3 offset v with
  | some s => .next s
  | none => .refused (.unnamedControlWord (controlBase + offset))

/-! ## Reset and power (14 R368 to R370) -/

/-- POWER_ON_RESET: the configurations that saved bytes stand for are the model's own, and an image that the host has kept is still
one (DESIGN CHOICE, log 50). -/
def execPowerOnReset (s : State) : Out :=
  .next { State.reset with agenda := s.agenda, cur := s.cur, freeCtr := s.freeCtr, images := s.images }

/-- DEVCTL_WARM: all but the contents of HBM is as after power-on (DESIGN CHOICE, log 12, in part DEDUCED, log 57). -/
def execDevctlWarm (s : State) : Out :=
  .next { State.reset with
    mem := s.mem.filter fun x => x.1 < cellarBase
    poison := s.poison.filter fun x => x.1 < cellarBase / 64
    agenda := s.agenda
    cur := s.cur
    freeCtr := s.freeCtr
    images := s.images }

/-- Hart 0 of every cluster as the first RUN write starts it (in part DEDUCED, log 57). -/
def Hart.boot (x : Hart) (pc : Word) : Hart := x.spawned pc 0 true 0 0 0

/-- DEVCTL_RUN: only the first such write after a reset acts (in part DEDUCED, log 13 and 57). -/
def execDevctlRun (s : State) : Out :=
  .next (if s.dev.ran || s.dev.tripped then s
    else
      { s with
        dev := { s.dev with ran := true }
        harts := Vector.ofFn fun h : HartId => if h.val % 4 = 0 then (s.harts[h]).boot s.dev.bootpc else s.harts[h] })

/-- STRETCH_LEVEL_CHANGE: the power and thermal controllers set their levels. -/
def execStretchLevelChange (power thermal : BitVec 4) (s : State) : Out :=
  .next { s with dev := { s.dev with powerLevel := power, thermalLevel := thermal } }

/-- THERMAL_TRIP: every hart stops until a reset (in part DEDUCED, log 57). -/
def execThermalTrip (s : State) : Out :=
  .next { s with harts := s.harts.map fun x => { x with run := .stopped }, dev := { s.dev with tripped := true } }

end Sys2Proof.Machine
end

