-- ==== Sys2Proof/Machine/Reversible.lean ====
section
/-!
DEFINITION. Classes 0x8 and 0x9: the lees stack and its window, reversible forward forms, undo forms and the control forms
(11 R289 to R306).
-/

namespace Sys2Proof.Machine

/-! ## The window (11 R291) -/

def Hart.leesSp (h : Hart) : Nat := h.lees.sp.toNat
def Hart.leesBase (h : Hart) : Nat := h.lees.base.toNat
def Hart.leesLim (h : Hart) : Nat := h.lees.lim.toNat

/-- The virtual address of a block. -/
def Hart.blockVa (h : Hart) (b : Nat) : Nat := h.leesBase + 2048 * b

def Hart.heldBlock (h : Hart) (b : Nat) : Option LeesBlock := h.lees.held.find? fun x => x.blk == b

/-- The window with other blocks, lowest first; NBLK counts them. -/
def Hart.setHeld (h : Hart) (l : List LeesBlock) : Hart :=
  { h with lees := { h.lees with held := l, win := BitVec.ofNat 5 l.length } }

/-- Moves the top of the stack: a block that holds no stack byte any more leaves the window. -/
def Hart.setSp (h : Hart) (sp : Nat) : Hart :=
  { (h.setHeld (h.lees.held.filter fun x => h.blockVa x.blk < sp)) with
    lees := { (h.setHeld (h.lees.held.filter fun x => h.blockVa x.blk < sp)).lees with sp := BitVec.ofNat 64 sp } }

/-- What a move of blocks gives: a value, a failed check with its cause and the block's address, a hold, or an address that
no space holds. -/
inductive LGot (α : Type) where
  | ok (s : State) (a : α)
  | bad (s : State) (cause : Nat) (va : Word)
  | hold
  | nowhere (pa : Nat)

/-- The check of a block to be moved (11 R291): its pieces. -/
def checkBlock (s : State) (load : Bool) (b : Nat) : LGot (List Piece) :=
  let va : Word := BitVec.ofNat 64 (s.me.blockVa b)
  let r := checkRun s s.ctx load va 2048
  match worst r.2 with
  | some (c, _, _) => .bad r.1 c va
  | none =>
    match nowhereOf r.2 with
    | some pa => .nowhere pa
    | none => if r.1.held load r.2 then .hold else .ok r.1 r.2

/-- Reads a block: from the window, or from memory as a refill does. -/
def readBlock (s : State) (b : Nat) : LGot VReg :=
  match s.me.heldBlock b with
  | some x => .ok s x.data
  | none =>
    match checkBlock s true b with
    | .ok s ps => let r := s.readRun ps; .ok r.1 (BitVec.ofNat 16384 (ofBytes r.2))
    | .bad s c va => .bad s c va
    | .hold => .hold
    | .nowhere pa => .nowhere pa

/-- The bytes of a block as memory is given them: what lies at and above the top of the stack has no value that the spec
states. -/
def blockBytes (s : State) (b : Nat) (v : VReg) : List Byte :=
  let n := s.me.leesSp - s.me.blockVa b
  (List.range 2048).map fun i =>
    if i < n then BitVec.ofNat 8 (getBits v (8 * i) 8) else Config.leesFill s.freeCtr i

/-- Writes a block to memory (11 R291). -/
def writeBlock (s : State) (x : LeesBlock) : LGot Unit :=
  match checkBlock s false x.blk with
  | .ok s ps =>
    let s := s.writeRun ps (blockBytes s x.blk x.data)
    .ok { s with freeCtr := s.freeCtr + 1 } ()
  | .bad s c va => .bad s c va
  | .hold => .hold
  | .nowhere pa => .nowhere pa

/-- Makes block `b` part of the window so that a push can write it: a full window first spills its lowest block, and a block
that holds stack bytes is read first (in part DEDUCED, log 28). -/
def needBlock (s : State) (b : Nat) : LGot Unit :=
  match s.me.heldBlock b with
  | some _ => .ok s ()
  | none =>
    let spilled : LGot Unit :=
      (match s.me.lees.held with
        | x :: rest =>
          if s.me.lees.held.length < 16 then .ok s ()
          else if x.clean then .ok (s.modMe fun h => h.setHeld rest) ()
          else
            (match writeBlock s x with
              | .ok s _ => .ok (s.modMe fun h => h.setHeld rest) ()
              | r => r)
        | [] => .ok s ())
    match spilled with
    | .ok s _ =>
      if s.me.blockVa b < s.me.leesSp then
        (match readBlock s b with
          | .ok s v => .ok (s.modMe fun h => h.setHeld (h.lees.held ++ [⟨b, v, true⟩])) ()
          | .bad s c va => .bad s c va
          | .hold => .hold
          | .nowhere pa => .nowhere pa)
      else .ok (s.modMe fun h => h.setHeld (h.lees.held ++ [⟨b, 0, false⟩])) ()
    | r => r

/-- Runs of bytes that stay within blocks: block, offset, bytes. -/
def blockRuns (base : Nat) : Nat → Nat → List Byte → List (Nat × Nat × List Byte)
  | 0, _, _ => []
  | k + 1, va, l =>
    if l.isEmpty then []
    else
      let o := (va - base) % 2048
      ((va - base) / 2048, o, l.take (2048 - o)) :: blockRuns base k (va + (2048 - o)) (l.drop (2048 - o))

/-- Puts bytes into a held block. -/
def Hart.patchBlock (h : Hart) (b o : Nat) (l : List Byte) : Hart :=
  h.setHeld (h.lees.held.map fun x =>
    if x.blk = b then { x with data := setBits x.data (8 * o) (8 * l.length) (ofBytes l), clean := false } else x)

/-- The check of stack bytes that go to memory by themselves, reported at their block (11 R291). -/
def checkSpan (s : State) (va n b : Nat) : LGot (List Piece) :=
  let r := checkRun s s.ctx false (BitVec.ofNat 64 va) n
  match worst r.2 with
  | some (c, _, _) => .bad r.1 c (BitVec.ofNat 64 (s.me.blockVa b))
  | none =>
    match nowhereOf r.2 with
    | some pa => .nowhere pa
    | none => if r.1.held false r.2 then .hold else .ok r.1 r.2

/-- Writes stack bytes into the window; those of a block below it, which has spilled, go to memory by themselves (11 R303)
(in part DEDUCED, log 28). -/
def leesPut (s : State) (va : Nat) (l : List Byte) : LGot Unit :=
  (blockRuns s.me.leesBase (l.length / 2048 + 2) va l).foldl (fun (a : LGot Unit) r =>
    match a with
    | .ok s _ =>
      let below := (match s.me.lees.held with | x :: _ => decide (r.1 < x.blk) | [] => false)
      if below then
        (match checkSpan s (s.me.blockVa r.1 + r.2.1) r.2.2.length r.1 with
          | .ok s ps => .ok (s.writeRun ps r.2.2) ()
          | .bad s c va => .bad s c va
          | .hold => .hold
          | .nowhere pa => .nowhere pa)
      else
        (match needBlock s r.1 with
          | .ok s _ => .ok (s.modMe fun h => h.patchBlock r.1 r.2.1 r.2.2) ()
          | x => x)
    | x => x) (.ok s ())

/-- Reads stack bytes as a number, without moving a block into the window (in part DEDUCED, log 28). -/
def leesGet (s : State) (va n : Nat) : LGot Nat :=
  let b0 := (va - s.me.leesBase) / 2048
  let cnt := (va + n - 1 - s.me.leesBase) / 2048 + 1 - b0
  let r := (List.range cnt).foldl (fun (a : LGot Nat) i =>
    match a with
    | .ok s acc =>
      (match readBlock s (b0 + i) with
        | .ok s v => .ok s (acc + v.toNat <<< (16384 * i))
        | .bad s c va => .bad s c va
        | .hold => .hold
        | .nowhere pa => .nowhere pa)
    | x => x) (.ok s 0)
  match r with
  | .ok s v => .ok s ((v >>> (8 * ((va - s.me.leesBase) % 2048))) % 2 ^ (8 * n))
  | x => x

/-- The window after a pop down to `sp`: the block that holds the new top is held when the pop has read it
(in part DEDUCED, log 28). -/
def Hart.popTo (h : Hart) (sp : Nat) (top : Option VReg) : Hart :=
  let h' := h.setSp sp
  let b := (sp - 1 - h.leesBase) / 2048
  match top with
  | some v =>
    if (h'.heldBlock b).isNone ∧ h.leesBase < sp ∧ h'.lees.held.isEmpty then h'.setHeld [⟨b, v, true⟩] else h'
  | none => h'

/-- Ends a pop: frames from `sp` up are gone. The block of the new top stays when the frame reached into it. -/
def leesPop (s : State) (sp : Nat) : LGot Unit :=
  if (sp - s.me.leesBase) % 2048 = 0 then .ok (s.modMe fun h => h.popTo sp none) ()
  else
    match readBlock s ((sp - s.me.leesBase) / 2048) with
    | .ok s v => .ok (s.modMe fun h => h.popTo sp (some v)) ()
    | .bad s c va => .bad s c va
    | .hold => .hold
    | .nowhere pa => .nowhere pa

/-- Goes on with what a move of blocks gave. -/
def LGot.run {α : Type} (r : LGot α) (s0 : State) (k : State → α → Eff) : Eff :=
  match r with
  | .ok s a => k s a
  | .bad s c va => .trap s { cause := c, eaddr := va }
  | .hold => .wait s0 .copy
  | .nowhere pa => .fault (.noSuchAddress pa)

/-! ## Frames (11 R293 to R295) -/

/-- Width code of VTYPE.SEW (05 Table 5.1). -/
def sewCode (w : Nat) : Nat := match w with | 8 => 0 | 16 => 1 | 32 => 2 | 64 => 3 | 2 => 4 | _ => 5

/-- CHECK (11 R295). -/
def leesCheck (op d b c w m45 : Nat) : Nat :=
  (0x1D * (op % 256) + op / 256 + 0x53 * d + 0x2B * b + 0x65 * c + 0x11 * w + 0x07 * m45) % 256

/-- A header or footer word (11 Table 11.2) (in part DEDUCED, log 29). -/
def frameWord (op reg sew vl complete len check : Nat) : Nat :=
  op + reg <<< 12 + sew <<< 17 + vl <<< 20 + complete <<< 36 + len <<< 37 + check <<< 53

/-- The identity of an instruction's frames: OP, REG, SEW and CHECK. -/
structure FrameId where
  op : Nat
  reg : Nat
  sew : Nat
  check : Nat
  deriving DecidableEq, Repr

def FrameId.word (i : FrameId) (vl complete len : Nat) : Nat := frameWord i.op i.reg i.sew vl complete len i.check

/-- A word of a frame as memory gives it: bits [63:61] read as zero (00 R3). -/
def frameBits (w : Nat) : Nat := w % 2 ^ 61

/-- The word with LEN taken out: what a footer must equal. -/
def noLen (w : Nat) : Nat := frameBits w - (bits w 52 37) <<< 37

def lenOf (w : Nat) : Nat := bits w 52 37

/-- LEN of a frame with `p` bytes of payload. -/
def frameLen (p : Nat) : Nat := (p + 16 + 63) / 64

/-! ## Forms -/

/-- A record type: bits per element, or RVRELU's mask and values at a width. -/
inductive RecTy where
  | fixed (r : Nat)
  | relu (w : Nat)
  deriving DecidableEq, Repr

/-- A reversible instruction: its frame, operands, record type, and the two directions. `step` is given the hart as the
group starts, the hart so far and the ordinal, and answers the hart, the flags and the record (none: an element that
RVRELU leaves); `back` is given the hart as the undo starts, the ordinal and its record. -/
structure RvForm where
  id : FrameId
  w : Nat
  a : Opnd
  d : Opnd
  srcs : List Opnd
  rt : RecTy
  mode : Option RMode
  step : Hart → Hart → Nat → (Hart × FFlags) × Option Nat
  back : Hart → Nat → Nat → Nat

/-- EPG of the form (05 R97). -/
def RvForm.epg (r : RvForm) : Nat := epgOf [r.w]

/-- The ordinals of a group, from `k`. -/
def RvForm.groupEnd (r : RvForm) (vl k : Nat) : Nat := min vl ((k / r.epg + 1) * r.epg)

/-- The largest chunk for `n` ordinals, in bytes. -/
def RvForm.chunkMax (r : RvForm) (n : Nat) : Nat :=
  match r.rt with
  | .fixed b => roundUp (b * n) 64 / 8
  | .relu w => roundUp n 64 / 8 + roundUp (w * n) 64 / 8

/-- Bytes of all chunks up to ordinal `vl`, each the largest. -/
def RvForm.payloadMax (r : RvForm) (vl : Nat) : Nat :=
  (vl / r.epg) * r.chunkMax r.epg + (if vl % r.epg = 0 then 0 else r.chunkMax (vl % r.epg))

/-- A chunk (11 R294, R302). -/
def RvForm.chunk (r : RvForm) (l : List (Option Nat)) : List Byte :=
  match r.rt with
  | .fixed b =>
    toBytes (roundUp (b * l.length) 64 / 8)
      (((List.range l.length).zip l).foldl (fun a x => a + (x.2.getD 0) <<< (b * x.1)) 0)
  | .relu w =>
    let kept := l.filterMap fun x => x
    toBytes (roundUp l.length 64 / 8)
        (((List.range l.length).zip l).foldl (fun a x => a + x.2.isSome.toNat <<< x.1) 0) ++
      toBytes (roundUp (w * kept.length) 64 / 8)
        (((List.range kept.length).zip kept).foldl (fun a x => a + x.2 <<< (w * x.1)) 0)

/-- Bytes of the chunk that starts at byte `o` of a payload, for `n` ordinals. -/
def RvForm.chunkLen (r : RvForm) (payload o n : Nat) : Nat :=
  match r.rt with
  | .fixed _ => r.chunkMax n
  | .relu w =>
    let m := (payload >>> (8 * o)) % 2 ^ n
    roundUp n 64 / 8 + roundUp (w * popCount n m) 64 / 8

/-- Where each group's chunk lies in a payload: first ordinal, ordinals, byte offset; and the payload's end. -/
def RvForm.layout (r : RvForm) (payload vl : Nat) : List (Nat × Nat × Nat) × Nat :=
  (List.range ((vl + r.epg - 1) / r.epg)).foldl (fun (a : List (Nat × Nat × Nat) × Nat) g =>
    let n := min r.epg (vl - g * r.epg)
    (a.1 ++ [(g * r.epg, n, a.2)], a.2 + r.chunkLen payload a.2 n)) ([], 0)

/-- The records of a payload, by ordinal. -/
def RvForm.records (r : RvForm) (payload vl : Nat) : List (Option Nat) :=
  (r.layout payload vl).1.flatMap fun c =>
    let body := payload >>> (8 * c.2.2)
    match r.rt with
    | .fixed b => (List.range c.2.1).map fun j => some ((body >>> (b * j)) % 2 ^ b)
    | .relu w =>
      let vals := body >>> (roundUp c.2.1 64)
      (List.range c.2.1).map fun j =>
        if (body >>> j) % 2 = 1 then some ((vals >>> (w * popCount j (body % 2 ^ j))) % 2 ^ w) else none

/-! ## Forward forms (11 R303) -/

/-- The progress of a forward form: the state, the first ordinal not recorded, and the payload's bytes so far. -/
structure Fwd where
  s : State
  k : Nat
  len : Nat

/-- Records one group. -/
def RvForm.group (r : RvForm) (vl : Nat) (p : Fwd) : Hart × FFlags × Option Nat × List (Option Nat) :=
  let h := p.s.me
  ((List.range (r.groupEnd vl p.k - p.k)).map (p.k + ·)).foldl
    (fun (a : Hart × FFlags × Option Nat × List (Option Nat)) k =>
      let x := r.step h a.1 k
      (x.1.1, a.2.1 ||| x.1.2,
        (match a.2.2.1 with | some i => some i | none => if h.trapsOn x.1.2 then some k else none),
        a.2.2.2 ++ [x.2])) (h, 0, none, [])

/-- Writes the end of the frame: a chunk after `len` bytes of payload, padding and footer; the header too when the frame is
complete. The top of the stack follows (in part DEDUCED, log 28). -/
def RvForm.seal (r : RvForm) (s : State) (f0 vl k len : Nat) (chunk : List Byte) : LGot Unit :=
  let done := decide (k = vl)
  let n := frameLen (len + chunk.length)
  let foot := r.id.word k done.toNat n
  let pad := List.replicate (64 * n - 16 - len - chunk.length) 0
  match leesPut s (f0 + 8 + len) (chunk ++ pad ++ toBytes 8 foot) with
  | .ok s _ =>
    (match (if done then leesPut s f0 (toBytes 8 foot) else .ok s ()) with
      | .ok s _ => .ok (s.modMe fun h => h.setSp (f0 + 64 * n)) ()
      | x => x)
  | x => x

/-- The groups of a forward form from ordinal `p.k` on. -/
def RvForm.groups (r : RvForm) (f0 vl : Nat) (fresh : Bool) : Nat → Option Nat → State → Fwd → Eff
  | 0, _, _, p => .done p.s
  | n + 1, stop, s0, p =>
    let h := p.s.me
    if vl ≤ p.k then .done p.s
    else if stop = some 0 then .jump (p.s.modMe fun h => h.setVstart p.k) h.pc
    else
      let e := r.groupEnd vl p.k
      let g := r.group vl p
      match g.2.2.1 with
      | some i => fpTrap p.s h p.k i g.2.1
      | none =>
        let chunk := r.chunk g.2.2.2
        match r.seal (p.s.modMe fun _ => g.1.addFlags g.2.1) f0 vl e p.len chunk with
        | .ok s _ => r.groups f0 vl fresh n (stop.map (· - 1)) s0 ⟨s, e, p.len + chunk.length⟩
        | .bad _ c va => .trap (p.s.modMe fun h => h.setVstart p.k) { cause := c, eaddr := va }
        | .hold =>
          if p.k = 0 ∧ fresh then .wait s0 .copy else .wait (p.s.modMe fun h => h.setVstart p.k) .copy
        | .nowhere pa => .fault (.noSuchAddress pa)

/-- Completion: VSTART, the step of SRSEED, and pushes. -/
def RvForm.finish (r : RvForm) (s : State) : Eff :=
  .done (pushAll (s.modMe fun h => (h.setVstart 0).stepSeed (r.mode.getD .rne)) [r.d])

/-- The groups and the completion. -/
def RvForm.forwardFrom (r : RvForm) (s0 : State) (f0 : Nat) (fresh : Bool) (p : Fwd) : Eff :=
  let vl := s0.me.vl
  match r.groups f0 vl fresh (vl + 1) s0.stopAfter s0 p with
  | .done s => r.finish s
  | e => e

/-- The operand groups of a reversible form: D and A name the same place (11 R297), so 02 R20 concerns the others. -/
def RvForm.ok (r : RvForm) (h : Hart) : Bool :=
  (r.a :: r.d :: r.srcs).all (fun o => o.ok h) && r.srcs.all fun o => !r.a.clash o h

/-- As `RvForm.ok` for an undo form, which reads D and writes A: two groups that begin apart may not overlap (02 R20). -/
def RvForm.okUndo (r : RvForm) (h : Hart) : Bool :=
  r.ok h && (r.d.reg == r.a.reg || !overlaps r.a.reg (r.a.size h) r.d.reg (r.d.size h))

/-- A forward form. -/
def RvForm.forward (r : RvForm) (s : State) (opc : BitVec 12) (f : Fields) : Eff :=
  if !r.ok s.me then illegalWord s opc f
  else
    withRegs s (r.a.regs s.me ++ r.srcs.flatMap (fun o => o.regs s.me) ++ predRegs f)
      (withStreams s [r.d] (r.a :: r.srcs) fun s =>
        let h := s.me
        let sp := h.leesSp
        if h.vstart = 0 then
          if h.leesLim < sp + 64 * frameLen (r.payloadMax h.vl) then .trap s { cause := 0x0B }
          else
            -- the header's LEN is not stated while the frame is open
            let hdr := r.id.word h.vl 0 (Config.openLen s.freeCtr % 65536)
            let s1 := { s with freeCtr := s.freeCtr + 1 }
            (leesPut s1 sp (toBytes 8 hdr)).run s fun s1 _ =>
              (r.seal s1 sp h.vl 0 0 []).run s fun s1 _ => r.forwardFrom s sp true ⟨s1, 0, 0⟩
        else if sp = h.leesBase then .trap s { cause := 0x0C, eaddr := h.lees.sp - 8 }
        else
          (leesGet s (sp - 8) 8).run s fun s1 foot =>
            let f0 := sp - 64 * lenOf foot
            if noLen foot ≠ r.id.word h.vstart 0 0 ∨ h.vl < h.vstart ∨ sp < h.leesBase + 64 * lenOf foot ∨
                lenOf foot = 0 then
              .trap s1 { cause := 0x0C, eaddr := h.lees.sp - 8 }
            else
              (leesGet s1 f0 (64 * lenOf foot)).run s fun s1 fr =>
                let len := (r.layout (fr >>> 64) h.vstart).2
                if h.vstart = h.vl then
                  (r.seal s1 f0 h.vl h.vl len []).run s fun s1 _ => r.finish s1
                else r.forwardFrom s f0 false ⟨s1, h.vstart, len⟩)

/-! ## Undo forms (11 R304) -/

/-- An undo form. -/
def RvForm.undo (r : RvForm) (s : State) (opc : BitVec 12) (f : Fields) : Eff :=
  if s.me.vstart ≠ 0 ∨ !r.okUndo s.me then illegalWord s opc f
  else
    withRegs s (r.a.regs s.me ++ r.d.regs s.me ++ r.srcs.flatMap (fun o => o.regs s.me))
      (withStreams s [r.a] [] fun s =>
        let h := s.me
        let sp := h.leesSp
        let mismatch (s1 : State) : Eff := .trap s1 { cause := 0x0C, eaddr := h.lees.sp - 8 }
        if sp = h.leesBase then .trap s { cause := 0x0D }
        else
          (leesGet s (sp - 8) 8).run s fun s1 foot =>
            let f0 := sp - 64 * lenOf foot
            if noLen foot ≠ r.id.word h.vl 1 0 ∨ lenOf foot = 0 then mismatch s1
            else if sp < h.leesBase + 64 * lenOf foot then .trap s1 { cause := 0x0D }
            else
              (leesGet s1 f0 8).run s fun s1 head =>
                if frameBits head ≠ frameBits foot then mismatch s1
                else
                  (leesGet s1 f0 (64 * lenOf foot)).run s fun s1 fr =>
                    (leesPop s1 f0).run s fun s1 _ =>
                      let recs := r.records (fr >>> 64) h.vl
                      let back := ((List.range h.vl).zip recs).foldl (fun (x : Hart) e =>
                        match r.rt, e.2 with
                        | .relu _, none => x.setE r.a.reg r.w (h.pos e.1) (h.getE r.d.reg r.w (h.pos e.1))
                        | _, v => x.setE r.a.reg r.w (h.pos e.1) (r.back h e.1 (v.getD 0))) s1.me
                      .done (pushAll (s1.modMe fun _ => back) [r.a]))

/-! ## Elements -/

/-- A record with a marker: the value, and the marker above it (in part DEDUCED, log 30). -/
def markRec (r : Nat) (v : Option Nat) (old : Nat) : Nat :=
  match v with
  | some x => x
  | none => old + 2 ^ (r - 1)

/-- An exact value in a format, when the format has it; a zero is +0 (in part DEDUCED, log 30). -/
def Fmt.represent (t : Fmt) (v : FVal) : Option Nat :=
  match v with
  | .fin n m e =>
    if m = 0 then some 0
    else
      let r := t.roundFin ⟨.rne, false, 0, 0⟩ false 0 n m e
      if r.2 &&& (fNX ||| fOF) = 0 then some r.1 else none
  | _ => none

/-- What an undo rounds under: RNE, nothing flushed, and SAT8 as it stands (11 R304, 03 R56). -/
def undoEnv (sat8 : Bool) : FEnv := ⟨.rne, sat8, 0, 0⟩

/-- One rounding by RNE of what the undo formula gives; an invalid operation gives the canonical NaN (11 R304)
(in part DEDUCED, log 30). -/
def Fmt.undoRound (t : Fmt) (sat8 : Bool) (v : FVal × Bool) : Nat := (t.finish (undoEnv sat8) 0 v).1

/-- The exact sum of values, the Bool telling an invalid one. -/
def exactSum (l : List FVal) : FVal × Bool :=
  match l with
  | [] => (.fin false 0 0, false)
  | v :: r => FVal.sum .rne v (r.map fun x => (x, false))

/-- The environment of a forward form: outputs may be flushed, inputs are not (03 R62). -/
def Hart.rvEnv (h : Hart) (code : Nat) : FEnv := { h.fenv code with flush := h.flush &&& 2 }

/-- The floating forms of 11 Table 11.5. -/
inductive RvOp where
  | add | sub | mul | fma | scale
  deriving DecidableEq, Repr

/-- d. -/
def RvOp.result (o : RvOp) (t : Fmt) (env : FEnv) (i a b c : Nat) : Nat × FFlags :=
  match o with
  | .add => t.fadd env i a b
  | .sub => t.fsub env i a b
  | .mul => t.fmul env i a b
  | .fma => t.ffma env i false false a b c
  | .scale => t.fscale env i a b

/-- The candidate V; none where it is not representable. -/
def RvOp.cand (o : RvOp) (t : Fmt) (a b c d : Nat) : Option Nat :=
  let va := t.val false a
  let vb := t.val false b
  let vc := t.val false c
  let vd := t.val false d
  if va.isNaN || vd.isNaN then none
  else
    match o with
    | .add => t.represent (exactSum [va, vb, vd.neg]).1
    | .sub => t.represent (exactSum [va, vb.neg, vd.neg]).1
    | .mul => if vb.isZero || vb.isInf then none else t.represent (exactSum [(FVal.mul va vb).1, vd.neg]).1
    | .fma => if vb.isZero || vb.isInf then none else t.represent (exactSum [(FVal.mul va vb).1, vc, vd.neg]).1
    | .scale => some 0

/-- u(d, V) on operands none of which is NaN. -/
def RvOp.backNum (o : RvOp) (t : Fmt) (sat8 : Bool) (b c d v : Nat) : Nat :=
  let vb := t.val false b
  let vc := t.val false c
  let vd := t.val false d
  let vv := t.val false v
  let div (x : FVal × Bool) : Nat :=
    let q := FVal.div x.1 vb
    if x.2 || q.2.1 then t.canonNaN else t.undoRound sat8 (q.1, false)
  match o with
  | .add => t.undoRound sat8 (exactSum [vd, vv, vb.neg])
  | .sub => t.undoRound sat8 (exactSum [vd, vv, vb])
  | .mul => div (exactSum [vd, vv])
  | .fma => div (exactSum [vd, vv, vc.neg])
  | .scale =>
    (match vd with
      | .fin n m e => (t.roundFin (undoEnv sat8) false 0 n m (e - clampInt (-8192) 8192 (signed t.width b))).1
      | x => t.undoRound sat8 (x, false))

/-- u(d, V): the first NaN among d, V and the operands it uses, quietened (03 R45), or the formula's value
(in part DEDUCED, log 30). -/
def RvOp.back (o : RvOp) (t : Fmt) (sat8 : Bool) (b c d v : Nat) : Nat :=
  let ops := (match o with | .fma => [d, v, b, c] | .scale => [d] | _ => [d, v, b])
  match ops.find? t.isNaN with
  | some x => t.quiet x
  | none => o.backNum t sat8 b c d v

/-- Operand B of a floating form: an element, or an integer for RVSCALE. -/
def RvOp.b (o : RvOp) (h : Hart) (f : Fields) (t : Fmt) (k : Nat) : Nat :=
  match o with
  | .scale => h.elemB f t.width k
  | _ => h.fltB f t k

/-- Operand C of RVFMA. -/
def RvOp.c (o : RvOp) (h : Hart) (f : Fields) (t : Fmt) (k : Nat) : Nat :=
  match o with
  | .fma => h.getE f.c.toNat t.width (h.pos k)
  | _ => 0

/-- The frame identity of an instruction's fields; `op` is the forward OPC. -/
def frameId (op : Nat) (f : Fields) (w : Nat) : FrameId :=
  ⟨op, f.d.toNat, sewCode w,
    leesCheck op f.d.toNat f.b.toNat f.c.toNat f.w.toNat (f.modBit 45).toNat⟩

/-- A floating form. -/
def rvFloat (o : RvOp) (op : Nat) (h0 : Hart) (f : Fields) (t : Fmt) : RvForm :=
  let w := t.width
  let a : Opnd := ⟨f.a.toNat, w, false⟩
  let code := f.modField 44 42
  { id := frameId op f w
    w := w
    a := a
    d := ⟨f.d.toNat, w, false⟩
    srcs := (srcAB f w w).drop 1 ++ (if o = .fma then [⟨f.c.toNat, w, false⟩] else [])
    rt := .fixed (w + 1)
    mode := some (h0.rmode code)
    step := fun h x k =>
      let old := h.getE a.reg w (h.pos k)
      if !h.enabled f k then ((x, 0), some (markRec (w + 1) none old))
      else
        let b := o.b h f t k
        let c := o.c h f t k
        let d := o.result t (h.rvEnv code) (h.pos k) old b c
        let v := (o.cand t old b c d.1).filter fun v => o.back t h.fp.ctl.sat8 b c d.1 v == old
        ((x.setE a.reg w (h.pos k) d.1, d.2), some (markRec (w + 1) v old))
    back := fun h k r =>
      if r >>> w = 1 then r % 2 ^ w
      else o.back t h.fp.ctl.sat8 (o.b h f t k) (o.c h f t k) (h.getE f.d.toNat w (h.pos k)) r }

/-- An integer form with marker records: RVMUL and RVSHR. -/
def rvInt (op : Nat) (f : Fields) (w : Nat) (result : Nat → Nat → Nat) (cand : Nat → Nat → Option Nat)
    (u : Nat → Nat → Nat → Nat) : RvForm :=
  let a : Opnd := ⟨f.a.toNat, w, false⟩
  { id := frameId op f w
    w := w
    a := a
    d := ⟨f.d.toNat, w, false⟩
    srcs := (srcAB f w w).drop 1
    rt := .fixed (w + 1)
    mode := none
    step := fun h x k =>
      let old := h.getE a.reg w (h.pos k)
      if !h.enabled f k then ((x, 0), some (markRec (w + 1) none old))
      else
        let b := h.elemB f w k
        let d := result old b % 2 ^ w
        let v := (cand old b).filter fun v => u b d v == old
        ((x.setE a.reg w (h.pos k) d, 0), some (markRec (w + 1) v old))
    back := fun h k r =>
      if r >>> w = 1 then r % 2 ^ w else u (h.elemB f w k) (h.getE f.d.toNat w (h.pos k)) r }

/-- An integer form whose record is one bit: RVADD and RVSUB. -/
def rvFlag (op : Nat) (f : Fields) (w : Nat) (result u : Nat → Nat → Nat) : RvForm :=
  let a : Opnd := ⟨f.a.toNat, w, false⟩
  { id := frameId op f w
    w := w
    a := a
    d := ⟨f.d.toNat, w, false⟩
    srcs := (srcAB f w w).drop 1
    rt := .fixed 1
    mode := none
    step := fun h x k =>
      if !h.enabled f k then ((x, 0), some 0)
      else ((x.setE a.reg w (h.pos k) (result (h.getE a.reg w (h.pos k)) (h.elemB f w k)), 0), some 1)
    back := fun h k r =>
      let d := h.getE f.d.toNat w (h.pos k)
      if r = 1 then u d (h.elemB f w k) % 2 ^ w else d }

/-- The form whose type is the float or the integer that FLT selects; none where the entry refuses the type. -/
def typedForm (h : Hart) (f : Fields) (flt : Fmt → RvForm) (int : Nat → RvForm) : Option RvForm :=
  if f.flt then
    match h.fmtOf f.w.toNat with
    | some t => if f.immB && !immFits t f then none else some (flt t)
    | none => none
  else
    match h.intW f.w.toNat with
    | some w => if w < 8 then none else some (int w)
    | none => none

/-- Runs a form forward or back. -/
def rvRun (r : Option RvForm) (opc : BitVec 12) (undo : Bool) (f : Fields) (s : State) : Eff :=
  match r with
  | none => illegalWord s opc f
  | some r => if undo then r.undo s opc f else r.forward s opc f

def add2 (w a b : Nat) : Nat := (a + b) % 2 ^ w
def sub2 (w a b : Nat) : Nat := (a + 2 ^ w - b) % 2 ^ w

def addForm (h : Hart) (f : Fields) : Option RvForm :=
  typedForm h f (rvFloat .add 0x800 h f) fun w => rvFlag 0x800 f w (add2 w) (sub2 w)
def subForm (h : Hart) (f : Fields) : Option RvForm :=
  typedForm h f (rvFloat .sub 0x801 h f) fun w => rvFlag 0x801 f w (sub2 w) (add2 w)

/-- RVMUL's undo formula on integers: the quotient of (V × 2^w + d) and b, truncated; all ones for b = 0 (11 R304). -/
def mulBack (u : Bool) (w b d v : Nat) : Nat :=
  if b = 0 then 2 ^ w - 1 else wrap w (truncDiv (intVal (2 * w) u (v * 2 ^ w + d)) (intVal w u b))

def mulForm (h : Hart) (f : Fields) : Option RvForm :=
  let u := f.modBit 46
  typedForm h f (rvFloat .mul 0x802 h f) fun w =>
    rvInt 0x802 f w (fun a b => a * b)
      (fun a b => if b = 0 then none else some (wrap (2 * w) (intVal w u a * intVal w u b) >>> w)) (mulBack u w)

def fmaForm (h : Hart) (f : Fields) : Option RvForm :=
  match h.fmtOf f.w.toNat with
  | some t => if f.immB && !immFits t f then none else some (rvFloat .fma 0x803 h f t)
  | none => none

def shrForm (h : Hart) (f : Fields) : Option RvForm :=
  match h.intW f.w.toNat with
  | some w =>
    if w < 8 then none
    else some (rvInt 0x805 f w (shrW (f.modBit 46) w) (fun a b => if b < w then some (a % 2 ^ b) else none)
      fun b d v => (shlW w d b ||| v) % 2 ^ w)
  | none => none

def scaleForm (h : Hart) (f : Fields) : Option RvForm := (h.fmtOf f.w.toNat).map (rvFloat .scale 0x807 h f)

/-- RVRELU at a width (11 R302). -/
def rvRelu (f : Fields) (w : Nat) : RvForm :=
  let a : Opnd := ⟨f.a.toNat, w, false⟩
  { id := frameId 0x806 f w
    w := w
    a := a
    d := ⟨f.d.toNat, w, false⟩
    srcs := []
    rt := .relu w
    mode := none
    step := fun h x k =>
      let old := h.getE a.reg w (h.pos k)
      if h.enabled f k && old >>> (w - 1) == 1 then ((x.setE a.reg w (h.pos k) 0, 0), some old) else ((x, 0), none)
    back := fun _ _ r => r }

def reluForm (h : Hart) (f : Fields) : Option RvForm := typedForm h f (fun t => rvRelu f t.width) (rvRelu f)

/-! ### RVNARROW (11 R300) -/

/-- X for an integer: whether rounding a / 2^n, with low part `l`, gives floor + 1. `neg`: the value is negative. -/
def narrowUp (mode : RMode) (neg odd : Bool) (n l draw : Nat) : Bool :=
  l != 0 &&
  (match mode with
    | .rne => 2 ^ n < 2 * l || (2 ^ n == 2 * l && odd)
    | .rtz => neg
    | .rdn => false
    | .rup => true
    | .rna => if neg then 2 ^ n < 2 * l else 2 ^ n ≤ 2 * l
    | .sr => 2 ^ 32 ≤ (l <<< 32) >>> n + draw)

/-- d, flags and the record (X, L) of a wide element (in part DEDUCED, log 30). -/
def narrowEl (flt u : Bool) (env : FEnv) (w i a : Nat) : Nat × FFlags × Nat :=
  let n := w / 2
  let h := a >>> n
  let l := a % 2 ^ n
  let draw := srDraw env.seed i
  if flt then
    if Fmt.b32.isNaN a then
      (h ||| 2 ^ 6, if Fmt.b32.isSNaN a then fNV else 0, l + ((h >>> 6) % 2) <<< n)
    else
      let x := l != 0 && roundsUp env.mode (Fmt.b32.signOf a) draw h l n
      let d := (h + x.toNat) % 2 ^ n
      (d, (if l = 0 then 0 else fNX) ||| (if Fmt.bf16.isInf d && !Fmt.b32.isInf a then fOF else 0), l + x.toNat <<< n)
  else
    let x := narrowUp env.mode (!u && decide (h >>> (n - 1) = 1)) (h % 2 == 1) n l draw
    ((h + x.toNat) % 2 ^ n, 0, l + x.toNat <<< n)

/-- The wide element from d and the record. -/
def narrowBack (flt : Bool) (w d r : Nat) : Nat :=
  let n := w / 2
  let x := r >>> n
  let h := if flt && Fmt.bf16.isNaN d then d - 2 ^ 6 * ((d >>> 6) % 2) + 2 ^ 6 * x else (d + 2 ^ n - x) % 2 ^ n
  (h <<< n) + r % 2 ^ n

/-- RVNARROW from a width (in part DEDUCED, log 30). -/
def rvNarrow (h0 : Hart) (f : Fields) (w : Nat) : RvForm :=
  let code := f.modField 44 42
  { id := frameId 0x804 f w
    w := w
    a := ⟨f.a.toNat, w, true⟩
    d := ⟨f.d.toNat, w / 2, false⟩
    srcs := []
    rt := .fixed (w / 2 + 1)
    mode := some (h0.rmode code)
    step := fun h x k =>
      let r := narrowEl f.flt (f.modBit 46) (h.rvEnv code) w (h.pos k) (h.getE f.a.toNat w (h.pos k))
      ((x.setE f.d.toNat (w / 2) (h.pos k) r.1, r.2.1), some r.2.2)
    back := fun h k r => narrowBack f.flt w (h.getE f.d.toNat (w / 2) (h.pos k)) r }

def narrowForm (h : Hart) (f : Fields) : Option RvForm :=
  if f.flt then
    (if h.fmtOf f.w.toNat = some .b32 then some (rvNarrow h f 32) else none)
  else
    match h.intW f.w.toNat with
    | some w => if w < 8 then none else some (rvNarrow h f w)
    | none => none

/-! ### RVCVT (11 R301) -/

/-- The destination of RVCVT. -/
def rvDst (f : Fields) : CTy :=
  match f.xField 3 0 with
  | 3 => .fmt .e4m3
  | 7 => .fmt .e5m2
  | 1 => .grist .mg2
  | 2 => .grist .mg4
  | _ => .grist .mg7

/-- value(d_k) of the written group. -/
def rvValue (dst : CTy) (h : Hart) (f : Fields) (k : Nat) : FVal :=
  match dst with
  | .fmt t => t.val false (h.getE f.d.toNat 8 (h.pos k))
  | .grist g => g.elem (h.slotOf f.d.toNat (h.pos k)) (h.pos k % 16)
  | .int _ _ => .fin false 0 0

/-- round_to(value(d) + V, source, RNE). -/
def cvtBack (src : Fmt) (d : FVal) (v : Nat) : Nat := src.undoRound false (exactSum [d, Fmt.b32.val false v])

/-- The record of an element: the residual, or the old value (in part DEDUCED, log 30). -/
def cvtRec (src : Fmt) (old : Nat) (d : FVal) : Nat :=
  let va := src.val false old
  let v := if va.isNaN || d.isNaN then none else Fmt.b32.represent (exactSum [va, d.neg]).1
  markRec 33 (v.filter fun v => cvtBack src d v == old) old

def cvtForm (h0 : Hart) (f : Fields) : Option RvForm :=
  let src : Fmt := if f.w = 4 then .bf16 else .b16
  let dst := rvDst f
  let code := f.modField 44 42
  let form : RvForm :=
    { id := frameId 0x808 f 16
      w := 16
      a := ⟨f.a.toNat, 16, true⟩
      d := ⟨f.d.toNat, 8, false⟩
      srcs := []
      rt := .fixed 33
      mode := some (h0.rmode code)
      step := fun h x k =>
        let old := h.getE f.a.toNat 16 (h.pos k)
        let env := h.rvEnv code
        let r : Hart × FFlags := (match dst with
          | .grist g =>
            let k0 := k / 16 * 16
            let vs := (List.range 16).map fun i => h.cvtSrc (.fmt src) f.a.toNat (h.pos (k0 + i)) false
            let x := if k = k0 then
                x.setE f.d.toNat 128 (h.pos k0 / 16) (g.quantise env (h.pos k0) (vs.map (·.1)) (vs.map (·.2))).1
              else x
            let fl := (g.quantise env (h.pos k0) (vs.map (·.1)) (vs.map (·.2))).2
            (x, quantFlags g (src.val false old) (x.slotOf f.d.toNat (h.pos k)) (h.pos k % 16) fl)
          | .fmt t => let y := convFF src t env (h.pos k) old; (x.setE f.d.toNat 8 (h.pos k) y.1, y.2)
          | .int _ _ => (x, 0))
        (r, some (cvtRec src old (rvValue dst r.1 f k)))
      back := fun h k r => if r >>> 32 = 1 then r % 2 ^ 16 else cvtBack src (rvValue dst h f k) r }
  if dst.isGrist && (h0.colcap % 16 != 0 || h0.cols % 16 != 0) then none else some form

def execRvadd (f : Fields) (s : State) : Out := commit (rvRun (addForm s.me f) 0x800 false f s)
def execRvsub (f : Fields) (s : State) : Out := commit (rvRun (subForm s.me f) 0x801 false f s)
def execRvmul (f : Fields) (s : State) : Out := commit (rvRun (mulForm s.me f) 0x802 false f s)
def execRvfma (f : Fields) (s : State) : Out := commit (rvRun (fmaForm s.me f) 0x803 false f s)
def execRvnarrow (f : Fields) (s : State) : Out := commit (rvRun (narrowForm s.me f) 0x804 false f s)
def execRvshr (f : Fields) (s : State) : Out := commit (rvRun (shrForm s.me f) 0x805 false f s)
def execRvrelu (f : Fields) (s : State) : Out := commit (rvRun (reluForm s.me f) 0x806 false f s)
def execRvscale (f : Fields) (s : State) : Out := commit (rvRun (scaleForm s.me f) 0x807 false f s)
def execRvcvt (f : Fields) (s : State) : Out := commit (rvRun (cvtForm s.me f) 0x808 false f s)
def execUnadd (f : Fields) (s : State) : Out := commit (rvRun (addForm s.me f) 0x900 true f s)
def execUnsub (f : Fields) (s : State) : Out := commit (rvRun (subForm s.me f) 0x901 true f s)
def execUnmul (f : Fields) (s : State) : Out := commit (rvRun (mulForm s.me f) 0x902 true f s)
def execUnfma (f : Fields) (s : State) : Out := commit (rvRun (fmaForm s.me f) 0x903 true f s)
def execUnnarrow (f : Fields) (s : State) : Out := commit (rvRun (narrowForm s.me f) 0x904 true f s)
def execUnshr (f : Fields) (s : State) : Out := commit (rvRun (shrForm s.me f) 0x905 true f s)
def execUnrelu (f : Fields) (s : State) : Out := commit (rvRun (reluForm s.me f) 0x906 true f s)
def execUnscale (f : Fields) (s : State) : Out := commit (rvRun (scaleForm s.me f) 0x907 true f s)
def execUncvt (f : Fields) (s : State) : Out := commit (rvRun (cvtForm s.me f) 0x908 true f s)

/-! ## Lees control (11 R305) -/

/-- Pushes a frame of LEN 1 with one payload word (in part DEDUCED, log 29). -/
def leesPush (s : State) (op reg check w : Nat) : Eff :=
  let h := s.me
  let sp := h.leesSp
  let word := frameWord op reg 0 0 1 1 check
  if h.leesLim < sp + 64 then .trap s { cause := 0x0B }
  else
    (leesPut s sp (toBytes 8 word ++ toBytes 8 w ++ List.replicate 40 0 ++ toBytes 8 word)).run s fun s _ =>
      .done (s.modMe fun h => h.setSp (sp + 64))

def execLpush (f : Fields) (s : State) : Out :=
  commit (leesPush s 0x840 f.a.toNat (leesCheck 0x840 f.a.toNat 0 0 0 0) (s.rs f.a).toNat)

def execLmark (f : Fields) (s : State) : Out :=
  commit (leesPush s 0x842 0 (leesCheck 0x842 0 0 0 0 0) f.imm.toNat)

/-- The top frame's footer (in part DEDUCED, log 28). -/
def leesTop (s : State) (k : State → Nat → Eff) : Eff := (leesGet s (s.me.leesSp - 8) 8).run s k

/-- Word 1 of the top frame, which is read for a frame of its kind alone (11 R305); 0 where the frame begins below LEESBASE. -/
def leesWord1 (s : State) (foot : Nat) (k : State → Nat → Eff) : Eff :=
  let h := s.me
  if h.leesSp < h.leesBase + 64 * lenOf foot then k s 0
  else (leesGet s (h.leesSp - 64 * lenOf foot + 8) 8).run s k

/-- Pops the top frame and goes on. -/
def popTop (s : State) (foot : Nat) (k : State → Eff) : Eff :=
  let h := s.me
  if h.leesSp < h.leesBase + 64 * lenOf foot then .trap s { cause := 0x0D }
  else (leesPop s (h.leesSp - 64 * lenOf foot)).run s fun s _ => k s

/-- In part DEDUCED, log 29. -/
def execLpop (f : Fields) (s : State) : Out :=
  commit (
    if s.me.leesSp = s.me.leesBase then .trap s { cause := 0x0D }
    else leesTop s fun s1 foot =>
      if foot % 4096 ≠ 0x840 then .trap s1 { cause := 0x0C }
      else leesWord1 s1 foot fun s1 v => popTop s1 foot fun s1 => .done (s1.ws f.d (BitVec.ofNat 64 v)))

/-- LCHK on a frame whose match is known. -/
def lchkEnd (s : State) (f : Fields) (foot : Nat) (hit : Bool) : Eff :=
  if !f.modBit 42 then .done (s.ws f.d (if hit then 1 else 0))
  else if !hit then .trap s { cause := 0x0C }
  else popTop s foot fun s => .done (s.ws f.d 1)

def execLchk (f : Fields) (s : State) : Out :=
  commit (
    if s.me.leesSp = s.me.leesBase then (if f.modBit 42 then .trap s { cause := 0x0D } else .done (s.ws f.d 0))
    else leesTop s fun s1 foot =>
      if foot % 4096 ≠ 0x842 then lchkEnd s1 f foot false
      else leesWord1 s1 foot fun s1 v => lchkEnd s1 f foot (v == f.imm.toNat))

/-- LSPILL (11 R292): every block that memory does not already hold is checked, then written (in part DEDUCED, log 28). -/
def leesSpill (s : State) : Eff :=
  let dirty := s.me.lees.held.filter fun x => !x.clean
  let checked := dirty.foldl (fun (a : LGot Unit) x =>
    match a with
    | .ok s _ =>
      (match checkBlock s false x.blk with
        | .ok s _ => .ok s ()
        | .bad s c va => .bad s c va
        | .hold => .hold
        | .nowhere pa => .nowhere pa)
    | r => r) (.ok s ())
  checked.run s fun s1 _ =>
    (dirty.foldl (fun (a : LGot Unit) x => match a with | .ok s _ => writeBlock s x | r => r) (.ok s1 ())).run s
      fun s1 _ => .done (s1.modMe fun h => h.setHeld [])

def execLspill (_f : Fields) (s : State) : Out := commit (leesSpill s)

end Sys2Proof.Machine
end

