-- ==== Sys2Proof/Machine/System.lean ====
section
/-!
DEFINITION. Class 0xF (14 R371 to R374) but CRR and CRW: software traps and the return from one, events, starting and
stopping harts, the save and restore of vector state, and the upkeep of translation and data caches.
-/

namespace Sys2Proof.Machine

/-! ## Traps and return -/

/-- IMM zero-extended (14 R372). -/
def zextImm (f : Fields) : Word := f.imm.setWidth 64

/-- TRAP (14 R372). -/
def execTrap (f : Fields) (s : State) : Out := commit (.trap s { cause := 0x18, eaddr := zextImm f })

/-- BRK (14 R372). -/
def execBrk (f : Fields) (s : State) : Out := commit (.trap s { cause := 0x19, eaddr := zextImm f })

/-- ERET (14 R358); a member of a suspended gang stops until the rebooked start (08 R222). -/
def execEret (_f : Fields) (s : State) : Out :=
  commit (withSys s (.jump ((s.modMe Hart.returned).gangEret s.cur) s.me.tr.epc))

/-! ## Events -/

/-- WAITEV (14 R373). -/
def execWaitev (f : Fields) (s : State) : Out :=
  let e := s.me.evpend &&& s.rs f.a
  commit (
    if e ≠ 0 then .done ((s.modMe fun h => { h with evpend := h.evpend &&& ~~~e }).ws f.d e)
    else if f.modBit 42 then .done (s.ws f.d 0)
    else .wait s .event)

/-- SIGEV (14 R373) (in part DEDUCED, log 55). -/
def execSigev (f : Fields) (s : State) : Out :=
  let a := s.rs f.a
  commit (withSys s (
    if wbits a 63 16 ≠ 0 then illegalWord s 0xF05 f
    else if a.getLsbD 15 then
      (if wbits a 14 7 ≠ 0 then illegalWord s 0xF05 f
       else .done { s with dev := { s.dev with msix := s.dev.msix ++ [⟨a.getLsbD 6, a.setWidth 6⟩] } })
    else if 512 ≤ wbits a 14 0 then illegalWord s 0xF05 f
    else withRelease s 3 (.done (s.evset (Fin.ofNat 512 (wbits a 14 0)) (s.rs f.b)))))

/-! ## Starting and stopping harts -/

/-- The hart operand t (14 R371). -/
def withHart (opc : BitVec 12) (f : Fields) (s : State) (k : HartId → Eff) : Eff :=
  let a := s.rs f.a
  if wbits a 63 2 ≠ 0 then illegalWord s opc f else k (hartOf s.cur.cluster (Fin.ofNat 4 (wbits a 1 0)))

/-- Why HSPAWN fails (14 R373): the first of its conditions. -/
def State.spawnFail (s : State) (t : HartId) : Option Nat :=
  if t = s.cur then some 0x03
  else if (s.hart t).run ≠ .stopped then some 0x01
  else if s.bookedAhead (100, t.val) then some 0x02
  else none

/-- HSPAWN (14 R366, R373) (in part DEDUCED, log 55). -/
def execHspawn (f : Fields) (s : State) : Out :=
  commit (withSys s (withHart 0xF06 f s fun t =>
    match s.spawnFail t with
    | some c => .done (s.ws f.d (failCode c))
    | none =>
      if (s.hart t).tags.busy ≠ 0 then .done (s.ws f.d (failCode 0x04))
      else if wbits (s.rs f.b) 3 0 ≠ 0 then .trap s { cause := 0x04 }
      else
        let me := s.me
        .done ((s.modHart t fun x =>
          x.spawned (s.rs f.b) (s.rs f.c) (!f.modBit 42) me.ptbase me.asid me.tr.tvec).ws f.d 0)))

/-- HSPAWN.KEEP: the hart goes on at its own pc with its state (14 R373). -/
def execHspawnKeep (f : Fields) (s : State) : Out :=
  commit (withSys s (withHart 0xF06 f s fun t =>
    match s.spawnFail t with
    | some c => .done (s.ws f.d (failCode c))
    | none => .done ((s.modHart t fun x => { x with run := .running }).ws f.d 0)))

/-- A hart is stopped by another at an instruction boundary: a wait is withdrawn (14 R361, R373)
(in part DEDUCED, log 55). -/
def State.stopHart (s : State) (t : HartId) : State :=
  if (s.hart t).run = .stopped then s
  else ((s.withdraw t).drainStores t).modHart t fun x => { x.halted with inWait := false }

/-- HSTOP (14 R373): of the hart itself, as HALT (04 R88). -/
def execHstop (f : Fields) (s : State) : Out :=
  commit (withSys s (withHart 0xF07 f s fun t =>
    if (s.hart t).gang.isSome then .done (s.ws f.d (failCode 0x01))
    else .done ((s.ws f.d 0).stopHart t)))

/-! ## VSAVE and VREST (14 R364, R365) -/

/-- Where in the save area a thing lies (14 Table 14.6). -/
def saveV (n : Nat) : Nat := 0x800 * n
def saveM (k : Nat) : Nat := 0x10000 + 0x400 * k
def saveTag (k : Nat) : Nat := 0x12400 + 8 * k
def saveHigh (n : Nat) : Nat := 0x12480 + 8 * n

/-- The vector registers and the masks of a selection. -/
def selV (sel : Nat) : List Nat := (List.range 32).filter sel.testBit
def selM (sel : Nat) : List Nat := (List.range 9).filter fun k => sel.testBit (32 + k)

/-- The bytes of vn that are saved: those at and above VHIGH as zero (14 R362). -/
def Hart.saveBytes (h : Hart) (n : Nat) : List Byte :=
  let high := (h.vc.vhigh[Fin.ofNat 32 n]).toNat
  toBytes (roundUp high 64) (h.v[Fin.ofNat 32 n].toNat % 2 ^ (8 * high))

/-- Mask k as it is saved: its bytes and its tag word. -/
def Hart.saveMask (h : Hart) (k : Nat) : List Byte × Nat :=
  match h.maskOp (BitVec.ofNat 5 k) with
  | .bitmap b => (toBytes 1024 b.toNat, 0)
  | .list l => (l.flatMap fun i => toBytes 2 i, 1 + l.length <<< 16)

/-- What VSAVE writes: offset and bytes. -/
def Hart.saveRuns (h : Hart) (sel : Nat) : List (Nat × List Byte) :=
  (selV sel).flatMap (fun n => [(saveV n, h.saveBytes n), (saveHigh n, toBytes 8 (h.vc.vhigh[Fin.ofNat 32 n]).toNat)]) ++
    (selM sel).flatMap fun k => let m := h.saveMask k; [(saveM k, m.1), (saveTag k, toBytes 8 m.2)]

/-- The address of an offset in the save area. -/
def Hart.saveAt (h : Hart) (off : Nat) : Word := h.vc.vsaveptr + BitVec.ofNat 64 off

/-- Checks a set of runs of the save area as loads or stores and goes on with what they are; a poisoned line is a failure of
a load, and goes to the fault record with the others (06 Table 6.6, R154) (in part DEDUCED, log 55). -/
def withSaveArea (s : State) (opc : BitVec 12) (load : Bool) (runs : List (Nat × Nat))
    (k : State → List (List Piece) → Eff) : Eff :=
  withRows s opc load (runs.map fun r => (s.me.saveAt r.1, r.2)) fun s ps =>
    match poisonAt ps.flatten with
    | some va =>
      .trap (s.modMe fun h => { h with faultRec := faultRecord opc 0 [⟨0, 0x16, 0xF, va, [], true⟩] }) { cause := 0x16, eaddr := va }
    | none => k s (ps.map fun l => l.filterMap fun p => match p with | .ok q => some q | _ => none)

/-- VSAVE (14 R365). -/
def execVsave (f : Fields) (s : State) : Out :=
  let a := s.rs f.a
  let h := s.me
  let runs := (h.saveRuns ((a.setWidth 41 &&& h.vc.vdirty &&& h.vc.vvalid).toNat)).filter fun r => !r.2.isEmpty
  commit (withSys s (
    if wbits a 63 41 ≠ 0 then illegalWord s 0xF08 f
    else
      withSaveArea s 0xF08 false (runs.map fun r => (r.1, r.2.length)) fun s ps =>
        let s := (ps.zip runs).foldl (fun (s : State) x => s.writeRun x.1 x.2.2) s
        .done (s.ws f.d (BitVec.ofNat 64 ((runs.map fun r => r.2.length).foldl (· + ·) 0)))))

/-- Reads checked runs: the number that each holds. -/
def State.readSave (s : State) (ps : List (List Piece)) : State × List (List Byte) :=
  ps.foldl (fun (a : State × List (List Byte)) l => let r := a.1.readRun l; (r.1, a.2 ++ [r.2])) (s, [])

/-- A tag word that VREST takes (14 Table 14.6). -/
def tagOk (w : Nat) : Bool := bits w 15 1 == 0 && w >>> 26 == 0 && bits w 25 16 ≤ 512

/-- The 16-bit entries of a list mask. -/
def listEntries (l : List Byte) : List Nat := (chunks 2 l.length l).map ofBytes

/-- Whether a list rises strictly. -/
def rising : List Nat → Bool
  | a :: b :: l => a < b && rising (b :: l)
  | _ => true

/-- Vector register `n` restored from its bytes. -/
def Hart.restV (h : Hart) (n high : Nat) (l : List Byte) : Hart :=
  { h with v := h.v.set (Fin.ofNat 32 n) (BitVec.ofNat 16384 (ofBytes l % 2 ^ (8 * high))),
           latch := dropLatch h.latch .vector n,
           vc := { h.vc with vhigh := h.vc.vhigh.set (Fin.ofNat 32 n) (BitVec.ofNat 12 high) } }

/-- Mask `k` restored from its tag word and bytes; mf has no list form. -/
def Hart.restM (h : Hart) (k tag : Nat) (l : List Byte) : Hart :=
  let m : Mask := if tag % 2 = 1 then .list (listEntries l) else .bitmap (BitVec.ofNat 8192 (ofBytes l))
  let h := h.unlatch .mask k
  if k = 8 then { h with mf := (match m with | .bitmap b => b | .list l => l.foldl (fun b i => setBit b i true) 0) }
  else { h with m := h.m.set (Fin.ofNat 8 k) m }

/-- VREST (14 R365). -/
def execVrest (f : Fields) (s : State) : Out :=
  let a := s.rs f.a
  let vs := selV a.toNat
  let ms := selM a.toNat
  let words := vs.map saveHigh ++ ms.map saveTag
  commit (withSys s (
    if wbits a 63 41 ≠ 0 then illegalWord s 0xF09 f
    else
      withSaveArea s 0xF09 true (words.map fun o => (o, 8)) fun s ps =>
        let r := s.readSave ps
        let s := r.1
        let hs := (r.2.take vs.length).map ofBytes
        let ts := (r.2.drop vs.length).map ofBytes
        if hs.any (2048 < ·) || ts.any (fun t => !tagOk t) then illegalWord s 0xF09 f
        else
          let vr := (vs.zip hs).map fun x => (saveV x.1, roundUp x.2 64)
          let mr := (ms.zip ts).map fun x => (saveM x.1, if x.2 % 2 = 1 then 2 * bits x.2 25 16 else 1024)
          let runs := vr ++ mr
          let live := runs.filter fun x => x.2 != 0
          withSaveArea s 0xF09 true live fun s ps =>
            let r := s.readSave ps
            let s := r.1
            let at_ (o : Nat) : List Byte := ((live.zip r.2).find? fun x => x.1.1 == o).elim [] (·.2)
            if (ms.zip ts).any fun x => x.2 % 2 == 1 && !rising (listEntries (at_ (saveM x.1))) then illegalWord s 0xF09 f
            else
              let h := (vs.zip hs).foldl (fun (h : Hart) x => h.restV x.1 x.2 (at_ (saveV x.1))) s.me
              let h := (ms.zip ts).foldl (fun (h : Hart) x => h.restM x.1 x.2 (at_ (saveM x.1))) h
              let sel : BitVec 41 := a.setWidth 41
              let h := h.modVc fun v => { v with vvalid := v.vvalid ||| sel, vdirty := v.vdirty &&& ~~~sel }
              .done ((s.modMe fun _ => h).ws f.d
                (BitVec.ofNat 64 (8 * words.length + (runs.map (·.2)).foldl (· + ·) 0)))))

/-! ## Caches -/

/-- Whether TLBINV removes a translation (14 R374). -/
def TlbEntry.dropped (e : TlbEntry) (kind : Nat) (va : Word) (asid : BitVec 16) : Bool :=
  let page := e.va ≤ va.toNat && va.toNat < e.va + 2 ^ e.lg
  match kind with
  | 0 => true
  | 1 => e.asid == some asid
  | 2 => page
  | _ => page && (e.asid == none || e.asid == some asid)

/-- TLBINV (14 R374). It completes once every store that a hart of the affected dies made under a translation is performed, so
it waits for their held stores. The assembly form names sA and sB with every kind: a kind that does not read one ignores it
(in part DEDUCED, log 15 and 16). -/
def execTlbinv (f : Fields) (s : State) : Out :=
  let kind := f.modField 43 42
  let va := s.rs f.a
  let asid : BitVec 16 := (s.rs f.b).setWidth 16
  let cut (d : Die) : Die := { d with tlb := d.tlb.filter fun e => !e.dropped kind va asid }
  commit (withSys s (
    if s.storeBuf.any fun x => f.modBit 44 || x.hart.die == s.cur.die then .wait s .other
    else .done (if f.modBit 44 then { s with dies := s.dies.map cut } else s.modDie s.cur.die cut)))

/-- CFLUSH (14 R374): the model's memory is what its caches and its DRAM hold together (07 R185)
(in part DEDUCED, log 55). -/
def execCflush (f : Fields) (s : State) : Out :=
  commit (withSys s (if 2 ^ 30 < (s.rs f.b).toNat then illegalWord s 0xF0B f else .done s))

/-! ## Asynchronous causes (14 R361) -/

/-- PREQ_WRITE (14 R360). -/
def execPreqWrite (h : HartId) (id : BitVec 8) (s : State) : Out := .next (s.preq h id)
/-- EVSET_WRITE (14 R360). -/
def execEvsetWrite (h : HartId) (v : Word) (s : State) : Out := .next (s.evset h v)
/-- HISET_WRITE (14 R360). -/
def execHisetWrite (h : HartId) (v : Word) (s : State) : Out := .next (s.hiset h v)

/-- Whether the hart is at an instruction boundary of its own: it runs or waits. -/
def Hart.live (x : Hart) : Bool :=
  match x.run with
  | .stopped => false
  | .suspended => false
  | _ => true

/-- PREEMPT_GRANT: the request is taken as cause 0x1A; a member's gang is suspended (08 R222)
(in part DEDUCED, log 43). -/
def execPreemptGrant (h : HartId) (s : State) : Out :=
  .next (if (s.hart h).live && s.nextAsync h == some .preempt then
      let p := (s.hart h).preempt
      (s.modHart h fun x => { x with preempt := { p with pend := false } }).takeAsync h 0x1A 0
        (p.req.setWidth 64) true
    else s)

/-- HOST_INTERRUPT: HIPEND is taken as cause 0x1C. -/
def execHostInterrupt (h : HartId) (s : State) : Out :=
  .next (if (s.hart h).live && s.nextAsync h == some .hostInterrupt then
      let v := (s.hart h).hipend
      (s.modHart h fun x => { x with hipend := 0 }).takeAsync h 0x1C 0 v false
    else s)

/-- EVENT: pending events raise cause 0x1B; WAITEV consumes them. -/
def execEvent (h : HartId) (s : State) : Out :=
  .next (if (s.hart h).live && s.nextAsync h == some .event then s.takeAsync h 0x1B 0 (s.hart h).evpend false else s)

/-- HINT_AUDIT: a mis-hint of the next instruction under STATUS.AUDIT is taken as cause 0x1D before it issues, behind any
asynchronous cause (02 R32, 14 R359) (in part DEDUCED, log 55). -/
def execHintAudit (h : HartId) (r : AuditRecord) (s : State) : Out :=
  .next (if (s.hart h).live && (s.hart h).status.audit && (s.nextAsync h).isNone then
      (match fetch s h with
        | (s, .word w) => s.takeAsync h 0x1D 0 (auditWord (hintsOf w) r) false
        | _ => s)
    else s)

end Sys2Proof.Machine
end

