-- ==== Sys2Proof/Machine/Dispatch.lean ====
section
/-!
DEFINITION. The one dispatch over the instructions: one arm per constructor of Instr, each one direct call of its meaning.
-/

namespace Sys2Proof.Machine

-- Each arm calls the meaning of its row of spec/opcode_table.json.
def exec (i : Instr) (s : State) : Host.Outcome State Fault Refusal :=
  match i with
  | .add f => Sys2Proof.Machine.execAdd f s
  | .sub f => Sys2Proof.Machine.execSub f s
  | .mul f => Sys2Proof.Machine.execMul f s
  | .mulh f => Sys2Proof.Machine.execMulh f s
  | .div f => Sys2Proof.Machine.execDiv f s
  | .rem f => Sys2Proof.Machine.execRem f s
  | .and f => Sys2Proof.Machine.execAnd f s
  | .or f => Sys2Proof.Machine.execOr f s
  | .xor f => Sys2Proof.Machine.execXor f s
  | .andn f => Sys2Proof.Machine.execAndn f s
  | .shl f => Sys2Proof.Machine.execShl f s
  | .shr f => Sys2Proof.Machine.execShr f s
  | .rot f => Sys2Proof.Machine.execRot f s
  | .min f => Sys2Proof.Machine.execMin f s
  | .max f => Sys2Proof.Machine.execMax f s
  | .cmp f => Sys2Proof.Machine.execCmp f s
  | .sel f => Sys2Proof.Machine.execSel f s
  | .clz f => Sys2Proof.Machine.execClz f s
  | .ctz f => Sys2Proof.Machine.execCtz f s
  | .popc f => Sys2Proof.Machine.execPopc f s
  | .bfx f => Sys2Proof.Machine.execBfx f s
  | .bfi f => Sys2Proof.Machine.execBfi f s
  | .li f => Sys2Proof.Machine.execLi f s
  | .lea f => Sys2Proof.Machine.execLea f s
  | .leaPc f => Sys2Proof.Machine.execLeaPc f s
  | .ld f => Sys2Proof.Machine.execLd f s
  | .st f => Sys2Proof.Machine.execSt f s
  | .ext f => Sys2Proof.Machine.execExt f s
  | .muladd f => Sys2Proof.Machine.execMuladd f s
  | .clamp f => Sys2Proof.Machine.execClamp f s
  | .brev f => Sys2Proof.Machine.execBrev f s
  | .modmul f => Sys2Proof.Machine.execModmul f s
  | .modadd f => Sys2Proof.Machine.execModadd f s
  | .br f => Sys2Proof.Machine.execBr f s
  | .bz f => Sys2Proof.Machine.execBz f s
  | .bnz f => Sys2Proof.Machine.execBnz f s
  | .jmp f => Sys2Proof.Machine.execJmp f s
  | .jmpr f => Sys2Proof.Machine.execJmpr f s
  | .call f => Sys2Proof.Machine.execCall f s
  | .callr f => Sys2Proof.Machine.execCallr f s
  | .ret f => Sys2Proof.Machine.execRet f s
  | .loop f => Sys2Proof.Machine.execLoop f s
  | .bmask f => Sys2Proof.Machine.execBmask f s
  | .nop f => Sys2Proof.Machine.execNop f s
  | .halt f => Sys2Proof.Machine.execHalt f s
  | .vadd f => Sys2Proof.Machine.execVadd f s
  | .vsub f => Sys2Proof.Machine.execVsub f s
  | .vrsub f => Sys2Proof.Machine.execVrsub f s
  | .vmul f => Sys2Proof.Machine.execVmul f s
  | .vmulh f => Sys2Proof.Machine.execVmulh f s
  | .vdiv f => Sys2Proof.Machine.execVdiv f s
  | .vrem f => Sys2Proof.Machine.execVrem f s
  | .vmin f => Sys2Proof.Machine.execVmin f s
  | .vmax f => Sys2Proof.Machine.execVmax f s
  | .vand f => Sys2Proof.Machine.execVand f s
  | .vor f => Sys2Proof.Machine.execVor f s
  | .vxor f => Sys2Proof.Machine.execVxor f s
  | .vshl f => Sys2Proof.Machine.execVshl f s
  | .vshr f => Sys2Proof.Machine.execVshr f s
  | .vsadd f => Sys2Proof.Machine.execVsadd f s
  | .vssub f => Sys2Proof.Machine.execVssub f s
  | .vavg f => Sys2Proof.Machine.execVavg f s
  | .vabsd f => Sys2Proof.Machine.execVabsd f s
  | .vwadd f => Sys2Proof.Machine.execVwadd f s
  | .vwmul f => Sys2Proof.Machine.execVwmul f s
  | .vnshr f => Sys2Proof.Machine.execVnshr f s
  | .vmodadd f => Sys2Proof.Machine.execVmodadd f s
  | .vmodsub f => Sys2Proof.Machine.execVmodsub f s
  | .vmodmul f => Sys2Proof.Machine.execVmodmul f s
  | .vclz f => Sys2Proof.Machine.execVclz f s
  | .vpopc f => Sys2Proof.Machine.execVpopc f s
  | .vfadd f => Sys2Proof.Machine.execVfadd f s
  | .vfsub f => Sys2Proof.Machine.execVfsub f s
  | .vfmul f => Sys2Proof.Machine.execVfmul f s
  | .vfdiv f => Sys2Proof.Machine.execVfdiv f s
  | .vfma f => Sys2Proof.Machine.execVfma f s
  | .vfwma f => Sys2Proof.Machine.execVfwma f s
  | .vfmin f => Sys2Proof.Machine.execVfmin f s
  | .vfmax f => Sys2Proof.Machine.execVfmax f s
  | .vfsqrt f => Sys2Proof.Machine.execVfsqrt f s
  | .vfrsq f => Sys2Proof.Machine.execVfrsq f s
  | .vfrcp f => Sys2Proof.Machine.execVfrcp f s
  | .vfexp f => Sys2Proof.Machine.execVfexp f s
  | .vfsgn f => Sys2Proof.Machine.execVfsgn f s
  | .vfclass f => Sys2Proof.Machine.execVfclass f s
  | .vfcvt f => Sys2Proof.Machine.execVfcvt f s
  | .vfscale f => Sys2Proof.Machine.execVfscale f s
  | .vfrnd f => Sys2Proof.Machine.execVfrnd f s
  | .vfnf f => Sys2Proof.Machine.execVfnf f s
  | .vsetl f => Sys2Proof.Machine.execVsetl f s
  | .vsetlProgress f => Sys2Proof.Machine.execVsetlProgress f s
  | .vsetdim f => Sys2Proof.Machine.execVsetdim f s
  | .vcmp f => Sys2Proof.Machine.execVcmp f s
  | .vfcmp f => Sys2Proof.Machine.execVfcmp f s
  | .mlogic f => Sys2Proof.Machine.execMlogic f s
  | .mpopc f => Sys2Proof.Machine.execMpopc f s
  | .mffs f => Sys2Proof.Machine.execMffs f s
  | .mset f => Sys2Proof.Machine.execMset f s
  | .mtolist f => Sys2Proof.Machine.execMtolist f s
  | .mtobits f => Sys2Proof.Machine.execMtobits f s
  | .viota f => Sys2Proof.Machine.execViota f s
  | .vid f => Sys2Proof.Machine.execVid f s
  | .vcompress f => Sys2Proof.Machine.execVcompress f s
  | .vexpand f => Sys2Proof.Machine.execVexpand f s
  | .vperm f => Sys2Proof.Machine.execVperm f s
  | .vslide f => Sys2Proof.Machine.execVslide f s
  | .vsplat f => Sys2Proof.Machine.execVsplat f s
  | .vmvsx f => Sys2Proof.Machine.execVmvsx f s
  | .vmvxs f => Sys2Proof.Machine.execVmvxs f s
  | .vredsum f => Sys2Proof.Machine.execVredsum f s
  | .vredmax f => Sys2Proof.Machine.execVredmax f s
  | .vredmin f => Sys2Proof.Machine.execVredmin f s
  | .vredlog f => Sys2Proof.Machine.execVredlog f s
  | .vscan f => Sys2Proof.Machine.execVscan f s
  | .vchain f => Sys2Proof.Machine.execVchain f s
  | .vtrans8 f => Sys2Proof.Machine.execVtrans8 f s
  | .vmerge f => Sys2Proof.Machine.execVmerge f s
  | .vmv f => Sys2Proof.Machine.execVmv f s
  | .vmvWhole f => Sys2Proof.Machine.execVmvWhole f s
  | .vld f => Sys2Proof.Machine.execVld f s
  | .vst f => Sys2Proof.Machine.execVst f s
  | .vlds f => Sys2Proof.Machine.execVlds f s
  | .vsts f => Sys2Proof.Machine.execVsts f s
  | .vldx f => Sys2Proof.Machine.execVldx f s
  | .vstx f => Sys2Proof.Machine.execVstx f s
  | .vldff f => Sys2Proof.Machine.execVldff f s
  | .vldseg f => Sys2Proof.Machine.execVldseg f s
  | .vstseg f => Sys2Proof.Machine.execVstseg f s
  | .vldmd f => Sys2Proof.Machine.execVldmd f s
  | .vstmd f => Sys2Proof.Machine.execVstmd f s
  | .vldr f => Sys2Proof.Machine.execVldr f s
  | .vstr f => Sys2Proof.Machine.execVstr f s
  | .vldbc f => Sys2Proof.Machine.execVldbc f s
  | .vpref f => Sys2Proof.Machine.execVpref f s
  | .vbind f => Sys2Proof.Machine.execVbind f s
  | .vunbind f => Sys2Proof.Machine.execVunbind f s
  | .sprog f => Sys2Proof.Machine.execSprog f s
  | .sswap f => Sys2Proof.Machine.execSswap f s
  | .spref f => Sys2Proof.Machine.execSpref f s
  | .sbind f => Sys2Proof.Machine.execSbind f s
  | .sunbind f => Sys2Proof.Machine.execSunbind f s
  | .srun f => Sys2Proof.Machine.execSrun f s
  | .sdrain f => Sys2Proof.Machine.execSdrain f s
  | .sstat f => Sys2Proof.Machine.execSstat f s
  | .sstatCfg f => Sys2Proof.Machine.execSstatCfg f s
  | .stwid f => Sys2Proof.Machine.execStwid f s
  | .smod f => Sys2Proof.Machine.execSmod f s
  | .sscale f => Sys2Proof.Machine.execSscale f s
  | .spatch f => Sys2Proof.Machine.execSpatch f s
  | .sinj f => Sys2Proof.Machine.execSinj f s
  | .sext f => Sys2Proof.Machine.execSext f s
  | .seos f => Sys2Proof.Machine.execSeos f s
  | .smark f => Sys2Proof.Machine.execSmark f s
  | .sresume f => Sys2Proof.Machine.execSresume f s
  | .sresumeImg f => Sys2Proof.Machine.execSresumeImg f s
  | .mma f => Sys2Proof.Machine.execMma f s
  | .mmax f => Sys2Proof.Machine.execMmax f s
  | .mmas f => Sys2Proof.Machine.execMmas f s
  | .mzero f => Sys2Proof.Machine.execMzero f s
  | .mldacc f => Sys2Proof.Machine.execMldacc f s
  | .mstacc f => Sys2Proof.Machine.execMstacc f s
  | .msavea f => Sys2Proof.Machine.execMsavea f s
  | .mresta f => Sys2Proof.Machine.execMresta f s
  | .mmv f => Sys2Proof.Machine.execMmv f s
  | .mmvToacc f => Sys2Proof.Machine.execMmvToacc f s
  | .mpeek f => Sys2Proof.Machine.execMpeek f s
  | .mcvt f => Sys2Proof.Machine.execMcvt f s
  | .mwload f => Sys2Proof.Machine.execMwload f s
  | .mcfg f => Sys2Proof.Machine.execMcfg f s
  | .mcfgRd f => Sys2Proof.Machine.execMcfgRd f s
  | .rvadd f => Sys2Proof.Machine.execRvadd f s
  | .rvsub f => Sys2Proof.Machine.execRvsub f s
  | .rvmul f => Sys2Proof.Machine.execRvmul f s
  | .rvfma f => Sys2Proof.Machine.execRvfma f s
  | .rvnarrow f => Sys2Proof.Machine.execRvnarrow f s
  | .rvshr f => Sys2Proof.Machine.execRvshr f s
  | .rvrelu f => Sys2Proof.Machine.execRvrelu f s
  | .rvscale f => Sys2Proof.Machine.execRvscale f s
  | .rvcvt f => Sys2Proof.Machine.execRvcvt f s
  | .lpush f => Sys2Proof.Machine.execLpush f s
  | .lpop f => Sys2Proof.Machine.execLpop f s
  | .lmark f => Sys2Proof.Machine.execLmark f s
  | .lchk f => Sys2Proof.Machine.execLchk f s
  | .lspill f => Sys2Proof.Machine.execLspill f s
  | .unadd f => Sys2Proof.Machine.execUnadd f s
  | .unsub f => Sys2Proof.Machine.execUnsub f s
  | .unmul f => Sys2Proof.Machine.execUnmul f s
  | .unfma f => Sys2Proof.Machine.execUnfma f s
  | .unnarrow f => Sys2Proof.Machine.execUnnarrow f s
  | .unshr f => Sys2Proof.Machine.execUnshr f s
  | .unrelu f => Sys2Proof.Machine.execUnrelu f s
  | .unscale f => Sys2Proof.Machine.execUnscale f s
  | .uncvt f => Sys2Proof.Machine.execUncvt f s
  | .kproj f => Sys2Proof.Machine.execKproj f s
  | .kprojDesc f => Sys2Proof.Machine.execKprojDesc f s
  | .kstore f => Sys2Proof.Machine.execKstore f s
  | .ksig f => Sys2Proof.Machine.execKsig f s
  | .kquery f => Sys2Proof.Machine.execKquery f s
  | .kcount f => Sys2Proof.Machine.execKcount f s
  | .kreset f => Sys2Proof.Machine.execKreset f s
  | .kmode f => Sys2Proof.Machine.execKmode f s
  | .kmodeDense f => Sys2Proof.Machine.execKmodeDense f s
  | .ktrim f => Sys2Proof.Machine.execKtrim f s
  | .book f => Sys2Proof.Machine.execBook f s
  | .bookq f => Sys2Proof.Machine.execBookq f s
  | .unbook f => Sys2Proof.Machine.execUnbook f s
  | .compact f => Sys2Proof.Machine.execCompact f s
  | .launch f => Sys2Proof.Machine.execLaunch f s
  | .gbar f => Sys2Proof.Machine.execGbar f s
  | .tdone f => Sys2Proof.Machine.execTdone f s
  | .slackrd f => Sys2Proof.Machine.execSlackrd f s
  | .calrdSlot f => Sys2Proof.Machine.execCalrdSlot f s
  | .calrdOcc f => Sys2Proof.Machine.execCalrdOcc f s
  | .calrdTask f => Sys2Proof.Machine.execCalrdTask f s
  | .yieldt f => Sys2Proof.Machine.execYieldt f s
  | .rkcopy f => Sys2Proof.Machine.execRkcopy f s
  | .rkxpose f => Sys2Proof.Machine.execRkxpose f s
  | .rkconv f => Sys2Proof.Machine.execRkconv f s
  | .rkfill f => Sys2Proof.Machine.execRkfill f s
  | .rkgather f => Sys2Proof.Machine.execRkgather f s
  | .rkred f => Sys2Proof.Machine.execRkred f s
  | .twaitany f => Sys2Proof.Machine.execTwaitany f s
  | .twaitall f => Sys2Proof.Machine.execTwaitall f s
  | .tfirst f => Sys2Proof.Machine.execTfirst f s
  | .tclr f => Sys2Proof.Machine.execTclr f s
  | .tclrCancel f => Sys2Proof.Machine.execTclrCancel f s
  | .lda f => Sys2Proof.Machine.execLda f s
  | .strel f => Sys2Proof.Machine.execStrel f s
  | .fence f => Sys2Proof.Machine.execFence f s
  | .amo f => Sys2Proof.Machine.execAmo f s
  | .cas f => Sys2Proof.Machine.execCas f s
  | .futrd f => Sys2Proof.Machine.execFutrd f s
  | .futwr f => Sys2Proof.Machine.execFutwr f s
  | .futclr f => Sys2Proof.Machine.execFutclr f s
  | .qpush f => Sys2Proof.Machine.execQpush f s
  | .qpop f => Sys2Proof.Machine.execQpop f s
  | .qtry f => Sys2Proof.Machine.execQtry f s
  | .qtryPush f => Sys2Proof.Machine.execQtryPush f s
  | .qfence f => Sys2Proof.Machine.execQfence f s
  | .pubhw f => Sys2Proof.Machine.execPubhw f s
  | .readhw f => Sys2Proof.Machine.execReadhw f s
  | .mbar f => Sys2Proof.Machine.execMbar f s
  | .gload f => Sys2Proof.Machine.execGload f s
  | .gbind f => Sys2Proof.Machine.execGbind f s
  | .gbindFree f => Sys2Proof.Machine.execGbindFree f s
  | .cstart f => Sys2Proof.Machine.execCstart f s
  | .cpoll f => Sys2Proof.Machine.execCpoll f s
  | .cflagrd f => Sys2Proof.Machine.execCflagrd f s
  | .cflagset f => Sys2Proof.Machine.execCflagset f s
  | .cabort f => Sys2Proof.Machine.execCabort f s
  | .xsend f => Sys2Proof.Machine.execXsend f s
  | .xrecv f => Sys2Proof.Machine.execXrecv f s
  | .trap f => Sys2Proof.Machine.execTrap f s
  | .eret f => Sys2Proof.Machine.execEret f s
  | .crr f => Sys2Proof.Machine.execCrr f s
  | .crw f => Sys2Proof.Machine.execCrw f s
  | .waitev f => Sys2Proof.Machine.execWaitev f s
  | .sigev f => Sys2Proof.Machine.execSigev f s
  | .hspawn f => Sys2Proof.Machine.execHspawn f s
  | .hspawnKeep f => Sys2Proof.Machine.execHspawnKeep f s
  | .hstop f => Sys2Proof.Machine.execHstop f s
  | .vsave f => Sys2Proof.Machine.execVsave f s
  | .vrest f => Sys2Proof.Machine.execVrest f s
  | .tlbinv f => Sys2Proof.Machine.execTlbinv f s
  | .cflush f => Sys2Proof.Machine.execCflush f s
  | .brk f => Sys2Proof.Machine.execBrk f s
  | .hintAudit h r => Sys2Proof.Machine.execHintAudit h r s
  | .futurePoll h => Sys2Proof.Machine.execFuturePoll h s
  | .rdupInvalidationAck h n observer => Sys2Proof.Machine.execRdupInvalidationAck h n observer s
  | .copyStart c ch => Sys2Proof.Machine.execCopyStart c ch s
  | .copyComplete c ch => Sys2Proof.Machine.execCopyComplete c ch s
  | .dispatchCheck d task => Sys2Proof.Machine.execDispatchCheck d task s
  | .readySetEntry d task => Sys2Proof.Machine.execReadySetEntry d task s
  | .queueAgePromotion d task => Sys2Proof.Machine.execQueueAgePromotion d task s
  | .calendarPass d => Sys2Proof.Machine.execCalendarPass d s
  | .rollingOccurrenceReserve d => Sys2Proof.Machine.execRollingOccurrenceReserve d s
  | .xdiePrepare home task remote => Sys2Proof.Machine.execXdiePrepare home task remote s
  | .xdieReply home task remote => Sys2Proof.Machine.execXdieReply home task remote s
  | .xdieCommit home task remote => Sys2Proof.Machine.execXdieCommit home task remote s
  | .xdieAbort home task remote => Sys2Proof.Machine.execXdieAbort home task remote s
  | .gangStart d task => Sys2Proof.Machine.execGangStart d task s
  | .bookedOccurrenceConflict c group => Sys2Proof.Machine.execBookedOccurrenceConflict c group s
  | .overrun d task => Sys2Proof.Machine.execOverrun d task s
  | .compaction d => Sys2Proof.Machine.execCompaction d s
  | .prefetchLoadComplete c => Sys2Proof.Machine.execPrefetchLoadComplete c s
  | .nodeIn c node => Sys2Proof.Machine.execNodeIn c node s
  | .nodeOut c node => Sys2Proof.Machine.execNodeOut c node s
  | .nodeStage c node => Sys2Proof.Machine.execNodeStage c node s
  | .nodePerm c node => Sys2Proof.Machine.execNodePerm c node s
  | .nodeXperm c node => Sys2Proof.Machine.execNodeXperm c node s
  | .nodePoint c node => Sys2Proof.Machine.execNodePoint c node s
  | .nodeSteer c node => Sys2Proof.Machine.execNodeSteer c node s
  | .nodeMerge c node => Sys2Proof.Machine.execNodeMerge c node s
  | .nodeCarry c node => Sys2Proof.Machine.execNodeCarry c node s
  | .nodeInv c node => Sys2Proof.Machine.execNodeInv c node s
  | .nodeXchg c node => Sys2Proof.Machine.execNodeXchg c node s
  | .endOfStream c node => Sys2Proof.Machine.execEndOfStream c node s
  | .preemptMarker c node => Sys2Proof.Machine.execPreemptMarker c node s
  | .streamGeneratorHold c handle => Sys2Proof.Machine.execStreamGeneratorHold c handle s
  | .streamFault h => Sys2Proof.Machine.execStreamFault h s
  | .programEnd c => Sys2Proof.Machine.execProgramEnd c s
  | .drainPoint c => Sys2Proof.Machine.execDrainPoint c s
  | .contextSequencerSwap c slot => Sys2Proof.Machine.execContextSequencerSwap c slot s
  | .collectiveStep c slot => Sys2Proof.Machine.execCollectiveStep c slot s
  | .collectiveComplete c slot => Sys2Proof.Machine.execCollectiveComplete c slot s
  | .collectiveGraceExpiry c slot => Sys2Proof.Machine.execCollectiveGraceExpiry c slot s
  | .messageMatch src dst mtag => Sys2Proof.Machine.execMessageMatch src dst mtag s
  | .messageTransferComplete src dst mtag => Sys2Proof.Machine.execMessageTransferComplete src dst mtag s
  | .graphNodeLaunch d graph node => Sys2Proof.Machine.execGraphNodeLaunch d graph node s
  | .graphPendingRetry d graph => Sys2Proof.Machine.execGraphPendingRetry d graph s
  | .graphComplete d graph => Sys2Proof.Machine.execGraphComplete d graph s
  | .flitReceive f => Sys2Proof.Machine.execFlitReceive f s
  | .slotSyncSend d => Sys2Proof.Machine.execSlotSyncSend d s
  | .slotSyncReceive d count => Sys2Proof.Machine.execSlotSyncReceive d count s
  | .hostHdmAccess port pa data => Sys2Proof.Machine.execHostHdmAccess port pa data s
  | .gsaddrWrite d va => Sys2Proof.Machine.execGsaddrWrite d va s
  | .hsemAcquire id => Sys2Proof.Machine.execHsemAcquire id s
  | .hsemRelease id => Sys2Proof.Machine.execHsemRelease id s
  | .hsemRenew id => Sys2Proof.Machine.execHsemRenew id s
  | .hsemLeaseExpiry => Sys2Proof.Machine.execHsemLeaseExpiry s
  | .preqWrite h id => Sys2Proof.Machine.execPreqWrite h id s
  | .evsetWrite h v => Sys2Proof.Machine.execEvsetWrite h v s
  | .hisetWrite h v => Sys2Proof.Machine.execHisetWrite h v s
  | .preemptGrant h => Sys2Proof.Machine.execPreemptGrant h s
  | .hostInterrupt h => Sys2Proof.Machine.execHostInterrupt h s
  | .event h => Sys2Proof.Machine.execEvent h s
  | .registerWrite offset v => Sys2Proof.Machine.execRegisterWrite offset v s
  | .powerOnReset => Sys2Proof.Machine.execPowerOnReset s
  | .devctlRun => Sys2Proof.Machine.execDevctlRun s
  | .devctlWarm => Sys2Proof.Machine.execDevctlWarm s
  | .stretchLevelChange power thermal => Sys2Proof.Machine.execStretchLevelChange power thermal s
  | .thermalTrip => Sys2Proof.Machine.execThermalTrip s
  | .copyLineWrite c ch => Sys2Proof.Machine.execCopyLineWrite c ch s

end Sys2Proof.Machine
end

