-- ==== Sys2Proof/Machine/Route.lean ====
section
/-!
DEFINITION. The way of traffic between two clusters over mesh links and die-to-die channels (01 R4 to R8, 08 R207).
-/

namespace Sys2Proof.Machine

/-- A place in the package's mesh of 8 rows by 16 columns: the dies lie as in 01 R4, their clusters as in 01 R6. -/
structure Place where
  row : Nat
  col : Nat
  deriving DecidableEq, Repr

def Place.ofCluster (c : ClusterId) : Place :=
  ⟨4 * (c.val / 64) + c.val / 8 % 4, 8 * (c.val / 32 % 2) + c.val % 8⟩

/-- A directed mesh link by its number on the die of a place (08 Table 8.4). -/
def Place.link (p : Place) (n : Nat) : Resource := (4, (2 * (p.row / 4) + p.col / 8) * 128 + n)

/-- What carries a hop along a row to the next column, 0, or back from it, 1: the row link of 08 Table 8.5, or between die columns
one of the row's four channels (01 R8). -/
def Place.rowHop (p : Place) (back : Nat) : List Resource :=
  if p.col = 7 then (List.range 4).map fun j => (5, 16 * (p.row / 4) + 4 * (p.row % 4) + j)
  else [p.link ((7 * (p.row % 4) + p.col % 8) * 2 + back)]

/-- What carries a hop along a column to the next row, or back from it: the column link, or between die rows one of the column's
two channels (01 R8). -/
def Place.colHop (p : Place) (back : Nat) : List Resource :=
  if p.row = 3 then (List.range 2).map fun j => (5, 16 * (2 + p.col / 8) + 2 * (p.col % 8) + j)
  else [p.link (56 + (3 * (p.col % 8) + p.row % 4) * 2 + back)]

/-- The hops of traffic from `a` to `b`, each with the resources of which one carries it: along its row to the destination's
column, then along that column, in one die (01 R7) and over die boundaries, whose column crossing comes first (01 R5)
(in part DEDUCED, log 7). -/
def route (a b : Place) : List (List Resource) :=
  (if a.col ≤ b.col then (List.range (b.col - a.col)).map fun i => Place.rowHop ⟨a.row, a.col + i⟩ 0
   else (List.range (a.col - b.col)).map fun i => Place.rowHop ⟨a.row, a.col - i - 1⟩ 1) ++
  (if a.row ≤ b.row then (List.range (b.row - a.row)).map fun i => Place.colHop ⟨a.row + i, b.col⟩ 0
   else (List.range (a.row - b.row)).map fun i => Place.colHop ⟨a.row - i - 1, b.col⟩ 1)

/-- Whether traffic from `a` to `b` can meet a resource: a link or a channel only on its route. -/
def Resource.meets (r : Resource) (path : Option (ClusterId × ClusterId)) : Bool :=
  if r.1 = 4 ∨ r.1 = 5 then path.any fun p => (route (Place.ofCluster p.1) (Place.ofCluster p.2)).any fun l => l.contains r else true

end Sys2Proof.Machine
end

