-- ==== Sys2Proof/Machine/Tick.lean ====
section
/-!
DEFINITION. The clock: what a cycle charges (08 R220, Table 8.9), and what falls due at a slot boundary (08 R210 to R223,
13 R335, R339, R343, R350, 14 R370).
-/

namespace Sys2Proof.Machine

/-! ## Charges -/

/-- A wait that is charged to a gang as a slip or as parking (08 Table 8.9) (in part DEDUCED, log 42). -/
def WaitFor.charged : WaitFor → Bool
  | .future _ _ => true
  | .queue _ => true
  | .tags => true
  | .copy => true
  | .stream => true
  | .flagrd => true
  | .event => true
  | .unit => true
  | .gbar => false
  | .drain => false
  | .hint => false
  | .hazard => false
  | .other => false

/-- The hart waits in a way that is charged (in part DEDUCED, log 42). -/
def Hart.slips (x : Hart) : Bool :=
  match x.run with
  | .waiting w => w.charged
  | _ => false

/-- The hart waits for a true hazard, which is counted and charged (02 R27). -/
def Hart.hazards (x : Hart) : Bool :=
  match x.run with
  | .waiting .hazard => true
  | _ => false

/-- Copies held at any slice. -/
def State.heldCopies (s : State) : List HartId :=
  let ids := s.clusters.toList.flatMap fun (x : Cluster) => x.racker.held
  (s.clusters.toList.flatMap fun (x : Cluster) => x.racker.channels.toList.flatten).filterMap fun (c : Copy) =>
    if ids.contains c.id then some c.hart else none

/-- An ingress of a cluster's program waits for a copy (09 R252). -/
def State.inHeld (s : State) (c : ClusterId) (cfg : Config) (r : Run) (n : Nat) : Bool :=
  cfg.kind n == 1 && s.admits c cfg r n &&
  (match (s.handleOf c (cfg.handle n)).desc with
    | some d => d.space != 3 && (match (s.nextTok c r (cfg.handle n)).2 with | .wait => true | _ => false)
    | none => false)

/-- The owner of the program of a cluster when an ingress of it waits. -/
def State.ingressOwner (s : State) (c : ClusterId) : Option HartId :=
  match s.live c with
  | some (cfg, r) => if r.gang.isSome && (cfg.nodes.any fun n => s.inHeld c cfg r n) then some r.owner else none
  | none => none

/-- The members that this cycle charges, each once (08 R220) (DESIGN CHOICE, log 7, in part DEDUCED, log 42). -/
def State.slipping (s : State) : List HartId :=
  let waits := (List.finRange 512).filter fun h => (s.hart h).gang.isSome && (s.hart h).slips
  (waits ++ (s.heldCopies.filter fun h => (s.hart h).gang.isSome) ++ (List.finRange 128).filterMap s.ingressOwner).eraseDups

/-! ## Slot boundaries -/

/-- The calendar unit of a die has a search to end or to begin: a compaction comes before the pass goes on (08 R213, R223). -/
def State.passDue (s : State) (d : DieId) : List Event :=
  let u := (s.die d).cal
  (if u.busy ≤ s.cycle && u.compactDue s.cycle then [.compaction d] else []) ++
    (if (u.busy ≤ s.cycle && (u.search.isSome || !u.pass.isEmpty)) || (s.cycle % 16 == 0 && !u.ready.isEmpty) then
      [.calendarPass d] else [])

/-- Steps of a die's dispatcher and calendar unit that are due. -/
def State.calDue (s : State) (d : DieId) : List Event :=
  let u := (s.die d).cal
  let of (p : Task → Bool) (e : Nat → Event) : List Event := (u.tasks.filter p).map fun t => e t.num
  of (fun t => t.st == .running && t.bookEnd ≤ s.slot) (.overrun d) ++
    of (fun t => t.st == .queued && t.hdr.isNone) (.dispatchCheck d) ++
    of (fun t => (t.st == .queued || t.st == .ready) && t.since + 4096 ≤ s.slot) (.queueAgePromotion d) ++
    of (fun t => t.st == .queued && t.hdr.isSome) (.readySetEntry d) ++
    s.passDue d ++
    of (fun t => t.st == .booked && t.bookStart ≤ s.slot) (.gangStart d)

/-- Steps of a die's graphs that are due. -/
def State.graphsDue (s : State) (d : DieId) : List Event :=
  (List.finRange 16).flatMap fun g =>
    let y := s.graph d g
    if !y.used then []
    else if y.finished then [.graphComplete d g]
    else (if y.nodes.any fun n => n.phase == .pending then [.graphPendingRetry d g] else []) ++
      ((List.range y.nodes.length).filter y.due).map fun i => .graphNodeLaunch d g i

/-- Graces that have run out. -/
def State.gracesDue (s : State) : List Event :=
  (List.finRange 128).flatMap fun c => (List.finRange 8).filterMap fun k =>
    let x := s.coll c k
    match x.desc, x.waitFrom with
    | some d, some w => if x.st == .waiting && w + d.grace ≤ s.slot then some (.collectiveGraceExpiry c k) else none
    | _, _ => none

/-- Bound collective slots with one of the gateways' swaps due: a claimed occurrence begins (13 R343). -/
def State.swapsDue (s : State) : List Event :=
  (List.finRange 128).flatMap fun c => (List.finRange 8).filterMap fun k =>
    if (s.coll c k).desc.isSome && s.occurrence c (s.coll c k) s.slot true then some (.contextSequencerSwap c k) else none

/-- Collective configurations whose claimed occurrence has ended are active no more (13 R343). -/
def State.unswap (s : State) : State :=
  { s with clusters := Vector.ofFn fun (c : Fin 128) =>
      { s.cluster c with coll := (s.cluster c).coll.map fun y =>
          if y.swapped && !s.occurrence c y s.slot false then { y with swapped := false } else y } }

/-- What falls due as a slot begins (in part DEDUCED, log 42). -/
def State.slotDue (s : State) : List Event :=
  (if s.dev.hsem.owner ≠ 0 ∧ s.dev.hsem.lease ≠ 0 then [.hsemLeaseExpiry] else []) ++
    (if s.dev.syncm && s.slot % 256 == 0 then [.slotSyncSend 0] else []) ++
    (List.finRange 4).flatMap (fun d => s.calDue d ++ s.graphsDue d) ++ s.gracesDue ++ s.swapsDue

/-- Frozen regions whose gangs run again, and which another's program has kept from being restored, are restored (09 R256)
(DESIGN CHOICE, log 50). -/
def State.thawDue (s : State) : State :=
  (List.finRange 128).foldl (fun (s : State) c => (s.fabric c).parked.foldl (fun (s : State) p =>
    match p.saved.run.gang with
    | some (d, n) =>
      if (s.task d n).any (fun t => t.st == .running) && !(s.hart p.saved.run.owner).preempt.pend then s.thaw c (d, n) else s
    | none => s) s) s

/-- A slot begins: whether it is stretched is counted (13 R335, 14 R370), and what is due comes next
(in part DEDUCED, log 42). -/
def State.newSlot (s : State) : State :=
  let owed := s.dies.toList.any fun (d : Die) => d.stretch != 0
  let stretched := s.slot % 16 < s.dev.level || owed
  let s : State := { s with
    dev := if stretched then { s.dev with stretched := s.dev.stretched + 1 } else s.dev
    dies := s.dies.map fun (d : Die) => { d with stretch := d.stretch - 1 } }
  let s := s.thawDue.unswap
  { s with agenda := s.slotDue.map .event ++ s.agenda }

/-- A hazard holds the next instruction of hart `h` in this cycle (02 R32). -/
def State.miss (s : State) (h : HartId) (ready : Bool) : State := s.modHart h fun x => { x with mis := x.mis.hold ready }

/-- What a cycle charges: slips and parking, then the true hazards, each member at most once (02 R27, 08 R220). -/
def State.chargeCycle (s : State) : State :=
  let s := s.slipping.foldl State.lose s
  let s := ((List.finRange 512).filter fun h => (s.hart h).hazards).foldl (fun s h => (s.stall h).miss h true) s
  { s with harts := s.harts.map fun x => { x with lost := false, mis := x.mis.tick (x.run == .waiting .hint) }
           clusters := s.clusters.map fun (x : Cluster) => { x with keyUnit := none } }

/-- One cycle (DESIGN CHOICE, log 7, in part DEDUCED, log 57). -/
def tick (s : State) : State :=
  let s := s.chargeCycle
  let s := { s with cycle := s.cycle + 1 }
  if s.cycle % 16 = 0 then s.newSlot
  else { s with agenda := (((List.finRange 4).flatMap s.passDue).map .event) ++ s.agenda }

/-- A cycle in which a hazard holds the next instruction of hart `h` (02 R27): counted, and charged in a gang, unless the cycle is
a slip's or parking's, or HL holds the instruction, which then is not hint-ready (DESIGN CHOICE, log 7). -/
def interlock (s : State) (h : HartId) : State :=
  let x := s.hart h
  if !x.live || x.slips then s
  else if s.hlHolds h then s.miss h false
  else (s.stall h).miss h true

/-- A cycle that work of member `h` loses (08 R218, R220, Table 8.9, 10 R279): no slip when the gang has claimed the resource in
this slot, or when it lies on no route of the work (DESIGN CHOICE, log 7). -/
def slipTurn (s : State) (h : HartId) (r : Option (Nat × Nat)) (path : Option (ClusterId × ClusterId)) : State :=
  if (s.hart h).gang.isNone || (r.any fun r => s.claimed h r || !Resource.meets r path) then s else s.lose h

end Sys2Proof.Machine
end

