-- ==== Sys2Proof/Machine/Step.lean ====
section
/-!
DEFINITION. One step of the device: the agent that the agenda names moves, or hart `cur` issues.
-/

namespace Sys2Proof.Machine

/-- The row of spec/opcode_table.json that an agent's step is. -/
noncomputable def Event.instr (e : Event) : Instr :=
  match e with
  | .hintAudit h r => .hintAudit h r
  | .futurePoll h => .futurePoll h
  | .rdupInvalidationAck h n observer => .rdupInvalidationAck h n observer
  | .copyStart c ch => .copyStart c ch
  | .copyComplete c ch => .copyComplete c ch
  | .dispatchCheck d task => .dispatchCheck d task
  | .readySetEntry d task => .readySetEntry d task
  | .queueAgePromotion d task => .queueAgePromotion d task
  | .calendarPass d => .calendarPass d
  | .rollingOccurrenceReserve d => .rollingOccurrenceReserve d
  | .xdiePrepare home task remote => .xdiePrepare home task remote
  | .xdieReply home task remote => .xdieReply home task remote
  | .xdieCommit home task remote => .xdieCommit home task remote
  | .xdieAbort home task remote => .xdieAbort home task remote
  | .gangStart d task => .gangStart d task
  | .bookedOccurrenceConflict c group => .bookedOccurrenceConflict c group
  | .overrun d task => .overrun d task
  | .compaction d => .compaction d
  | .prefetchLoadComplete c => .prefetchLoadComplete c
  | .nodeIn c node => .nodeIn c node
  | .nodeOut c node => .nodeOut c node
  | .nodeStage c node => .nodeStage c node
  | .nodePerm c node => .nodePerm c node
  | .nodeXperm c node => .nodeXperm c node
  | .nodePoint c node => .nodePoint c node
  | .nodeSteer c node => .nodeSteer c node
  | .nodeMerge c node => .nodeMerge c node
  | .nodeCarry c node => .nodeCarry c node
  | .nodeInv c node => .nodeInv c node
  | .nodeXchg c node => .nodeXchg c node
  | .endOfStream c node => .endOfStream c node
  | .preemptMarker c node => .preemptMarker c node
  | .streamGeneratorHold c handle => .streamGeneratorHold c handle
  | .streamFault h => .streamFault h
  | .programEnd c => .programEnd c
  | .drainPoint c => .drainPoint c
  | .contextSequencerSwap c slot => .contextSequencerSwap c slot
  | .collectiveStep c slot => .collectiveStep c slot
  | .collectiveComplete c slot => .collectiveComplete c slot
  | .collectiveGraceExpiry c slot => .collectiveGraceExpiry c slot
  | .messageMatch src dst mtag => .messageMatch src dst mtag
  | .messageTransferComplete src dst mtag => .messageTransferComplete src dst mtag
  | .graphNodeLaunch d graph node => .graphNodeLaunch d graph node
  | .graphPendingRetry d graph => .graphPendingRetry d graph
  | .graphComplete d graph => .graphComplete d graph
  | .flitReceive f => .flitReceive f
  | .slotSyncSend d => .slotSyncSend d
  | .slotSyncReceive d count => .slotSyncReceive d count
  | .hostHdmAccess port pa data => .hostHdmAccess port pa data
  | .gsaddrWrite d va => .gsaddrWrite d va
  | .hsemAcquire id => .hsemAcquire id
  | .hsemRelease id => .hsemRelease id
  | .hsemRenew id => .hsemRenew id
  | .hsemLeaseExpiry => .hsemLeaseExpiry
  | .preqWrite h id => .preqWrite h id
  | .evsetWrite h v => .evsetWrite h v
  | .hisetWrite h v => .hisetWrite h v
  | .preemptGrant h => .preemptGrant h
  | .hostInterrupt h => .hostInterrupt h
  | .event h => .event h
  | .registerWrite offset v => .registerWrite offset v
  | .powerOnReset => .powerOnReset
  | .devctlRun => .devctlRun
  | .devctlWarm => .devctlWarm
  | .stretchLevelChange power thermal => .stretchLevelChange power thermal
  | .thermalTrip => .thermalTrip
  | .copyLineWrite c ch => .copyLineWrite c ch

/-- Runs an instruction of hart `h` that has passed its holds, and adds the entry CE asks for (02 R26). -/
def issueInstr (s : State) (h : HartId) (i : Instr) : Out :=
  match exec i (s.prepare h i) with
  | .next t => .next (s.addEntry t h (hintsOfInstr i))
  | .fault x => .fault x
  | .refused x => .refused x

/-- The outcome leaves hart `h` waiting for `w`. -/
def Out.waitsFor (o : Out) (h : HartId) (w : WaitFor) : Bool :=
  match o with
  | .next t => (t.hart h).run == .waiting w
  | _ => false

/-- Fetches, decodes and runs the next instruction of hart `h` (02 R33). A fetch that faults traps with EPC and EADDR at
pc, or stops the hart when it has just entered its handler (14 R357). Under STATUS.AUDIT an instruction that has been held traps
in the cycle in which it would issue (R32). -/
noncomputable def issueNext (s : State) (h : HartId) : Out :=
  match fetch s h with
  | (_, .fault x) => .fault x
  | (_, .refuse x) => .refused x
  | (s, .bad c) =>
    if (s.hart h).atHandler then .next (s.modHart h fun x => x.stopAtHandler c)
    else .next (raise (s.withdraw h) h c (s.hart h).pc 0 (s.hart h).pc (suspends c))
  | (s, .word w) =>
    match decode w with
    | .error e => .next (raise (s.withdraw h) h e.cause (s.hart h).pc 0 (w.setWidth 64) false)
    | .ok i =>
      match (s.hart h).holds (hintsOfInstr i) with
      | some w => .next (s.modHart h fun x => { x with run := .waiting w })
      | none =>
        let out := issueInstr s h i
        if (s.hart h).misHinted && !out.waitsFor h .hazard then .next (s.auditTrap h (hintsOfInstr i)) else out

/-- Whether the hart is parked and has not been woken: it issues nothing (07 R198). -/
def State.parked (s : State) (h : HartId) : Bool :=
  match (s.hart h).run with
  | .waiting (.future pa slotted) => !slotted || (s.die (homeDie pa)).waits.contains (pa, h)
  | _ => false

/-- The next step of hart `h`: an asynchronous cause that is pending and enabled is taken first (14 R359); a stopped,
suspended or parked hart does nothing. -/
noncomputable def hartStep (s : State) (h : HartId) : Out :=
  match (s.hart h).run with
  | .stopped => .next s
  | .suspended => .next s
  | _ =>
    match s.nextAsync h with
    | some (.pending p) =>
      -- the abort that a CFLAGRD waits for ends the wait before its own cause is taken (13 R347)
      if p.cause = 0x15 ∧ (s.hart h).run = .waiting .flagrd then
        (let out := issueNext s h
         if out.waitsFor h .flagrd then .next (s.takePending h p) else out)
      else .next (s.takePending h p)
    | some .preempt => exec (.preemptGrant h) s
    | some .hostInterrupt => exec (.hostInterrupt h) s
    | some .event => exec (.event h) s
    | none => if s.parked h then .next s else issueNext s h

/-- Hart `h` issues, and a pre-emption request arrives while its instruction runs (14 R361). -/
noncomputable def cutStep (s : State) (h : HartId) (n : Nat) (req : BitVec 8) : Out :=
  match hartStep { s with stopAfter := some n } h with
  | .next t => .next ({ t with stopAfter := none }.preq h req)
  | .fault x => .fault x
  | .refused x => .refused x

/-- One turn of the agenda (DESIGN CHOICE, log 1). -/
noncomputable def turnStep (s : State) (t : Turn) : Out :=
  match t with
  | .hart h => hartStep { s with cur := h } h
  | .cut h n req => cutStep { s with cur := h } h n req
  | .event e => exec e.instr s
  | .tick => .next (tick s)
  | .interlock h => .next (interlock s h)
  | .slip h r path => .next (slipTurn s h r path)
  | .error e => .next (s.meetError e)
  | .evict d n => .next (s.modDie d fun x => { x with tlb := x.tlb.eraseIdx n })

/-- One step. -/
noncomputable def step (s : State) : Host.Outcome State Fault Refusal :=
  match s.agenda with
  | [] => hartStep s s.cur
  | t :: rest => turnStep { s with agenda := rest } t

/-- The state with an instruction's word where hart `cur` fetches next: that hart runs at system level, untranslated, with
asynchronous causes off, nothing on the agenda and no hold pending (in part DEDUCED, log 13). -/
def State.withFetchWord (s : State) (nbits w : Nat) : State :=
  let pc := s.me.pc.toNat / 16 * 16
  let pc := if spaceOf pc = .hbm then pc else 0
  let s := s.modMe fun h =>
    { h with
      pc := BitVec.ofNat 64 pc
      run := .running
      status := { h.status with sys := true, ie := false }
      ptbase := h.ptbase &&& ~~~1#64
      cc := Vector.replicate 4 [] }
  let s := s.setBytes pc (bytesOfWord (BitVec.ofNat 128 (w % 2 ^ nbits)))
  { s with agenda := [], poison := SMap.erase s.poison (pc / 64), stopAfter := none }

end Sys2Proof.Machine
end

