-- ==== Sys2Proof/Safety.lean ====
section
/-!
DEFINITION. The terms that statements use: how an instruction of the running hart ends, what stays as it was, and what counts
as a safe run.
-/

namespace Sys2Proof.Machine

/-! ## How an instruction ends -/

/-- The running hart goes on with the next word (04 R86). -/
def State.proceed (s : State) : State := s.modMe fun h => { h with pc := h.pc + 16, inWait := false }

/-- The running hart goes on at `t` (04 R86). -/
def State.goTo (s : State) (t : Word) : State := s.modMe fun h => { h with pc := t, inWait := false }

/-- The running hart takes a synchronous cause with EPC at its instruction (14 R356). -/
def State.trapped (s : State) (cause : Nat) (eaddr eidx : Word) : State :=
  raise s s.cur cause s.me.pc eidx eaddr (suspends cause)

/-- The running hart waits, and its instruction is performed again (14 R361). -/
def State.waiting (s : State) (w : WaitFor) : State := s.modMe fun h => { h with run := .waiting w, inWait := true }

/-- The instruction `i` ends at once in the state `t`. -/
def Runs (i : Instr) (s t : State) : Prop := exec i s = .next t

/-! ## Frames -/

/-- Memory is in its canonical form. -/
def State.memOk (s : State) : Prop := Memory.wf s.mem = true

/-- Nothing of the device has changed but the running hart. -/
def OnlyMe (s t : State) : Prop := t = { s with harts := t.harts } ∧ ∀ k, k ≠ s.cur → t.hart k = s.hart k

/-- Every byte of memory reads as before. -/
def SameBytes (s t : State) : Prop := ∀ a, t.byte a = s.byte a

/-- Every byte of memory outside the `n` bytes at `pa` reads as before. -/
def SameBytesBut (pa n : Nat) (s t : State) : Prop := ∀ a, ¬ (pa ≤ a ∧ a < pa + n) → t.byte a = s.byte a

/-- A hart after an instruction that writes at most the scalar registers in `l`: everything else but the program counter is
as before. -/
def Hart.SameBut (l : List (BitVec 5)) (h x : Hart) : Prop :=
  (∀ n, n ∉ l → x.rs n = h.rs n) ∧
    x = { h with pc := x.pc, s := x.s, latch := x.latch, inWait := x.inWait }

/-- The frame of an instruction that writes at most the scalar registers in `l`. -/
def ScalarFrame (l : List (BitVec 5)) (s t : State) : Prop := OnlyMe s t ∧ SameBytes s t ∧ Hart.SameBut l s.me t.me

/-! ## Vector instructions -/

/-- Nothing outside the operands keeps a vector instruction from running through: every register's value is in the hart, no
stream is bound, no floating-point trap is enabled, no request stops the hart between element groups, and a row of the body
fits the storage (05 R93, R96, 06 R165, 14 R361, R363). -/
structure VecReady (s : State) : Prop where
  valid : s.me.vc.vvalid = BitVec.allOnes 41
  streams : ∀ i : Fin 4, (s.me.vbind[i]).v = false
  traps : s.me.fp.ctl.enables = 0
  stop : s.stopAfter = none
  cols : s.me.cols ≤ s.me.colcap

/-- The element that ordinal `k` leaves: `val` where the predicate enables it, 0 under MP, else the old one (05 R103). -/
def Hart.elemOut (h : Hart) (f : Fields) (w k val old : Nat) : Nat :=
  if h.enabled f k then val % 2 ^ w else if h.mp then 0 else old

/-- The flags of the active ordinals of a run, ORed (03 R59). -/
def orFlags (h : Hart) (f : Fields) (fl : Nat → FFlags) (a n : Nat) : FFlags :=
  (List.range n).foldl (fun acc i => acc ||| if h.enabled f (a + i) then fl (a + i) else 0) 0

/-- A storage position of the group `o` outside the body (05 R103). -/
def Hart.OutsideBody (h : Hart) (o : Opnd) (p : Nat) : Prop :=
  p < o.size h * 16384 / o.w ∧ ∀ k, k < h.vl → p ≠ h.pos k

/-- The tail of the group `o`: every storage position outside the body of `h` holds zero in `x` when `zero`, and is as before
otherwise (05 R103). -/
def TailLeft (h x : Hart) (o : Opnd) (zero : Bool) : Prop :=
  ∀ p, h.OutsideBody o p → x.getE o.reg o.w p = if zero then 0 else h.getE o.reg o.w p

/-- Whether an instruction that completes zeroes the tail of its destination: under TP, once it has a body left to perform
(05 R103, R106). -/
def Hart.zeroesTail (h : Hart) : Bool := h.tp && h.vstart < h.vl

/-- What an element-wise instruction with the vector destination `o` leaves: body elements from VSTART up at the value `g`
gives or their policy, the tail by TP, FPFLAGS with the flags of the active ones, SRSEED stepped when `rm` is SR, VSTART zero,
the next word; every other element of the body, register, hart and byte of memory as before. -/
structure VecResult (s t : State) (f : Fields) (o : Opnd) (rm : Option RMode) (g : Nat → Nat × FFlags) : Prop where
  only : OnlyMe s t
  bytes : SameBytes s t
  elem : ∀ k, k < s.me.vl → t.me.getE o.reg o.w (s.me.pos k) =
    if s.me.vstart ≤ k then s.me.elemOut f o.w k (g k).1 (s.me.getE o.reg o.w (s.me.pos k))
    else s.me.getE o.reg o.w (s.me.pos k)
  tail : TailLeft s.me t.me o s.me.zeroesTail
  other : ∀ r : Fin 32, ¬ (o.reg ≤ r.val ∧ r.val < o.reg + o.size s.me) → t.me.v[r] = s.me.v[r]
  rest : t.me = { s.me with
    pc := s.me.pc + 16, v := t.me.v, latch := t.me.latch, inWait := false
    vc := { s.me.vc with vstart := 0, vdirty := t.me.vc.vdirty, vhigh := t.me.vc.vhigh }
    fp := { s.me.fp with
      flags := s.me.fp.flags ||| orFlags s.me f (fun k => (g k).2) s.me.vstart (s.me.vl - s.me.vstart)
      seed := if rm = some .sr then srStep s.me.fp.seed else s.me.fp.seed } }

/-- What an element-wise instruction with the mask destination `n` leaves: the bits of the body from VSTART up at the value
`g` gives or their policy, the bits at and above VL zero under TP, FPFLAGS with the flags of the active ordinals, VSTART
zero, the next word; every other mask, register, hart and byte of memory as before (05 R102, R103). -/
structure MaskResult (s t : State) (f : Fields) (n : Fin 8) (g : Nat → Bool × FFlags) : Prop where
  only : OnlyMe s t
  bytes : SameBytes s t
  bits : ∀ k, k < 8192 → (t.me.m[n]).bit k =
    if s.me.vstart ≤ k ∧ k < s.me.vl then
      if s.me.enabled f k then (g k).1 else if s.me.mp then false else (s.me.m[n]).bit k
    else if s.me.vl ≤ k ∧ s.me.vstart < s.me.vl ∧ s.me.tp = true then false else (s.me.m[n]).bit k
  bitmap : s.me.vstart < s.me.vl → ∃ b, t.me.m[n] = .bitmap b
  other : ∀ j : Fin 8, j ≠ n → t.me.m[j] = s.me.m[j]
  rest : t.me = { s.me with
    pc := s.me.pc + 16, m := t.me.m, latch := t.me.latch, inWait := false, vc := { s.me.vc with vstart := 0, vdirty := t.me.vc.vdirty }
    fp := { s.me.fp with
      flags := s.me.fp.flags ||| orFlags s.me f (fun k => (g k).2) s.me.vstart (s.me.vl - s.me.vstart) } }

/-- The checks that come before any effect of a vector instruction: without its conditions `ok` on the groups it takes 0x01,
and with them the cause 0x0A of the lowest of its registers `regs` that is not valid (05 R103, 14 R359, R363). -/
def ChecksFirst (i : Instr) (opc : BitVec 12) (f : Fields) (s : State) (ok : Bool) (regs : List Nat) : Prop :=
  (ok = false → exec i s = .next (s.trapped 0x01 ((packWord opc f).setWidth 64) 0)) ∧
  (ok = true → ∀ r, r < 41 → r ∈ regs → s.me.vc.vvalid.getLsbD r = false →
    (∀ q, q < r → q ∈ regs → s.me.vc.vvalid.getLsbD q = true) →
    exec i s = .next (s.trapped 0x0A 0 (BitVec.ofNat 64 r)))

/-- The registers of a destination, its sources, the masks `masks` and the predicate. -/
def usedRegs (s : State) (f : Fields) (d : Dst) (srcs : List Opnd) (masks : List Nat) : List Nat :=
  d.regs s.me ++ srcs.flatMap (fun x => x.regs s.me) ++ masks ++ predRegs f

/-- `ChecksFirst` for an instruction whose groups need only be aligned and apart or the same. -/
def VecChecks (i : Instr) (opc : BitVec 12) (f : Fields) (s : State) (d : Dst) (srcs : List Opnd) (masks : List Nat) :
    Prop :=
  ChecksFirst i opc f s (groupsOk s.me d.opnds srcs) (usedRegs s f d srcs masks)

/-- `i` is an element-wise integer instruction of class 0x2 whose element is `g` of the width and the elements of A and B
(05 R108, R109): under every type its entry takes, it runs through and leaves those elements. -/
def IntElementWise (i : Fields → Instr) (g : Fields → Nat → Nat → Nat → Nat) : Prop :=
  ∀ (f : Fields) (s : State) (w : Nat), VecReady s → s.me.intW f.w.toNat = some w →
    groupsOk s.me [⟨f.d.toNat, w, false⟩] (srcAB f w w) = true →
    ∃ t, exec (i f) s = .next t ∧
      VecResult s t f ⟨f.d.toNat, w, false⟩ none fun k =>
        (g f w (s.me.getE f.a.toNat w (s.me.pos k)) (s.me.elemB f w k), 0)

/-- The same with the destination at twice the width (05 R110). -/
def IntWidening (i : Fields → Instr) (g : Fields → Nat → Nat → Nat → Int) : Prop :=
  ∀ (f : Fields) (s : State) (w : Nat), VecReady s → s.me.intW f.w.toNat = some w → w ≠ 64 →
    groupsOk s.me [⟨f.d.toNat, 2 * w, true⟩] (srcAB f w w) = true →
    ∃ t, exec (i f) s = .next t ∧
      VecResult s t f ⟨f.d.toNat, 2 * w, true⟩ none fun k =>
        (wrap (2 * w) (g f w (s.me.getE f.a.toNat w (s.me.pos k)) (s.me.elemB f w k)), 0)

/-- `i` is an element-wise floating instruction of class 0x3 with two sources: its element and flags are `g` of the format,
the rounding environment, the element index and the elements of A and B (05 R112 to R114). -/
def FltElementWise (i : Fields → Instr) (rounds : Bool) (g : Fields → Fmt → FEnv → Nat → Nat → Nat → Nat × FFlags) : Prop :=
  ∀ (f : Fields) (s : State) (t : Fmt), VecReady s → s.me.fmtOf f.w.toNat = some t → (f.immB = true → immFits t f = true) →
    groupsOk s.me [⟨f.d.toNat, t.width, false⟩] (srcAB f t.width t.width) = true →
    ∃ u, exec (i f) s = .next u ∧
      VecResult s u f ⟨f.d.toNat, t.width, false⟩ (if rounds then some (s.me.rmode (f.modField 44 42)) else none) fun k =>
        g f t (s.me.fenv (f.modField 44 42)) (s.me.pos k) (s.me.getE f.a.toNat t.width (s.me.pos k)) (s.me.fltB f t k)

/-- The same with one source. -/
def FltUnary (i : Fields → Instr) (g : Fields → Fmt → FEnv → Nat → Nat → Nat × FFlags) : Prop :=
  ∀ (f : Fields) (s : State) (t : Fmt), VecReady s → s.me.fmtOf f.w.toNat = some t →
    groupsOk s.me [⟨f.d.toNat, t.width, false⟩] [⟨f.a.toNat, t.width, false⟩] = true →
    ∃ u, exec (i f) s = .next u ∧
      VecResult s u f ⟨f.d.toNat, t.width, false⟩ (some (s.me.rmode (f.modField 44 42))) fun k =>
        g f t (s.me.fenv (f.modField 44 42)) (s.me.pos k) (s.me.getE f.a.toNat t.width (s.me.pos k))

/-- The hart with its floating-point traps disabled (03 R61). -/
def State.untrapped (s : State) : State := s.modMe fun h => { h with fp := { h.fp with ctl := { h.fp.ctl with enables := 0 } } }

/-- Where the element-wise instruction `i`, with the destination `o` and the elements and flags `g`, takes the floating-point trap
(03 R61): an active element raises an enabled flag, and none before it does. The instruction stops at the start of the element
group that holds the element: earlier groups and their flags are written, that group writes nothing, VSTART holds its first
element, EIDX the element and EADDR every flag raised in the group. -/
def FltTraps (i : Instr) (s : State) (f : Fields) (o : Opnd) (srcs : List Opnd) (g : Nat → Nat × FFlags) : Prop :=
  VecReady s.untrapped → groupsOk s.me [o] srcs = true →
    let h := s.me
    let epg := 2048 / o.w
    let raises (k : Nat) : Prop := h.enabled f k = true ∧ (g k).2 &&& h.fp.ctl.enables ≠ 0
    ∀ idx, h.vstart ≤ idx → idx < h.vl → raises idx → (∀ k, h.vstart ≤ k → k < idx → ¬ raises k) →
      let a := max h.vstart (idx / epg * epg)
      let e := min h.vl ((idx / epg + 1) * epg)
      ∃ u : State, exec i s =
          .next (u.trapped 0x13 ((orFlags h f (fun k => (g k).2) a (e - a)).setWidth 64) (BitVec.ofNat 64 idx)) ∧
        OnlyMe s u ∧ SameBytes s u ∧
        (∀ k, k < h.vl → u.me.getE o.reg o.w (h.pos k) =
          if h.vstart ≤ k ∧ k < a then h.elemOut f o.w k (g k).1 (h.getE o.reg o.w (h.pos k))
          else h.getE o.reg o.w (h.pos k)) ∧
        TailLeft h u.me o false ∧
        (∀ r : Fin 32, ¬ (o.reg ≤ r.val ∧ r.val < o.reg + o.size h) → u.me.v[r] = h.v[r]) ∧
        u.me = { h with
          v := u.me.v, latch := u.me.latch
          vc := { h.vc with vstart := BitVec.ofNat 14 a, vdirty := u.me.vc.vdirty, vhigh := u.me.vc.vhigh }
          fp := { h.fp with flags := h.fp.flags ||| orFlags h f (fun k => (g k).2) h.vstart (a - h.vstart) } }

/-! ## Bound groups -/

/-- The running hart with binding `k` another. -/
def State.bound (s : State) (k : Fin 4) (b : VBind) : State := s.modMe fun h => { h with vbind := h.vbind.set k b }

/-- What binding `k`, the hart's only one, does to the element-wise instruction `i` with destination `d` and sources `srcs` (06 R166):
beside it the instruction does what it does without the binding. A BOUND IN group among the sources first takes VL tokens into
its body, waits while there are too few, and at the end of the stream takes those left, is DRAINED and raises 0x17; a DRAINED one
moves nothing. A BOUND OUT destination sends its VL body elements as the instruction completes, and waits while the port is full.
Any other use moves nothing. -/
def BoundGroup (i : Instr) (s : State) (d : Opnd) (srcs : List Opnd) : Prop :=
  ∀ k : Fin 4,
    let b := s.me.vbind[k]
    let n := s.me.vl
    let x := s.myHandle b.handle.toNat
    let names (o : Opnd) : Prop := b.group.toNat = o.reg ∧ b.size = o.size s.me
    let free (z : State) : State := z.bound k { b with v := false }
    let asIf (z : State) : Prop := ∃ u, exec i (free z) = .next u ∧ exec i s = .next (u.bound k b)
    VecReady (free s) → groupsOk s.me [d] srcs = true → b.v = true → n ≠ 0 →
    (b.out = false → (∃ o ∈ srcs, names o) → s.me.vstart = 0 → b.drained = false → x.isPort true = true →
      (n ≤ x.port.length → asIf ((s.setMyHandle b.handle.toNat { x with port := x.port.drop n }).modMe fun h =>
        h.putBody b.group.toNat b.size b.width (x.port.take n))) ∧
      (x.port.length < n → x.ended = false → exec i s = .next (s.waiting .stream)) ∧
      (x.port.length < n → x.ended = true → exec i s = .next
        ((((s.setMyHandle b.handle.toNat { x with port := [] }).modMe fun h =>
          h.putBody b.group.toNat b.size b.width x.port).bound k { b with drained := true }).trapped 0x17
            (BitVec.ofNat 64 x.port.length) 0))) ∧
    (b.out = true → names d → s.canPush b = true →
      (x.portFull = true → exec i s = .next (s.waiting .stream)) ∧
      (x.portFull = false → ∃ u y, exec i (free s) = .next u ∧
        x.send (producerOf s.cur) ((List.range n).map fun j => u.me.getE b.group.toNat b.width (s.me.pos j)) = some y ∧
        exec i s = .next ((u.bound k b).setMyHandle b.handle.toNat y))) ∧
    ((b.out = false ∧ (b.drained = true ∨ s.me.vstart ≠ 0 ∨ ∀ o ∈ srcs, ¬ names o)) ∨ (b.out = true ∧ ¬ names d) → asIf s)

/-- A conversion between these types exists for the lengths that stand: one width, half or twice, and whole slots of 16 where
a side is a grist format (05 R116). -/
def ConvertsTo (h : Hart) (src dst : CTy) : Prop :=
  (src.width = dst.width ∨ src.width = 2 * dst.width ∨ dst.width = 2 * src.width) ∧
    ((src.isGrist || dst.isGrist) = true → h.colcap % 16 = 0 ∧ h.cols % 16 = 0 ∧ h.vstart % 16 = 0)

/-- The slot that a conversion to grist writes for ordinals `k0` to `k0` + 15, and its flags (03 R48, 05 R116). -/
def Hart.slotFor (h : Hart) (f : Fields) (src : CTy) (g : Grist) (env : FEnv) (k0 : Nat) : Nat × FFlags :=
  let vs := h.slotVals f src f.a.toNat k0 env.flushIn
  g.quantise env (h.pos k0) (vs.map (·.1)) (vs.map (·.2))

/-- Some ordinal of the slot at `k0` is enabled. -/
def Hart.slotOn (h : Hart) (f : Fields) (k0 : Nat) : Bool := (List.range 16).any fun i => h.enabled f (k0 + i)

/-- What a conversion to grist leaves: every slot of the body from VSTART up quantised from its enabled elements, with the
policy where none is; the tail by TP, the flags of the elements of the slots written, SRSEED stepped where the mode is SR;
the rest of the hart and of memory as before. -/
structure SlotsConverted (s t : State) (f : Fields) (src : CTy) (g : Grist) (o : Opnd) (sr : Bool) (env : FEnv) : Prop where
  only : OnlyMe s t
  bytes : SameBytes s t
  slot : ∀ k0, k0 < s.me.vl → k0 % 16 = 0 → t.me.slotOf o.reg (s.me.pos k0) =
    if s.me.vstart ≤ k0 then
      if s.me.slotOn f k0 then (s.me.slotFor f src g env k0).1 % 2 ^ 128
      else if s.me.mp then 0 else s.me.slotOf o.reg (s.me.pos k0)
    else s.me.slotOf o.reg (s.me.pos k0)
  tail : TailLeft s.me t.me o s.me.zeroesTail
  other : ∀ r : Fin 32, ¬ (o.reg ≤ r.val ∧ r.val < o.reg + o.size s.me) → t.me.v[r] = s.me.v[r]
  rest : t.me = { s.me with
    pc := s.me.pc + 16, v := t.me.v, latch := t.me.latch, inWait := false
    vc := { s.me.vc with vstart := 0, vdirty := t.me.vc.vdirty, vhigh := t.me.vc.vhigh }
    fp := { s.me.fp with
      flags := s.me.fp.flags ||| (List.range (s.me.vl - s.me.vstart)).foldl (fun acc i =>
        let k := s.me.vstart + i
        let r := s.me.slotFor f src g env (k / 16 * 16)
        let x := ((s.me.slotVals f src f.a.toNat (k / 16 * 16) env.flushIn).getD (k % 16) (.fin false 0 0, false)).1
        acc ||| if s.me.slotOn f (k / 16 * 16) then quantFlags g x r.1 (k % 16) r.2 else 0) 0
      seed := if sr then srStep s.me.fp.seed else s.me.fp.seed } }

/-- What an instruction that moves elements into the group `o` leaves: `val` says what each body ordinal holds, none where
it keeps its element; the tail is left by TP, and the rest of the hart but the program counter and VSTART = 0 is as before. -/
structure VecMoved (s t : State) (o : Opnd) (val : Nat → Option Nat) : Prop where
  only : OnlyMe s t
  bytes : SameBytes s t
  elem : ∀ k, k < s.me.vl → t.me.getE o.reg o.w (s.me.pos k) =
    match val k with
    | some v => v % 2 ^ o.w
    | none => s.me.getE o.reg o.w (s.me.pos k)
  tail : TailLeft s.me t.me o s.me.zeroesTail
  other : ∀ r : Fin 32, ¬ (o.reg ≤ r.val ∧ r.val < o.reg + o.size s.me) → t.me.v[r] = s.me.v[r]
  rest : t.me = { s.me with
    pc := s.me.pc + 16, v := t.me.v, latch := t.me.latch, inWait := false
    vc := { s.me.vc with vstart := 0, vdirty := t.me.vc.vdirty, vhigh := t.me.vc.vhigh } }

/-- The value of a body ordinal under the predicate and MP (05 R103). -/
def Hart.maskedTo (h : Hart) (f : Fields) (k : Nat) (v : Option Nat) : Option Nat :=
  if h.enabled f k then v else if h.mp then some 0 else none

/-- What an instruction that writes the bits of mask `n` below VL leaves; at VL = 0 the mask keeps every bit. -/
structure MaskSet (s t : State) (n : Fin 8) (bit : Nat → Bool) : Prop where
  only : OnlyMe s t
  bytes : SameBytes s t
  bits : ∀ k, k < 8192 → (t.me.m[n]).bit k =
    if k < s.me.vl then bit k else if s.me.vl ≠ 0 ∧ s.me.tp = true then false else (s.me.m[n]).bit k
  bitmap : s.me.vl ≠ 0 → ∃ b, t.me.m[n] = .bitmap b
  other : ∀ j : Fin 8, j ≠ n → t.me.m[j] = s.me.m[j]
  rest : t.me = { s.me with
    pc := s.me.pc + 16, m := t.me.m, s := t.me.s, latch := t.me.latch, inWait := false
    vc := { s.me.vc with vdirty := t.me.vc.vdirty } }

/-- What a reduction leaves: result element `r` of the destination's first elements, FPFLAGS and SRSEED, the next word; no
register outside the destination's group, no other hart and no byte of memory changes (05 R126). -/
structure Reduced (s t : State) (o : Opnd) (n : Nat) (val : Nat → Nat) : Prop where
  only : OnlyMe s t
  bytes : SameBytes s t
  elem : ∀ r, r < n → t.me.getE o.reg o.w r = val r % 2 ^ o.w
  keep : ∀ p, n ≤ p → p < o.size s.me * 16384 / o.w → t.me.getE o.reg o.w p = s.me.getE o.reg o.w p
  other : ∀ r : Fin 32, ¬ (o.reg ≤ r.val ∧ r.val < o.reg + o.size s.me) → t.me.v[r] = s.me.v[r]
  rest : t.me = { s.me with
    pc := s.me.pc + 16, v := t.me.v, latch := t.me.latch, inWait := false
    vc := { s.me.vc with vdirty := t.me.vc.vdirty, vhigh := t.me.vc.vhigh }
    fp := { s.me.fp with flags := t.me.fp.flags, seed := t.me.fp.seed } }

/-- The running hart reads the `n` 8-byte words at `va` as LD does, and nothing is recorded by it; word `k` lies at `pa k`. -/
def WordsAt (s : State) (va : Word) (n : Nat) (pa : Nat → Nat) : Prop :=
  va.toNat % 8 = 0 ∧ ∀ k, k < n → ∃ e, checkAccess s s.ctx .load (va + BitVec.ofNat 64 (8 * k)) = (s, .ok (pa k) e) ∧
    (spaceOf (pa k) = .hbm ∨ spaceOf (pa k) = .cellar) ∧ leafDisc e.leaf = false ∧ leafPres e.leaf = false ∧
    s.ownedIn (pa k) 8 = false ∧ s.absentIn (pa k) 8 = false ∧ s.poisonedIn (pa k) 8 = false

/-- The words of `WordsAt` as one number. -/
def wordsAt (s : State) (n : Nat) (pa : Nat → Nat) : Nat := ofBytes ((List.range n).flatMap fun k => s.bytesFor s.cur (pa k) 8)

/-- A locator operand is legal: its upper half is zero and its offset a multiple of `al` (09 R261). -/
def LocatorOk (v : Word) (al : Nat) : Prop := v.extractLsb' 32 32 = 0 ∧ v.toNat % 2 ^ 24 % al = 0

/-- The physical address that a locator names for the running hart's cluster (09 R242). -/
def State.located (s : State) (v : Word) : Nat :=
  let l := locator s.cur.cluster v.toNat
  cellarPa l.1 l.2

/-- An image lies within its slice, and reading it waits for nothing and finds no poison (09 R247, R262). -/
def ImageReady (s : State) (v : Word) : Prop :=
  let pa := s.located v
  let n := max 1 (s.imageLines pa) * 64
  LocatorOk v 64 ∧ s.imageLines pa ≤ 2048 ∧ v.toNat % 2 ^ 24 + 64 * s.imageLines pa ≤ 2 ^ 24 ∧
    s.ownedIn pa n = false ∧ s.absentIn pa n = false ∧ s.poisonedIn pa n = false

/-- Reading runs of bytes waits for no copy and finds no poison (09 R247, 14 R367). -/
def RunsReady (s : State) (l : List (Nat × Nat)) : Prop :=
  ∀ x ∈ l, s.ownedIn x.1 x.2 = false ∧ s.absentIn x.1 x.2 = false ∧ s.poisonedIn x.1 x.2 = false

/-! ## Vector memory -/

/-- The accesses that an instruction performs: those that hold an ordinal to be performed (06 R146, R152). -/
def MemOp.touched (m : MemOp) (h : Hart) (f : Fields) : List Nat :=
  (m.units h.vstart m.vl).filter fun k0 => (m.ords k0).any (m.inS h f)

/-- Every access goes through: addresses aligned (06 R145), every check of 06 Table 6.6 passed with nothing recorded by the
translation, no copy waited for, and for a store no page marked RDUP and no held store of the hart to the same bytes; `l` says where the bytes of each access lie. -/
structure MemReady (s : State) (f : Fields) (m : MemOp) (l : Nat → List Piece) : Prop where
  started : s.me.vstart < m.vl
  aligned : ∀ k, m.active s.me f k = true → m.misaligned s.me k = false
  checked : ∀ k0 ∈ m.touched s.me f, checkRun s s.ctx m.load (m.cell s.me k0).1 m.bytes = (s, l k0)
  good : ∀ k0 ∈ m.touched s.me f, ∀ p ∈ l k0, ∃ pa n e, p = .ok pa n e ∧
    (m.load = false → leafRdup e.leaf = false ∧ s.meetsHeld s.cur pa n = false ∧
      (s.me.ptbase.getLsbD 0 = false ∨ leafD e.leaf = true))
  free : ∀ k0 ∈ m.touched s.me f, s.held m.load (l k0) = false

/-- The physical addresses of the bytes of a checked run. -/
def physOf (l : List Piece) : List Nat :=
  l.flatMap fun p => match p with | .ok pa n _ => (List.range n).map (pa + ·) | _ => []

/-- Whether a checked run has bytes of a page that reads as zero: DISC, and not WONCE (06 Table 6.6). -/
def discIn (l : List Piece) : Bool := l.any fun p => match p with | .ok _ _ e => readsZero e.leaf | _ => false

/-- The bytes that the running hart reads of a checked run: zero in such a page (06 R141). -/
def State.seen (s : State) (l : List Piece) : List Byte :=
  l.flatMap fun p => match p with
    | .ok pa n e => if readsZero e.leaf then List.replicate n 0 else s.bytesFor s.cur pa n
    | _ => []

/-- The bits a unit of a type has in its register. -/
def MTy.slot : MTy → Nat
  | .plain w => w
  | .packed w => w
  | .block _ _ n => n

/-- What a load of the form `m` leaves: every unit of its `n` registers that an access reads holds the bytes read, a unit
none of whose ordinals is active holds zero under MP on a first issue and any other keeps its value; the tail of each group is
left by TP; MF and MFR end clear after a reissue; DREAD is set by a page marked DISC; memory and every other register are as before (05 R103, 06 R141 to
R146, R153). -/
structure MemLoaded (s t : State) (f : Fields) (m : MemOp) (n : Nat) (l : Nat → List Piece) : Prop where
  only : OnlyMe s t
  bytes : SameBytes s t
  elem : ∀ i j, s.me.vstart + i * m.ty.unit < m.vl → j < m.nf →
    let k0 := s.me.vstart + i * m.ty.unit
    let p := m.pos s.me k0 / m.ty.unit
    let r := m.reg + j * s.me.g
    t.me.getE r m.ty.slot p =
      if k0 ∈ m.touched s.me f then
        ofBytes (((s.seen (l k0)).drop (j * m.ty.size)).take m.ty.size) / 2 ^ (m.cell s.me k0).2 % 2 ^ m.ty.slot
      else if !m.whole && s.me.mp && !s.me.status.mfr && !(m.ords k0).any (m.active s.me f) then 0
      else s.me.getE r m.ty.slot p
  tail : m.whole = false → ∀ j, j < m.nf → TailLeft s.me t.me ⟨m.reg + j * s.me.g, m.ty.width, false⟩ s.me.zeroesTail
  other : ∀ r : Fin 32, ¬ (m.reg ≤ r.val ∧ r.val < m.reg + n) → t.me.v[r] = s.me.v[r]
  rest : t.me = { s.me with
    pc := s.me.pc + 16, v := t.me.v, latch := t.me.latch, inWait := false
    mf := if s.me.status.mfr then 0 else s.me.mf
    status := { s.me.status with
      mfr := false, dread := s.me.status.dread || (m.touched s.me f).any fun k0 => discIn (l k0) }
    vc := { s.me.vc with vstart := 0, vdirty := t.me.vc.vdirty, vhigh := t.me.vc.vhigh } }

/-- The bits a store puts at an access: physical bit address and value. -/
def MemOp.bitsAt (m : MemOp) (h : Hart) (l : Nat → List Piece) (k0 : Nat) : List (Nat × Bool) :=
  match m.ty with
  | .packed w =>
    (physOf (l k0)).take 1 |>.flatMap fun a =>
      (List.range w).map fun i => (8 * a + (m.cell h k0).2 + i, (h.getE m.reg w (m.pos h k0)).testBit i)
  | _ =>
    ((physOf (l k0)).zip (m.data h k0)).flatMap fun x => (List.range 8).map fun i => (8 * x.1 + i, x.2.getLsbD i)

/-- What a first issue of a store of the form `m` leaves: each bit of memory is that of the last access, in ordinal order,
that writes it, or as before; no register but VSTART and the program counter changes (06 R146, R147). -/
structure MemStored (s t : State) (f : Fields) (m : MemOp) (l : Nat → List Piece) : Prop where
  bits : ∀ a b, b < 8 → (t.byte a).getLsbD b =
    match (((m.touched s.me f).flatMap (m.bitsAt s.me l)).reverse).find? fun x => x.1 == 8 * a + b with
    | some x => x.2
    | none => (s.byte a).getLsbD b
  only : OnlyMe { s with mem := t.mem, poison := t.poison } t
  rest : t.me = { s.me with pc := s.me.pc + 16, inWait := false, vc := { s.me.vc with vstart := 0 } }

/-- The accesses of `m` that pass every check, by what their checks found. -/
def MemOp.passing (m : MemOp) (h : Hart) (f : Fields) (l : Nat → List Piece) : List Nat :=
  (m.touched h f).filter fun k0 => (worst (l k0)).isNone

/-- The ordinals that fail with the access at `k0`: those to be performed, and of a segment all of them (06 R152, R163). -/
def MemOp.failOrds (m : MemOp) (h : Hart) (f : Fields) (k0 : Nat) : List Nat :=
  (m.ords k0).filter fun k => 1 < m.nf || m.inS h f k

/-- What a batch asks for beside its failing accesses: addresses aligned, nothing recorded by the translation, no copy waited for
by an access that passes; of a store, a first issue of a free hart with no store held, on pages not marked RDUP. -/
structure BatchReady (s : State) (f : Fields) (m : MemOp) (l : Nat → List Piece) : Prop where
  started : s.me.vstart < m.vl
  aligned : ∀ k, m.active s.me f k = true → m.misaligned s.me k = false
  checked : ∀ k0 ∈ m.touched s.me f, checkRun s s.ctx m.load (m.cell s.me k0).1 m.bytes = (s, l k0) ∧ nowhereOf (l k0) = none
  free : ∀ k0 ∈ m.passing s.me f l, s.held m.load (l k0) = false
  store : m.load = false → s.me.gang = none ∧ s.me.status.mfr = false ∧ s.memOk ∧ s.storeBuf = [] ∧
    ∀ k0 ∈ m.passing s.me f l, ∀ p ∈ l k0, ∃ pa n e, p = .ok pa n e ∧ leafRdup e.leaf = false ∧
      (s.me.ptbase.getLsbD 0 = false ∨ leafD e.leaf = true)

/-- What a batch leaves whose first failing ordinal is `k`, of cause `c`: the passing accesses performed and no other; the trap,
with EIDX and EADDR of that ordinal; MF naming every failing ordinal, MFR saved set, so that ERET issues those alone again, and
VSTART zero (06 R152, R153). -/
structure Batched (s t : State) (f : Fields) (m : MemOp) (l : Nat → List Piece) (k c : Nat) : Prop where
  trap : t.me.tr.cause = BitVec.ofNat 8 c ∧ t.me.tr.epc = align16 s.me.pc ∧ t.me.tr.eidx = BitVec.ofNat 64 (m.eidx k) ∧
    t.me.tr.eaddr = (m.cell s.me k).1 ∧ t.me.pc = s.me.tr.tvec
  reissue : t.me.status.pmfr = true ∧ t.me.status.mfr = false ∧ t.me.vc.vstart = 0
  marks : ∀ j, j < 8192 → t.me.mf.getLsbD j = decide (∃ k0 ∈ m.touched s.me f, (worst (l k0)).isSome = true ∧
    j ∈ m.failOrds s.me f k0)
  loaded : m.load = true → ∀ i j, s.me.vstart + i * m.ty.unit < m.vl → j < m.nf →
    let k0 := s.me.vstart + i * m.ty.unit
    let p := m.pos s.me k0 / m.ty.unit
    let r := m.reg + j * s.me.g
    t.me.getE r m.ty.slot p =
      if k0 ∈ m.passing s.me f l then
        ofBytes (((s.seen (l k0)).drop (j * m.ty.size)).take m.ty.size) / 2 ^ (m.cell s.me k0).2 % 2 ^ m.ty.slot
      else if !m.whole && s.me.mp && !s.me.status.mfr && !(m.ords k0).any (m.active s.me f) then 0
      else s.me.getE r m.ty.slot p
  stored : m.load = false → t.me.v = s.me.v ∧ ∀ a b, b < 8 → (t.byte a).getLsbD b =
    match (((m.passing s.me f l).flatMap (m.bitsAt s.me l)).reverse).find? fun x => x.1 == 8 * a + b with
    | some x => x.2
    | none => (s.byte a).getLsbD b

/-- Where the form `m` faults: at the first active ordinal with a misaligned address, before anything is done, and else in a
batch, by the accesses that fail their checks (06 R145, R152). -/
def FaultsInBatch (i : Instr) (s : State) (f : Fields) (m : MemOp) : Prop :=
  (∀ k, s.me.vstart < m.vl → ((List.range m.vl).find? fun k => m.active s.me f k && m.misaligned s.me k) = some k →
    exec i s = .next (s.trapped 0x04 (m.cell s.me k).1 (BitVec.ofNat 64 k))) ∧
  ∀ l k0 k c lv a, BatchReady s f m l →
    ((m.touched s.me f).find? fun k0 => (worst (l k0)).isSome) = some k0 → worst (l k0) = some (c, lv, a) →
    (m.failOrds s.me f k0).head? = some k → ∃ t, exec i s = .next t ∧ Batched s t f m l k c

/-! ## Accumulator tiles -/

/-- The OR of the flags of the elements of an array of `n` columns. -/
def orTile (m n : Nat) (fl : Nat → Nat → FFlags) : FFlags :=
  (List.range (m * n)).foldl (fun acc e => acc ||| fl (e / n) (e % n)) 0

/-- What an instruction leaves that writes tile `d` of the running hart's cluster: `val` says what an element holds, none where
it keeps its word; FPFLAGS takes `fl`, SRSEED its step when `m` is SR, and nothing else of the hart, of the other tiles and
of memory changes (10 R276, R280). -/
structure TileWritten (s t : State) (d : Nat) (val : Nat → Nat → Option Nat) (fl : FFlags) (m : RMode) : Prop where
  elem : ∀ i j, i < 256 → j < 256 → tileAt (t.tile d) i j =
    match val i j with
    | some v => v % 2 ^ 64
    | none => tileAt (s.tile d) i j
  other : ∀ k : Fin 8, k.val ≠ d → (t.cluster s.cur.cluster).tiles[k] = (s.cluster s.cur.cluster).tiles[k]
  device : OnlyMe { s with clusters := t.clusters } t
  clusters : ∀ c, t.cluster c = if c = s.cur.cluster then
    { s.cluster c with tiles := (t.cluster c).tiles, tileHist := (t.cluster c).tileHist } else s.cluster c
  rest : t.me = { s.me with
    pc := s.me.pc + 16, inWait := false, latch := t.me.latch
    fp := { s.me.fp with flags := s.me.fp.flags ||| fl, seed := if m = .sr then srStep s.me.fp.seed else s.me.fp.seed } }

/-- Every row of an access of class 0x7 passes its checks, with nothing recorded by its translation, no copy waited for, no
page marked DISC and no poison; a store meets no page marked RDUP and no held store of the hart (10 R279, R284). -/
def RowsReady (s : State) (load : Bool) (rows : List (Word × Nat)) (ps : List (List MPiece)) : Prop :=
  checkRows s load (rows.filter fun x => x.2 != 0) = (s, ps) ∧
    ∀ p ∈ ps.flatten, ∃ pa n e, p = .ok (.ok pa n e) ∧ (load = true → readsZero e.leaf = false) ∧ s.held load [.ok pa n e] = false ∧
      (load = false → leafRdup e.leaf = false ∧ s.meetsHeld s.cur pa n = false ∧
        (s.me.ptbase.getLsbD 0 = false ∨ leafD e.leaf = true))

/-- The physical addresses of checked rows. -/
def matPhys (ps : List MPiece) : List Nat :=
  ps.flatMap fun p => match p with | .ok (.ok pa n _) => (List.range n).map (pa + ·) | _ => []

/-- The bytes of a checked row as a number. -/
def State.rowOf (s : State) (ps : List MPiece) : Nat := ofBytes ((matPhys ps).map (s.byteFor s.cur))

/-- What stores of the bytes `l` to the addresses `a` leave in memory: each byte is the last one stored to it, or as
before. -/
def Stored (s t : State) (a : List Nat) (l : List Byte) : Prop :=
  ∀ x, t.byte x = match ((a.zip l).reverse.find? fun y => y.1 == x) with | some y => y.2 | none => s.byte x

/-! ## The lees stack and reversible forms -/

/-- A byte of the stack that the window holds (11 R291). -/
def Hart.winByte (h : Hart) (va : Nat) : Option Byte :=
  (h.heldBlock ((va - h.leesBase) / 2048)).map fun x => BitVec.ofNat 8 (getBits x.data (8 * ((va - h.leesBase) % 2048)) 8)

/-- The window holds the bytes `l` of the stack at `va`. -/
def Hart.winHas (h : Hart) (va : Nat) (l : List Byte) : Prop :=
  h.leesBase ≤ va ∧ ∀ i, i < l.length → h.winByte (va + i) = some (l.getD i 0)

/-- A push of up to `n` bytes neither passes LEESLIM nor moves a block: the blocks it writes are new or held, and they fit
the window (11 R291). -/
structure LeesRoom (h : Hart) (n : Nat) : Prop where
  base : h.leesBase ≤ h.leesSp
  lim : h.leesSp + n ≤ h.leesLim
  low : ∀ x ∈ h.lees.held, x.blk ≤ (h.leesSp - h.leesBase) / 2048
  top : (h.leesSp - h.leesBase) % 2048 = 0 ∨ (h.heldBlock ((h.leesSp - h.leesBase) / 2048)).isSome = true
  fits : h.lees.held.length + n / 2048 + 2 ≤ 16

/-- The elements of a reversible form in turn: the hart, the flags and the records. -/
def RvForm.runAll (r : RvForm) (h : Hart) (n : Nat) : Hart × FFlags × List (Option Nat) :=
  (List.range n).foldl (fun a k =>
    let x := r.step h a.1 k
    (x.1.1, a.2.1 ||| x.1.2, a.2.2 ++ [x.2])) (h, 0, [])

/-- The payload of the records: a chunk for each element group (11 R294). -/
def RvForm.payload (r : RvForm) (recs : List (Option Nat)) : List Byte :=
  (List.range ((recs.length + r.epg - 1) / r.epg)).flatMap fun g => r.chunk ((recs.drop (g * r.epg)).take r.epg)

/-- The complete frame of the records of `vl` elements (11 R293 to R295). -/
def RvForm.frame (r : RvForm) (vl : Nat) (recs : List (Option Nat)) : List Byte :=
  let l := r.payload recs
  let n := frameLen l.length
  let word := toBytes 8 (r.id.word vl 1 n)
  word ++ l ++ List.replicate (64 * n - 16 - l.length) 0 ++ word

/-- What a forward form leaves: every element and its record in turn, the complete frame on top of the stack, FPFLAGS, SRSEED
and VSTART; memory and the rest of the hart as before (11 R303). -/
structure RvForward (s t : State) (r : RvForm) : Prop where
  only : OnlyMe { s with freeCtr := t.freeCtr } t
  bytes : SameBytes s t
  regs : t.me.v = (r.runAll s.me s.me.vl).1.v
  frame : t.me.winHas s.me.leesSp (r.frame s.me.vl (r.runAll s.me s.me.vl).2.2)
  top : t.me.leesSp = s.me.leesSp + (r.frame s.me.vl (r.runAll s.me s.me.vl).2.2).length
  rest : t.me = { s.me with
    pc := s.me.pc + 16, v := t.me.v, latch := t.me.latch, inWait := false
    lees := { s.me.lees with sp := t.me.lees.sp, win := t.me.lees.win, held := t.me.lees.held }
    vc := { s.me.vc with vstart := 0, vdirty := t.me.vc.vdirty, vhigh := t.me.vc.vhigh }
    fp := { s.me.fp with
      flags := s.me.fp.flags ||| (r.runAll s.me s.me.vl).2.1
      seed := if r.mode = some .sr then srStep s.me.fp.seed else s.me.fp.seed } }

/-- A forward form from VSTART = 0 with room in the window for its frame completes: each element of the body is what `g` gives,
whose flags FPFLAGS gathers; the tail of D and every other register stay (11 R297, R299). -/
def LeavesElements (s : State) (i : Instr) (r : RvForm) (g : Nat → Nat × FFlags) : Prop :=
  r.ok s.me = true → LeesRoom s.me (64 * frameLen (r.payloadMax s.me.vl)) → frameLen (r.payloadMax s.me.vl) < 65536 →
  ∃ t, exec i s = .next t ∧
    (∀ k, k < s.me.vl → t.me.getE r.d.reg r.d.w (s.me.pos k) = (g k).1 % 2 ^ r.d.w) ∧ TailLeft s.me t.me r.d false ∧
    (∀ n : Fin 32, ¬ (r.d.reg ≤ n.val ∧ n.val < r.d.reg + r.d.size s.me) → t.me.v[n] = s.me.v[n]) ∧
    t.me.fp.flags = s.me.fp.flags ||| (List.range s.me.vl).foldl (fun acc k => acc ||| (g k).2) 0

/-- A record of the form's type. -/
def RvForm.recOk (r : RvForm) (v : Option Nat) : Prop :=
  match r.rt, v with
  | .fixed b, some x => x < 2 ^ b
  | .fixed _, none => False
  | .relu w, some x => x < 2 ^ w
  | .relu _, none => True

/-- What an undo form leaves that finds the frame of `recs` on top of the stack: every element of A whose ordinal has a record
takes what the record gives back, any other that of D, the frame is popped, and no flag, no seed, no memory and no other register changes (11 R304). -/
structure RvUndone (s t : State) (r : RvForm) (recs : List (Option Nat)) : Prop where
  only : OnlyMe s t
  bytes : SameBytes s t
  elem : ∀ k, k < s.me.vl → t.me.getE r.a.reg r.w (s.me.pos k) =
    match recs.getD k none with
    | some v => r.back s.me k v % 2 ^ r.w
    | none => s.me.getE r.d.reg r.w (s.me.pos k)
  tail : TailLeft s.me t.me r.a false
  other : ∀ n : Fin 32, ¬ (r.a.reg ≤ n.val ∧ n.val < r.a.reg + r.a.size s.me) → t.me.v[n] = s.me.v[n]
  top : t.me.leesSp + (r.frame s.me.vl recs).length = s.me.leesSp
  rest : t.me = { s.me with
    pc := s.me.pc + 16, v := t.me.v, latch := t.me.latch, inWait := false
    lees := { s.me.lees with sp := t.me.lees.sp, win := t.me.lees.win, held := t.me.lees.held }
    vc := { s.me.vc with vdirty := t.me.vc.vdirty, vhigh := t.me.vc.vhigh } }

/-! ## Key-index heads -/

/-- The address lies in region `r` of a head: 0 the key area, 1 the pool, 2 + l table l (12 Table 12.1). -/
def KIn (h : KHead) (r va : Nat) : Prop := ∃ q, h.desc.regions[r]? = some q ∧ q.1 ≤ va ∧ va < q.1 + q.2

/-- The cluster's key-index unit accepts an instruction of the running hart: none of another hart has it in this cycle (12
R311). -/
def UnitFree (s : State) : Prop := (s.cluster s.cur.cluster).keyUnit.any (· != s.cur) = false

/-- The state in which the unit has accepted the running hart's instruction. -/
def State.keyTaken (s : State) : State := s.modCluster s.cur.cluster fun c => { c with keyUnit := some s.cur }

/-- Head `n` of the running hart's die is valid and its regions lie apart in HBM or Cellar, each line in one piece; no copy, no
poison and no held store is about, and VSTART is zero (12 R311, R320, R327). -/
structure KeyReady (s : State) (n : Nat) (h : KHead) : Prop where
  start : s.me.vstart = 0
  unit : UnitFree s
  head : n < 256 ∧ s.kHead s.cur.die n = h ∧ h.valid = true
  quiet : s.owned = [] ∧ s.absent = [] ∧ s.poison = [] ∧ s.storeBuf = []
  memory : s.memOk
  shape : h.desc.l ≤ 4 ∧ h.desc.kpitch % 64 = 0 ∧ 2 * h.desc.dh ≤ h.desc.kpitch ∧ ∀ q ∈ h.desc.regions, q.1 % 64 = 0
  count : h.desc.tbase.length = h.desc.l
  space : ∀ r va, KIn h r va → spaceOf (h.pa r va) = .hbm ∨ spaceOf (h.pa r va) = .cellar
  lines : ∀ r va i, KIn h r va → va % 64 + i < 64 → h.pa r (va + i) = h.pa r va + i
  apart : ∀ r va r' va', KIn h r va → KIn h r' va' → h.pa r va = h.pa r' va' → r = r' ∧ va = va'

/-- A number of `n` bytes in a region of a head. -/
def State.keyNum (s : State) (h : KHead) (r va n : Nat) : Nat := ofBytes (s.bytes (h.pa r va) n)

/-- The tables of a head are reset under their projections (12 R318). -/
def TablesFresh (s : State) (h : KHead) : Prop :=
  ∀ l, l < h.desc.l → h.stale[Fin.ofNat 4 l] = false ∧ s.keyNum h (2 + l) (h.desc.table l) 8 % 65536 = (h.ver l).toNat

/-- A bucket as an instruction reads it (12 R318). -/
def State.bucket (s : State) (h : KHead) (l sg : Nat) : Bucket :=
  Bucket.ofWord (s.keyNum h (2 + l) (h.desc.entryVa l sg) 8) (h.ver l)

/-- The block of the pool. -/
def State.poolBlock (s : State) (h : KHead) (b : Nat) : Nat := s.keyNum h 1 (h.desc.blockVa b) 64

/-- The blocks of a chain from block `b` on, `m` of them at most; none where it is broken or longer (12 R316). -/
def State.chain (s : State) (h : KHead) : Nat → Nat → Option (List Nat)
  | m, b =>
    if b = 0 then some []
    else if h.desc.pblk ≤ b then none
    else
      match m with
      | 0 => none
      | m + 1 => (State.chain s h m (nextOf (s.poolBlock h b))).map (b :: ·)

/-! ## Gangs -/

/-- The claims of a task whose leader gives up the classes of `m` in slot `slot` (08 R226). -/
def Task.cutClasses (t : Task) (m : Word) (slot : Nat) : List Claim :=
  t.claims.flatMap fun c => if m.getLsbD c.cls then t.yielded slot c else [c]

/-! ## Safe runs -/

/-- A step that stops the machine. -/
def Stops (s : State) : Prop := ∀ t, step s ≠ .next t

/-- A run of `n` steps that stops nowhere and keeps memory canonical. -/
def SafeRun : Nat → State → Prop
  | 0, s => s.memOk
  | n + 1, s => s.memOk ∧ ∃ t, step s = .next t ∧ SafeRun n t

end Sys2Proof.Machine
end

