-- ==== Sys2Proof/Certificates/Slice0/Obligations.lean ====
section
/-!
DEFINITION. The statements of this model, each a closed proposition about the machine that Machine/ defines, for the provers.
-/

open Sys2Proof Sys2Proof.Machine

/-! ## Encoding and decoding (02 R17, R33 to R35) -/

/-- The decoder reads every well-formed instruction back from its word: no field of an encoding is dropped (02 Table 2.1). -/
def Obligations.EncodeThenDecode : Prop :=
  ∀ (i : Instr) (w : IWord), i.wf = true → encode i = some w → decode w = .ok i

/-- Whatever the decoder accepts is well formed, and the word it came from is that instruction's only word. -/
def Obligations.DecodeThenEncode : Prop :=
  ∀ (w : IWord) (i : Instr), decode w = .ok i → i.wf = true ∧ encode i = some w

/-- Words written out from the encoding tables decode to the instructions they stand for (the LOOP is the one of the
example of 04), and one word of each kind that Table 2.7 refuses is refused by its name. -/
def Obligations.SampleWordsDecode : Prop :=
  decode 0x00000000FFFFFFC00000000000002108 = .ok (.loop { Fields.zero with d := 2, imm := 0xFFFFFFC0 }) ∧
  decode 0x00000000000000050000010000041000 = .ok (.add { Fields.zero with d := 1, a := 2, mod := 1, imm := 5 }) ∧
  decode 0x00000000000000080000006000083018 = .ok (.ld { Fields.zero with d := 3, a := 4, w := 6, imm := 8 }) ∧
  decode 0x00000000000000000000005B06208302 =
    .ok (.vfmul { Fields.zero with d := 8, a := 16, b := 24, p := 11, w := 5 }) ∧
  decode 0x00000000000000000000006001CC5D03 = .ok (.amo { Fields.zero with d := 5, a := 6, b := 7, w := 6 }) ∧
  decode 0x00000000000000000000000000000F01 = .ok (.eret Fields.zero) ∧
  decode 0x000000000000000000000000000001FF = .error .unassigned ∧
  decode 0x0001000000000000000000000000010A = .error .reservedBits ∧
  decode 0x0000001800000000000000000000010A = .error .rank ∧
  decode 0x0000000000000000000000000000110A = .error .unusedField ∧
  decode 0x00000000000000050000010000C41000 = .error .unusedField ∧
  decode 0x00000000000000000000180000C4100F = .error .badOperand

/-- The assigned class and op pairs are exactly those of 02 Table 2.8, given as the number of ops of each class from op 0
up, with the lees-control ops 0x40 to 0x44 of class 0x8 beside them; every other pair is refused as unassigned, which is
cause 0x01, whatever else its word holds. -/
def Obligations.AssignedPairs : Prop :=
  ∀ w : IWord,
    let cls := (opcOf w).toNat / 256
    let op := (opcOf w).toNat % 256
    let listed := op < [32, 12, 26, 18, 27, 17, 17, 13, 9, 9, 8, 10, 10, 15, 9, 13].getD cls 0 ∨
      (cls = 8 ∧ 0x40 ≤ op ∧ op ≤ 0x44)
    (listed → decode w ≠ .error .unassigned) ∧
    (¬ listed → decode w = .error .unassigned) ∧
    (listed → w.extractLsb' 112 16 ≠ 0 → decode w = .error .reservedBits) ∧
    DecodeError.unassigned.cause = 0x01 ∧ DecodeError.reservedBits.cause = 0x02

/-! ## Steps -/

/-- A step runs the decoded instruction: where hart `cur` may issue, no asynchronous cause is to be taken, its word decodes
to `i` and no hold keeps it back, `step` is `exec i` at the state the fetch leaves, with the hart running and its latch
loaded, and then the counter entry that the word's CE asks for. Under STATUS.AUDIT an instruction that a hazard or an HL hold
has kept back, and that waits for no hazard now, traps in its place with cause 0x1D: EPC at it, EADDR its record, whose fields
from latencies are free (the model's choice, logs 4 and 7). -/
def Obligations.StepRunsTheDecodedInstruction : Prop :=
  ∀ (s s' : State) (w : IWord) (i : Instr),
    s.agenda = [] → s.me.run ≠ .stopped → s.me.run ≠ .suspended → s.nextAsync s.cur = none → s.parked s.cur = false →
    fetch s s.cur = (s', .word w) → decode w = .ok i → (s'.hart s.cur).holds (hintsOfInstr i) = none →
    let x := s'.hart s.cur
    let n := hintsOfInstr i
    let out : Out := match exec i (s'.prepare s.cur i) with
      | .next t => .next ((s'.prepare s.cur i).addEntry t s.cur n)
      | .fault x => .fault x
      | .refused x => .refused x
    (x.misHinted = false ∨ out.waitsFor s.cur .hazard = true → step s = out) ∧
    (x.misHinted = true → out.waitsFor s.cur .hazard = false →
      ∃ t, step s = .next t ∧ (t.hart s.cur).tr.cause = 0x1D ∧ (t.hart s.cur).tr.epc = align16 x.pc ∧
        (t.hart s.cur).tr.eidx = 0 ∧ (t.hart s.cur).pc = x.tr.tvec ∧ (t.hart s.cur).s = x.s ∧
        let r := (t.hart s.cur).tr.eaddr
        wbits r 2 0 = n.gap.toNat ∧ wbits r 7 6 = n.hk.toNat ∧ wbits r 10 8 = n.hl.toNat ∧
        wbits r 23 16 = min 255 (if x.mis.held = 0 then x.mis.hlHeld else x.mis.held) ∧
        r.getLsbD 24 = (x.mis.held == 0))

/-- At system level with translation off, the word fetched is the 16 bytes at the program counter, lowest address first,
and the fetch changes nothing. -/
def Clauses.UntranslatedFetchReadsSixteenBytes : Prop :=
  ∀ (s : State) (h : HartId),
    let x := s.hart h
    x.status.sys = true → x.ptbase.getLsbD 0 = false → x.pc.toNat < cellarBase → s.poisoned x.pc.toNat = false →
    fetch s h = (s, .word (wordOfBytes (s.bytesFor h x.pc.toNat 16)))

/-- A word that the decoder refuses traps with its cause, EPC at the word and EADDR the word's bits [63:0], EIDX 0, and
the vector state, VSTART with it, and the scalar registers are unchanged. -/
def Obligations.RefusedWordTraps : Prop :=
  ∀ (s s' : State) (w : IWord) (e : DecodeError),
    s.agenda = [] → s.me.run ≠ .stopped → s.me.run ≠ .suspended → s.nextAsync s.cur = none → s.parked s.cur = false →
    fetch s s.cur = (s', .word w) → decode w = .error e →
    ∃ t, step s = .next t ∧
      (t.hart s.cur).tr.cause = BitVec.ofNat 8 e.cause ∧ (t.hart s.cur).tr.epc = align16 (s'.hart s.cur).pc ∧
      (t.hart s.cur).tr.eaddr = w.setWidth 64 ∧ (t.hart s.cur).tr.eidx = 0 ∧
      (t.hart s.cur).pc = (s'.hart s.cur).tr.tvec ∧ (t.hart s.cur).vc = (s'.hart s.cur).vc ∧
      (t.hart s.cur).s = (s'.hart s.cur).s ∧ (t.hart s.cur).v = (s'.hart s.cur).v

/-- The agenda's head moves first: another agent's step is its row of the table, and a turn of a hart is that hart's. -/
def Clauses.AgendaHeadMovesFirst : Prop :=
  ∀ (s : State) (rest : List Turn),
    (∀ e : Event, s.agenda = .event e :: rest → step s = exec e.instr { s with agenda := rest }) ∧
    (∀ h : HartId, s.agenda = .hart h :: rest → step s = hartStep { s with agenda := rest, cur := h } h) ∧
    (s.agenda = .tick :: rest → step s = .next (tick { s with agenda := rest }))

/-- Fetching and taking turns. -/
def Obligations.FetchAndTurnOrder : Prop :=
  Clauses.UntranslatedFetchReadsSixteenBytes ∧ Clauses.AgendaHeadMovesFirst

/-! ## Memory, reset -/

/-- Reset memory is canonical. -/
def Obligations.ResetMemoryIsCanonical : Prop := State.reset.memOk

/-- The canonical form of memory is an invariant of the machine: every step that goes on keeps it, whatever moves. -/
def Obligations.EveryStepKeepsMemoryCanonical : Prop :=
  ∀ s t : State, s.memOk → step s = .next t → t.memOk

/-- Read after write: after bytes are written at `pa`, an address inside reads the byte written and every other address
reads as before. -/
def Clauses.ReadAfterWrite : Prop :=
  ∀ (s : State) (pa : Nat) (l : List Byte) (a : Nat), s.memOk →
    (s.setBytes pa l).byte a = if pa ≤ a ∧ a < pa + l.length then l.getD (a - pa) 0 else s.byte a

/-- A whole line written in one access loses its poison, and a partial write of a line leaves it. -/
def Clauses.WholeLineWriteClearsPoison : Prop :=
  ∀ (s : State) (pa : Nat) (l : List Byte) (a : Nat), SMap.wf false s.poison = true →
    (s.setBytes pa l).poisoned a =
      (s.poisoned a && !(decide (pa ≤ a / 64 * 64) && decide (a / 64 * 64 + 64 ≤ pa + l.length)))

/-- What a write of memory leaves: its bytes, and the poison of its lines. -/
def Obligations.MemoryWriteLaws : Prop :=
  Clauses.ReadAfterWrite ∧ Clauses.WholeLineWriteClearsPoison

/-- What reset leaves (14 Table 14.1, Table 14.3, R368; that the TLBs are empty is the model's choice, log 8): every hart stopped at system level with the
other bits of STATUS clear; every valid bit of a vector or mask register set; no gang, no pending cause; KLIMIT is 8192;
TLBs, wait tables and the projection store empty; the clock at zero. -/
def Obligations.ResetState : Prop :=
  (∀ h : HartId,
    let x := State.reset.hart h
    x.run = .stopped ∧ x.status = ⟨true, false, false, false, false, false, false, false, false⟩ ∧
    x.vc.vvalid = BitVec.allOnes 41 ∧ x.vc.vdirty = 0 ∧ x.vc.vstart = 0 ∧ x.vc.vsaveptr = 0 ∧ x.tr = ⟨0, 0, 0, 0, 0, 0⟩ ∧
    x.gang = none ∧ x.pend = [] ∧ x.evpend = 0 ∧ x.hipend = 0 ∧ x.klimit = 8192 ∧ x.ptbase = 0 ∧ x.asid = 0 ∧
    x.tags.bits = 0 ∧ x.tags.busy = 0) ∧
  (∀ d : DieId, (State.reset.die d).tlb = [] ∧ (State.reset.die d).waits = [] ∧ (State.reset.die d).proj = []) ∧
  State.reset.cycle = 0 ∧ State.reset.present = [] ∧ State.reset.storeBuf = []

/-! ## Traps and levels (14 R351, R356 to R358) -/

/-- Trap entry: what is saved, what STATUS becomes, where the hart goes on. Its held stores are performed first, with those that
are older and share a byte (the model's choice, logs 6 and 17), which frees only counter entries of their harts; its tiles
have completed every update; no other register and no other byte of memory changes. -/
def Obligations.TrapEntry : Prop :=
  ∀ (s : State) (h : HartId) (cause : Nat) (resume eidx eaddr : Word),
    let old := s.hart h
    let t := takeTrap s h cause resume eidx eaddr
    let new := t.hart h
    new.tr.cause = BitVec.ofNat 8 cause ∧ new.tr.epc = align16 resume ∧ new.tr.eidx = eidx ∧ new.tr.eaddr = eaddr ∧
    new.tr.tvec = old.tr.tvec ∧ new.tr.escratch = old.tr.escratch ∧ new.pc = old.tr.tvec ∧
    new.status = { old.status with
      psys := old.status.sys, sys := true, pie := old.status.ie, ie := false, pmfr := old.status.mfr, mfr := false,
      audit := false } ∧
    new.retStack = [] ∧ new.latch = none ∧ (∀ k, k < 4 → new.cc[k]? = some []) ∧
    new = { old with
      tr := new.tr, pc := new.pc, status := new.status, retStack := [], latch := none, cc := new.cc, run := .running,
      atHandler := true, inWait := false, mis := MisHint.none } ∧
    (∀ x ∈ s.storeBuf, x.hart = h → x ∈ neededFor h s.storeBuf) ∧
    t = { s with
      harts := t.harts, mem := t.mem, poison := t.poison, clusters := t.clusters
      storeBuf := s.storeBuf.filter fun x => !(neededFor h s.storeBuf).contains x } ∧
    (∀ c, t.cluster c = if c = h.cluster then (s.cluster c).drainTiles (fun k => old.mxcfg.getLsbD (8 + k)) else s.cluster c) ∧
    (∀ k, k ≠ h → t.hart k = { s.hart k with cc := (t.hart k).cc } ∧
      ((∀ x ∈ neededFor h s.storeBuf, x.hart ≠ k) → t.hart k = s.hart k)) ∧
    (s.memOk → ∀ a, (∀ x ∈ neededFor h s.storeBuf, x.meets a 1 = false) → t.byte a = s.byte a)

/-- ERET at system level, unless the hart is a member of a suspended gang: it goes on at EPC with the saved level, interrupt enable and MFR,
every completion counter empty, and nothing else of the device or of its registers changes. At task level it raises
Privilege and returns nowhere. -/
def Obligations.EretReturns : Prop :=
  ∀ (f : Fields) (s : State),
    (∀ d n x, s.me.gang = some (d, n) → s.task d n = some x → x.st ≠ .suspended) →
    (s.me.status.sys = true →
      ∃ t, exec (.eret f) s = .next t ∧ OnlyMe s t ∧ SameBytes s t ∧ t.me.pc = s.me.tr.epc ∧
        t.me.status = { s.me.status with sys := s.me.status.psys, ie := s.me.status.pie, mfr := s.me.status.pmfr } ∧
        (∀ k, k < 4 → t.me.cc[k]? = some []) ∧
        t.me = { s.me with pc := t.me.pc, status := t.me.status, cc := t.me.cc, inWait := t.me.inWait }) ∧
    (s.me.status.sys = false → exec (.eret f) s = .next (s.trapped 0x03 0 0))

/-! ## Class 0x0: integer arithmetic, bit fields, constants, residues (04 R74 to R81) -/

/-- Sums, products, quotients and remainders of class 0x0: each instruction goes on with the next word, s[D] holding the
stated value, and nothing else changes. -/
def Clauses.IntegerArithmeticResults : Prop :=
  ∀ (f : Fields) (s : State),
    let a := s.rs f.a
    let b := if f.modBit 40 then f.imm.signExtend 64 else s.rs f.b
    let c := s.rs f.c
    let u := f.modBit 42
    let gives (i : Instr) (v : Word) : Prop := exec i s = .next (s.ws f.d v).proceed
    gives (.add f) (a + b) ∧ gives (.sub f) (a - b) ∧ gives (.mul f) (a * b) ∧ gives (.muladd f) (a * b + c) ∧
    (f.modField 43 42 = 0 → gives (.mulh f) ((a.signExtend 128 * b.signExtend 128).extractLsb' 64 64)) ∧
    (f.modField 43 42 = 1 → gives (.mulh f) ((a.setWidth 128 * b.setWidth 128).extractLsb' 64 64)) ∧
    (f.modField 43 42 = 2 → gives (.mulh f) ((a.signExtend 128 * b.setWidth 128).extractLsb' 64 64)) ∧
    gives (.div f) (if b = 0 then BitVec.allOnes 64 else if u then a / b else a.sdiv b) ∧
    gives (.rem f) (if b = 0 then a else if u then a % b else a.srem b)

/-- Logic, shifts and rotations of class 0x0: a shift amount is the whole unsigned operand, a rotation's is taken modulo
64. -/
def Clauses.LogicAndShiftResults : Prop :=
  ∀ (f : Fields) (s : State),
    let a := s.rs f.a
    let b := if f.modBit 40 then f.imm.signExtend 64 else s.rs f.b
    let gives (i : Instr) (v : Word) : Prop := exec i s = .next (s.ws f.d v).proceed
    gives (.and f) (a &&& b) ∧ gives (.or f) (a ||| b) ∧ gives (.xor f) (a ^^^ b) ∧ gives (.andn f) (a &&& ~~~b) ∧
    gives (.shl f) (if 64 ≤ b.toNat then 0 else a <<< b.toNat) ∧
    gives (.shr f) (if f.modBit 42 then a.sshiftRight b.toNat else if 64 ≤ b.toNat then 0 else a >>> b.toNat) ∧
    gives (.rot f) (if f.modBit 42 then a.rotateRight (b.toNat % 64) else a.rotateLeft (b.toNat % 64))

/-- Comparisons and selections of class 0x0, with num(x) the unsigned value when U = 1 and the signed one otherwise. -/
def Clauses.CompareAndSelectResults : Prop :=
  ∀ (f : Fields) (s : State),
    let a := s.rs f.a
    let b := if f.modBit 40 then f.imm.signExtend 64 else s.rs f.b
    let c := s.rs f.c
    let num (x : Word) : Int := if f.modBit 42 then (x.toNat : Int) else x.toInt
    let t := if num b ≤ num a then a else b
    let gives (i : Instr) (v : Word) : Prop := exec i s = .next (s.ws f.d v).proceed
    gives (.min f) (if num a ≤ num b then a else b) ∧ gives (.max f) t ∧
    gives (.clamp f) (if num t ≤ num c then t else c) ∧ gives (.sel f) (if c ≠ 0 then a else b) ∧
    (f.modField 44 42 = 0 → gives (.cmp f) (if a = b then 1 else 0)) ∧
    (f.modField 44 42 = 1 → gives (.cmp f) (if a ≠ b then 1 else 0)) ∧
    (f.modField 44 42 = 2 → gives (.cmp f) (if a.toInt < b.toInt then 1 else 0)) ∧
    (f.modField 44 42 = 3 → gives (.cmp f) (if b.toInt ≤ a.toInt then 1 else 0)) ∧
    (f.modField 44 42 = 4 → gives (.cmp f) (if a.toNat < b.toNat then 1 else 0)) ∧
    (f.modField 44 42 = 5 → gives (.cmp f) (if b.toNat ≤ a.toNat then 1 else 0))

/-- Counts, bit fields and reversal of class 0x0, bit by bit (04 Table 4.5), for the field positions and lengths the
encodings admit. -/
def Clauses.BitFieldResults : Prop :=
  ∀ (f : Fields) (s : State),
    let a := s.rs f.a
    let pos := f.imm.toNat % 64
    let len := f.imm.toNat / 256 % 128
    let gives (i : Instr) (p : Word → Prop) : Prop := ∃ v, exec i s = .next (s.ws f.d v).proceed ∧ p v
    gives (.clz f) (fun v => v.toNat ≤ 64 ∧ (∀ k, k < 64 → 64 ≤ k + v.toNat → a.getLsbD k = false) ∧
      (v.toNat < 64 → a.getLsbD (63 - v.toNat) = true)) ∧
    gives (.ctz f) (fun v => v.toNat ≤ 64 ∧ (∀ k, k < v.toNat → a.getLsbD k = false) ∧
      (v.toNat < 64 → a.getLsbD v.toNat = true)) ∧
    gives (.popc f) (fun v => v.toNat = ((List.range 64).filter fun k => a.getLsbD k).length) ∧
    (1 ≤ len → len ≤ 64 → pos + len ≤ 64 →
      gives (.bfx f) (fun v => ∀ k, k < 64 → v.getLsbD k =
        if k < len then a.getLsbD (pos + k) else f.modBit 42 && a.getLsbD (pos + len - 1)) ∧
      gives (.bfi f) (fun v => ∀ k, k < 64 → v.getLsbD k =
        if pos ≤ k ∧ k < pos + len then a.getLsbD (k - pos) else (s.rs f.d).getLsbD k)) ∧
    (1 ≤ f.imm.toNat → f.imm.toNat ≤ 64 →
      gives (.brev f) (fun v => ∀ k, k < 64 → v.getLsbD k =
        (decide (k < f.imm.toNat) && a.getLsbD (f.imm.toNat - 1 - k)))) ∧
    (1 ≤ f.w.toNat → f.w.toNat ≤ 5 →
      gives (.ext f) (fun v => ∀ k, k < 64 → v.getLsbD k =
        if k < 2 ^ f.w.toNat then a.getLsbD k else !f.modBit 42 && a.getLsbD (2 ^ f.w.toNat - 1)))

/-- LI in its three forms, and LEA in both. -/
def Clauses.ConstantAndAddressResults : Prop :=
  ∀ (f : Fields) (s : State),
    let gives (i : Instr) (v : Word) : Prop := exec i s = .next (s.ws f.d v).proceed
    (f.modField 43 42 = 0 → gives (.li f) (f.imm.signExtend 64)) ∧
    (f.modField 43 42 = 1 → gives (.li f) (f.imm.setWidth 64)) ∧
    (f.modField 43 42 = 2 → gives (.li f) (f.imm ++ (s.rs f.d).setWidth 32)) ∧
    gives (.lea f) (s.rs f.a + (s.rs f.b <<< f.modField 44 42) + f.imm.signExtend 64) ∧
    gives (.leaPc f) (s.me.pc + f.imm.signExtend 64)

/-- MODMUL and MODADD with the modulus of each form: the canonical residue, or cause 0x01 with nothing written when the
modulus is below 2 or not below 2^31. -/
def Clauses.ResidueResults : Prop :=
  ∀ (f : Fields) (s : State),
    let m := if f.modField 43 42 = 0 then s.me.modp.toNat else if f.modField 43 42 = 1 then s.me.modq.toNat
      else (s.rs f.c).toNat
    let x := (s.rs f.a).toNat % m
    let y := (if f.modBit 40 then (f.imm.signExtend 64 : Word) else s.rs f.b).toNat % m
    let gives (i : Instr) (v : Nat) : Prop := v < m ∧ exec i s = .next (s.ws f.d (BitVec.ofNat 64 v)).proceed
    (2 ≤ m → m < 2 ^ 31 →
      gives (.modmul f) (x * y % m) ∧ gives (.modadd f) (if f.modBit 44 then (x + m - y) % m else (x + y) % m)) ∧
    (m < 2 ∨ 2 ^ 31 ≤ m →
      exec (.modmul f) s = .next (s.trapped 0x01 ((packWord 0x01E f).setWidth 64) 0) ∧
      exec (.modadd f) s = .next (s.trapped 0x01 ((packWord 0x01F f).setWidth 64) 0))

/-- Every computing form of class 0x0 completes with its result. -/
def Obligations.ScalarComputationResults : Prop :=
  Clauses.IntegerArithmeticResults ∧
    Clauses.LogicAndShiftResults ∧
    Clauses.CompareAndSelectResults ∧
    Clauses.BitFieldResults ∧
    Clauses.ConstantAndAddressResults ∧
    Clauses.ResidueResults

/-- s0 reads as zero and discards what is written to it; any other scalar register reads back what was last written, and a
write touches no other. -/
def Clauses.ScalarRegisterFile : Prop :=
  ∀ (h : Hart) (n k : BitVec 5) (v : Word),
    h.rs 0 = 0 ∧ (h.ws 0 v).rs k = h.rs k ∧ (n ≠ 0 → (h.ws n v).rs n = v) ∧ (k ≠ n → (h.ws n v).rs k = h.rs k)

/-- The frame of every class 0x0 instruction that makes no access: whatever it answers, if the machine goes on by the
instruction's own result, only s[D] and the program counter of the running hart have changed. -/
def Clauses.ScalarFrames : Prop :=
  ∀ i ∈ [Instr.add, .sub, .mul, .mulh, .div, .rem, .and, .or, .xor, .andn, .shl, .shr, .rot, .min, .max, .cmp, .sel,
      .clz, .ctz, .popc, .bfx, .bfi, .li, .lea, .leaPc, .ext, .muladd, .clamp, .brev],
    ∀ (f : Fields) (s t : State), exec (i f) s = .next t →
      ScalarFrame [f.d] s t ∧ t.me.pc = s.me.pc + 16

/-- The scalar registers, and the frame of every form that writes only them. -/
def Obligations.ScalarRegistersAndFrames : Prop :=
  Clauses.ScalarRegisterFile ∧ Clauses.ScalarFrames

/-! ## Loads and stores (04 R82, R83) -/

/-- LD of an aligned word of 1, 2, 4 or 8 bytes in HBM or Cellar that the page lets it read: s[D] is the bytes as the hart
sees them, lowest address first, sign- or zero-extended; a page marked DISC reads zero and sets the sticky bit; nothing
else changes but what the translation records. -/
def Clauses.LoadResult : Prop :=
  ∀ (f : Fields) (s s' : State) (pa : Nat) (e : TlbEntry),
    let va := s.rs f.a + f.imm.signExtend 64
    let w := 2 ^ (f.w.toNat - 3)
    3 ≤ f.w.toNat → f.w.toNat ≤ 6 → va.toNat % w = 0 → checkAccess s s.ctx .load va = (s', .ok pa e) →
    spaceOf pa = .hbm ∨ spaceOf pa = .cellar →
    (leafDisc e.leaf = true →
      exec (.ld f) s =
        .next ((s'.modMe fun h => { h with status := { h.status with dread := true } }).ws f.d 0).proceed) ∧
    (leafDisc e.leaf = false → (leafPres e.leaf = true → s'.full pa = true) → s'.ownedIn pa w = false →
      s'.absentIn pa w = false → s'.poisonedIn pa w = false →
      ∃ v : Word, exec (.ld f) s = .next (s'.ws f.d v).proceed ∧
        (∀ k, k < w → v.extractLsb' (8 * k) 8 = s'.byteFor s.cur (pa + k)) ∧
        (∀ k, 8 * w ≤ k → k < 64 → v.getLsbD k = (!f.modBit 42 && v.getLsbD (8 * w - 1))))

/-- ST of an aligned word in HBM or Cellar, no copy owning its line: on an ordinary page the low bytes of s[B] stand at the
address, every other byte reads as before, and no register but the program counter changes; on an RDUP page, and behind a held
store to some of the same bytes that the hart has made or acknowledged, they stand in the store buffer (the model's choice, log
6); an empty presence-tagged word is filled,
and an unwritten WONCE word written and marked. -/
def Clauses.StoreResult : Prop :=
  ∀ (f : Fields) (s s' : State) (pa : Nat) (e : TlbEntry),
    let va := s.rs f.a + f.imm.signExtend 64
    let w := 2 ^ (f.w.toNat - 3)
    let d := s'.markDirty s'.ctx e
    let l := toBytes w ((s.rs f.b).toNat % 2 ^ (8 * w))
    3 ≤ f.w.toNat → f.w.toNat ≤ 6 → va.toNat % w = 0 → checkAccess s s.ctx .store va = (s', .ok pa e) →
    spaceOf pa = .hbm ∨ spaceOf pa = .cellar → leafDisc e.leaf = false → s'.ownedIn pa w = false →
    (leafPres e.leaf = false → leafWonce e.leaf = false → leafRdup e.leaf = false → s'.meetsHeld s'.cur pa w = false →
      d.memOk →
      ∃ t, exec (.st f) s = .next t ∧ (∀ k, k < w → t.byte (pa + k) = (s.rs f.b).extractLsb' (8 * k) 8) ∧
        SameBytesBut pa w d t ∧ OnlyMe { d with mem := t.mem, poison := t.poison } t ∧
        t.me = { s'.me with pc := s'.me.pc + 16, inWait := false }) ∧
    (leafPres e.leaf = false → leafWonce e.leaf = false → leafRdup e.leaf = true ∨ s'.meetsHeld s'.cur pa w = true →
      exec (.st f) s =
        .next ({ d with
          storeBuf := d.storeBuf ++ [⟨s'.cur, [(pa, l)], 0xFF, [], 0, s'.copySeq, !leafRdup e.leaf⟩] } : State).proceed) ∧
    (leafPres e.leaf = true → s'.full pa = false → s'.meetsHeld s'.cur (pa / 8 * 8) 8 = false →
      exec (.st f) s = .next (d.fill pa l).proceed) ∧
    (leafPres e.leaf = false → leafWonce e.leaf = true → s'.full pa = false → s'.meetsHeld s'.cur (pa / 8 * 8) 8 = false →
      exec (.st f) s = .next ((d.setBytes pa l).setFull pa true).proceed)

/-- LD and ST of 4 and 8 bytes in control space, at either level, read and write the word that the tables name there, or its
half (halves and the task level are the model's choice, log 19); fewer than 4 bytes raise cause 0x04; and an LD of an empty presence-tagged word parks the hart, its registers unchanged. -/
def Clauses.ControlSpaceAndParking : Prop :=
  ∀ (f : Fields) (s s' t : State) (pa v : Nat) (e : TlbEntry),
    let va := s.rs f.a + f.imm.signExtend 64
    let w := 2 ^ (f.w.toNat - 3)
    let off := pa - controlBase
    3 ≤ f.w.toNat → f.w.toNat ≤ 6 → va.toNat % w = 0 → leafDisc e.leaf = false →
    (checkAccess s s.ctx .load va = (s', .ok pa e) → spaceOf pa = .control → 4 ≤ w →
      ctlLoad s' (whoOf s'.cur) off w = some (t, v) →
      exec (.ld f) s = .next (t.ws f.d (extendLoad (f.modBit 42) w v)).proceed) ∧
    (∀ x, w = 8 → off % 8 = 0 → ctlRead s' (whoOf s'.cur) off = some (t, x) →
      ctlLoad s' (whoOf s'.cur) off w = some (t, x.toNat)) ∧
    (checkAccess s s.ctx .load va = (s', .ok pa e) → spaceOf pa = .control → w < 4 →
      exec (.ld f) s = .next (s'.trapped 0x04 va 0)) ∧
    (checkAccess s s.ctx .store va = (s', .ok pa e) → spaceOf pa = .control → 4 ≤ w →
      (ctlReleases off = true → ∀ x ∈ s'.storeBuf, x.hart ≠ s'.cur) →
      ctlStore (s'.markDirty s'.ctx e) (whoOf s'.cur) off w ((s.rs f.b).toNat % 2 ^ (8 * w)) = some t →
      exec (.st f) s = .next t.proceed) ∧
    (w = 8 → off % 8 = 0 →
      ctlStore s' (whoOf s'.cur) off w ((s.rs f.b).toNat % 2 ^ (8 * w)) = ctlWrite s' (whoOf s'.cur) off (s.rs f.b)) ∧
    (checkAccess s s.ctx .store va = (s', .ok pa e) → spaceOf pa = .control → w < 4 →
      exec (.st f) s = .next (s'.trapped 0x04 va 0)) ∧
    (checkAccess s s.ctx .load va = (s', .ok pa e) → spaceOf pa = .hbm ∨ spaceOf pa = .cellar →
      leafPres e.leaf = true → s'.full pa = false →
      ∃ u slotted, exec (.ld f) s = .next u ∧ u.me.run = .waiting (.future (pa / 8 * 8) slotted) ∧
        (∀ n, u.me.rs n = s'.me.rs n) ∧ u.me.pc = s'.me.pc ∧ SameBytes s' u)

/-- What a scalar access checks before anything else, in the order of 04 Table 4.6a: alignment, translation, permission,
then what its page's kind refuses, and of a load at last the poison of its line; EADDR is the address, and LD writes
nothing. -/
def Clauses.ScalarAccessTraps : Prop :=
  ∀ (f : Fields) (s s' : State) (c l : Nat),
    let va := s.rs f.a + f.imm.signExtend 64
    let w := 2 ^ (f.w.toNat - 3)
    3 ≤ f.w.toNat → f.w.toNat ≤ 6 →
    (va.toNat % w ≠ 0 →
      exec (.ld f) s = .next (s.trapped 0x04 va 0) ∧ exec (.st f) s = .next (s.trapped 0x04 va 0)) ∧
    (va.toNat % w = 0 → checkAccess s s.ctx .load va = (s', .bad c l) → exec (.ld f) s = .next (s'.trapped c va 0)) ∧
    (va.toNat % w = 0 → checkAccess s s.ctx .store va = (s', .bad c l) → exec (.st f) s = .next (s'.trapped c va 0)) ∧
    (va.toNat % w = 0 → 2 ^ 56 ≤ va.toNat →
      exec (.ld f) s = .next (s.trapped 0x05 va 0) ∧ exec (.st f) s = .next (s.trapped 0x06 va 0)) ∧
    (∀ pa e, va.toNat % w = 0 → checkAccess s s.ctx .store va = (s', .ok pa e) →
      spaceOf pa = .hbm ∨ spaceOf pa = .cellar →
      (leafDisc e.leaf = true → exec (.st f) s = .next (s'.trapped 0x08 va 0)) ∧
      (leafDisc e.leaf = false → leafPres e.leaf = true ∨ leafWonce e.leaf = true → s'.full pa = true →
        exec (.st f) s = .next (s'.trapped 0x09 va 0))) ∧
    (∀ pa e, va.toNat % w = 0 → checkAccess s s.ctx .load va = (s', .ok pa e) →
      spaceOf pa = .hbm ∨ spaceOf pa = .cellar → leafDisc e.leaf = false → (leafPres e.leaf = true → s'.full pa = true) →
      s'.ownedIn pa w = false → s'.absentIn pa w = false → s'.poisonedIn pa w = true →
      exec (.ld f) s = .next (s'.trapped 0x16 va 0))

/-- Scalar loads and stores: results, waits and traps. -/
def Obligations.ScalarAccessResults : Prop :=
  Clauses.LoadResult ∧
    Clauses.StoreResult ∧
    Clauses.ControlSpaceAndParking ∧
    Clauses.ScalarAccessTraps

/-! ## Class 0x1: control transfer (04 R84 to R88) -/

/-- Transfers whose target is aligned, and the paths that fall through: where each goes on, and that nothing else changes but
the link, the count and the return stack. -/
def Clauses.ControlTransferResults : Prop :=
  ∀ (f : Fields) (s : State),
    let tgt := s.me.pc + f.imm.signExtend 64
    let reg := s.rs f.a + f.imm.signExtend 64
    let aligned (t : Word) : Prop := t.extractLsb' 0 4 = 0
    let linked := s.modMe fun h => (h.ws f.d (s.me.pc + 16)).pushLink f.d (s.me.pc + 16)
    exec (.nop f) s = .next s.proceed ∧
    (aligned tgt → exec (.jmp f) s = .next (s.goTo tgt) ∧ exec (.call f) s = .next (linked.goTo tgt)) ∧
    (aligned reg → exec (.jmpr f) s = .next (s.goTo reg) ∧ exec (.callr f) s = .next (linked.goTo reg)) ∧
    (aligned (s.rs f.a) → exec (.ret f) s =
      .next ((s.modMe fun h => { h with retStack := h.retStack.drop 1 }).goTo (s.rs f.a))) ∧
    (s.rs f.a = 0 → aligned tgt → exec (.bz f) s = .next (s.goTo tgt)) ∧
    (s.rs f.a ≠ 0 → exec (.bz f) s = .next s.proceed) ∧
    (s.rs f.a ≠ 0 → aligned tgt → exec (.bnz f) s = .next (s.goTo tgt)) ∧
    (s.rs f.a = 0 → exec (.bnz f) s = .next s.proceed) ∧
    (Machine.cond (f.modField 44 42) (s.rs f.a) (s.rs f.b) = true → aligned tgt → exec (.br f) s = .next (s.goTo tgt)) ∧
    (Machine.cond (f.modField 44 42) (s.rs f.a) (s.rs f.b) = false → exec (.br f) s = .next s.proceed) ∧
    (s.rs f.d = 0 → exec (.loop f) s = .next s.proceed) ∧
    (s.rs f.d = 1 → exec (.loop f) s = .next (s.ws f.d 0).proceed) ∧
    (s.rs f.d ≠ 0 → s.rs f.d ≠ 1 → aligned tgt → exec (.loop f) s = .next ((s.ws f.d (s.rs f.d - 1)).goTo tgt))

/-- A transfer that would be taken to a misaligned target raises cause 0x04 at the transfer with EADDR its target, and
writes no link, no count and no register. -/
def Clauses.MisalignedTransferTraps : Prop :=
  ∀ (f : Fields) (s : State),
    let tgt := s.me.pc + f.imm.signExtend 64
    let reg := s.rs f.a + f.imm.signExtend 64
    (tgt.extractLsb' 0 4 ≠ 0 →
      exec (.jmp f) s = .next (s.trapped 0x04 tgt 0) ∧ exec (.call f) s = .next (s.trapped 0x04 tgt 0) ∧
      (s.rs f.a = 0 → exec (.bz f) s = .next (s.trapped 0x04 tgt 0)) ∧
      (s.rs f.a ≠ 0 → exec (.bnz f) s = .next (s.trapped 0x04 tgt 0)) ∧
      (Machine.cond (f.modField 44 42) (s.rs f.a) (s.rs f.b) = true → exec (.br f) s = .next (s.trapped 0x04 tgt 0)) ∧
      (s.rs f.d ≠ 0 → s.rs f.d ≠ 1 → exec (.loop f) s = .next (s.trapped 0x04 tgt 0))) ∧
    (reg.extractLsb' 0 4 ≠ 0 →
      exec (.jmpr f) s = .next (s.trapped 0x04 reg 0) ∧ exec (.callr f) s = .next (s.trapped 0x04 reg 0)) ∧
    ((s.rs f.a).extractLsb' 0 4 ≠ 0 → exec (.ret f) s = .next (s.trapped 0x04 (s.rs f.a) 0))

/-- BMASK counts the set elements of its mask below VL = VLROW × VLCOL and branches by the four conditions; a branch taken to a
misaligned target raises cause 0x04, and the mask's register must be valid, or cause 0x0A names it. -/
def Clauses.BmaskResult : Prop :=
  ∀ (f : Fields) (s : State), f.a.toNat ≤ 8 →
    let vl := s.me.vc.vlrow.toNat * s.me.vc.vlcol.toNat
    let any := ((List.range (min vl 8192)).filter fun k => (s.me.maskOp f.a).bit k).length
    let tgt := s.me.pc + f.imm.signExtend 64
    let taken := match f.modField 43 42 with
      | 0 => decide (1 ≤ any)
      | 1 => decide (any = 0)
      | 2 => decide (any = vl)
      | _ => decide (any < vl)
    (∀ l, s.me.maskOp f.a = .list l → l.Pairwise (· < ·) ∧ ∀ k ∈ l, k < 8192) →
    (s.me.vc.vvalid.getLsbD (32 + f.a.toNat) = true →
      (taken = true → tgt.extractLsb' 0 4 = 0 → exec (.bmask f) s = .next (s.goTo tgt)) ∧
      (taken = true → tgt.extractLsb' 0 4 ≠ 0 → exec (.bmask f) s = .next (s.trapped 0x04 tgt 0)) ∧
      (taken = false → exec (.bmask f) s = .next s.proceed)) ∧
    (s.me.vc.vvalid.getLsbD (32 + f.a.toNat) = false →
      exec (.bmask f) s = .next (s.trapped 0x0A 0 (BitVec.ofNat 64 (32 + f.a.toNat))))

/-- HALT at system level: the hart is stopped with the program counter at the next word. Of a free hart with no store held,
nothing else changes but the weight slots and tiles it releases; a gang member leaves its gang, since a halted hart holds no
booked resource (the model's reading, log 62). At task level HALT raises Privilege. -/
def Clauses.HaltStops : Prop :=
  ∀ (f : Fields) (s : State),
    (s.me.status.sys = true → s.me.gang = none → (∀ x ∈ s.storeBuf, x.hart ≠ s.cur) →
      ∃ t, exec (.halt f) s = .next t ∧ OnlyMe s t ∧ SameBytes s t ∧ t.me.run = .stopped ∧ t.me.pc = s.me.pc + 16 ∧
        t.me = { s.me with
          run := .stopped, pc := t.me.pc, mxcfg := t.me.mxcfg, wslot := t.me.wslot, cc := t.me.cc, inWait := t.me.inWait }) ∧
    (∀ d n x, s.me.status.sys = true → s.me.gang = some (d, n) → s.task d n = some x → x.hdr.isSome = true →
      s.cur ∈ x.members →
      ∃ t, exec (.halt f) s = .next t ∧ t.me.run = .stopped ∧ t.me.pc = s.me.pc + 16 ∧ t.me.gang = none ∧
        ∀ y, t.task d n = some y → s.cur ∉ y.members) ∧
    (s.me.status.sys = false → exec (.halt f) s = .next (s.trapped 0x03 0 0))

/-- Every form of class 0x1. -/
def Obligations.ControlFlowResults : Prop :=
  Clauses.ControlTransferResults ∧
    Clauses.MisalignedTransferTraps ∧
    Clauses.BmaskResult ∧
    Clauses.HaltStops

/-! ## Class 0x2: vector integer and logic (05 R108 to R111) -/

/-- Arithmetic, division, selection and logic, element by element, with num(x) unsigned when MOD[42] = 1 and signed
otherwise: no flag and no trap for an arithmetic result, and nothing else changes. -/
def Clauses.VectorIntegerArithmetic : Prop :=
  let num (f : Fields) (w x : Nat) : Int := intVal w (f.modBit 42) x
  IntElementWise .vadd (fun _ _ a b => a + b) ∧
  IntElementWise .vsub (fun _ w a b => wrap w ((a : Int) - b)) ∧
  IntElementWise .vrsub (fun _ w a b => wrap w ((b : Int) - a)) ∧
  IntElementWise .vmul (fun _ _ a b => a * b) ∧
  IntElementWise .vmulh (fun f w a b =>
    let x : Int := if f.modField 43 42 = 1 then a else signed w a
    let y : Int := if f.modField 43 42 = 0 then signed w b else b
    wrap w (x * y / (2 ^ w : Nat))) ∧
  IntElementWise .vdiv (fun f w a b => if b = 0 then 2 ^ w - 1 else wrap w ((num f w a).tdiv (num f w b))) ∧
  IntElementWise .vrem (fun f w a b => if b = 0 then a else wrap w ((num f w a).tmod (num f w b))) ∧
  IntElementWise .vmin (fun f w a b => if num f w a ≤ num f w b then a else b) ∧
  IntElementWise .vmax (fun f w a b => if num f w b ≤ num f w a then a else b) ∧
  IntElementWise .vand (fun _ _ a b => a &&& b) ∧
  IntElementWise .vor (fun _ _ a b => a ||| b) ∧
  IntElementWise .vxor (fun _ _ a b => a ^^^ b)

/-- Shifts, saturating sums, averages, absolute differences and counts, element by element. -/
def Clauses.VectorShiftsAndSaturation : Prop :=
  let num (f : Fields) (w x : Nat) : Int := intVal w (f.modBit 42) x
  let sat (f : Fields) (w : Nat) (x : Int) : Nat :=
    wrap w (max (intRange w (f.modBit 42)).1 (min (intRange w (f.modBit 42)).2 x))
  IntElementWise .vshl (fun _ w a b => if w ≤ b then 0 else a * 2 ^ b) ∧
  IntElementWise .vshr (fun f w a b =>
    if f.modBit 42 then wrap w (signed w a / (2 ^ (min b w) : Nat)) else if w ≤ b then 0 else a / 2 ^ b) ∧
  IntElementWise .vsadd (fun f w a b => sat f w (num f w a + num f w b)) ∧
  IntElementWise .vssub (fun f w a b => sat f w (num f w a - num f w b)) ∧
  IntElementWise .vavg (fun f w a b => wrap w ((num f w a + num f w b + (if f.modBit 43 then 1 else 0)) / 2)) ∧
  IntElementWise .vabsd (fun f w a b => (num f w a - num f w b).natAbs) ∧
  (∀ (f : Fields) (s : State) (w : Nat), VecReady s → s.me.intW f.w.toNat = some w →
    groupsOk s.me [⟨f.d.toNat, w, false⟩] [⟨f.a.toNat, w, false⟩] = true →
    (∃ t, exec (.vclz f) s = .next t ∧ VecResult s t f ⟨f.d.toNat, w, false⟩ none fun k =>
      (leadZeros w (s.me.getE f.a.toNat w (s.me.pos k)), 0)) ∧
    (∃ t, exec (.vpopc f) s = .next t ∧ VecResult s t f ⟨f.d.toNat, w, false⟩ none fun k =>
      (popCount w (s.me.getE f.a.toNat w (s.me.pos k)), 0)))

/-- Element-wise integer forms of one width. -/
def Obligations.VectorIntegerResults : Prop :=
  Clauses.VectorIntegerArithmetic ∧ Clauses.VectorShiftsAndSaturation

/-- The widening, narrowing and modular instructions: VWADD and VWMUL write twice the width, VNSHR reads it, and the modular
ones take 32-bit elements with a modulus from 2 to 2^31 - 1 and give a residue below it. -/
def Obligations.VectorWideningNarrowingModular : Prop :=
  IntWidening .vwadd (fun f w a b => intVal w (f.modBit 42) a + intVal w (f.modBit 42) b) ∧
  IntWidening .vwmul (fun f w a b =>
    (if f.modField 43 42 = 1 then (a : Int) else signed w a) * (if f.modField 43 42 = 0 then signed w b else b)) ∧
  (∀ (f : Fields) (s : State) (w : Nat), VecReady s → s.me.intW f.w.toNat = some w → w ≠ 64 →
    groupsOk s.me [⟨f.d.toNat, w, false⟩] (⟨f.a.toNat, 2 * w, true⟩ :: (srcAB f w w).drop 1) = true →
    ∃ t, exec (.vnshr f) s = .next t ∧ VecResult s t f ⟨f.d.toNat, w, false⟩ none fun k =>
      (nshrW (f.modBit 42) (f.modBit 43) (f.modBit 44) w (s.me.getE f.a.toNat (2 * w) (s.me.pos k)) (s.me.elemB f w k),
        0)) ∧
  (∀ (f : Fields) (s : State),
    let m := if f.modField 43 42 = 0 then s.me.modp.toNat else s.me.modq.toNat
    let x (k : Nat) := s.me.getE f.a.toNat 32 (s.me.pos k) % m
    let y (k : Nat) := s.me.elemB f 32 k % m
    let gives (i : Instr) (g : Nat → Nat) : Prop :=
      ∃ t, exec i s = .next t ∧ VecResult s t f ⟨f.d.toNat, 32, false⟩ none fun k => (g k, 0)
    VecReady s → s.me.intW f.w.toNat = some 32 → 2 ≤ m → m < 2 ^ 31 →
    groupsOk s.me [⟨f.d.toNat, 32, false⟩] (srcAB f 32 32) = true →
    gives (.vmodadd f) (fun k => (x k + y k) % m) ∧ gives (.vmodsub f) (fun k => (x k + m - y k) % m) ∧
    gives (.vmodmul f) (fun k => x k * y k % m))

/-- The checks of the integer forms of classes 0x2 and 0x4. -/
def Clauses.IntegerVectorChecks : Prop :=
  ∀ (f : Fields) (s : State) (w : Nat), s.me.intW f.w.toNat = some w →
    let d : Dst := .vec ⟨f.d.toNat, w, false⟩
    let a : Opnd := ⟨f.a.toNat, w, false⟩
    let b : Opnd := ⟨f.b.toNat, w, false⟩
    let m := if f.modField 43 42 = 0 then s.me.modp.toNat else s.me.modq.toNat
    (∀ i ∈ [(Instr.vadd, (0x200#12)), (.vsub, 0x201#12), (.vrsub, 0x202#12), (.vmul, 0x203#12), (.vmulh, 0x204#12),
        (.vdiv, 0x205#12), (.vrem, 0x206#12), (.vmin, 0x207#12), (.vmax, 0x208#12), (.vand, 0x209#12), (.vor, 0x20A#12),
        (.vxor, 0x20B#12), (.vshl, 0x20C#12), (.vshr, 0x20D#12), (.vsadd, 0x20E#12), (.vssub, 0x20F#12),
        (.vavg, 0x210#12), (.vabsd, 0x211#12), (.vmerge, 0x419#12)],
      VecChecks (i.1 f) i.2 f s d (srcAB f w w) []) ∧
    (∀ i ∈ [(Instr.vclz, (0x218#12)), (.vpopc, 0x219#12), (.vmv, 0x41A#12)], VecChecks (i.1 f) i.2 f s d [a] []) ∧
    (w ≠ 64 → ∀ i ∈ [(Instr.vwadd, (0x212#12)), (.vwmul, 0x213#12)],
      VecChecks (i.1 f) i.2 f s (.vec ⟨f.d.toNat, 2 * w, true⟩) (srcAB f w w) []) ∧
    (w ≠ 64 → VecChecks (.vnshr f) 0x214 f s d (⟨f.a.toNat, 2 * w, true⟩ :: (srcAB f w w).drop 1) []) ∧
    (w = 32 → 2 ≤ m → m < 2 ^ 31 → ∀ i ∈ [(Instr.vmodadd, (0x215#12)), (.vmodsub, 0x216#12), (.vmodmul, 0x217#12)],
      VecChecks (i.1 f) i.2 f s d (srcAB f w w) []) ∧
    VecChecks (.vcmp f) 0x402 f s (.mask f.d.toNat) (srcAB f w w) [] ∧
    VecChecks (.viota f) 0x40A f s d [] [maskIndex f.a] ∧ VecChecks (.vid f) 0x40B f s d [] [] ∧
    (f.modBit 45 = false → VecChecks (.vsplat f) 0x410 f s d [] [] ∧ VecChecks (.vscan f) 0x416 f s d [a] [] ∧
      VecChecks (.vchain f) 0x417 f s d (if f.x.getLsbD 0 then [b] else [a, b]) []) ∧
    (s.me.vstart = 0 → VecChecks (.vredlog f) 0x415 f s d [a, b] [] ∧
      (f.modBit 45 = false → ∀ i ∈ [(Instr.vredsum, (0x412#12)), (.vredmax, 0x413#12), (.vredmin, 0x414#12)],
        VecChecks (i.1 f) i.2 f s d [a, b] []))

/-- The checks of the floating forms of classes 0x3 and 0x4. -/
def Clauses.FloatVectorChecks : Prop :=
  (∀ (f : Fields) (s : State) (t : Fmt), s.me.fmtOf f.w.toNat = some t →
    let d : Dst := .vec ⟨f.d.toNat, t.width, false⟩
    let a : Opnd := ⟨f.a.toNat, t.width, false⟩
    let b : Opnd := ⟨f.b.toNat, t.width, false⟩
    let ab := srcAB f t.width t.width
    ((f.immB = true → immFits t f = true) →
      (∀ i ∈ [(Instr.vfadd, (0x300#12)), (.vfsub, 0x301#12), (.vfmul, 0x302#12), (.vfdiv, 0x303#12), (.vfmin, 0x306#12),
          (.vfmax, 0x307#12), (.vfsgn, 0x30C#12)], VecChecks (i.1 f) i.2 f s d ab []) ∧
      VecChecks (.vfma f) 0x304 f s d (ab ++ [⟨f.c.toNat, t.width, false⟩]) [] ∧
      (∀ x : Fmt, wideOf t = some x →
        VecChecks (.vfwma f) 0x305 f s (.vec ⟨f.d.toNat, x.width, true⟩) (ab ++ [⟨f.c.toNat, x.width, true⟩]) []) ∧
      VecChecks (.vfcmp f) 0x403 f s (.mask f.d.toNat) ab [] ∧
      (f.modBit 45 = true → VecChecks (.vsplat f) 0x410 f s d [] [])) ∧
    (∀ i ∈ [(Instr.vfsqrt, (0x308#12)), (.vfrsq, 0x309#12), (.vfrcp, 0x30A#12), (.vfexp, 0x30B#12), (.vfrnd, 0x310#12)],
      VecChecks (i.1 f) i.2 f s d [a] []) ∧
    VecChecks (.vfscale f) 0x30F f s d ab [] ∧
    VecChecks (.vfclass f) 0x30D f s (.mask f.d.toNat) [a] [] ∧
    VecChecks (.vfnf f) 0x311 f s (if f.modBit 45 then .mask f.d.toNat else .none) [a] [] ∧
    (f.modBit 45 = true → VecChecks (.vscan f) 0x416 f s d [a] [] ∧
      VecChecks (.vchain f) 0x417 f s d (if f.x.getLsbD 0 then [b] else [a, b]) [] ∧
      (s.me.vstart = 0 → ∀ i ∈ [(Instr.vredsum, (0x412#12)), (.vredmax, 0x413#12), (.vredmin, 0x414#12)],
        VecChecks (i.1 f) i.2 f s d [a, b] []))) ∧
  (∀ (f : Fields) (s : State) (src dst : CTy), s.me.cvtSide (f.x.getLsbD 4) (f.x.getLsbD 5) (f.xField 3 0) = some src →
    s.me.cvtSide (f.modBit 45) (f.modBit 46) f.w.toNat = some dst → ConvertsTo s.me src dst →
    VecChecks (.vfcvt f) 0x30E f s (.vec ⟨f.d.toNat, dst.width, decide (src.width < dst.width)⟩)
      [⟨f.a.toNat, src.width, decide (dst.width < src.width)⟩] [])

/-- The checks of the mask instructions and of the moves between groups. -/
def Clauses.MaskAndMoveChecks : Prop :=
  ∀ (f : Fields) (s : State),
    let h := s.me
    let mask : Dst := .mask f.d.toNat
    let whole : Opnd := ⟨f.d.toNat, h.sew, false⟩
    (h.vstart = 0 →
      VecChecks (.mlogic f) 0x404 f s mask [] [maskIndex f.a, maskIndex f.b] ∧
      VecChecks (.mpopc f) 0x405 f s .none [] [maskIndex f.a] ∧ VecChecks (.mffs f) 0x406 f s .none [] [maskIndex f.a] ∧
      VecChecks (.mset f) 0x407 f s mask [] (if f.modField 44 42 ≤ 1 then [] else [maskIndex f.a]) ∧
      VecChecks (.mtolist f) 0x408 f s mask [] [maskIndex f.a] ∧ VecChecks (.mtobits f) 0x409 f s mask [] [maskIndex f.a] ∧
      ((∀ g, vtFlt h.vc.vtype ≠ some (.grist g)) →
        ChecksFirst (.vtrans8 f) 0x418 f s (h.g == 8 && h.cols ≤ h.rowcap && h.rows ≤ h.colcap && groupsOk h [whole] [])
          (usedRegs s f (.vec whole) [] []))) ∧
    (∀ w, h.intW f.w.toNat = some w →
      let o : Opnd := ⟨f.d.toNat, w, false⟩
      let a : Opnd := ⟨f.a.toNat, w, false⟩
      let b : Opnd := ⟨f.b.toNat, w, false⟩
      let apart (r : BitVec 5) : Bool := !overlaps f.d.toNat h.g r.toNat h.g
      (h.vstart = 0 →
        (∀ i ∈ [(Instr.vcompress, (0x40C#12)), (.vexpand, 0x40D#12), (.vslide, 0x40F#12)],
          ChecksFirst (i.1 f) i.2 f s (apart f.a && groupsOk h [o] [a]) (usedRegs s f (.vec o) [a] [])) ∧
        ChecksFirst (.vperm f) 0x40E f s (apart f.a && apart f.b && groupsOk h [o] [a, b])
          (usedRegs s f (.vec o) [a, b] [])) ∧
      ChecksFirst (.vmvsx f) 0x411 f s (f.d.toNat % h.g == 0) (regRun f.d.toNat h.g) ∧
      ChecksFirst (.vmvxs f) 0x411 f s (f.a.toNat % h.g == 0) (regRun f.a.toNat h.g)) ∧
    ChecksFirst (.vmvWhole f) 0x41A f s (f.a.toNat % h.g == 0 && f.d.toNat % h.g == 0)
      (regRun f.d.toNat h.g ++ regRun f.a.toNat h.g)

/-- A vector instruction of classes 0x2 to 0x4 one of whose registers is not valid takes the cause 0x0A of the lowest such
register before it writes anything, and one whose groups are misaligned or overlap in part takes 0x01 before that. -/
def Obligations.VectorFirstUseAndGroupTraps : Prop :=
  Clauses.IntegerVectorChecks ∧ Clauses.FloatVectorChecks ∧ Clauses.MaskAndMoveChecks

/-! ## Class 0x3: vector floating point (05 R112 to R118) -/

/-- The arithmetic of class 0x3, element by element: each element and its flags are those of the format's own operation on
the elements of the sources under the rounding mode, SAT8, FLUSH and SRSEED of the hart; FPFLAGS gathers the flags of the
active elements, SRSEED is stepped when the mode is SR, and nothing else changes. -/
def Clauses.VectorFloatArithmetic : Prop :=
  FltElementWise .vfadd true (fun _ t e i a b => t.fadd e i a b) ∧
  FltElementWise .vfsub true (fun _ t e i a b => t.fsub e i a b) ∧
  FltElementWise .vfmul true (fun _ t e i a b => t.fmul e i a b) ∧
  FltElementWise .vfdiv true (fun _ t e i a b => t.fdiv e i a b) ∧
  FltElementWise .vfmin false (fun _ t e _ a b => t.flushRes e (t.fminmax false e.flushIn a b)) ∧
  FltElementWise .vfmax false (fun _ t e _ a b => t.flushRes e (t.fminmax true e.flushIn a b)) ∧
  FltElementWise .vfsgn false (fun f t _ _ a b =>
    let sa := t.signOf a
    let sb := t.signOf b
    let sg := if f.modField 46 45 = 0 then sb else if f.modField 46 45 = 1 then !sb else sa != sb
    (a % 2 ^ (t.width - 1) + (if sg then 2 ^ (t.width - 1) else 0), 0)) ∧
  FltUnary .vfsqrt (fun _ t e i a => t.fsqrt e i a) ∧
  FltUnary .vfrsq (fun _ t e i a => t.frsq e i a) ∧
  FltUnary .vfrcp (fun _ t e i a => t.frcp e i a) ∧
  FltUnary .vfexp (fun _ t e i a => t.fexp e i a) ∧
  FltUnary .vfrnd (fun f t e i a =>
    let r := t.froundInt e i a
    (r.1, if f.modBit 45 then r.2 &&& ~~~fNX else r.2))

/-- The enabled floating-point trap in the arithmetic of class 0x3 (03 R61). -/
def Clauses.FloatTraps : Prop :=
  ∀ (f : Fields) (s : State) (t : Fmt), s.me.fmtOf f.w.toNat = some t →
    let e := s.me.fenv (f.modField 44 42)
    let o : Opnd := ⟨f.d.toNat, t.width, false⟩
    let a (k : Nat) := s.me.getE f.a.toNat t.width (s.me.pos k)
    let b (k : Nat) := s.me.fltB f t k
    let two (i : Fields → Instr) (g : Nat → Nat → Nat → Nat × FFlags) : Prop :=
      FltTraps (i f) s f o (srcAB f t.width t.width) fun k => g (s.me.pos k) (a k) (b k)
    let one (i : Fields → Instr) (g : Nat → Nat → Nat × FFlags) : Prop :=
      FltTraps (i f) s f o [⟨f.a.toNat, t.width, false⟩] fun k => g (s.me.pos k) (a k)
    ((f.immB = true → immFits t f = true) →
      two .vfadd (t.fadd e) ∧ two .vfsub (t.fsub e) ∧ two .vfmul (t.fmul e) ∧ two .vfdiv (t.fdiv e) ∧
      two .vfmin (fun _ x y => t.flushRes e (t.fminmax false e.flushIn x y)) ∧
      two .vfmax (fun _ x y => t.flushRes e (t.fminmax true e.flushIn x y))) ∧
    one .vfsqrt (t.fsqrt e) ∧ one .vfrsq (t.frsq e) ∧ one .vfrcp (t.frcp e) ∧ one .vfexp (t.fexp e)

/-- Bound groups in the element-wise arithmetic of classes 0x2 and 0x3 (06 R166). -/
def Clauses.BoundGroups : Prop :=
  ∀ (f : Fields) (s : State),
    (∀ w, s.me.intW f.w.toNat = some w →
      ∀ i ∈ [Instr.vadd, .vsub, .vrsub, .vmul, .vmulh, .vdiv, .vrem, .vmin, .vmax, .vand, .vor, .vxor, .vshl, .vshr, .vsadd, .vssub, .vavg,
          .vabsd],
        BoundGroup (i f) s ⟨f.d.toNat, w, false⟩ (srcAB f w w)) ∧
    (∀ t, s.me.fmtOf f.w.toNat = some t → (f.immB = true → immFits t f = true) → s.me.fp.ctl.enables = 0 →
      ∀ i ∈ [Instr.vfadd, .vfsub, .vfmul, .vfdiv, .vfmin, .vfmax],
        BoundGroup (i f) s ⟨f.d.toNat, t.width, false⟩ (srcAB f t.width t.width))

/-- What comes between an element-wise instruction and its elements: an enabled floating-point trap, and the streams that its
groups are bound to. Derived where two hazards of one binding meet: the pulls come before the elements, and the first push claims a
lane (log 23). -/
def Obligations.FloatTrapsAndBoundGroups : Prop :=
  Clauses.FloatTraps ∧ Clauses.BoundGroups

/-- The fused multiply-adds and VFSCALE, element by element: VFWMA writes twice the width, VFSCALE reads B as an integer. -/
def Clauses.VectorFusedAndScaled : Prop :=
  ∀ (f : Fields) (s : State) (t : Fmt), VecReady s → s.me.fmtOf f.w.toNat = some t →
    let e := s.me.fenv (f.modField 44 42)
    let rm := some (s.me.rmode (f.modField 44 42))
    let a (k : Nat) := s.me.getE f.a.toNat t.width (s.me.pos k)
    ((f.immB = true → immFits t f = true) →
      groupsOk s.me [⟨f.d.toNat, t.width, false⟩] (srcAB f t.width t.width ++ [⟨f.c.toNat, t.width, false⟩]) = true →
      ∃ u, exec (.vfma f) s = .next u ∧ VecResult s u f ⟨f.d.toNat, t.width, false⟩ rm fun k =>
        t.ffma e (s.me.pos k) (f.modBit 45) (f.modBit 46) (a k) (s.me.fltB f t k)
          (s.me.getE f.c.toNat t.width (s.me.pos k))) ∧
    (∀ x : Fmt, wideOf t = some x → (f.immB = true → immFits t f = true) →
      groupsOk s.me [⟨f.d.toNat, x.width, true⟩] (srcAB f t.width t.width ++ [⟨f.c.toNat, x.width, true⟩]) = true →
      ∃ u, exec (.vfwma f) s = .next u ∧ VecResult s u f ⟨f.d.toNat, x.width, true⟩ rm fun k =>
        wideFma t x e (s.me.pos k) (f.modBit 45) (f.modBit 46) (a k) (s.me.fltB f t k)
          (s.me.getE f.c.toNat x.width (s.me.pos k))) ∧
    (groupsOk s.me [⟨f.d.toNat, t.width, false⟩] (srcAB f t.width t.width) = true →
      ∃ u, exec (.vfscale f) s = .next u ∧ VecResult s u f ⟨f.d.toNat, t.width, false⟩ rm fun k =>
        t.fscale e (s.me.pos k) (a k) (s.me.elemB f t.width k))

/-- Element-wise floating forms that round. -/
def Obligations.VectorFloatResults : Prop :=
  Clauses.VectorFloatArithmetic ∧ Clauses.VectorFusedAndScaled

/-- VFCLASS and VFNF write a mask, VFNF gathers NFFLAG from the enabled elements: bit 0 for any that is not finite, bit 1
for an infinity, bit 2 for a NaN. VFCVT converts between types of the same, half or twice the width and takes 0x01 otherwise:
element by element to a float or an integer, slot by slot to a grist format. -/
def Obligations.VectorClassifyAndConvert : Prop :=
  (∀ (f : Fields) (s : State) (t : Fmt), VecReady s → s.me.vl ≤ 8192 → s.me.fmtOf f.w.toNat = some t → f.d.toNat < 8 →
    groupsOk s.me [] [⟨f.a.toNat, t.width, false⟩] = true →
    let x (k : Nat) := s.me.getE f.a.toNat t.width (s.me.pos k)
    (∃ u, exec (.vfclass f) s = .next u ∧ MaskResult s u f (Fin.ofNat 8 f.d.toNat) fun k =>
      (f.x.getLsbD (t.classOf (x k)), 0)) ∧
    (∃ u, exec (.vfnf f) s = .next u ∧ OnlyMe s u ∧ SameBytes s u ∧ u.me.pc = s.me.pc + 16 ∧ u.me.vc.vstart = 0 ∧
      u.me.s = s.me.s ∧ u.me.v = s.me.v ∧ u.me.fp = s.me.fp ∧
      (∀ j : Fin 8, f.modBit 45 = false ∨ j.val ≠ f.d.toNat → u.me.m[j] = s.me.m[j]) ∧
      (f.modBit 45 = true → ∀ k, s.me.active f k = true →
        (u.me.m[Fin.ofNat 8 f.d.toNat]).bit k = (t.isNaN (x k) || t.isInf (x k))) ∧
      u.me.vc.nfflag.getLsbD 0 = (s.me.vc.nfflag.getLsbD 0 ||
        (List.range s.me.vl).any fun k => s.me.active f k && (t.isNaN (x k) || t.isInf (x k))) ∧
      u.me.vc.nfflag.getLsbD 1 = (s.me.vc.nfflag.getLsbD 1 ||
        (List.range s.me.vl).any fun k => s.me.active f k && t.isInf (x k)) ∧
      u.me.vc.nfflag.getLsbD 2 = (s.me.vc.nfflag.getLsbD 2 ||
        (List.range s.me.vl).any fun k => s.me.active f k && t.isNaN (x k)))) ∧
  (∀ (f : Fields) (s : State) (src dst : CTy),
    s.me.cvtSide (f.x.getLsbD 4) (f.x.getLsbD 5) (f.xField 3 0) = some src →
    s.me.cvtSide (f.modBit 45) (f.modBit 46) f.w.toNat = some dst →
    let o : Opnd := ⟨f.d.toNat, dst.width, decide (src.width < dst.width)⟩
    let rm := if f.x.getLsbD 4 && f.modBit 45 then none else some (s.me.rmode (f.modField 44 42))
    let env := s.me.fenv (f.modField 44 42)
    (¬ ConvertsTo s.me src dst → exec (.vfcvt f) s = .next (s.trapped 0x01 ((packWord 0x30E f).setWidth 64) 0)) ∧
    (VecReady s → ConvertsTo s.me src dst →
      groupsOk s.me [o] [⟨f.a.toNat, src.width, decide (dst.width < src.width)⟩] = true →
      (dst.isGrist = false → ∃ u, exec (.vfcvt f) s = .next u ∧
        VecResult s u f o rm fun k => s.me.cvtElem src dst f.a.toNat (s.me.pos k) env) ∧
      (∀ g, dst = .grist g → ∃ u, exec (.vfcvt f) s = .next u ∧ SlotsConverted s u f src g o (decide (rm = some .sr)) env)))

/-! ## Class 0x4: lengths, masks, movement, reductions, scans (05 R98 to R101, R119 to R129) -/

/-- VSETL grants at most what the type holds and at most what is asked, sets VSTART to zero and answers rows × columns; the
progress form grants no column beyond the words the cell makes available, or says with bit 63 that none is; VSETDIM writes
one pair of dimension registers. -/
def Obligations.VectorLengthResults : Prop :=
  ∀ (f : Fields) (s : State),
    let nt : BitVec 16 := if f.modBit 43 then s.me.vc.vtype else f.imm.setWidth 16
    let rows := min (s.rs f.a).toNat (vtRowcap nt)
    let cols := min (s.rs f.b).toNat (vtColcap nt)
    let granted (x : State) (c extra : Nat) : State :=
      ((x.modMe fun h => { h with vc := { h.vc with
        vtype := nt, vlrow := BitVec.ofNat 14 rows, vlcol := BitVec.ofNat 14 c, vstart := 0 } }).ws f.d
          (BitVec.ofNat 64 (rows * c + extra))).proceed
    (vtypeOk nt = true → exec (.vsetl f) s = .next (granted s cols 0)) ∧
    (vtypeOk nt = true → rows = 0 ∨ cols = 0 → exec (.vsetlProgress f) s = .next (granted s cols 0)) ∧
    (vtypeOk nt = true → rows ≠ 0 → cols ≠ 0 → (s.rs f.c).toNat % 16 = 0 →
      ∀ (s1 s2 : State) (p q : Nat) (e1 e2 : TlbEntry),
        checkAccess s s.ctx .load (s.rs f.c) = (s1, .ok p e1) →
        checkAccess s1 s1.ctx .load (s.rs f.c + 8) = (s2, .ok q e2) →
        spaceOf p = .hbm ∨ spaceOf p = .cellar → spaceOf q = .hbm ∨ spaceOf q = .cellar →
        leafDisc e1.leaf = false → leafDisc e2.leaf = false → leafPres e1.leaf = false → leafPres e2.leaf = false →
        s1.ownedIn p 8 = false → s1.absentIn p 8 = false → s1.poisonedIn p 8 = false →
        s2.ownedIn q 8 = false → s2.absentIn q 8 = false → s2.poisonedIn q 8 = false →
        let avail := ofBytes (s1.bytesFor s1.cur p 8) - ofBytes (s2.bytesFor s2.cur q 8)
        (avail ≠ 0 ∨ f.modBit 44 = true) →
        exec (.vsetlProgress f) s = .next (granted s2 (min cols avail) (if avail = 0 then 2 ^ 63 else 0))) ∧
    (vtypeOk nt = false →
      exec (.vsetl f) s = .next (s.trapped 0x01 ((packWord 0x400 f).setWidth 64) 0)) ∧
    ((s.rs f.a).toNat ≤ dlLimit (f.modField 43 42) →
      exec (.vsetdim f) s = .next (s.modMe fun h => { h with vc := { h.vc with
        dl := h.vc.dl.set (Fin.ofNat 3 (f.modField 43 42)) (h.rs f.a),
        ds := h.vc.ds.set (Fin.ofNat 3 (f.modField 43 42)) (h.rs f.b) } }).proceed)

/-- The compares write a mask, element by element: VCMP by the condition code on integers, VFCMP by its own on floats. -/
def Clauses.VectorCompareResults : Prop :=
  ∀ (f : Fields) (s : State), VecReady s → s.me.vl ≤ 8192 → f.d.toNat < 8 →
    (∀ w, s.me.intW f.w.toNat = some w → groupsOk s.me [] (srcAB f w w) = true →
      ∃ t, exec (.vcmp f) s = .next t ∧ MaskResult s t f (Fin.ofNat 8 f.d.toNat) fun k =>
        (condInt (f.modField 44 42) w (s.me.getE f.a.toNat w (s.me.pos k)) (s.me.elemB f w k), 0)) ∧
    (∀ t, s.me.fmtOf f.w.toNat = some t → (f.immB = true → immFits t f = true) →
      groupsOk s.me [] (srcAB f t.width t.width) = true →
      ∃ u, exec (.vfcmp f) s = .next u ∧ MaskResult s u f (Fin.ofNat 8 f.d.toNat) fun k =>
        t.fcmp (f.modField 44 42) (s.me.fenv 7).flushIn (s.me.getE f.a.toNat t.width (s.me.pos k)) (s.me.fltB f t k))

/-- The mask instructions at VSTART = 0: logic, count, find, the sets before and at the first bit, and both changes of form;
a list of more than 512 indices is refused with bit 63 of s[C] set and the mask left a bitmap. -/
def Clauses.MaskInstructionResults : Prop :=
  ∀ (f : Fields) (s : State), VecReady s → s.me.vstart = 0 → s.me.vl ≤ 8192 → f.d.toNat < 8 → f.a.toNat ≤ 8 → f.b.toNat ≤ 8 →
    let n : Fin 8 := Fin.ofNat 8 f.d.toNat
    let a (k : Nat) := (s.me.maskOp f.a).bit k
    let b (k : Nat) := (s.me.maskOp f.b).bit k
    let hits := (List.range s.me.vl).filter fun k => s.me.enabled f k && a k
    let set := (List.range s.me.vl).filter a
    let low := set.head?
    (∃ t, exec (.mlogic f) s = .next t ∧ t.me.s = s.me.s ∧ MaskSet s t n fun k =>
      match f.modField 44 42 with
      | 0 => a k && b k | 1 => a k || b k | 2 => a k != b k | 3 => a k && !b k
      | 4 => a k || !b k | 5 => !(a k && b k) | 6 => !(a k || b k) | _ => a k == b k) ∧
    exec (.mpopc f) s = .next (s.ws f.d (BitVec.ofNat 64 hits.length)).proceed ∧
    exec (.mffs f) s = .next (s.ws f.d (match hits.head? with
      | some k => BitVec.ofNat 64 k
      | none => BitVec.allOnes 64)).proceed ∧
    (f.modField 44 42 ≤ 4 → ∃ t, exec (.mset f) s = .next t ∧ t.me.s = s.me.s ∧ MaskSet s t n fun k =>
      match f.modField 44 42, low with
      | 0, _ => true | 1, _ => false | 2, some l => decide (k < l) | 3, some l => decide (k ≤ l)
      | 4, some l => decide (k = l) | 4, none => false | _, _ => true) ∧
    (∃ t, exec (.mtobits f) s = .next t ∧ t.me.s = s.me.s ∧ MaskSet s t n a) ∧
    (s.me.vl = 0 → exec (.mtolist f) s = .next (s.ws f.c 0).proceed) ∧
    (s.me.vl ≠ 0 → set.length ≤ 512 → ∃ t, exec (.mtolist f) s = .next t ∧ OnlyMe s t ∧ SameBytes s t ∧
      t.me.m[n] = .list set ∧ (∀ j : Fin 8, j ≠ n → t.me.m[j] = s.me.m[j]) ∧ t.me.pc = s.me.pc + 16 ∧
      (f.c ≠ 0 → t.rs f.c = BitVec.ofNat 64 set.length)) ∧
    (512 < set.length → ∃ t, exec (.mtolist f) s = .next t ∧ MaskSet s t n a ∧
      (f.c ≠ 0 → t.rs f.c = BitVec.ofNat 64 (2 ^ 63 + set.length)))

/-- Compares into masks, and the mask instructions. -/
def Obligations.CompareAndMaskResults : Prop :=
  Clauses.VectorCompareResults ∧ Clauses.MaskInstructionResults

/-- VIOTA, VID, VSPLAT, VMV and VMERGE, element by element, with VMV's whole form and both directions of VMVSX. -/
def Obligations.VectorMoveResults : Prop :=
  (∀ (f : Fields) (s : State) (w : Nat), VecReady s → s.me.intW f.w.toNat = some w →
    let o : Opnd := ⟨f.d.toNat, w, false⟩
    let a (k : Nat) := s.me.getE f.a.toNat w (s.me.pos k)
    (f.a.toNat ≤ 8 → groupsOk s.me [o] [] = true → ∃ t, exec (.viota f) s = .next t ∧ VecResult s t f o none fun k =>
      (((List.range k).filter fun j => s.me.enabled f j && (s.me.maskBits f.a).getLsbD j).length, 0)) ∧
    (groupsOk s.me [o] [] = true → ∃ t, exec (.vid f) s = .next t ∧ VecResult s t f o none fun k =>
      (match f.modField 43 42 with
        | 0 => k
        | 1 => k % s.me.cols
        | 2 => k / s.me.cols
        | _ => s.me.pos k, 0)) ∧
    (f.modBit 45 = false → groupsOk s.me [o] [] = true → ∃ t, exec (.vsplat f) s = .next t ∧
      VecResult s t f o none fun _ => ((if f.immB then (f.imm.signExtend 64 : Word) else s.rs f.b).toNat, 0)) ∧
    (groupsOk s.me [o] [⟨f.a.toNat, w, false⟩] = true → ∃ t, exec (.vmv f) s = .next t ∧
      VecResult s t f o none fun k => (a k, 0)) ∧
    (groupsOk s.me [o] (srcAB f w w) = true → ∃ t, exec (.vmerge f) s = .next t ∧
      VecMoved s t o fun k =>
        if s.me.vstart ≤ k then some (if s.me.enabled f k then s.me.elemB f w k else a k) else none)) ∧
  (∀ (f : Fields) (s : State) (t : Fmt), VecReady s → s.me.fmtOf f.w.toNat = some t → f.modBit 45 = true →
    (f.immB = true → immFits t f = true) → groupsOk s.me [⟨f.d.toNat, t.width, false⟩] [] = true →
    ∃ u, exec (.vsplat f) s = .next u ∧ VecResult s u f ⟨f.d.toNat, t.width, false⟩ none fun _ =>
      (if f.immB then immElem t f else (s.rs f.b).toNat, 0)) ∧
  (∀ (f : Fields) (s : State), VecReady s → f.a.toNat % s.me.g = 0 → f.d.toNat % s.me.g = 0 →
    ∃ t, exec (.vmvWhole f) s = .next t ∧ OnlyMe s t ∧ SameBytes s t ∧
      (∀ j, j < s.me.g → t.me.v[Fin.ofNat 32 (f.d.toNat + j)] = s.me.v[Fin.ofNat 32 (f.a.toNat + j)]) ∧
      (∀ r : Fin 32, ¬ (f.d.toNat ≤ r.val ∧ r.val < f.d.toNat + s.me.g) → t.me.v[r] = s.me.v[r]) ∧
      t.me = { s.me with
        pc := s.me.pc + 16, v := t.me.v, latch := t.me.latch, inWait := false
        vc := { s.me.vc with vstart := 0, vdirty := t.me.vc.vdirty, vhigh := t.me.vc.vhigh } }) ∧
  (∀ (f : Fields) (s : State) (w : Nat), VecReady s → s.me.intW f.w.toNat = some w →
    (f.d.toNat % s.me.g = 0 → ∃ t, exec (.vmvsx f) s = .next t ∧ OnlyMe s t ∧ SameBytes s t ∧
      t.me.getE f.d.toNat w 0 = (s.rs f.a).toNat % 2 ^ w ∧
      (∀ p, 0 < p → p * w < 16384 → t.me.getE f.d.toNat w p = s.me.getE f.d.toNat w p) ∧
      (∀ r : Fin 32, r.val ≠ f.d.toNat → t.me.v[r] = s.me.v[r]) ∧ t.me.s = s.me.s ∧ t.me.pc = s.me.pc + 16) ∧
    (f.a.toNat % s.me.g = 0 → exec (.vmvxs f) s =
      .next (s.ws f.d (BitVec.ofInt 64 (intVal w (f.modBit 43) (s.me.getE f.a.toNat w 0)))).proceed))

/-- The movements that need VSTART = 0 and a destination apart from their source: compress, expand, permute, slide and
transpose, ordinal by ordinal. -/
def Clauses.VectorPermuteResults : Prop :=
  ∀ (f : Fields) (s : State) (w : Nat), VecReady s → s.me.vstart = 0 → s.me.intW f.w.toNat = some w →
    let h := s.me
    let o : Opnd := ⟨f.d.toNat, w, false⟩
    let x : Opnd := ⟨f.a.toNat, w, false⟩
    let y : Opnd := ⟨f.b.toNat, w, false⟩
    let a (k : Nat) := h.getE f.a.toNat w (h.pos k)
    let b (k : Nat) := h.getE f.b.toNat w (h.pos k)
    let act := (List.range h.vl).filter fun k => h.enabled f k
    let off := if f.immB then f.imm.toNat else (s.rs f.b).toNat
    let run := if f.modBit 43 then h.cols else h.vl
    let idx (k : Nat) := if f.modBit 43 then k % h.cols else k
    let from_ (k j : Nat) := if f.modBit 43 then h.getE f.a.toNat w (k / h.cols * h.colcap + j) else a j
    (groupsOk h [o] [x] = true → overlaps f.d.toNat h.g f.a.toNat h.g = false →
      (∃ t, exec (.vcompress f) s = .next t ∧ VecMoved s t o fun k =>
        match act[k]? with
        | some j => some (a j)
        | none => if h.tp then some 0 else none) ∧
      (∃ t, exec (.vexpand f) s = .next t ∧ VecMoved s t o fun k => h.maskedTo f k (some (a (act.idxOf k)))) ∧
      (∃ t, exec (.vslide f) s = .next t ∧ VecMoved s t o fun k => h.maskedTo f k (
        if f.modBit 42 then (if off ≤ idx k then some (from_ k (idx k - off)) else none)
        else some (if idx k + off < run then from_ k (idx k + off) else 0)))) ∧
    (groupsOk h [o] [x, y] = true → overlaps f.d.toNat h.g f.a.toNat h.g = false →
      overlaps f.d.toNat h.g f.b.toNat h.g = false →
      ∃ t, exec (.vperm f) s = .next t ∧ VecMoved s t o fun k => h.maskedTo f k (some (
        if f.modBit 42 then (if b k < h.cols then h.getE f.a.toNat w (k / h.cols * h.colcap + b k) else 0)
        else if b k < h.vl then a (b k) else 0)))

/-- VTRANS8 transposes the body of an 8-register group in place and exchanges the lengths; the tail of the new body is left
by TP, and an empty body changes nothing but the lengths. -/
def Clauses.TransposeResult : Prop :=
  ∀ (f : Fields) (s : State), VecReady s → s.me.vstart = 0 → s.me.g = 8 → s.me.cols ≤ s.me.rowcap → s.me.rows ≤ s.me.colcap →
    (∀ g, vtFlt s.me.vc.vtype ≠ some (.grist g)) → vtypeOk s.me.vc.vtype = true →
    let o : Opnd := ⟨f.d.toNat, s.me.sew, false⟩
    groupsOk s.me [o] [] = true →
    ∃ t, exec (.vtrans8 f) s = .next t ∧ OnlyMe s t ∧ SameBytes s t ∧ t.me.pc = s.me.pc + 16 ∧
      t.me.vc.vlrow = s.me.vc.vlcol ∧ t.me.vc.vlcol = s.me.vc.vlrow ∧ t.me.vc.vtype = s.me.vc.vtype ∧ t.me.s = s.me.s ∧
      (∀ r c, r < s.me.rows → c < s.me.cols →
        t.me.getE f.d.toNat s.me.sew (c * s.me.colcap + r) = s.me.getE f.d.toNat s.me.sew (r * s.me.colcap + c)) ∧
      (∀ p, p < 8 * 16384 / s.me.sew → ¬ (p / s.me.colcap < s.me.cols ∧ p % s.me.colcap < s.me.rows) →
        t.me.getE f.d.toNat s.me.sew p = if s.me.tp && s.me.vl != 0 then 0 else s.me.getE f.d.toNat s.me.sew p) ∧
      (∀ r : Fin 32, ¬ (f.d.toNat ≤ r.val ∧ r.val < f.d.toNat + 8) → t.me.v[r] = s.me.v[r])

/-- Forms that move elements within and between groups. -/
def Obligations.PermuteAndTransposeResults : Prop :=
  Clauses.VectorPermuteResults ∧ Clauses.TransposeResult

/-- The integer reductions at VSTART = 0: the seed of B combined with every active element of A, of the whole body or of
each row. -/
def Clauses.IntegerReductionResults : Prop :=
  ∀ (f : Fields) (s : State) (w : Nat), VecReady s → s.me.vstart = 0 → s.me.intW f.w.toNat = some w → f.modBit 45 = false →
    let h := s.me
    let o : Opnd := ⟨f.d.toNat, w, false⟩
    let n := if f.modBit 47 then h.rows else 1
    let body (r : Nat) := if f.modBit 47 then (List.range h.cols).map (r * h.cols + ·) else List.range h.vl
    let act (r : Nat) := ((body r).filter fun k => h.active f k).map fun k => h.getE f.a.toNat w (h.pos k)
    let seed (r : Nat) := h.getE f.b.toNat w r
    let num (x : Nat) : Int := intVal w (f.modBit 42) x
    groupsOk h [o] [⟨f.a.toNat, w, false⟩, ⟨f.b.toNat, w, false⟩] = true → n ≤ o.size h * 16384 / w →
    (∃ t, exec (.vredsum f) s = .next t ∧ Reduced s t o n fun r => (act r).foldl (· + ·) (seed r)) ∧
    (∃ t, exec (.vredmax f) s = .next t ∧ Reduced s t o n fun r =>
      (act r).foldl (fun x y => if num y ≤ num x then x else y) (seed r)) ∧
    (∃ t, exec (.vredmin f) s = .next t ∧ Reduced s t o n fun r =>
      (act r).foldl (fun x y => if num x ≤ num y then x else y) (seed r)) ∧
    (∃ t, exec (.vredlog f) s = .next t ∧ Reduced s t o n fun r =>
      (act r).foldl (fun x y => match f.modField 43 42 with | 0 => x &&& y | 1 => x ||| y | _ => x ^^^ y) (seed r))

/-- VSCAN and VCHAIN over integers: each enabled element is the operation on the carry and the source, where the carry is
s[C] at ordinal 0 and the destination's element before it elsewhere; an element that is not enabled is the carry. -/
def Clauses.IntegerScanResults : Prop :=
  ∀ (f : Fields) (s : State) (w : Nat), VecReady s → s.me.intW f.w.toNat = some w → f.modBit 45 = false →
    let h := s.me
    let o : Opnd := ⟨f.d.toNat, w, false⟩
    let a (k : Nat) := h.getE f.a.toNat w (h.pos k)
    let b (k : Nat) := h.getE f.b.toNat w (h.pos k)
    let carry (t : State) (k : Nat) :=
      if k = 0 then (s.rs f.c).toNat % 2 ^ w else t.me.getE f.d.toNat w (h.pos (k - 1))
    (groupsOk h [o] [⟨f.a.toNat, w, false⟩] = true → ∃ t, exec (.vscan f) s = .next t ∧
      VecMoved s t o fun k => if h.vstart ≤ k then
        some (if h.enabled f k then scanOp (f.modField 44 42) (f.modBit 46) w (carry t k) (a k) else carry t k) else none) ∧
    (f.x.getLsbD 0 = false → groupsOk h [o] [⟨f.a.toNat, w, false⟩, ⟨f.b.toNat, w, false⟩] = true →
      ∃ t, exec (.vchain f) s = .next t ∧ VecMoved s t o fun k => if h.vstart ≤ k then
        some (if h.enabled f k then a k * carry t k + b k else carry t k) else none) ∧
    (f.x.getLsbD 0 = true → groupsOk h [o] [⟨f.b.toNat, w, false⟩] = true →
      ∃ t, exec (.vchain f) s = .next t ∧ VecMoved s t o fun k => if h.vstart ≤ k then
        some (if h.enabled f k then carry t k + b k else carry t k) else none)

/-- Integer reductions and scans. -/
def Obligations.IntegerReductionAndScanResults : Prop :=
  Clauses.IntegerReductionResults ∧ Clauses.IntegerScanResults

/-- The floating reductions and scans at their format: VREDSUM adds in the tree order, or in ordinal order with the seed
first, VREDMAX and VREDMIN combine in order, and VSCAN and VCHAIN run the carry through the enabled elements. -/
def Obligations.FloatReductionAndScanResults : Prop :=
  ∀ (f : Fields) (s : State) (t : Fmt), VecReady s → s.me.fmtOf f.w.toNat = some t → f.modBit 45 = true →
    let h := s.me
    let o : Opnd := ⟨f.d.toNat, t.width, false⟩
    let e := h.fenv (f.modField 44 42)
    let e7 := h.fenv 7
    let n := if f.modBit 47 then h.rows else 1
    let body (r : Nat) := if f.modBit 47 then (List.range h.cols).map (r * h.cols + ·) else List.range h.vl
    let elems (r : Nat) (g : Nat → Nat) : List (Option Node) := (body r).map fun k =>
      if h.active f k then some ⟨g (h.getE f.a.toNat t.width (h.pos k)), k, []⟩ else none
    let add (i a b : Nat) := t.fadd e.inner i a b
    let seed (r : Nat) := h.getE f.b.toNat t.width r
    let a (k : Nat) := h.getE f.a.toNat t.width (h.pos k)
    let carry (u : State) (c0 : Nat) (k : Nat) := if k = 0 then c0 else u.me.getE f.d.toNat t.width (h.pos (k - 1))
    (h.vstart = 0 → groupsOk h [o] [⟨f.a.toNat, t.width, false⟩, ⟨f.b.toNat, t.width, false⟩] = true →
      n ≤ o.size h * 16384 / t.width →
      (∃ u, exec (.vredsum f) s = .next u ∧ Reduced s u o n fun r =>
        let l := elems r (t.flushBits e.flushIn)
        let sd := if l.any Option.isSome then t.flushBits e.flushIn (seed r) else seed r
        if f.modBit 46 then (orderedSum add h.pos sd l).v
        else (treeSum add h.pos (epgOf [t.width]) (8192 + r) sd l).v) ∧
      (∃ u, exec (.vredmax f) s = .next u ∧ Reduced s u o n fun r =>
        (orderedSum (fun _ x y => t.flushRes e7 (t.fminmax true e7.flushIn x y)) h.pos (seed r) (elems r id)).v) ∧
      (∃ u, exec (.vredmin f) s = .next u ∧ Reduced s u o n fun r =>
        (orderedSum (fun _ x y => t.flushRes e7 (t.fminmax false e7.flushIn x y)) h.pos (seed r) (elems r id)).v)) ∧
    (groupsOk h [o] [⟨f.a.toNat, t.width, false⟩] = true → ∃ u, exec (.vscan f) s = .next u ∧ OnlyMe s u ∧
      SameBytes s u ∧ u.me.pc = h.pc + 16 ∧ u.me.vc.vstart = 0 ∧ u.me.s = h.s ∧ u.me.m = h.m ∧
      (∀ r : Fin 32, ¬ (f.d.toNat ≤ r.val ∧ r.val < f.d.toNat + h.g) → u.me.v[r] = h.v[r]) ∧
      ∀ k, h.vstart ≤ k → k < h.vl → u.me.getE f.d.toNat t.width (h.pos k) =
        (if h.enabled f k then
          (t.flushRes e7 (t.fminmax (f.modField 44 42 == 1) e7.flushIn (carry u ((s.rs f.c).toNat % 2 ^ t.width) k) (a k))).1
        else carry u ((s.rs f.c).toNat % 2 ^ t.width) k) % 2 ^ t.width) ∧
    (f.x.getLsbD 0 = true → groupsOk h [o] [⟨f.b.toNat, t.width, false⟩] = true →
      ∃ u, exec (.vchain f) s = .next u ∧ OnlyMe s u ∧ SameBytes s u ∧ u.me.pc = h.pc + 16 ∧ u.me.vc.vstart = 0 ∧
      u.me.s = h.s ∧ u.me.m = h.m ∧
      (∀ r : Fin 32, ¬ (f.d.toNat ≤ r.val ∧ r.val < f.d.toNat + h.g) → u.me.v[r] = h.v[r]) ∧
      ∀ k, h.vstart ≤ k → k < h.vl →
        let c := carry u (t.flushBits e.flushIn ((s.rs f.c).toNat % 2 ^ t.width)) k
        u.me.getE f.d.toNat t.width (h.pos k) =
          (if h.enabled f k then (chainStep t e (h.pos k) true (a k) c (h.getE f.b.toNat t.width (h.pos k))).1 else c) %
            2 ^ t.width) ∧
    (f.x.getLsbD 0 = false →
      groupsOk h [o] [⟨f.a.toNat, t.width, false⟩, ⟨f.b.toNat, t.width, false⟩] = true →
      ∃ u, exec (.vchain f) s = .next u ∧ OnlyMe s u ∧ SameBytes s u ∧ u.me.pc = h.pc + 16 ∧ u.me.vc.vstart = 0 ∧
      u.me.s = h.s ∧ u.me.m = h.m ∧
      (∀ r : Fin 32, ¬ (f.d.toNat ≤ r.val ∧ r.val < f.d.toNat + h.g) → u.me.v[r] = h.v[r]) ∧
      ∀ k, h.vstart ≤ k → k < h.vl →
        let c := carry u (t.flushBits e.flushIn ((s.rs f.c).toNat % 2 ^ t.width)) k
        u.me.getE f.d.toNat t.width (h.pos k) =
          (if h.enabled f k then (chainStep t e (h.pos k) false (a k) c (h.getE f.b.toNat t.width (h.pos k))).1 else c) %
            2 ^ t.width)

/-! ## Class 0x5: vector memory (06 R141 to R166) -/

/-- The loads: unit stride, rows at a pitch, indexed, segments, sweeps and broadcast rows of every element type their entries
take, and whole registers. Each reads its elements at the addresses of its entry; an issue past its length only clears VSTART,
and one of no elements leaves even that. -/
def Obligations.VectorLoadResults : Prop :=
  ∀ (f : Fields) (s : State) (ty : MTy), VecReady s → s.me.memTy f.w.toNat = some ty → ty.shapeOk s.me = true →
    let h := s.me
    let base := s.rs f.a + f.imm.signExtend 64
    let fits (nf : Nat) : Prop :=
      f.d.toNat + nf * h.g ≤ 32 ∧ ∀ j, j < nf → Opnd.ok ⟨f.d.toNat + j * h.g, ty.width, false⟩ h = true
    let m (nf : Nat) (cell : MTy → Word → Hart → Nat → Word × Nat) : MemOp :=
      { load := true, ty := ty, reg := f.d.toNat, nf := nf, cell := cell ty base, vl := h.vl, epg := 1 }
    let loads (i : Instr) (nf : Nat) (cell : MTy → Word → Hart → Nat → Word × Nat) : Prop :=
      (h.vl = 0 → exec i s = .next s.proceed) ∧
      (h.vl ≠ 0 → h.vl ≤ h.vstart →
        exec i s = .next (s.modMe fun h => { h with vc := { h.vc with vstart := 0 } }).proceed) ∧
      (∀ l, MemReady s f (m nf cell) l → ∃ t, exec i s = .next t ∧ MemLoaded s t f (m nf cell) (nf * h.g) l)
    let nf := f.modField 44 42 + 1
    let nIdx := max 1 (h.g * idxWidth f / ty.width)
    let total := h.vc.dl[0].toNat * h.vc.dl[1].toNat * h.vc.dl[2].toNat
    (fits 1 → loads (.vld f) 1 cellUnit ∧ loads (.vlds f) 1 (cellRows (s.rs f.b))) ∧
    (fits nf → ty.isPacked = false → (∀ n b c, ty = .block n b c → n = 16) →
      loads (.vldseg f) nf (cellSeg (s.rs f.b))) ∧
    (fits 1 → ty.isPlain = true →
      loads (.vldbc f) 1 (fun ty base h k => (base + BitVec.ofNat 64 (k % h.cols * (ty.width / 8)), 0)) ∧
      (nIdx ≤ 8 → f.b.toNat % nIdx = 0 → h.bodyFits nIdx (idxWidth f) = true →
        overlaps f.d.toNat h.g f.b.toNat nIdx = false →
        loads (.vldx f) 1 (fun ty base h k => (base + idxOffset f ty.width h k, 0))) ∧
      (h.vl = 0 ∨ total ≠ 0 ∧ (s.rs f.b).toNat + h.vl ≤ total →
        loads (.vldmd f) 1 (fun _ base h k =>
          let i := h.sweep ((s.rs f.b).toNat + k)
          (base + BitVec.ofNat 64 i.1 * h.vc.ds[0] + BitVec.ofNat 64 i.2.1 * h.vc.ds[1] +
            BitVec.ofNat 64 i.2.2 * h.vc.ds[2], 0)))) ∧
    (f.d.toNat % 2 ^ f.modField 43 42 = 0 → ∀ l,
      let n := 2 ^ f.modField 43 42
      let m : MemOp :=
        { load := true, ty := .plain 64, reg := f.d.toNat, cell := fun _ k => (base + BitVec.ofNat 64 (8 * k), 0)
          vl := 256 * n, epg := 1, whole := true }
      MemReady s f m l → ∃ t, exec (.vldr f) s = .next t ∧ MemLoaded s t f m n l)

/-- The stores of the same forms, on a first issue: the bits written, last ordinal last, and nothing else. -/
def Obligations.VectorStoreResults : Prop :=
  ∀ (f : Fields) (s : State) (ty : MTy), VecReady s → s.me.status.mfr = false → s.memOk → s.me.memTy f.w.toNat = some ty →
    ty.shapeOk s.me = true →
    let h := s.me
    let base := s.rs f.a + f.imm.signExtend 64
    let fits (nf : Nat) : Prop :=
      f.c.toNat + nf * h.g ≤ 32 ∧ ∀ j, j < nf → Opnd.ok ⟨f.c.toNat + j * h.g, ty.width, false⟩ h = true
    let m (nf : Nat) (cell : MTy → Word → Hart → Nat → Word × Nat) : MemOp :=
      { load := false, ty := ty, reg := f.c.toNat, nf := nf, cell := cell ty base, vl := h.vl, epg := 1 }
    let stores (i : Instr) (nf : Nat) (cell : MTy → Word → Hart → Nat → Word × Nat) : Prop :=
      (h.vl = 0 → exec i s = .next s.proceed) ∧
      (h.vl ≠ 0 → h.vl ≤ h.vstart →
        exec i s = .next (s.modMe fun h => { h with vc := { h.vc with vstart := 0 } }).proceed) ∧
      (∀ l, MemReady s f (m nf cell) l → ∃ t, exec i s = .next t ∧ MemStored s t f (m nf cell) l)
    let nf := f.modField 44 42 + 1
    let nIdx := max 1 (h.g * idxWidth f / ty.width)
    let total := h.vc.dl[0].toNat * h.vc.dl[1].toNat * h.vc.dl[2].toNat
    (fits 1 → stores (.vst f) 1 cellUnit ∧ stores (.vsts f) 1 (cellRows (s.rs f.b))) ∧
    (fits nf → ty.isPacked = false → (∀ n b c, ty = .block n b c → n = 16) →
      stores (.vstseg f) nf (cellSeg (s.rs f.b))) ∧
    (fits 1 → ty.isPlain = true →
      (nIdx ≤ 8 → f.b.toNat % nIdx = 0 → h.bodyFits nIdx (idxWidth f) = true →
        stores (.vstx f) 1 (fun ty base h k => (base + idxOffset f ty.width h k, 0))) ∧
      (h.vl = 0 ∨ total ≠ 0 ∧ (s.rs f.b).toNat + h.vl ≤ total →
        stores (.vstmd f) 1 (fun _ base h k =>
          let i := h.sweep ((s.rs f.b).toNat + k)
          (base + BitVec.ofNat 64 i.1 * h.vc.ds[0] + BitVec.ofNat 64 i.2.1 * h.vc.ds[1] +
            BitVec.ofNat 64 i.2.2 * h.vc.ds[2], 0)))) ∧
    (f.c.toNat % 2 ^ f.modField 43 42 = 0 → ∀ l,
      let n := 2 ^ f.modField 43 42
      let m : MemOp :=
        { load := false, ty := .plain 64, reg := f.c.toNat, cell := fun _ k => (base + BitVec.ofNat 64 (8 * k), 0)
          vl := 256 * n, epg := 1, whole := true }
      MemReady s f m l → ∃ t, exec (.vstr f) s = .next t ∧ MemStored s t f m l)

/-- Where the loads fault, for every form and element type: a misaligned address traps before anything is done, and of accesses
that fail their checks the others are performed and the batch traps with the cause, EIDX and EADDR of the lowest failing
ordinal, MF naming them all, so that ERET issues those alone again. -/
def Clauses.LoadsFaultInBatches : Prop :=
  ∀ (f : Fields) (s : State) (ty : MTy), VecReady s → s.me.memTy f.w.toNat = some ty → ty.shapeOk s.me = true →
    let h := s.me
    let base := s.rs f.a + f.imm.signExtend 64
    let fits (nf : Nat) : Prop :=
      f.d.toNat + nf * h.g ≤ 32 ∧ ∀ j, j < nf → Opnd.ok ⟨f.d.toNat + j * h.g, ty.width, false⟩ h = true
    let m (nf : Nat) (cell : MTy → Word → Hart → Nat → Word × Nat) : MemOp :=
      { load := true, ty := ty, reg := f.d.toNat, nf := nf, cell := cell ty base, vl := h.vl, epg := 1 }
    let nf := f.modField 44 42 + 1
    let nIdx := max 1 (h.g * idxWidth f / ty.width)
    let total := h.vc.dl[0].toNat * h.vc.dl[1].toNat * h.vc.dl[2].toNat
    let index (k : Nat) := h.sweep ((s.rs f.b).toNat + k)
    (fits 1 → FaultsInBatch (.vld f) s f (m 1 cellUnit) ∧ FaultsInBatch (.vlds f) s f (m 1 (cellRows (s.rs f.b)))) ∧
    (fits nf → ty.isPacked = false → (∀ n b c, ty = .block n b c → n = 16) →
      FaultsInBatch (.vldseg f) s f (m nf (cellSeg (s.rs f.b)))) ∧
    (fits 1 → ty.isPlain = true →
      FaultsInBatch (.vldbc f) s f
        (m 1 fun ty base h k => (base + BitVec.ofNat 64 (k % h.cols * (ty.width / 8)), 0)) ∧
      (nIdx ≤ 8 → f.b.toNat % nIdx = 0 → h.bodyFits nIdx (idxWidth f) = true →
        overlaps f.d.toNat h.g f.b.toNat nIdx = false →
        FaultsInBatch (.vldx f) s f (m 1 fun ty base h k => (base + idxOffset f ty.width h k, 0))) ∧
      (total ≠ 0 → (s.rs f.b).toNat + h.vl ≤ total →
        FaultsInBatch (.vldmd f) s f
          { m 1 (fun _ base h k =>
              let i := h.sweep ((s.rs f.b).toNat + k)
              (base + BitVec.ofNat 64 i.1 * h.vc.ds[0] + BitVec.ofNat 64 i.2.1 * h.vc.ds[1] +
                BitVec.ofNat 64 i.2.2 * h.vc.ds[2], 0)) with
            eidx := fun k => (index k).1 + (index k).2.1 * 2 ^ 20 + (index k).2.2 * 2 ^ 40 })) ∧
    (f.d.toNat % 2 ^ f.modField 43 42 = 0 →
      FaultsInBatch (.vldr f) s f
        { load := true, ty := .plain 64, reg := f.d.toNat, cell := fun _ k => (base + BitVec.ofNat 64 (8 * k), 0)
          vl := 256 * 2 ^ f.modField 43 42, epg := 1, whole := true })

/-- Where the stores of the same forms fault. -/
def Clauses.StoresFaultInBatches : Prop :=
  ∀ (f : Fields) (s : State) (ty : MTy), VecReady s → s.me.memTy f.w.toNat = some ty → ty.shapeOk s.me = true →
    let h := s.me
    let base := s.rs f.a + f.imm.signExtend 64
    let fits (nf : Nat) : Prop :=
      f.c.toNat + nf * h.g ≤ 32 ∧ ∀ j, j < nf → Opnd.ok ⟨f.c.toNat + j * h.g, ty.width, false⟩ h = true
    let m (nf : Nat) (cell : MTy → Word → Hart → Nat → Word × Nat) : MemOp :=
      { load := false, ty := ty, reg := f.c.toNat, nf := nf, cell := cell ty base, vl := h.vl, epg := 1 }
    let nf := f.modField 44 42 + 1
    let nIdx := max 1 (h.g * idxWidth f / ty.width)
    let total := h.vc.dl[0].toNat * h.vc.dl[1].toNat * h.vc.dl[2].toNat
    let index (k : Nat) := h.sweep ((s.rs f.b).toNat + k)
    (fits 1 → FaultsInBatch (.vst f) s f (m 1 cellUnit) ∧ FaultsInBatch (.vsts f) s f (m 1 (cellRows (s.rs f.b)))) ∧
    (fits nf → ty.isPacked = false → (∀ n b c, ty = .block n b c → n = 16) →
      FaultsInBatch (.vstseg f) s f (m nf (cellSeg (s.rs f.b)))) ∧
    (fits 1 → ty.isPlain = true →
      (nIdx ≤ 8 → f.b.toNat % nIdx = 0 → h.bodyFits nIdx (idxWidth f) = true →
        FaultsInBatch (.vstx f) s f (m 1 fun ty base h k => (base + idxOffset f ty.width h k, 0))) ∧
      (total ≠ 0 → (s.rs f.b).toNat + h.vl ≤ total →
        FaultsInBatch (.vstmd f) s f
          { m 1 (fun _ base h k =>
              let i := h.sweep ((s.rs f.b).toNat + k)
              (base + BitVec.ofNat 64 i.1 * h.vc.ds[0] + BitVec.ofNat 64 i.2.1 * h.vc.ds[1] +
                BitVec.ofNat 64 i.2.2 * h.vc.ds[2], 0)) with
            eidx := fun k => (index k).1 + (index k).2.1 * 2 ^ 20 + (index k).2.2 * 2 ^ 40 })) ∧
    (f.c.toNat % 2 ^ f.modField 43 42 = 0 →
      FaultsInBatch (.vstr f) s f
        { load := false, ty := .plain 64, reg := f.c.toNat, cell := fun _ k => (base + BitVec.ofNat 64 (8 * k), 0)
          vl := 256 * 2 ^ f.modField 43 42, epg := 1, whole := true })

/-- VLDFF in one row from VSTART = 0: the elements below the first active one that fails its checks are loaded, VLCOL and
s[C] take that ordinal, VL when none fails; only the failure of the first active element traps, and loads nothing. -/
def Clauses.FaultOnlyFirstResult : Prop :=
  ∀ (f : Fields) (s : State) (w : Nat) (l : Nat → List Piece), VecReady s → s.me.memTy f.w.toNat = some (.plain w) →
    s.me.vstart = 0 → s.me.rows = 1 →
    let h := s.me
    let va (k : Nat) : Word := s.rs f.a + f.imm.signExtend 64 + BitVec.ofNat 64 (k * (w / 8))
    let act := (List.range h.vl).filter (h.active f)
    let fails (k : Nat) : Bool := (worst (l k)).isSome || (nowhereOf (l k)).isSome
    let top := (act.find? fails).getD h.vl
    Opnd.ok ⟨f.d.toNat, w, false⟩ h = true →
    (∀ k ∈ act, (va k).toNat % (w / 8) = 0 ∧ checkRun s s.ctx true (va k) (w / 8) = (s, l k) ∧
      s.held true (l k) = false) →
    (h.vl = 0 → exec (.vldff f) s = .next (s.ws f.c 0).proceed) ∧
    (∀ k0, act.head? = some k0 → fails k0 = false →
      ∃ t, exec (.vldff f) s = .next t ∧ SameBytes s t ∧ OnlyMe s t ∧ t.me.pc = h.pc + 16 ∧
        t.me.vc.vlcol = BitVec.ofNat 14 top ∧ t.me.vc.vlrow = h.vc.vlrow ∧ (f.c ≠ 0 → t.rs f.c = BitVec.ofNat 64 top) ∧
        (∀ k, k < top → t.me.getE f.d.toNat w k =
          if h.enabled f k then ofBytes (s.seen (l k)) else if h.mp then 0 else h.getE f.d.toNat w k) ∧
        (∀ r : Fin 32, ¬ (f.d.toNat ≤ r.val ∧ r.val < f.d.toNat + h.g) → t.me.v[r] = h.v[r])) ∧
    (∀ k0 c lv a, act.head? = some k0 → nowhereOf (l k0) = none → worst (l k0) = some (c, lv, a) →
      ∃ t, exec (.vldff f) s = .next t ∧ t.me.tr.cause = BitVec.ofNat 8 c ∧ t.me.tr.eidx = BitVec.ofNat 64 k0 ∧
        t.me.tr.eaddr = va k0 ∧ t.me.tr.epc = align16 h.pc ∧ t.me.v = h.v ∧ t.me.s = h.s ∧ t.me.vc = h.vc)

/-- VPREF changes nothing; VBIND takes the lowest free binding for an attached handle, with the element type as it resolves now, and VUNBIND frees the binding of its
group. -/
def Clauses.BindingResults : Prop :=
  ∀ (f : Fields) (s : State), s.me.vstart = 0 →
    exec (.vpref f) s = .next s.proceed ∧
    (∀ (i : Fin 4) (t : BitVec 4), s.me.bindType f.w = some t →
      (s.me.vbind[i]).v = false → (∀ j : Fin 4, j < i → (s.me.vbind[j]).v = true) →
      (∀ j : Fin 4, (s.me.vbind[j]).v = true →
        overlaps (s.me.vbind[j]).group.toNat (2 ^ (s.me.vbind[j]).lg.toNat) f.d.toNat s.me.g = false ∧
        (s.me.vbind[j]).handle ≠ f.a) →
      f.d.toNat % s.me.g = 0 → s.me.vc.vvalid = BitVec.allOnes 41 →
      (s.handleOf s.cur.cluster f.a.toNat).desc.isSome = true →
      exec (.vbind f) s = .next (s.modMe fun h => { h with
        vbind := h.vbind.set i ⟨true, f.modBit 42, false, f.d, h.vc.vtype.extractLsb' 6 2, f.a, t⟩ }).proceed) ∧
    (∀ i : Fin 4, (s.me.vbind[i]).v = true → (s.me.vbind[i]).group = f.d →
      (∀ j : Fin 4, j < i → (s.me.vbind[j]).v = true → (s.me.vbind[j]).group ≠ f.d) →
      exec (.vunbind f) s = .next (s.modMe fun h => { h with vbind := h.vbind.set i VBind.zero }).proceed)

/-- Batch faults, the fault-only-first load, and stream bindings. -/
def Obligations.BatchedFaultsAndBindings : Prop :=
  Clauses.LoadsFaultInBatches ∧ Clauses.StoresFaultInBatches ∧ Clauses.FaultOnlyFirstResult ∧ Clauses.BindingResults

/-! ## Class 0x6: streams (09 R241 to R266) -/

/-- Loading, swapping and changing configurations, and binding handles: SPROG and SSWAP of an image that passes its checks,
SPREF, SBIND, SUNBIND, STWID, SPATCH, SMOD and SSCALE; an image that fails a check raises 0x01 with the line's number, and one
whose header is poisoned 0x16. SBIND of V = 0 unbinds, and binding clears the bias (the model's choices, logs 44 and 9). -/
def Obligations.StreamConfigurationResults : Prop :=
  ∀ (f : Fields) (s : State),
    let c := s.cur.cluster
    let x := s.fabric c
    let pa := s.located (s.rs f.a)
    let cfg := s.loadConfig c pa
    let idle := x.running = false
    let fabricIs (g : Fabric → Fabric) : State := (s.modFabric c g).proceed
    (ImageReady s (s.rs f.a) → cfg.bad = none → RunsReady s (cfg.tableRuns c) →
      exec (.sprog f) s = .next (fabricIs fun y => { y with shadow := some cfg, loading := none }) ∧
      (idle → (∀ z, x.shadow = some z → z.loc = pa → x.loading = some pa) →
        exec (.sswap f) s = .next (fabricIs fun y => { y with
          active := some cfg, shadow := y.active, loading := if y.loading = some pa then none else y.loading })) ∧
      exec (.spref f) s = .next (fabricIs fun y => { y with loading := some pa })) ∧
    (LocatorOk (s.rs f.a) 64 → idle → ∀ z, x.shadow = some z → z.loc = pa → x.loading ≠ some pa → z.bad = none →
      RunsReady s (z.tableRuns c) → exec (.sswap f) s = .next (fabricIs fun y => { y with active := some z, shadow := y.active })) ∧
    (ImageReady s (s.rs f.a) → ∀ n, cfg.bad = some n →
      exec (.sprog f) s = .next (s.trapped 0x01 (BitVec.ofNat 64 n) 0)) ∧
    (LocatorOk (s.rs f.a) 64 → s.ownedIn pa 64 = false → s.absentIn pa 64 = false → ∀ a, s.poisonFrom pa 64 = some a →
      exec (.sprog f) s = .next (s.trapped 0x16 (BitVec.ofNat 64 a) 0) ∧
      exec (.spref f) s = .next (s.trapped 0x16 (BitVec.ofNat 64 a) 0)) ∧
    (∀ p, x.uses f.d.toNat = false → WordsAt s (s.rs f.a) 8 p →
      let d : StreamDesc := BitVec.ofNat 512 (wordsAt s 8 p)
      d.valid = false ∨ d.ok c = true →
      exec (.sbind f) s = .next (s.setMyHandle f.d.toNat
        { Handle.reset with desc := if d.valid then some d else none }).proceed) ∧
    (x.uses f.d.toNat = false → exec (.sunbind f) s = .next (s.setMyHandle f.d.toNat Handle.reset).proceed) ∧
    (x.uses f.d.toNat = true → exec (.sbind f) s = .next (s.trapped 0x01 ((packWord 0x603 f).setWidth 64) 0) ∧
      exec (.sunbind f) s = .next (s.trapped 0x01 ((packWord 0x604 f).setWidth 64) 0)) ∧
    (∀ y, x.target (f.modBit 42) = some y → y.bad = none →
      let n := f.immField 6 0
      let k := f.immField 10 8
      (1 ≤ n → n ≤ y.nnode → y.kind n = 3 → y.resident n = true →
        RunsReady s [(cellarPa c (y.sFtab n), y.sNb n * y.blockBytes n)] →
        exec (.stwid f) s = .next (fabricIs fun z => z.setTarget (f.modBit 42)
          { y with tables := y.tables.filter (fun t => t.1 != n) ++ [(n, s.readTable c y n)] })) ∧
      (let new := { y with lines := y.lines.set n (setBits (y.line n) (64 * k) 64 (s.rs f.a).toNat) }
       k ≠ 0 → 1 ≤ n → n ≤ y.nnode → new.firstBad = none →
        exec (.spatch f) s = .next (fabricIs fun z => z.setTarget (f.modBit 42) new))) ∧
    (let p := (s.rs f.a).toNat
     let q := (s.rs f.b).toNat
     let n := (s.rs f.c).toNat
     p < 2 ^ 31 → q < 2 ^ 31 → p ≠ q → n ≠ 0 → 2 ≤ p → 2 ≤ q →
      (∀ d, d ∣ p → d = 1 ∨ d = p) → (∀ d, d ∣ q → d = 1 ∨ d = q) → (p - 1) % n = 0 → (q - 1) % n = 0 → idle →
      exec (.smod f) s = .next (s.modMe fun h => { h with
        modp := BitVec.ofNat 31 p, modq := BitVec.ofNat 31 q, sstatus := h.sstatus ||| 4 }).proceed) ∧
    (∀ d, (s.handleOf c f.d.toNat).desc = some d → d.type ≤ 1 →
      exec (.sscale f) s = .next (s.setMyHandle f.d.toNat
        { s.handleOf c f.d.toNat with bias := ((s.rs f.a).setWidth 16 : BitVec 16).toInt }).proceed)

/-- Running a program: SRUN starts every node of the active configuration and every handle it names at position zero (the
model's reading, log 44), and answers 0; where the groups cannot be taken a free hart is answered fail(1). SDRAIN of the owner
after the end answers the tokens written, and steps SRSEED when the program that ran rounds with SR; SSTAT reads a handle and
SSTATCFG the configuration. -/
def Clauses.StreamRunResults : Prop :=
  ∀ (f : Fields) (s : State),
    let c := s.cur.cluster
    let x := s.fabric c
    (x.active = none ∨ x.running = true → exec (.srun f) s = .next (s.trapped 0x01 ((packWord 0x605 f).setWidth 64) 0)) ∧
    (∀ cfg, x.active = some cfg → x.running = false → cfg.bad = none → cfg.bound x = true →
      (cfg.mode = 2 → s.me.sstatus.getLsbD 2 = true) → (cfg.rev = true → (cfg.leesNode x).isSome = true) →
      cfg.scratchOk x = true → typeFault cfg x = none → RunsReady s (s.topRuns c cfg) →
      let free := s.canTake cfg.groups (s.heldGroups c none)
      (free = true → ∃ t r, exec (.srun f) s = .next t ∧ (t.fabric c).run = some r ∧ r.owner = s.cur ∧
        r.gang = s.me.gang ∧ r.groups = cfg.groups ∧ r.ended = false ∧ r.written = 0 ∧ r.frozen = .no ∧
        r.rounds = cfg.rounds ∧
        r.nodes.map NodeState.id = cfg.nodes ∧ r.modp = s.me.modp.toNat ∧ r.modq = s.me.modq.toNat ∧
        (∀ n ∈ cfg.nodes, cfg.kind n ≤ 2 →
          (t.handleOf c (cfg.handle n)).pos = 0 ∧ (t.handleOf c (cfg.handle n)).ended = false ∧
          (t.handleOf c (cfg.handle n)).held = false ∧ (t.handleOf c (cfg.handle n)).passed = 0) ∧
        (t.fabric c).active = x.active ∧ t.me.pc = s.me.pc + 16 ∧ (f.d ≠ 0 → t.rs f.d = 0) ∧
        ((∀ x ∈ s.storeBuf, x.hart ≠ s.cur) → ∀ k, k ≠ s.cur → t.hart k = s.hart k)) ∧
      (free = false → s.me.gang = none → exec (.srun f) s = .next (s.ws f.d (BitVec.ofNat 64 (2 ^ 63 + 1))).proceed)) ∧
    (∀ r, x.run = some r → r.owner = s.cur → r.ended = true → r.ovf = false ∨ s.me.sstatus.getLsbD 1 = false →
      exec (.sdrain f) s = .next ((s.modFabric c fun y => { y with run := none }).modMe fun h =>
        let h := h.ws f.d (BitVec.ofNat 64 r.written)
        if r.rounds = true ∧ r.env.mode = .sr then
          { h with fp := { h.fp with seed := srStep h.fp.seed } } else h).proceed) ∧
    (∃ v : Word, exec (.sstat f) s = .next (s.ws f.d v).proceed ∧
      let h := s.handleOf c f.a.toNat
      v.extractLsb' 0 32 = BitVec.ofNat 32 h.passed ∧ v.getLsbD 32 = h.ended ∧ v.getLsbD 33 = h.held ∧
      v.getLsbD 34 = h.desc.isSome ∧ v.extractLsb' 35 5 = 0 ∧ v.extractLsb' 40 24 = BitVec.ofNat 24 h.errs) ∧
    (∃ v : Word, exec (.sstatCfg f) s = .next (s.ws f.d v).proceed ∧
      v.getLsbD 0 = x.active.any (fun y => y.bad.isNone) ∧ v.getLsbD 1 = x.running ∧
      v.getLsbD 2 = x.shadow.any (fun y => y.bad.isNone) ∧ v.getLsbD 3 = x.loading.isSome ∧
      v.getLsbD 4 = x.run.any (fun r => !r.ended && r.frozen != .no) ∧ v.extractLsb' 14 50 = 0 ∧
      (∀ r, x.run = some r →
        v.extractLsb' 5 7 = BitVec.ofNat 7 r.owner.cluster.val ∧ v.extractLsb' 12 2 = BitVec.ofNat 2 r.owner.val))

/-- Hart ports and held regions: SINJ sends a token on the hart's lane, SEXT takes the oldest or reports the end, SEOS closes
the lane; SMARK of a program whose marker has passed saves and freezes the region, SRESUME.IMG restores the one that the save
area holds for the active configuration (what the area's node images are is the model's choice, log 50), and SRESUME lets a
held generator go on, or records that for the rebooked start of the gang whose program is frozen. -/
def Clauses.StreamPortAndRegionResults : Prop :=
  ∀ (f : Fields) (s : State),
    let c := s.cur.cluster
    let inH := s.handleOf c f.d.toNat
    let outH := s.handleOf c f.a.toNat
    (∀ d y, inH.desc = some d → d.space = 3 → d.out = false → inH.takeLane s.cur.val = some y →
      (inH.port.length ≤ Config.portDepth → exec (.sinj f) s = .next (s.setMyHandle f.d.toNat
        { y with port := y.port ++ [(s.rs f.a).toNat % 2 ^ (typeBits d.type * if d.cplx then 2 else 1)] }).proceed) ∧
      (Config.portDepth < inH.port.length → exec (.sinj f) s = .next (s.waiting .stream)) ∧
      exec (.seos f) s = .next (s.setMyHandle f.d.toNat { y with
        lanes := y.lanes.map fun l => if l.producer = s.cur.val then { l with closed := true } else l }).proceed) ∧
    (∀ d, inH.desc = some d → d.space = 3 → d.out = false → inH.takeLane s.cur.val = none →
      exec (.sinj f) s = .next (s.trapped 0x17 0x0C 0) ∧ exec (.seos f) s = .next (s.trapped 0x17 0x0C 0)) ∧
    (∀ d, outH.desc = some d → d.space = 3 → d.out = true →
      (∀ v r, outH.port = v :: r → exec (.sext f) s =
        .next (((s.setMyHandle f.a.toNat { outH with port := r }).ws f.d (BitVec.ofNat 64 v)).ws f.c 1).proceed) ∧
      (outH.port = [] → outH.ended = true → exec (.sext f) s = .next ((s.ws f.d 0).ws f.c 0).proceed)) ∧
    (s.me.status.sys = true → LocatorOk (s.rs f.a) 65536 → s.memOk →
      let pa := s.located (s.rs f.a)
      (∀ cfg r, s.live c = some (cfg, r) → r.marking = true → r.allMarked cfg = true →
        ∃ t, exec (.smark f) s = .next t ∧ t.me.pc = s.me.pc + 16 ∧
          (t.fabric c).run = some { r with frozen := .marked } ∧
          (∃ v, t.images = v :: s.images ∧ v.run = r ∧ v.cfg = cfg ∧ v.handles = (s.fabric c).handles) ∧
          (∀ k : Fin 32, t.bytes (pa + 16 * k.val) 16 = ((s.fabric c).handles[k]).entry) ∧ SameBytesBut pa 65536 s t) ∧
      (∀ cfg, (s.fabric c).active = some cfg →
        let area := s.bytes pa 65536
        RunsReady s [(pa, 65536)] →
        (∀ v, s.imageIn area cfg.lines = some v → exec (.sresumeImg f) s =
          .next (s.loadRegion c area v (hartOf c (Fin.ofNat 4 v.run.owner.val))).proceed) ∧
        (s.imageIn area cfg.lines = none →
          exec (.sresumeImg f) s = .next (s.trapped 0x01 ((packWord 0x610 f).setWidth 64) 0)))) ∧
    (let mine (p : Parked) : Bool := s.me.gang.isSome && p.saved.run.gang == s.me.gang
     ((s.fabric c).parked.any mine = false → outH.held = false → exec (.sresume f) s = .next s.proceed) ∧
      ((s.fabric c).parked.any mine = false → outH.held = true →
        exec (.sresume f) s = .next (s.modHandle c f.a.toNat fun h => { h with held := false }).proceed) ∧
      ((s.fabric c).parked.any mine = true → exec (.sresume f) s = .next (s.modFabric c fun x =>
        { x with parked := x.parked.map fun p => p.resume s.me.gang f.a.toFin }).proceed))

/-- Running a stream program, its hart ports and its region. Derived where it rests on the model's readings: the positions at SRUN
(log 44), the depth of a port and the lane of a producer (log 23), and the node images of a save area (log 50). -/
def Obligations.StreamProgramResults : Prop :=
  Clauses.StreamRunResults ∧ Clauses.StreamPortAndRegionResults

/-! ## Class 0x7: matrix (10 R269 to R288) -/

/-- Products: MMA over a register group, MMAS with a row scale, and MMAX over rows of memory add, or subtract, the exact sums
of blocks of products to the tile's elements, each rounded once (10 R276); MWLOAD loads a weight image and its slot. -/
def Clauses.MatrixProductResults : Prop :=
  ∀ (f : Fields) (s : State) (t : ATy), VecReady s → s.me.vstart = 0 → f.d.toNat < 8 → s.me.holdsTile f.d.toNat = true →
    s.me.dense = true → s.me.aTy (f.modBit 43) (f.x.getLsbD 0) f.w.toNat = some t →
    SMap.wf 0 (s.tile f.d.toNat) = true →
    let h := s.me
    let w := h.wslot[Fin.ofNat 2 f.b.toNat]
    let env := h.fenv (f.modField 46 44)
    let flush := h.flush.getLsbD 0
    w.valid = true → w.image.isSome = true → prodTypes h t w = true → w.n.toNat ≤ 256 →
    let acc (i j : Nat) := if f.modBit 47 then 0 else tileAt (s.tile f.d.toNat) i j
    let el (k : Nat) (c : Option (Nat → FVal)) (a : Nat → Nat → FVal) (i j : Nat) : Nat × FFlags :=
      prodElem h.tileFmt env (f.modBit 42) (c.map fun g => g i) (if h.f64 then 4 else 16) k (i * 256 + j) (a i)
        (fun q => w.elem w.rows flush q j) (acc i j)
    let gives (i : Instr) (m k : Nat) (c : Option (Nat → FVal)) (a : Nat → Nat → FVal) : Prop :=
      ∃ u, exec i s = .next u ∧ TileWritten s u f.d.toNat
        (fun i j => if i < m ∧ j < w.n.toNat then some (el k c a i j).1 else none)
        (orTile m w.n.toNat fun i j => (el k c a i j).2) (h.rmode (f.modField 46 44))
    let a (i k : Nat) : FVal := t.ofReg h flush f.a.toNat (i * h.colcap + k)
    (aGroup h f t = true → h.rows ≠ 0 → h.cols = w.k.toNat → h.cols ≠ 0 → h.rows ≤ 16 * (h.ngm1 + 1) →
      gives (.mma f) h.rows h.cols none a ∧
      (f.c.toNat % h.g = 0 → h.rows ≤ h.g * 512 →
        gives (.mmas f) h.rows h.cols (some fun i => Fmt.b32.val flush (h.getE f.c.toNat 32 i)) a)) ∧
    (∀ ps, let m := f.immField 8 0
      m ≠ 0 → m ≤ 16 * (h.ngm1 + 1) → w.k.toNat ≠ 0 → w.k.toNat % t.block = 0 → w.k.toNat % 16 = 0 →
      RowsReady s true ((List.range m).map fun i => (s.rs f.a + BitVec.ofNat 64 i * s.rs f.c, t.rowBytes w.k.toNat)) ps →
      gives (.mmax f) m w.k.toNat none fun i q => t.ofRow flush (s.rowOf (ps.getD i [])) q)

/-- MWLOAD in dense mode of a legal descriptor: the slot is valid and holds the image's rows. -/
def Clauses.WeightLoadResult : Prop :=
  ∀ (f : Fields) (s : State) (t : ATy) (ps : List (List MPiece)), s.me.vstart = 0 → s.me.dense = true →
    s.me.aTy (f.modBit 43) (f.modBit 44) f.w.toNat = some t →
    let w : WSlot :=
      { addr := s.rs f.a, valid := true, type := BitVec.ofNat 4 t.code, int := f.modBit 43, sp24 := f.modBit 42
        u := f.modBit 44, k := BitVec.ofNat 9 (f.immField 8 0), n := BitVec.ofNat 9 (f.immField 17 9)
        pitch := (s.rs f.b).setWidth 32, image := none }
    let image := (matPhys ps.flatten).map (s.byteFor s.cur)
    w.legal = true → w.badNibble image = none →
    RowsReady s true ((List.range w.n.toNat).map fun n =>
      (s.rs f.a + BitVec.ofNat 64 n * s.rs f.b, w.rowBytes)) ps →
    exec (.mwload f) s = .next (s.modMe fun h => { h with
      wslot := h.wslot.set (Fin.ofNat 2 f.d.toNat) { w with image := some image } }).proceed

/-- Matrix products, and the load of a weight slot. Derived: the slot's state word keeps the low 32 bits of MWLOAD's pitch, the
model's choice (log 61). -/
def Obligations.MatrixProductAndWeightResults : Prop :=
  Clauses.MatrixProductResults ∧ Clauses.WeightLoadResult

/-- Moves of a tile to and from memory: MZERO clears rows, MCVT scales into the other format, MLDACC converts elements of
memory into the tile and MSTACC converts the tile's into memory, and MSAVEA and MRESTA move raw rows of 2,048 bytes. Derived:
MLDACC rounds a float under FPCTL.RM, with the step of SRSEED, and an integer to nearest (the model's reading, log 26). -/
def Obligations.TileMemoryResults : Prop :=
  ∀ (f : Fields) (s : State), s.me.vstart = 0 → s.memOk →
    let h := s.me
    let rows := f.immField 8 0
    let cols := f.immField 17 9
    let raw : List (Word × Nat) := (List.range rows).map fun i => (s.rs f.a + BitVec.ofNat 64 (2048 * i), 2048)
    rows ≤ 256 →
    (f.d.toNat < 8 → h.holdsTile f.d.toNat = true → SMap.wf 0 (s.tile f.d.toNat) = true →
      (∃ t, exec (.mzero f) s = .next t ∧
        TileWritten s t f.d.toNat (fun i _ => if i < rows then some 0 else none) 0 .rne) ∧
      (f.a.toNat < 8 → h.holdsTile f.a.toNat = true → SMap.wf 0 (s.tile f.a.toNat) = true →
        (∀ e ∈ s.tile f.a.toNat, e.1 < 65536) →
        let src : Fmt := if f.modBit 42 then .b64 else .aw64
        let dst : Fmt := if f.modBit 42 then .aw64 else .b64
        let env := { h.fenv (f.modField 46 44) with flush := 0 }
        let cv (i j : Nat) : Nat × FFlags :=
          let x := tileAt (s.tile f.a.toNat) i j
          if x = 0 then (0, 0) else
          roundOut dst env true (256 * i + j)
            (match src.val false x with | .fin n m e => .fin n m (e + f.imm.toInt) | v => v, false)
        ∃ t, exec (.mcvt f) s = .next t ∧ TileWritten s t f.d.toNat (fun i j => some (cv i j).1)
          (orTile 256 256 fun i j => (cv i j).2) (h.rmode (f.modField 46 44))) ∧
      (∀ ty ps, h.aTy (f.modBit 43) (f.modBit 47) f.w.toNat = some ty → memTile ty = true → rows ≠ 0 → cols ≠ 0 →
        cols ≤ 256 →
        RowsReady s true ((List.range rows).map fun i =>
          (s.rs f.a + BitVec.ofNat 64 i * s.rs f.b, cols * (ty.width / 8))) ps →
        let cv (i j : Nat) := intoTile h ty (256 * i + j)
          (ty.ofRow false (s.rowOf (ps.getD i []) / 2 ^ (ty.width * j) % 2 ^ ty.width) 0)
        ∃ t, exec (.mldacc f) s = .next t ∧ TileWritten s t f.d.toNat
          (fun i j => if i < rows ∧ j < cols then some (cv i j).1 else none) (orTile rows cols fun i j => (cv i j).2)
          (if f.modBit 43 then .rne else h.rmode 7)) ∧
      (∀ ps, rows = 0 ∨ (s.rs f.a).toNat % 64 = 0 → RowsReady s true raw ps →
        ∃ t, exec (.mresta f) s = .next t ∧ TileWritten s t f.d.toNat
          (fun i j => if i < rows then some (s.rowOf (ps.getD i []) / 2 ^ (64 * j)) else none) 0 .rne)) ∧
    (f.c.toNat < 8 → h.holdsTile f.c.toNat = true →
      let after (t : State) (fl : FFlags) (m : RMode) : Prop :=
        t.me = { h with pc := h.pc + 16, inWait := false, fp := { h.fp with
          flags := h.fp.flags ||| fl, seed := if m = .sr then srStep h.fp.seed else h.fp.seed } } ∧
        (∀ c : ClusterId, (t.cluster c).tiles = (s.cluster c).tiles) ∧ (∀ k, k ≠ s.cur → t.hart k = s.hart k)
      (∀ ty ps, h.aTy (f.modBit 43) (f.modBit 47) f.w.toNat = some ty → memTile ty = true → rows ≠ 0 → cols ≠ 0 →
        RowsReady s false ((List.range rows).map fun i =>
          (s.rs f.a + BitVec.ofNat 64 i * s.rs f.b, cols * (ty.width / 8))) ps →
        let cv (i j : Nat) := fromTile h ty (f.modField 46 44) (256 * i + j) (tileAt (s.tile f.c.toNat) i j)
        ∃ t, exec (.mstacc f) s = .next t ∧ after t (orTile rows cols fun i j => (cv i j).2) (h.rmode (f.modField 46 44)) ∧
          Stored s t (matPhys ps.flatten)
            ((List.range (rows * cols)).flatMap fun e => toBytes (ty.width / 8) (cv (e / cols) (e % cols)).1)) ∧
      (∀ ps, rows = 0 ∨ (s.rs f.a).toNat % 64 = 0 → RowsReady s false raw ps →
        ∃ t, exec (.msavea f) s = .next t ∧ after t 0 .rne ∧
          Stored s t (matPhys ps.flatten)
            ((List.range (rows * 256)).flatMap fun e => toBytes 8 (tileAt (s.tile f.c.toNat) (e / 256) (e % 256)))))

/-- Moves between a tile's window and a vector group, and MCFG: MMV reads the tile, MPEEK the tile before a number of its
latest updates that never falls from one panel of 16 rows to the next, MMV.TOACC writes the window; MCFG takes a legal
configuration, with the contents of every tile as they are and no update of one that changes hands still to be seen, and answers
the old one, or answers fail(2) for a tile and fail(1) for groups that another holds. Derived: how old MPEEK's tile is (log 27), the
rounding of MMV.TOACC, and that MCFG drains the updates of the tiles that change hands (log 26). -/
def Obligations.TileMoveResults : Prop :=
  ∀ (f : Fields) (s : State), s.me.vstart = 0 →
    let h := s.me
    let c := s.cur.cluster
    let r0 := f.immField 7 0
    let c0 := f.immField 15 8
    let code := f.modField 46 44
    (∀ ty, VecReady s → h.vl ≠ 0 → h.aTy (f.modBit 43) (f.modBit 47) f.w.toNat = some ty → r0 + h.rows ≤ 256 →
      c0 + h.cols ≤ 256 → moveTile ty = true → h.colcap % ty.block = 0 →
      h.cols % ty.block = 0 →
      (groupsOk h [⟨f.d.toNat, ty.width, false⟩] [] = true → f.a.toNat < 8 → h.holdsTile f.a.toNat = true →
        let row (k : Nat) := r0 + k / h.cols
        let col (k : Nat) := c0 + k % h.cols
        let out (u : State) (el : Nat → Nat → Nat) : Prop :=
          (match ty with
            | .flt (.grist g) =>
              let cv (b : Nat) := gristTile h g code (row (16 * b)) (col (16 * b)) fun q => el (row (16 * b)) (col (16 * b) + q)
              (∀ b, 16 * b < h.vl → u.me.getE f.d.toNat 128 (h.pos (16 * b) / 16) = (cv b).1 % 2 ^ 128) ∧
                u.me.fp.flags = h.fp.flags ||| orTile 1 (h.vl / 16) (fun _ b => (cv b).2)
            | _ =>
              let cv (k : Nat) := fromTile h ty code (256 * row k + col k) (el (row k) (col k))
              (∀ k, k < h.vl → u.me.getE f.d.toNat ty.width (h.pos k) = (cv k).1 % 2 ^ ty.width) ∧
                u.me.fp.flags = h.fp.flags ||| orTile 1 h.vl (fun _ k => (cv k).2)) ∧
          (∀ r : Fin 32, ¬ (f.d.toNat ≤ r.val ∧ r.val < f.d.toNat + h.g) → u.me.v[r] = h.v[r]) ∧
          TailLeft h u.me ⟨f.d.toNat, ty.width, false⟩ h.zeroesTail ∧
          u.me.s = h.s ∧ u.me.m = h.m ∧ u.me.pc = h.pc + 16 ∧ SameBytes s u ∧
          ∀ k : Fin 8, (u.cluster c).tiles[k] = (s.cluster c).tiles[k]
        (∃ u, exec (.mmv f) s = .next u ∧ out u (tileAt (s.tile f.a.toNat))) ∧
        (∃ (u : State) (age : Nat → Nat), exec (.mpeek f) s = .next u ∧
          (∀ p q, p ≤ q → age p ≤ age q) ∧
          (∀ p, age p ≤ (s.cluster c).tileHist[Fin.ofNat 8 f.a.toNat].length) ∧
          out u fun i j => tileAt ((s.tile f.a.toNat :: (s.cluster c).tileHist[Fin.ofNat 8 f.a.toNat]).getD
            (age (i / 16)) []) i j)) ∧
      (groupsOk h [] [⟨f.a.toNat, ty.width, false⟩] = true → f.d.toNat < 8 → h.holdsTile f.d.toNat = true →
        SMap.wf 0 (s.tile f.d.toNat) = true →
        let cv (i j : Nat) := intoTile h ty (256 * (r0 + i) + (c0 + j))
          (ty.ofReg h false f.a.toNat (i * h.colcap + j))
        ∃ u, exec (.mmvToacc f) s = .next u ∧ TileWritten s u f.d.toNat
          (fun i j => if r0 ≤ i ∧ i < r0 + h.rows ∧ c0 ≤ j ∧ j < c0 + h.cols then some (cv (i - r0) (j - c0)).1 else none)
          (orTile h.rows h.cols fun i j => (cv i j).2) (if f.modBit 43 then .rne else h.rmode 7))) ∧
    (let v := s.rs f.a
     let tiles (x : BitVec 21) (k : Nat) : Bool := x.getLsbD (8 + k)
     let taken := (List.range 8).any fun k => tiles (v.setWidth 21) k &&
       (List.finRange 4).any fun n => hartOf c n != s.cur && tiles (s.hart (hartOf c n)).mxcfg k
     let groups : BitVec 16 := { h with mxcfg := v.setWidth 21 }.denseGroups
     v.extractLsb' 21 43 = 0 → (v.extractLsb' 0 4).toNat + (v.extractLsb' 4 4).toNat ≤ 15 →
      (taken = true → exec (.mcfg f) s = .next (s.ws f.d (BitVec.ofNat 64 (2 ^ 63 + 2))).proceed) ∧
      (taken = false → v.getLsbD 20 = true → s.canTake groups (s.heldGroups c (some s.cur)) = false →
        exec (.mcfg f) s = .next (s.ws f.d (BitVec.ofNat 64 (2 ^ 63 + 1))).proceed) ∧
      (taken = false → (v.getLsbD 20 = true → s.canTake groups (s.heldGroups c (some s.cur)) = true) →
        ∃ t, exec (.mcfg f) s = .next t ∧ t.me.mxcfg = v.setWidth 21 ∧ t.me.pc = h.pc + 16 ∧ SameBytes s t ∧
          (f.d ≠ 0 → t.rs f.d = h.mxcfg.setWidth 64) ∧ (∀ n, n ≠ f.d → t.rs n = s.rs n) ∧ t.me.v = h.v ∧
          (∀ k : Fin 8, (t.cluster c).tiles[k] = (s.cluster c).tiles[k] ∧
            (tiles (v.setWidth 21) k ≠ tiles h.mxcfg k → (t.cluster c).tileHist[k] = [])) ∧
          ((v ^^^ h.mxcfg.setWidth 64) &&& 0x1800FF = 0 → t.me.wslot = h.wslot) ∧
          ((v ^^^ h.mxcfg.setWidth 64) &&& 0x1800FF ≠ 0 → ∀ k : Fin 2, (t.me.wslot[k]).valid = false))) ∧
    exec (.mcfgRd f) s = .next (s.ws f.d (h.mxcfg.setWidth 64)).proceed

/-! ## Classes 0x8 and 0x9: reversible instructions (11 R289 to R305) -/

/-- Records and frames: each form leaves the elements and records that it makes in turn, in a complete frame on top of the lees
stack. -/
def Clauses.ForwardFrames : Prop :=
  ∀ x ∈ [(Instr.rvadd, addForm), (.rvsub, subForm), (.rvmul, mulForm), (.rvfma, fmaForm), (.rvnarrow, narrowForm),
      (.rvshr, shrForm), (.rvrelu, reluForm), (.rvscale, scaleForm), (.rvcvt, cvtForm)],
    ∀ (f : Fields) (s : State) (r : RvForm), VecReady s → s.me.vstart = 0 → x.2 s.me f = some r → r.ok s.me = true →
      LeesRoom s.me (64 * frameLen (r.payloadMax s.me.vl)) → frameLen (r.payloadMax s.me.vl) < 65536 →
      ∃ t, exec (x.1 f) s = .next t ∧ RvForward s t r

/-- The elements of each form (11 Table 11.5, R300 to R302): an active element is the operation of its type on A, B and C, an
inactive one stays. D is A (11 R297; of any other word the decoder makes no instruction). -/
def Clauses.ForwardElements : Prop :=
  ∀ (f : Fields) (s : State), VecReady s → s.me.vstart = 0 → f.d = f.a →
    let h := s.me
    let e := h.rvEnv (f.modField 44 42)
    let a (w k : Nat) := h.getE f.a.toNat w (h.pos k)
    let act (w : Nat) (g : Nat → Nat × FFlags) (k : Nat) : Nat × FFlags := if h.enabled f k then g k else (a w k, 0)
    (∀ t r, h.fmtOf f.w.toNat = some t → f.flt = true →
      let b (k : Nat) := h.fltB f t k
      let w := t.width
      (addForm h f = some r → LeavesElements s (.rvadd f) r (act w fun k => t.fadd e (h.pos k) (a w k) (b k))) ∧
      (subForm h f = some r → LeavesElements s (.rvsub f) r (act w fun k => t.fsub e (h.pos k) (a w k) (b k))) ∧
      (mulForm h f = some r → LeavesElements s (.rvmul f) r (act w fun k => t.fmul e (h.pos k) (a w k) (b k))) ∧
      (fmaForm h f = some r → LeavesElements s (.rvfma f) r (act w fun k =>
        t.ffma e (h.pos k) false false (a w k) (b k) (h.getE f.c.toNat w (h.pos k)))) ∧
      (scaleForm h f = some r → LeavesElements s (.rvscale f) r
        (act w fun k => t.fscale e (h.pos k) (a w k) (h.elemB f w k))) ∧
      (reluForm h f = some r → LeavesElements s (.rvrelu f) r
        (act w fun k => (if (a w k).testBit (w - 1) then 0 else a w k, 0)))) ∧
    (∀ w r, h.intW f.w.toNat = some w →
      let b (k : Nat) := h.elemB f w k
      (f.flt = false →
        (addForm h f = some r → LeavesElements s (.rvadd f) r (act w fun k => (a w k + b k, 0))) ∧
        (subForm h f = some r → LeavesElements s (.rvsub f) r (act w fun k => (wrap w ((a w k : Int) - b k), 0))) ∧
        (mulForm h f = some r → LeavesElements s (.rvmul f) r (act w fun k => (a w k * b k, 0))) ∧
        (reluForm h f = some r → LeavesElements s (.rvrelu f) r
          (act w fun k => (if (a w k).testBit (w - 1) then 0 else a w k, 0)))) ∧
      (shrForm h f = some r → LeavesElements s (.rvshr f) r (act w fun k =>
        (if f.modBit 46 then wrap w (signed w (a w k) / (2 ^ (min (b k) w) : Nat))
         else if w ≤ b k then 0 else a w k / 2 ^ b k, 0)))) ∧
    (∀ r, narrowForm h f = some r → LeavesElements s (.rvnarrow f) r fun k =>
      let x := narrowEl f.flt (f.modBit 46) e r.w (h.pos k) (a r.w k)
      (x.1, x.2.1)) ∧
    (∀ r, cvtForm h f = some r →
      let src : Fmt := if f.w = 4 then .bf16 else .b16
      (∀ t, rvDst f = .fmt t → LeavesElements s (.rvcvt f) r fun k => convFF src t e (h.pos k) (a 16 k)) ∧
      (∀ g, rvDst f = .grist g → r.ok h = true → LeesRoom h (64 * frameLen (r.payloadMax h.vl)) →
        frameLen (r.payloadMax h.vl) < 65536 →
        ∃ t, exec (.rvcvt f) s = .next t ∧ ∀ k0, k0 < h.vl → k0 % 16 = 0 →
          let vs := (List.range 16).map fun i => h.cvtSrc (.fmt src) f.a.toNat (h.pos (k0 + i)) false
          t.me.slotOf f.d.toNat (h.pos k0) = (g.quantise e (h.pos k0) (vs.map (·.1)) (vs.map (·.2))).1 % 2 ^ 128))

/-- The forward forms from VSTART = 0 with room in the window (none of their blocks moves): the elements, and the frame of their
records (in part the model's choice, log 30). -/
def Obligations.ReversibleForwardResults : Prop :=
  Clauses.ForwardFrames ∧ Clauses.ForwardElements

/-- The undo forms that find their own complete frame in the window give every recorded element back and pop the frame (the
rounding of an undo, and the NaN that it gives back, are the model's readings, log 30). -/
def Obligations.UndoResults : Prop :=
  ∀ x ∈ [(Instr.unadd, addForm), (.unsub, subForm), (.unmul, mulForm), (.unfma, fmaForm), (.unnarrow, narrowForm),
      (.unshr, shrForm), (.unrelu, reluForm), (.unscale, scaleForm), (.uncvt, cvtForm)],
    ∀ (f : Fields) (s : State) (r : RvForm) (recs : List (Option Nat)) (f0 : Nat), VecReady s → s.me.vstart = 0 →
      x.2 s.me f = some r → r.okUndo s.me = true → recs.length = s.me.vl → (∀ v ∈ recs, r.recOk v) →
      (r.frame s.me.vl recs).length < 64 * 65536 → f0 + (r.frame s.me.vl recs).length = s.me.leesSp →
      s.me.winHas f0 (r.frame s.me.vl recs) →
      ∃ t, exec (x.1 f) s = .next t ∧ RvUndone s t r recs

/-- Undo recovers every element: after all elements of a forward form whose sources B and C lie apart from its destination,
what the undo formula gives back from each record, on the values the form has left, is the element that was there before,
whatever the values, the rounding mode and the flags. -/
def Obligations.UndoRecoversEveryElement : Prop :=
  ∀ form ∈ [addForm, subForm, mulForm, fmaForm, narrowForm, shrForm, reluForm, scaleForm, cvtForm],
    ∀ (f : Fields) (h : Hart) (r : RvForm), form h f = some r → r.ok h = true → h.cols ≤ h.colcap → f.a = f.d →
      (∀ o ∈ r.srcs, overlaps r.a.reg (r.a.size h) o.reg (o.size h) = false) →
      let p := r.runAll h h.vl
      ∀ k v, k < h.vl → p.2.2.getD k none = some v →
        r.recOk (some v) ∧ r.back { h with v := p.1.v } k v = h.getE r.a.reg r.w (h.pos k)

/-- The lees control forms: LPUSH and LMARK push a frame of one word, LPOP and LCHK read the top frame and pop it, LSPILL
writes every held block that memory does not hold and empties the window; an empty stack and a frame of another kind, of which
the footer alone is read, trap with the stack unchanged. -/
def Obligations.LeesControlResults : Prop :=
  ∀ (f : Fields) (s : State),
    let h := s.me
    let sp := h.leesSp
    let pushes (i : Instr) (op reg : Nat) (v : Word) : Prop :=
      let word := toBytes 8 (frameWord op reg 0 0 1 1 (leesCheck op reg 0 0 0 0))
      ∃ t, exec i s = .next t ∧ OnlyMe s t ∧ SameBytes s t ∧ t.me.leesSp = sp + 64 ∧
        t.me.winHas sp (word ++ toBytes 8 v.toNat ++ List.replicate 40 0 ++ word) ∧
        t.me = { h with pc := h.pc + 16, inWait := false, lees := { h.lees with
          sp := t.me.lees.sp, win := t.me.lees.win, held := t.me.lees.held } }
    (LeesRoom h 64 → pushes (.lpush f) 0x840 f.a.toNat (s.rs f.a) ∧ pushes (.lmark f) 0x842 0 (f.imm.setWidth 64)) ∧
    (h.leesLim < sp + 64 →
      exec (.lpush f) s = .next (s.trapped 0x0B 0 0) ∧ exec (.lmark f) s = .next (s.trapped 0x0B 0 0)) ∧
    (sp = h.leesBase → exec (.lpop f) s = .next (s.trapped 0x0D 0 0) ∧
      exec (.lchk f) s = .next (if f.modBit 42 then s.trapped 0x0D 0 0 else (s.ws f.d 0).proceed)) ∧
    (∀ foot, foot < 2 ^ 64 → sp ≠ h.leesBase → h.winHas (sp - 8) (toBytes 8 foot) →
      (foot % 4096 ≠ 0x840 → exec (.lpop f) s = .next (s.trapped 0x0C 0 0)) ∧
      (foot % 4096 ≠ 0x842 → exec (.lchk f) s =
        .next (if f.modBit 42 then s.trapped 0x0C 0 0 else (s.ws f.d 0).proceed))) ∧
    (∀ (foot : Nat) (v : Word) (f0 : Nat), foot < 2 ^ 64 → f0 + 64 * lenOf foot = sp → h.leesBase ≤ f0 → 0 < lenOf foot →
      h.winHas (sp - 8) (toBytes 8 foot) → h.winHas (f0 + 8) (toBytes 8 v.toNat) →
      (h.heldBlock ((f0 - h.leesBase) / 2048)).isSome = true →
      let popped (t : State) (x : Word) : Prop :=
        OnlyMe s t ∧ SameBytes s t ∧ t.me.leesSp = f0 ∧ (f.d ≠ 0 → t.rs f.d = x) ∧ (∀ n, n ≠ f.d → t.rs n = s.rs n) ∧
          t.me.lees.base = h.lees.base ∧ t.me.lees.lim = h.lees.lim ∧ t.me.pc = h.pc + 16 ∧ t.me.v = h.v
      let hit := foot % 4096 = 0x842 ∧ v = f.imm.setWidth 64
      (foot % 4096 = 0x840 → ∃ t, exec (.lpop f) s = .next t ∧ popped t v) ∧
      (f.modBit 42 = false → hit → exec (.lchk f) s = .next (s.ws f.d 1).proceed) ∧
      (f.modBit 42 = false → ¬ hit → exec (.lchk f) s = .next (s.ws f.d 0).proceed) ∧
      (f.modBit 42 = true → hit → ∃ t, exec (.lchk f) s = .next t ∧ popped t 1) ∧
      (f.modBit 42 = true → ¬ hit → exec (.lchk f) s = .next (s.trapped 0x0C 0 0))) ∧
    (∀ l : Nat → List Piece, s.memOk → h.ptbase.getLsbD 0 = false ∨ (∀ e ∈ (s.die s.cur.die).tlb, leafD e.leaf = true) →
      let dirty := h.lees.held.filter fun x => !x.clean
      let addrs := dirty.flatMap fun x => physOf (l x.blk)
      (∀ x ∈ dirty, checkRun s s.ctx false (BitVec.ofNat 64 (h.blockVa x.blk)) 2048 = (s, l x.blk) ∧
        s.held false (l x.blk) = false ∧ ∀ p ∈ l x.blk, ∃ pa n e, p = .ok pa n e ∧ leafRdup e.leaf = false ∧
          s.meetsHeld s.cur pa n = false ∧ (h.ptbase.getLsbD 0 = false ∨ leafD e.leaf = true)) →
      addrs.Nodup →
      ∃ t, exec (.lspill f) s = .next t ∧ t.me.lees.held = [] ∧ t.me.lees.win = 0 ∧ t.me.leesSp = sp ∧
        (∀ x ∈ dirty, ∀ i a, h.blockVa x.blk + i < sp → (physOf (l x.blk))[i]? = some a →
          t.byte a = BitVec.ofNat 8 (getBits x.data (8 * i) 8)) ∧
        (∀ a, a ∉ addrs → t.byte a = s.byte a) ∧ t.me.pc = h.pc + 16 ∧ t.me.v = h.v ∧ t.me.s = h.s)

/-! ## Class 0xA: the key index (12 R311 to R332) -/

/-- In the cycle in which the cluster's key-index unit has accepted an instruction of another hart, one of this hart is held,
with nothing done; that the unit is free again in the next cycle is the model's choice (log 31). -/
def Clauses.KeyUnitTakesOneInstruction : Prop :=
  ∀ i ∈ [Instr.kproj, .kprojDesc, .kstore, .ksig, .kquery, .kcount, .kreset, .kmode, .kmodeDense, .ktrim],
    ∀ (f : Fields) (s : State), ¬ UnitFree s → exec (i f) s = .next (s.waiting .unit)

/-- Registering a head, loading a projection, resetting the tables and the modes: KPROJ.DESC and KPROJ read their operand's
bytes, KRESET raises every table's version, writes it in the table's header and, on the first reset, every bucket as empty. -/
def Clauses.KeyDirectoryForms : Prop :=
  ∀ (f : Fields) (s : State), s.me.vstart = 0 → UnitFree s →
    let d := s.cur.die
    let n := (s.rs f.a).toNat
    let u := s.keyTaken
    let read (load : List Piece) : Prop :=
      (∀ p ∈ load, ∃ pa m e, p = .ok pa m e) ∧ u.held true load = false ∧ discIn load = false
    (∀ l x dense, n < 256 → (s.rs f.b).toNat % 64 = 0 → checkRun u u.ctx true (s.rs f.b) 128 = (u, l) → read l →
      parseKDesc (fun i => ofBytes (u.seen l) / 2 ^ (64 * i) % 2 ^ 64) = some (x, dense) →
      ∀ fr : Nat × Nat → KFrame, (∀ q ∈ x.regions, checkRegion u q.1 q.2 = (u, .ok (fr q))) →
      exec (.kprojDesc f) s = .next (u.setKHead d n { s.kHead d n with
        valid := true, desc := x, dense := dense, firstReset := true, alloc := 1, free := 0, wbase := 0
        frames := x.regions.map fr, stale := Vector.replicate 4 true, loaded := Vector.replicate 4 false }).proceed) ∧
    (∀ h l, n < 256 → s.kHead d n = h → h.valid = true → (s.rs f.c).toNat < h.desc.l → h.desc.l ≤ 4 →
      (s.rs f.b).toNat % 64 = 0 →
      checkRun u u.ctx true (s.rs f.b) (64 * h.desc.b) = (u, l) → read l →
      (∀ j i, j < h.desc.b → i < h.desc.dh → projCode (ofBytes (u.seen l) / 2 ^ (512 * j)) i ≠ 2) →
      let t : Fin 4 := Fin.ofNat 4 (s.rs f.c).toNat
      exec (.kproj f) s =
        .next ((u.modDie d fun y => { y with proj := SMap.setMany 0 y.proj (projBase n t.val) (u.seen l) }).setKHead d n
          { h with version := h.version.set t (h.version[t] + 1), stale := h.stale.set t true
                   loaded := h.loaded.set t true }).proceed) ∧
    (∀ h, KeyReady s n h → (∀ l, l < h.desc.l → h.loaded[Fin.ofNat 4 l] = true) →
      ∃ t x, exec (.kreset f) s = .next t ∧ t.kHead d n = x ∧ x.firstReset = false ∧ x.free = 0 ∧ x.alloc = 1 ∧
        x.wbase = 0 ∧ x.desc = h.desc ∧ t.me = { s.me with pc := s.me.pc + 16, inWait := false } ∧
        (∀ l : Fin 4, l.val < h.desc.l → x.version[l] = h.version[l] + 1 ∧ x.stale[l] = false ∧
          t.keyNum h (2 + l.val) (h.desc.table l.val) 8 = (x.version[l]).toNat ∧
          (h.firstReset = true → ∀ sg, sg < 2 ^ h.desc.b → t.keyNum h (2 + l.val) (h.desc.entryVa l.val sg) 8 =
            2 ^ 57 * ((x.version[l]).toNat % 128))) ∧
        (∀ a, (∀ r va, 2 ≤ r → KIn h r va → a ≠ h.pa r va) → t.byte a = s.byte a)) ∧
    (∀ h l, n < 256 → s.kHead d n = h → h.valid = true → l < h.desc.l → h.loaded[Fin.ofNat 4 l] = false →
      (∀ j, j < l → h.loaded[Fin.ofNat 4 j] = true) →
      exec (.kreset f) s = .next (u.trapped 0x12 (BitVec.ofNat 64 (h.desc.table l)) 0)) ∧
    ((s.rs f.a).extractLsb' 0 2 ≠ 3 → (s.rs f.b).extractLsb' 0 14 ≠ 0 → ((s.rs f.b).extractLsb' 0 14).toNat ≤ 8192 →
      exec (.kmode f) s = .next (u.modMe fun h => { h with
        kmode := (s.rs f.a).setWidth 24 &&& 0xFFFF07, klimit := (s.rs f.b).setWidth 14 }).proceed) ∧
    (∀ h, n < 256 → s.kHead d n = h → h.valid = true → (s.rs f.b).toNat ≤ 1 →
      exec (.kmodeDense f) s = .next (u.setKHead d n { h with dense := (s.rs f.b).getLsbD 0 }).proceed)

/-- The directory of heads, and the unit that takes one instruction at a time. -/
def Obligations.KeyDirectoryResults : Prop :=
  Clauses.KeyUnitTakesOneInstruction ∧ Clauses.KeyDirectoryForms

/-- Signatures, queries and counts: KSIG writes the signature of each row under each table; KQUERY lists the tokens of the
probed chains at or above WBASE, newest first, with its result word; KCOUNT adds the probed buckets' counts. -/
def Obligations.KeyQueryResults : Prop :=
  ∀ (f : Fields) (s : State) (h : KHead), VecReady s → KeyReady s (s.rs f.b).toNat h → keyVec s.me f h.desc = true →
    s.me.vl ≠ 0 →
    let x := s.me
    let n := (s.rs f.b).toNat
    let d := s.cur.die
    let q := keyRow x f h.desc.dh 0
    let probes := queryProbes s n h q
    ((∀ l, l < h.desc.l → h.loaded[Fin.ofNat 4 l] = true) → 4 * x.rows ≤ x.g * 1024 → f.d.toNat % x.g = 0 →
      overlaps f.d.toNat x.g f.a.toNat x.g = false →
      ∃ t, exec (.ksig f) s = .next t ∧ OnlyMe s.keyTaken t ∧ SameBytes s t ∧ t.me.pc = x.pc + 16 ∧ t.me.s = x.s ∧
        (∀ r l, r < x.rows → l < h.desc.l → t.me.getE f.d.toNat 16 (4 * r + l) =
          sigOf (s.dots d n h.desc l (keyRow x f h.desc.dh r)) % 2 ^ 16) ∧
        (∀ r : Fin 32, ¬ (f.d.toNat ≤ r.val ∧ r.val < f.d.toNat + x.g) → t.me.v[r] = x.v[r])) ∧
    (TablesFresh s h → x.rows = 1 → (∀ p ∈ probes, p.2 < 2 ^ h.desc.b) →
      (h.dense = false → notFinite q = false →
        (let w := if f.w = 5 then 32 else 16
         groupsOk x [⟨f.d.toNat, w, false⟩] [] = true → overlaps f.d.toNat x.g f.a.toNat x.g = false →
          (∀ p ∈ probes, (s.bucket h p.1 p.2).ovf = false ∧ (s.chain h 4096 (s.bucket h p.1 p.2).head).isSome = true) →
          ∀ toks : List Nat, toks.Pairwise (· > ·) →
          (∀ v, v ∈ toks ↔ h.wbase ≤ v ∧ ∃ p ∈ probes, ∃ c ∈ (s.chain h 4096 (s.bucket h p.1 p.2).head).getD [],
            v ∈ tokensOf (s.poolBlock h c)) →
          let lim := min x.klimit.toNat (x.g * 16384 / w)
          let cnt := min toks.length lim
          let reason := if lim < toks.length then 3 else if toks.length < x.kmin then 4 else 0
          let res : Word := BitVec.ofNat 64 ((if reason = 0 then 0 else 2 ^ 63) + reason * 2 ^ 60 +
            min toks.length (2 ^ 24 - 1) * 2 ^ 32 + cnt)
          (reason = 0 ∨ x.gang.isSome = true ∨ x.kflag = true →
            ∃ t, exec (.kquery f) s = .next t ∧ OnlyMe s.keyTaken t ∧ SameBytes s t ∧ t.me.pc = x.pc + 16 ∧
              (f.c ≠ 0 → t.rs f.c = res) ∧ (∀ k, k ≠ f.c → t.rs k = s.rs k) ∧
              (∀ k, k < cnt → t.me.getE f.d.toNat w k =
                if w = 32 then toks.getD k 0 % 2 ^ 32 else (toks.getD k 0 - h.wbase) % 65536) ∧
              (∀ r : Fin 32, ¬ (f.d.toNat ≤ r.val ∧ r.val < f.d.toNat + x.g) → t.me.v[r] = x.v[r])) ∧
          (reason ≠ 0 → x.gang = none → x.kflag = false →
            exec (.kquery f) s = .next (s.keyTaken.trapped 0x11 res 0))) ∧
        exec (.kcount f) s = .next (s.keyTaken.ws f.d (BitVec.ofNat 64 (
          (if probes.any fun p => (s.bucket h p.1 p.2).ovf then 2 ^ 63 else 0) +
            ((probes.map fun p => (s.bucket h p.1 p.2).count).foldl (· + ·) 0) % 2 ^ 32))).proceed) ∧
      (h.dense = true → exec (.kcount f) s = .next (s.keyTaken.ws f.d (BitVec.ofNat 64 (2 ^ 62))).proceed))

/-- Building and trimming: KSTORE writes the keys of its rows and reports the rows that are not finite, and links a single
finite row under a single table with an empty bucket into the next block of the pool; KTRIM raises WBASE, and a chain of
one block whose tokens all fall below it leaves its bucket for the free list. -/
def Obligations.KeyMaintenanceResults : Prop :=
  ∀ (f : Fields) (s : State) (h : KHead),
    let x := s.me
    let t0 := (s.rs f.c).toNat
    let bit (r : Nat) := notFinite (keyRow x f h.desc.dh r)
    let sg := sigOf (s.dots s.cur.die (s.rs f.b).toNat h.desc 0 (keyRow x f h.desc.dh 0))
    let wb := max h.wbase (s.rs f.b).toNat
    (VecReady s → KeyReady s (s.rs f.b).toNat h → TablesFresh s h → keyVec x f h.desc = true → x.vl ≠ 0 → x.rows ≤ 32 →
      t0 + x.rows ≤ h.desc.krows → t0 + x.rows ≤ 0xFFFFFFFF → h.free < h.desc.pblk → h.alloc ≤ h.desc.pblk →
      ∃ t, exec (.kstore f) s = .next t ∧ t.me.pc = x.pc + 16 ∧ t.me.v = x.v ∧ t.me.vc = x.vc ∧
        (∀ k, k ≠ f.d → t.rs k = s.rs k) ∧
        (f.d ≠ 0 → ∀ r, r < 32 → (t.rs f.d).getLsbD r = (decide (r < x.rows) && bit r)) ∧
        (∀ r i, r < x.rows → i < h.desc.dh →
          t.keyNum h 0 (h.desc.kbase + (t0 + r) * h.desc.kpitch + 2 * i) 2 = x.getE f.a.toNat 16 (r * x.colcap + i)) ∧
        (x.rows = 1 → bit 0 = false → h.desc.l = 1 → s.bucket h 0 sg = ⟨0, 0, false⟩ → h.free = 0 →
          h.alloc < h.desc.pblk → h.alloc < 2 ^ 32 → (f.d ≠ 0 → t.rs f.d = 0) ∧ t.bucket h 0 sg = ⟨h.alloc, 1, false⟩ ∧
          slotOfBlock (t.poolBlock h h.alloc) 0 = t0 ∧ nextOf (t.poolBlock h h.alloc) = 0 ∧
          (t.kHead s.cur.die (s.rs f.b).toNat).alloc = h.alloc + 1)) ∧
    (KeyReady s (s.rs f.a).toNat h → (s.rs f.b).extractLsb' 32 32 = 0 →
      ∀ sg0, sg0 < 2 ^ h.desc.b → 0 < h.desc.l →
      (∀ l sg, l < h.desc.l → sg < 2 ^ h.desc.b →
        (s.keyNum h (2 + l) (h.desc.entryVa l sg) 8 / 2 ^ 57 = (h.ver l).toNat % 128 ↔ l = 0 ∧ sg = sg0)) →
      let b := (s.bucket h 0 sg0).head
      b ≠ 0 → b < h.desc.pblk →
      nextOf (s.poolBlock h b) = 0 → (∀ v ∈ tokensOf (s.poolBlock h b), v < wb) → h.free < 2 ^ 32 →
      ∃ t, exec (.ktrim f) s = .next t ∧ t.me.pc = x.pc + 16 ∧ (f.d ≠ 0 → t.rs f.d = 1) ∧
        (t.kHead s.cur.die (s.rs f.a).toNat).wbase = wb ∧ (t.kHead s.cur.die (s.rs f.a).toNat).free = b ∧
        t.bucket h 0 sg0 = ⟨0, 0, (s.bucket h 0 sg0).ovf⟩ ∧ nextOf (t.poolBlock h b) = h.free ∧
        (∀ va, KIn h 0 va → t.byte (h.pa 0 va) = s.byte (h.pa 0 va)))

/-! ## Class 0xC: copies and tags (07 R167 to R181) -/

/-- The issue of a copy: with its tag free, its operands within limits and aligned, its channel claimed and not full, the copy
goes to the tail of its channel with what it holds claimed, its tag runs, and the hart goes on; a copy of no bytes is done
at once. Memory and the other registers are unchanged. -/
def Clauses.CopyIssueResults : Prop :=
  ∀ (f : Fields) (s : State),
    let h := s.me
    let c := s.cur.cluster
    let tag := f.xField 5 0
    let ch : Fin 4 := Fin.ofNat 4 (f.xField 7 6)
    let pitch := f.imm.toInt
    h.tags.busy.getLsbD tag = false → s.hasClaim s.cur (2, c.val * 32 + ch.val) = true →
    ((s.cluster c).racker.channels[ch]).length < 16 →
    let issues (i : Instr) (src dst : Word) (form : CopyForm) (seed : Word) : Prop :=
      let copy : Copy :=
        { id := s.copySeq + 1, hart := s.cur, tag := tag, ch := ch, scope := f.xField 10 8, np := f.x.getLsbD 11
          src := src, dst := dst, form := form, ctx := s.ctx, gang := h.gang, started := false, pos := 0, flags := 0
          stamped := [], dropped := false, got := [] }
      let seeded (x : Hart) : Hart := { x with fp := { x.fp with seed := seed } }
      (copy.total = 0 → exec i s = .next (s.modMe fun x => seeded (x.tagDone tag)).proceed) ∧
      (copy.total ≠ 0 → exec i s = .next (((({ s with copySeq := s.copySeq + 1 } : State).claimDst copy).modCluster c
        fun x => { x with racker := { x.racker with
          channels := x.racker.channels.set ch (x.racker.channels[ch] ++ [copy]) } }).modMe fun x =>
            seeded (x.tagRunning tag)).proceed)
    let a := s.rs f.a
    let b := s.rs f.b
    let v := s.rs f.c
    let len := (v.extractLsb' 0 32).toNat
    let mode := h.rmode (f.immField 6 4)
    (len ≤ 2 ^ 30 → v.extractLsb' 48 16 = 0 →
      issues (.rkcopy f) a b (.rows len ((v.extractLsb' 32 16).toNat + 1) pitch (f.modBit 42)) h.fp.seed) ∧
    (∀ w, intCode f.w.toNat = some w → 8 ≤ w →
      let rn := (v.extractLsb' 0 16).toNat
      let cn := (v.extractLsb' 16 16).toNat
      1 ≤ rn → rn ≤ 4096 → 1 ≤ cn → cn ≤ 4096 → v.extractLsb' 32 32 = 0 → a.toNat % (w / 8) = 0 → b.toNat % (w / 8) = 0 →
      f.imm.toNat % (w / 8) = 0 →
      issues (.rkxpose f) a b (.xpose (w / 8) rn cn pitch (f.modBit 42)) h.fp.seed) ∧
    (let src := f.immField 3 0
     v.toNat ≤ 2 ^ 24 → v.toNat % convUnit src f.w.toNat = 0 → a.toNat % (fltOf src).align = 0 →
      b.toNat % (fltOf f.w.toNat).align = 0 →
      issues (.rkconv f) a b (.conv v.toNat src f.w.toNat ⟨mode, h.fp.ctl.sat8, h.fp.seed, 0⟩)
        (if mode = .sr then srStep h.fp.seed else h.fp.seed)) ∧
    (v.toNat ≤ 2 ^ 30 → v.toNat % 8 = 0 → b.toNat % 8 = 0 →
      issues (.rkfill f) 0 b (.fill (v.toNat / 8) a) h.fp.seed) ∧
    (f.immField 15 0 = 0 ∨ f.immField 31 16 ≠ 0 → v.toNat % 4 = 0 →
      issues (.rkgather f) a b (.gather (f.immField 15 0) (16 * f.immField 31 16) v) h.fp.seed) ∧
    (let eb := redBytes (f.modBit 44) f.w.toNat
     let n := f.imm.toNat
     1 ≤ n → n ≤ 65536 → n % eb = 0 → v.extractLsb' 16 48 = 0 → a.toNat % eb = 0 → b.toNat % eb = 0 →
      issues (.rkred f) a b (.red (match f.modField 43 42 with | 0 => .add | 1 => .max | _ => .min) (f.modBit 44)
        f.w.toNat (n / eb) (h.cal.gangid.extractLsb' 0 16 ++ v.extractLsb' 0 16)) h.fp.seed)

/-- The tag instructions: a wait restarts the faulted copies of its mask once, and ends when no tag of the mask is busy, TWAITANY
as soon as one is done; a fault met since ends it with the copy's cause; TFIRST answers the lowest done tag, TCLR clears
those that are not busy, and TCLR.CANCEL withdraws the copies. -/
def Clauses.TagResults : Prop :=
  ∀ (f : Fields) (s : State),
    let m := s.rs f.a
    let w := if s.me.inWait then s else s.restartTags m
    let t := w.me.tags
    (w.me.firstFault m = none →
      (t.busy &&& m = 0 →
        exec (.twaitall f) s = .next (w.ws f.d (t.bits &&& m)).proceed ∧
        exec (.twaitany f) s = .next (w.ws f.d (t.bits &&& m)).proceed) ∧
      (t.bits &&& m ≠ 0 → exec (.twaitany f) s = .next (w.ws f.d (t.bits &&& m)).proceed) ∧
      (t.busy &&& m ≠ 0 → exec (.twaitall f) s = .next (w.waiting .tags)) ∧
      (t.busy &&& m ≠ 0 → t.bits &&& m = 0 → exec (.twaitany f) s = .next (w.waiting .tags))) ∧
    (∀ x, w.me.firstFault m = some x →
      exec (.twaitall f) s = .next (w.trapped x.cause x.va (BitVec.ofNat 64 x.tag)) ∧
      exec (.twaitany f) s = .next (w.trapped x.cause x.va (BitVec.ofNat 64 x.tag))) ∧
    (∃ v : Word, exec (.tfirst f) s = .next (s.ws f.d v).proceed ∧
      (s.me.tags.bits &&& m = 0 → v = BitVec.allOnes 64) ∧
      (s.me.tags.bits &&& m ≠ 0 → v.toNat < 64 ∧ (s.me.tags.bits &&& m).getLsbD v.toNat = true ∧
        ∀ k, k < v.toNat → (s.me.tags.bits &&& m).getLsbD k = false)) ∧
    exec (.tclr f) s = .next ((s.modMe fun h => { h with tags := { h.tags with
      bits := h.tags.bits &&& ~~~(m &&& ~~~h.tags.busy) } }).ws f.d (m &&& s.me.tags.busy)).proceed ∧
    (∃ u, exec (.tclrCancel f) s = .next u ∧ SameBytes s u ∧ u.me.pc = s.me.pc + 16 ∧ (f.d ≠ 0 → u.rs f.d = 0) ∧
      u.me.tags.bits = s.me.tags.bits &&& ~~~m ∧ u.me.tags.busy = s.me.tags.busy &&& ~~~m ∧
      (∀ ch : Fin 4, (u.cluster s.cur.cluster).racker.channels[ch] =
        ((s.cluster s.cur.cluster).racker.channels[ch]).filter fun x => !(x.hart == s.cur && m.getLsbD x.tag)) ∧
      (∀ n, n ≠ f.d → u.rs n = s.rs n) ∧ (∀ k, k ≠ s.cur → u.hart k = s.hart k))

/-- The copies and the tag instructions of class 0xC. -/
def Obligations.CopyAndTagResults : Prop :=
  Clauses.CopyIssueResults ∧ Clauses.TagResults

/-! ## Class 0xD: ordering, atomics, futures, queues (07 R187 to R201) -/

/-- Atomics, futures and progress cells on a word whose page takes them, no copy or held store being about: what is written,
what s[D] receives, and that nothing else changes. -/
def Clauses.AtomicResults : Prop :=
  ∀ (f : Fields) (s s' : State) (pa : Nat) (e : TlbEntry),
    let va := s.rs f.a + f.imm.signExtend 64
    let n := 2 ^ (f.w.toNat - 3)
    let b := s.rs f.b
    let d := s'.markDirty s'.ctx e
    let low (v : Word) := v.toNat % 2 ^ (8 * n)
    let free (m : Nat) : Prop := s'.ownedIn pa m = false ∧ s'.absentIn pa m = false ∧ s'.poisonedIn pa m = false ∧
      ∀ x ∈ s'.storeBuf, x.meets pa m = false
    let plain : Prop := leafR e.leaf = true ∧ leafPres e.leaf = false ∧ leafWonce e.leaf = false ∧ leafDisc e.leaf = false
    spaceOf pa = .hbm ∨ spaceOf pa = .cellar →
    (checkAccess s s.ctx .store va = (s', .ok pa e) →
      (f.w.toNat = 5 ∨ f.w.toNat = 6 → va.toNat % n = 0 → plain → free n →
        (f.modBit 47 = true → s.storesDone s.cur (f.xField 2 0) (s.copySeq + 1) = true) →
        let old := ofBytes (s'.bytesFor s.cur pa n)
        let sx : Word := BitVec.ofInt 64 (signed (8 * n) old)
        exec (.amo f) s =
          .next ((d.setBytes pa (toBytes n (amoOp (f.modField 45 42) (8 * n) old (low b)))).ws f.d sx).proceed ∧
        (old = low b → exec (.cas f) s = .next ((d.setBytes pa (toBytes n (low (s.rs f.c)))).ws f.d sx).proceed) ∧
        (old ≠ low b → exec (.cas f) s = .next (s'.ws f.d sx).proceed)) ∧
      (va.toNat % 16 = 0 → plain → free 8 → s.storesDone s.cur (f.xField 2 0) (s.copySeq + 1) = true →
        let old := ofBytes (s'.bytesFor s.cur pa 8)
        (old < b.toNat → exec (.pubhw f) s =
          .next (((d.setBytes pa (toBytes 8 b.toNat)).wakeAll pa).ws f.d (BitVec.ofNat 64 old)).proceed) ∧
        (b.toNat ≤ old → exec (.pubhw f) s = .next ((s'.wakeAll pa).ws f.d (BitVec.ofNat 64 old)).proceed)) ∧
      (va.toNat % 8 = 0 → leafPres e.leaf = true → leafWonce e.leaf = false →
        s.storesDone s.cur (f.xField 2 0) (s.copySeq + 1) = true →
        (s'.full pa = false → s'.ownedIn pa 8 = false → s'.meetsHeld s'.cur pa 8 = false →
          exec (.futwr f) s = .next (d.fill pa (toBytes 8 b.toNat)).proceed) ∧
        (s'.full pa = true → exec (.futwr f) s = .next (s'.trapped 0x09 va 0))) ∧
      (va.toNat % 8 = 0 → leafPres e.leaf = true ∨ leafWonce e.leaf = true → s'.ownedIn pa 8 = false →
        s'.meetsHeld s'.cur pa 8 = false → exec (.futclr f) s = .next ((d.setBytes pa (toBytes 8 0)).setFull pa false).proceed) ∧
      (va.toNat % n = 0 → 3 ≤ f.w.toNat → f.w.toNat ≤ 6 → leafDisc e.leaf = false → leafPres e.leaf = false →
        leafWonce e.leaf = false → s'.ownedIn pa n = false → s.storesDone s.cur (f.xField 2 0) (s.copySeq + 1) = true →
        exec (.strel f) s = .next (d.storeBytes e pa (toBytes n (low b))).proceed)) ∧
    (checkAccess s s.ctx .load va = (s', .ok pa e) →
      (va.toNat % 8 = 0 → leafPres e.leaf = true → leafWonce e.leaf = false →
        (s'.full pa = true → s'.ownedIn pa 8 = false → s'.absentIn pa 8 = false → s'.poisonedIn pa 8 = false →
          exec (.futrd f) s = .next (s'.ws f.d (BitVec.ofNat 64 (ofBytes (s'.bytesFor s.cur pa 8)))).proceed) ∧
        (s'.full pa = false → ∃ u slotted, exec (.futrd f) s = .next u ∧ u.me.run = .waiting (.future pa slotted) ∧
          u.me.pc = s'.me.pc ∧ (∀ k, u.me.rs k = s'.me.rs k))) ∧
      (va.toNat % 16 = 0 → leafPres e.leaf = false → leafWonce e.leaf = false → leafDisc e.leaf = false →
        s'.ownedIn pa 16 = false → s'.absentIn pa 16 = false → s'.poisonedIn pa 16 = false →
        let v := ofBytes (s'.bytesFor s.cur pa 8)
        let b := ofBytes (s'.bytesFor s.cur (pa + 8) 8)
        exec (.readhw f) s = .next (s'.ws f.d (BitVec.ofNat 64 (if b < v then v - b else 0))).proceed) ∧
      (va.toNat % n = 0 → 3 ≤ f.w.toNat → f.w.toNat ≤ 6 → leafDisc e.leaf = false → leafPres e.leaf = false →
        s'.ownedIn pa n = false → s'.absentIn pa n = false → s'.poisonedIn pa n = false →
        ∃ v : Word, exec (.lda f) s = .next (s'.ws f.d v).proceed ∧
          (∀ k, k < n → v.extractLsb' (8 * k) 8 = s'.byteFor s.cur (pa + k)) ∧
          (∀ k, 8 * n ≤ k → k < 64 → v.getLsbD k = (!f.modBit 42 && v.getLsbD (8 * n - 1)))))

/-- Queues and barriers: a push at the tail and a pop at the head of a queue bound to the hart's gang, the forms that try, what
they do on a full and an empty queue, and the trap of a queue bound elsewhere; FENCE, MBAR and QFENCE once the hart's held
stores have reached their scope. -/
def Clauses.QueueAndBarrierResults : Prop :=
  ∀ (f : Fields) (s : State),
    let c := s.cur.cluster
    let q : Fin 8 := Fin.ofNat 8 f.b.toNat
    let x := (s.cluster c).queues[q]
    let withItems (l : List Word) (w : List (HartId × Bool)) : State := s.setMyQueue f.b { x with items := l, waiters := w }
    let left := x.waiters.filter fun w => w.1 != s.cur
    let done (scope : Nat) : Prop := s.storesDone s.cur scope (s.copySeq + 1) = true
    let first (push : Bool) : Prop := ∀ w, x.waiters.find? (fun w => w.2 == push) = some w → w.1 = s.cur
    (x.bound = s.me.gang →
      (done 1 → x.items.length < 16 → first true →
        exec (.qpush f) s = .next (withItems (x.items ++ [s.rs f.a]) left).proceed) ∧
      (done 1 → 16 ≤ x.items.length → ∃ u, exec (.qpush f) s = .next u ∧
        u.me.run = .waiting (.queue (BitVec.ofNat 3 f.b.toNat)) ∧ u.me.s = s.me.s ∧ u.me.pc = s.me.pc) ∧
      (∀ v r, x.items = v :: r → first false →
        exec (.qpop f) s = .next ((withItems r left).ws f.d v).proceed) ∧
      (x.items = [] → ∃ u, exec (.qpop f) s = .next u ∧ u.me.run = .waiting (.queue (BitVec.ofNat 3 f.b.toNat)) ∧
        u.me.s = s.me.s ∧ u.me.pc = s.me.pc) ∧
      (∀ v r, x.items = v :: r →
        exec (.qtry f) s = .next (((withItems r x.waiters).ws f.d v).ws f.c 1).proceed) ∧
      (x.items = [] → exec (.qtry f) s = .next (s.ws f.c 0).proceed) ∧
      (x.items.length < 16 → done 1 →
        exec (.qtryPush f) s = .next ((withItems (x.items ++ [s.rs f.a]) x.waiters).ws f.d 1).proceed) ∧
      (16 ≤ x.items.length → exec (.qtryPush f) s = .next (s.ws f.d 0).proceed)) ∧
    (x.bound ≠ s.me.gang → ∀ i ∈ [Instr.qpush, .qpop, .qtry, .qtryPush],
      exec (i f) s = .next (s.trapped 0x14 (BitVec.ofNat 64 (f.b.toNat % 8)) 0)) ∧
    exec (.qfence f) s = .next s.proceed ∧
    (f.modBit 43 = false ∨ done (f.xField 2 0) → exec (.fence f) s = .next s.proceed) ∧
    (f.modBit 43 = true → ¬ done (f.xField 2 0) → exec (.fence f) s = .next (s.waiting .hazard)) ∧
    (s.me.tags.busy = 0 → done (f.xField 2 0) → exec (.mbar f) s = .next s.proceed) ∧
    (s.me.tags.busy = 0 → ¬ done (f.xField 2 0) → exec (.mbar f) s = .next (s.waiting .hazard)) ∧
    (s.me.tags.busy ≠ 0 → exec (.mbar f) s = .next (s.waiting .tags))

/-- Every form of class 0xD. -/
def Obligations.AtomicAndQueueResults : Prop :=
  Clauses.AtomicResults ∧ Clauses.QueueAndBarrierResults

/-! ## Class 0xB: tasks and the calendar (08 R203 to R226) -/

/-- LAUNCH, BOOK and BOOKQ: LAUNCH appends the task to the queue of its home die under the next free number, BOOK books a
checked task at the earliest slot that fits, once the calendar unit is free, and BOOKQ only answers that slot; a full queue and
a refusing check answer their codes. Derived where it rests on the model's choices: that a refused BOOK has used up its number
(log 38), and that BOOK waits for the unit and searches from the cycle in which it is free (logs 39, 41). -/
def Clauses.BookingResults : Prop :=
  ∀ (f : Fields) (s : State) (pa : Nat → Nat),
    let va := s.rs f.a
    let word (k : Nat) := ofBytes (s.bytesFor s.cur (pa k) 8)
    va.toNat % 256 = 0 →
    (WordsAt s va 6 pa →
      let home := (homeOfMask (word 4 + word 5 * 2 ^ 64)).getD s.cur.die
      let u := (s.die home).cal
      let level := if f.modBit 42 then f.modField 45 43 else word 0 % 8
      (u.queueFull = true → exec (.launch f) s = .next (s.ws f.d (BitVec.ofNat 64 (2 ^ 63 + 1))).proceed) ∧
      (u.queueFull = false → u.nextNum = none →
        exec (.launch f) s = .next (s.ws f.d (BitVec.ofNat 64 (2 ^ 63 + 0x0E))).proceed) ∧
      (u.queueFull = false → ∀ n, u.nextNum = some n →
        1 ≤ n ∧ n ≤ 65535 ∧ (∀ t ∈ u.tasks, t.num ≠ n) ∧
        exec (.launch f) s = .next ((s.modCal home fun u => { u with
          tasks := u.tasks ++ [Task.queued n va level s.slot s.me.ptbase s.me.asid s.me.tr.tvec none]
          fifo := u.fifo.set (Fin.ofNat 8 level) (u.fifo[Fin.ofNat 8 level] ++ [n])
          lastNum := n }).ws f.d (BitVec.ofNat 64 n)).proceed)) ∧
    (∀ (l : List Byte) (home : DieId) (e : TlbEntry), checkAccess s s.ctx .load va = (s, .ok (pa 0) e) →
      calRead s (taskCtx s.me.ptbase s.me.asid s.cur.die) (va + 0x20) 16 = (s, some l) →
      homeOfMask (ofBytes l) = some home →
      let x := taskCtx s.me.ptbase s.me.asid home
      let numbered (n : Nat) : State := s.modCal home fun u => { u with lastNum := n }
      let fails (i : Instr) (u : State) (c : Nat) : Prop :=
        exec i s = .next (u.ws f.d (BitVec.ofNat 64 (2 ^ 63 + c))).proceed
      ((s.die home).cal.nextNum = none → fails (.book f) s 0x0E) ∧
      (∀ n c cell, (s.die home).cal.nextNum = some n → dispatch (numbered n) x va none = (numbered n, .refused c cell) →
        fails (.book f) (numbered n) c) ∧
      (∀ c cell, dispatch s x va none = (s, .refused c cell) → fails (.bookq f) s c) ∧
      (∀ (y : State) (h : Header) (claims : List Claim) (streams : List StreamDesc) (n lo start : Nat),
        dispatch y x va none = (y, .ok h claims streams) →
        let t : Task := { (Task.queued n va h.prio y.slot s.me.ptbase s.me.asid s.me.tr.tvec none).checked h claims streams
          with reserved := true, tmin := (s.rs f.b).toNat, st := .ready }
        let u := (y.die home).cal
        let s1 := y.modCal home fun u => u.searching .book t none y.cycle
        let books : Prop := (s.die home).cal.nextNum = some n ∧ y = numbered n
        let asks : Prop := n = 0 ∧ y = s
        u.ready.length < 64 → y.readyOk home t = true →
        (u.idle y.cycle = false →
          (books → exec (.book f) s = .next (s.waiting .other)) ∧
          (asks → exec (.bookq f) s = .next (s.waiting .other))) ∧
        (u.idle y.cycle = true → t.crossDie home = false → u.bookingsFull = false →
          y.searchLow home t y.cycle = some lo → lo ≤ start →
          start + lastEnd claims + t.tailNow ≤ y.slot + 4096 → y.fitsOn home home t y.slot start = true →
          (∀ k, lo ≤ k → k < start → y.fitsOn home home t y.slot k = false) →
          (books → exec (.book f) s = .next ((s1.modCal home fun u => { u with
            tasks := u.tasks ++ [t.booked start] }).ws f.d (BitVec.ofNat 64 (n * 2 ^ 48 + start % 2 ^ 48))).proceed) ∧
          (asks → exec (.bookq f) s = .next (s1.ws f.d (BitVec.ofNat 64 start)).proceed))))

/-- UNBOOK ends a task that has not started, and answers its state, or fails with the state, and its end calls for a compaction;
COMPACT calls for a compaction, waits while it is made, and answers how many bookings it has moved (log 39). -/
def Clauses.UnbookAndCompactResults : Prop :=
  ∀ (f : Fields) (s : State),
    let d := s.cur.die
    let n := (s.rs f.a).toNat
    (s.task d n = none → exec (.unbook f) s = .next (s.ws f.d (BitVec.ofNat 64 (2 ^ 63))).proceed) ∧
    (∀ t, s.task d n = some t →
      let st := t.st.code
      (st = 0 ∨ 4 ≤ st → s.me.status.sys = false ∨ st = 0 ∨ 6 ≤ st →
        exec (.unbook f) s = .next (s.ws f.d (BitVec.ofNat 64 (2 ^ 63 + st))).proceed) ∧
      (1 ≤ st → st ≤ 3 → t.members = [] → t.hdr.isSome = true → ∃ u t', exec (.unbook f) s = .next u ∧
        u.task d n = some t' ∧ t'.st = .ended ∧ t'.standing = false ∧
        (∀ l : Fin 8, n ∉ (u.die d).cal.fifo[l]) ∧ n ∉ (u.die d).cal.ready ∧
        (u.die d).cal.calls = (s.die d).cal.calls ++ [⟨none, s.cycle⟩] ∧
        (f.d ≠ 0 → u.rs f.d = BitVec.ofNat 64 st) ∧ (∀ k, k ≠ f.d → u.rs k = s.rs k) ∧ u.me.pc = s.me.pc + 16)) ∧
    (let u := (s.die d).cal
     (∀ x, u.answers.find? (fun x => x.1 == s.cur) = some x → exec (.compact f) s =
       .next ((s.modCal d fun u => { u with answers := u.answers.filter fun x => x.1 != s.cur }).ws f.d
         (BitVec.ofNat 64 x.2)).proceed) ∧
     (u.answers.find? (fun x => x.1 == s.cur) = none →
       (u.called s.cur = true → exec (.compact f) s = .next (s.waiting .other)) ∧
       (u.called s.cur = false → exec (.compact f) s =
         .next ((s.modCal d fun u => { u with calls := u.calls ++ [⟨some s.cur, s.cycle⟩] }).waiting .other))))

/-- LAUNCH, BOOK, BOOKQ, UNBOOK and COMPACT. -/
def Obligations.BookingInstructionResults : Prop :=
  Clauses.BookingResults ∧ Clauses.UnbookAndCompactResults

/-- A gang's own instructions (what YIELDT cuts in a handler of a suspended gang, the start that CALRD.TASK answers of a task
without a booking, and which calendar CALRD.OCC reads are the model's readings, log 41): GBAR waits for every member, TDONE leaves the gang and the last member ends the task, YIELDT of
the leader cuts the claims of the classes named; SLACKRD and the CALRD forms read the calendar. -/
def Obligations.GangInstructionResults : Prop :=
  ∀ (f : Fields) (s : State),
    (∀ (d : DieId) (n : Nat) (t : Task), s.me.gang = some (d, n) → s.task d n = some t → t.num = n →
      (s.me.tags.busy = 0 → s.storesDone s.cur t.barScope (s.copySeq + 1) = true →
        ((∀ m ∈ t.members, m ≠ s.cur → s.me.gbars + 1 ≤ (s.hart m).gbars + (s.hart m).gbarHere.toNat) →
          exec (.gbar f) s = .next (s.modMe fun h => { h with gbars := s.me.gbars + 1, gbarHere := false }).proceed) ∧
        ((∃ m ∈ t.members, m ≠ s.cur ∧ (s.hart m).gbars + (s.hart m).gbarHere.toNat ≤ s.me.gbars) →
          exec (.gbar f) s = .next ((s.modMe fun h => { h with gbarHere := true }).waiting .gbar))) ∧
      (s.me.tags.busy = 0 → s.storesDone s.cur 3 (s.copySeq + 1) = true → t.st = .running → t.overrun = false →
        (∃ m ∈ t.members, m ≠ s.cur) → ∃ u t', exec (.tdone f) s = .next u ∧ u.me.run = .stopped ∧ u.me.gang = none ∧
          u.me.pc = s.me.pc + 16 ∧ u.task d n = some t' ∧ t'.members = t.members.filter (· != s.cur) ∧ t'.st = .running ∧
          t'.status = (if t.allMembers.head? = some s.cur then some ((s.rs f.a).setWidth 16) else t.status) ∧
          SameBytes s u) ∧
      (s.me.tags.busy = 0 → s.storesDone s.cur 3 (s.copySeq + 1) = true → t.st = .running → t.overrun = false →
        (∀ m ∈ t.members, m = s.cur) → ∃ u t', exec (.tdone f) s = .next u ∧ u.me.run = .stopped ∧ u.me.gang = none ∧
          u.task d n = some t' ∧ t'.st = .ended) ∧
      (t.members.head? = some s.cur → (s.rs f.a).extractLsb' 9 55 = 0 →
        exec (.yieldt f) s = .next (s.modTask d n fun t => { t with claims := t.cutClasses (s.rs f.a) s.slot }).proceed)) ∧
    (s.me.gang = none →
      exec (.gbar f) s = .next (s.trapped 0x01 ((packWord 0xB05 f).setWidth 64) 0) ∧
      exec (.tdone f) s = .next (s.trapped 0x01 ((packWord 0xB06 f).setWidth 64) 0) ∧
      exec (.yieldt f) s = .next (s.trapped 0x01 ((packWord 0xB09 f).setWidth 64) 0)) ∧
    exec (.slackrd f) s = .next (s.ws f.d (if f.modBit 42 then s.me.cal.slackOwn.setWidth 64 else
      BitVec.ofNat 64 (match s.taskOf s.cur with | some t => min (t.budget - t.lateness) (2 ^ 32 - 1) | none => 0))).proceed ∧
    exec (.calrdSlot f) s = .next (s.ws f.d (BitVec.ofNat 64 (s.cycle / 16))).proceed ∧
    (let r : Resource := (((s.rs f.a).extractLsb' 0 8).toNat, ((s.rs f.a).extractLsb' 8 16).toNat)
     f.imm.toNat ≤ 4032 → indexOk r.1 r.2 = true →
      ∃ v : Word, exec (.calrdOcc f) s = .next (s.ws f.d v).proceed ∧
        ∀ i, i < 64 → v.getLsbD i = s.bookedOn (r.readOn s.cur.die) (0, 0) r (s.slot + f.imm.toNat + i)) ∧
    (let n := (s.rs f.a).toNat
     let free : State := { s with freeCtr := s.freeCtr + 1 }
     (∀ t, s.task s.cur.die n = some t → t.code < 256 →
       (t.st = .booked ∨ t.st = .running ∨ t.st = .suspended → exec (.calrdTask f) s =
         .next (s.ws f.d (BitVec.ofNat 64 (t.bookStart % 2 ^ 48 * 2 ^ 16 + t.code * 2 ^ 8 + t.st.code))).proceed) ∧
       (t.st = .queued ∨ t.st = .ready ∨ t.st = .ended ∨ t.st = .free → ∃ v : Word,
         exec (.calrdTask f) s = .next (free.ws f.d v).proceed ∧
         v.extractLsb' 0 8 = BitVec.ofNat 8 t.st.code ∧ v.extractLsb' 8 8 = BitVec.ofNat 8 t.code)) ∧
     (s.task s.cur.die n = none → ∃ v : Word, exec (.calrdTask f) s = .next (free.ws f.d v).proceed ∧
       v.extractLsb' 0 16 = 0))

/-! ## Class 0xE: graphs, collectives and messages (13 R338 to R347) -/

/-- Graphs: GLOAD and a start through GSADDR give the lowest free number to a graph of task nodes whose descriptor passes its
checks, and launch exactly the nodes without predecessors; a node that becomes due, or is retried, is queued on its home
die or pends; a finished graph writes its cell and frees its number. -/
def Obligations.GraphResults : Prop :=
  ∀ (s : State) (d : DieId) (g : Fin 16),
    let loads (x : MemCtx) (h : Option HartId) (va : Word) (ns : List GNode) (cell : Word) : Prop :=
      (s.graph d g).used = false ∧ (∀ k, k < g → (s.graph d k).used = true) ∧ va.toNat % 64 = 0 ∧
        readGraph s x h va = (s, .ok (ns, cell)) ∧ ∀ n ∈ ns, n.coll = false
    let loaded (u : State) (ns : List GNode) (cell : Word) : Prop :=
      (u.graph d g).used = true ∧ (u.graph d g).cell = cell ∧ (u.graph d g).nodes.length = ns.length ∧
        (∀ k, k ≠ g → u.graph d k = s.graph d k) ∧
        ∀ (i : Nat) (n : GNode), ns[i]? = some n →
          (n.preds ≠ 0 → (u.graph d g).nodes[i]? = some n) ∧
          (n.preds = 0 → ∃ m : GNode, (u.graph d g).nodes[i]? = some m ∧
            (m.phase = .launched ∨ m.phase = .pending ∨ m.phase = .failed))
    let y := s.graph d g
    let placed (i : Nat) (home : DieId) (n : GNode) (level num : Nat) : State :=
      (s.modCal home fun u => { u with
        tasks := u.tasks ++ [Task.queued num n.desc level s.slot y.ptbase y.asid y.tvec (some (d, g, i))]
        fifo := u.fifo.set (Fin.ofNat 8 level) (u.fifo[Fin.ofNat 8 level] ++ [num])
        lastNum := num }).modGraph d g fun z => z.setPhase i .launched
    (∀ f : Fields, s.me.status.sys = true → s.cur.die = d →
      (∀ ns cell, loads s.ctx (some s.cur) (s.rs f.a) ns cell →
        ∃ u, exec (.gload f) s = .next u ∧ loaded u ns cell ∧ u.me.pc = s.me.pc + 16 ∧
          (f.d ≠ 0 → u.rs f.d = BitVec.ofNat 64 g.val) ∧ ∀ k, k ≠ f.d → u.rs k = s.rs k) ∧
      ((∀ k, (s.graph d k).used = true) → exec (.gload f) s = .next (s.ws f.d (BitVec.ofNat 64 (2 ^ 63 + 1))).proceed) ∧
      ((s.graph d g).used = false → (s.rs f.a).toNat % 64 ≠ 0 →
        exec (.gload f) s = .next (s.trapped 0x04 (s.rs f.a) 0))) ∧
    (∀ va ns cell, loads (taskCtx (ptbaseBits (s.die d).gsptbase) (s.die d).gsasid d) none va ns cell →
      ∃ u, exec (.gsaddrWrite d va) s = .next u ∧ loaded u ns cell ∧ (u.die d).gsresult = BitVec.ofNat 64 g.val) ∧
    (∀ i n l home, y.nodes[i]? = some n → n.slot = none → n.desc.toNat % 256 = 0 →
      calRead s (taskCtx y.ptbase y.asid d) n.desc 256 = (s, some l) →
      homeOfMask (wordIn l 0x20 + wordIn l 0x28 * 2 ^ 64) = some home →
      let u := (s.die home).cal
      (y.due i = true → u.queueFull = true →
        exec (.graphNodeLaunch d g i) s = .next (s.modGraph d g fun z => z.setPhase i .pending)) ∧
      (∀ num, u.queueFull = false → u.nextNum = some num →
        (y.due i = true → exec (.graphNodeLaunch d g i) s = .next (placed i home n (wordIn l 0 % 8) num)) ∧
        (y.used = true → n.phase = .pending →
          (∀ j m, y.nodes[j]? = some m → m.phase = .pending → j = i) →
          exec (.graphPendingRetry d g) s = .next (placed i home n (wordIn l 0 % 8) num)))) ∧
    (y.finished = true → y.cell = 0 → exec (.graphComplete d g) s = .next (s.modGraph d g fun _ => Graph.reset)) ∧
    (∀ pa e, y.finished = true → y.cell ≠ 0 → y.cell.toNat % 8 = 0 →
      checkAccess s (taskCtx y.ptbase y.asid d) .store y.cell = (s, .ok pa e) → leafPres e.leaf = true →
      leafWonce e.leaf = false → (spaceOf pa = .hbm ∨ spaceOf pa = .cellar) → s.full pa = false →
      let v := (match y.failed with | some i => 2 ^ 63 + i * 256 | none => 0) + g.val
      exec (.graphComplete d g) s =
        .next ((((s.markDirty (taskCtx y.ptbase y.asid d) e).fill pa (toBytes 8 (v % 2 ^ 64))).modGraph d g
          fun _ => Graph.reset)))

/-- The collective instructions on slots of the hart's cluster: GBIND takes the lowest unbound slot, CSTART starts a bound or
done slot with its contribution fixed, CPOLL and CFLAGRD read one, CFLAGSET adds to the contribution, CABORT aborts; a slot
operand above 7, or a state that the form does not take, raises 0x01. -/
def Clauses.CollectiveInstructionResults : Prop :=
  ∀ (f : Fields) (s : State),
    let c := s.cur.cluster
    let bad (i : Instr) (opc : BitVec 12) : Prop := exec i s = .next (s.trapped 0x01 ((packWord opc f).setWidth 64) 0)
    (s.me.status.sys = true → ∀ c' e, readColl s s.ctx (some s.cur) (some c) (s.rs f.a) = (s, .ok (c', e)) →
      (∀ k : Fin 8, (s.coll c k).st = .unbound → (∀ j, j < k → (s.coll c j).st ≠ .unbound) →
        exec (.gbind f) s = .next ((s.modColl c k fun _ => { CollSlot.reset with
          st := .bound, desc := some e, owner := s.cur, gang := s.me.gang }).ws f.d (BitVec.ofNat 64 k.val)).proceed) ∧
      ((∀ k : Fin 8, (s.coll c k).st ≠ .unbound) →
        exec (.gbind f) s = .next (s.ws f.d (BitVec.ofNat 64 (2 ^ 63 + 2))).proceed)) ∧
    (∀ k : Fin 8, (s.rs f.a).toNat = k.val →
      let x := s.coll c k
      let rests := x.st = .bound ∨ x.st = .done
      let runs := x.st = .running ∨ x.st = .waiting
      (s.me.status.sys = true → ¬ runs → exec (.gbindFree f) s = .next (s.modColl c k fun _ => CollSlot.reset).proceed) ∧
      (rests → exec (.cstart f) s = .next (s.modColl c k fun x => { x with
        st := .running, fixed := x.contrib, waitFrom := none, step := if x.st = .done then 0 else x.step
        flags := if x.st = .done then 0 else x.flags, owner := s.cur, gang := s.me.gang }).proceed) ∧
      (¬ rests → bad (.cstart f) 0xE02) ∧
      (∃ v : Word, exec (.cpoll f) s = .next (s.ws f.d v).proceed ∧ (x.step < 2 ^ 24 →
        v.extractLsb' 0 16 = BitVec.ofNat 16 x.st.code ∧ v.extractLsb' 16 24 = BitVec.ofNat 24 x.step ∧
        v.extractLsb' 40 24 = BitVec.ofNat 24 (min (match x.desc with | some e => e.nstep | none => 0) (2 ^ 24 - 1)))) ∧
      (x.st = .done → exec (.cflagrd f) s = .next (s.ws f.d (x.finalOr.setWidth 64)).proceed) ∧
      (x.st = .aborted → exec (.cflagrd f) s = .next (s.ws f.d (BitVec.ofNat 64 (2 ^ 63 + 0x15))).proceed) ∧
      (runs → exec (.cflagrd f) s = .next (s.waiting .flagrd)) ∧
      (x.st = .unbound ∨ x.st = .bound → if s.me.inWait then
          exec (.cflagrd f) s = .next (s.ws f.d (BitVec.ofNat 64 (2 ^ 63 + 0x15))).proceed
        else bad (.cflagrd f) 0xE04) ∧
      (rests → (s.rs f.b).toNat < 2 ^ 32 → exec (.cflagset f) s =
        .next (s.modColl c k fun x => { x with contrib := x.contrib ||| (s.rs f.b).setWidth 32 }).proceed) ∧
      (∀ e, runs → x.desc = some e → e.rank < e.ranks → e.peers[e.rank]? = some (s.dev.pkgNum.toNat, c.val) →
        ∃ t, exec (.cabort f) s = .next t ∧ (t.coll c k).st = .aborted ∧ t.me.pc = s.me.pc + 16 ∧
          (∀ n, t.rs n = s.rs n) ∧ SameBytes s t ∧
          (s.ownerHere x = true → ∃ p ∈ (t.hart x.owner).pend, p.cause = 0x15 ∧ p.eaddr.getLsbD 27 = true ∧
            p.eaddr.extractLsb' 24 3 = BitVec.ofNat 3 k.val)) ∧
      (¬ runs → bad (.cabort f) 0xE06)) ∧
    (8 ≤ (s.rs f.a).toNat → bad (.cstart f) 0xE02 ∧ bad (.cpoll f) 0xE03 ∧ bad (.cflagrd f) 0xE04 ∧
      bad (.cflagset f) 0xE05 ∧ bad (.cabort f) 0xE06 ∧ (s.me.status.sys = true → bad (.gbindFree f) 0xE01))

/-- A collective in motion: with every rank found, agreed, running and present, a step moves the lowest unfinished step of all
of them at once and writes what 13 Table 13.2 gives each rank's DST; a rank that describes it otherwise aborts it; within a
claimed occurrence it waits for the gateways' swap; an absent rank makes the others wait, and past GRACE
ends the collective; after the last step a rank is done and its owner takes the flags. Derived: that all ranks move in one step, and
that ranks find each other, and disagree, by their descriptors (log 53). -/
def Obligations.CollectiveStepResults : Prop :=
  ∀ (s : State) (c : ClusterId) (k : Fin 8) (e : CollDesc), (s.coll c k).desc = some e →
    let x := s.coll c k
    let found := s.rankSlots c k e
    let l := found.map (·.1)
    let at_ (y : ClusterId × Fin 8) : CollSlot := s.coll y.1 y.2
    let early (y : ClusterId × Fin 8) : Prop := (at_ y).swapped = false ∧ s.occurrence y.1 (at_ y) s.slot false = true
    let dstOf (y : ClusterId × Fin 8) : ClusterId × Nat := locator y.1 (match (at_ y).desc with | some z => z.dst | none => 0)
    (x.st.runs = true → l.length = e.ranks →
      (∀ y ∈ l, (at_ y).st.runs = true ∧ ∃ z, (at_ y).desc = some z ∧ (at_ y).step < z.nstep) →
      ((∃ y ∈ found, y.2 = false) → e.rank < e.ranks → e.peers[e.rank]? = some (s.dev.pkgNum.toNat, c.val) →
        ∃ t, exec (.collectiveStep c k) s = .next t ∧ (t.coll c k).st = .aborted ∧ SameBytes s t ∧
          (s.ownerHere x = true → ∃ p ∈ (t.hart x.owner).pend, p.cause = 0x15 ∧ p.eaddr.getLsbD 27 = true)) ∧
      ((∀ y ∈ found, y.2 = true) → (∃ y ∈ l, early y) → exec (.collectiveStep c k) s = .next s) ∧
      ((∀ y ∈ found, y.2 = true) → (∀ y ∈ l, ¬ early y) →
      ((∀ y ∈ l, s.rankAbsent (at_ y) = false) → ∀ n, n ≤ x.step → (∀ y ∈ l, n ≤ (at_ y).step) →
        (n = x.step ∨ ∃ y ∈ l, (at_ y).step = n) →
        let lo := n * e.stepb
        let src := l.map fun y => s.sliceRead (locatorAt y.1 (match (at_ y).desc with | some z => z.src | none => 0) lo)
          (min e.stepb (e.share - lo))
        ∃ t, exec (.collectiveStep c k) s = .next t ∧ t.harts = s.harts ∧
          (∀ y ∈ l, (t.coll y.1 y.2).step = n + 1 ∧ (t.coll y.1 y.2).st = .running ∧
            (t.coll y.1 y.2).flags = (at_ y).flags ||| (stepWrites e lo src 0).2 ∧
            (n + 1 = e.nstep → (t.coll y.1 y.2).finalOr = l.foldl (fun a z => a ||| (at_ z).fixed) 0)) ∧
          ((l.map fun y => (dstOf y).1).Nodup → ∀ y ∈ l, ∀ z, (at_ y).desc = some z →
            ∀ w ∈ (stepWrites e lo src z.rank).1, (dstOf y).2 + w.1 + w.2.length ≤ 2 ^ 24 →
              ∀ i, i < w.2.length → t.byte (cellarPa (dstOf y).1 ((dstOf y).2 + w.1 + i)) = w.2.getD i 0)) ∧
      ((∃ y ∈ l, s.rankAbsent (at_ y) = true) → ∃ t, exec (.collectiveStep c k) s = .next t ∧ SameBytes s t ∧
        ∀ y ∈ l, t.coll y.1 y.2 = if s.rankAbsent (at_ y) then at_ y else
          { at_ y with st := .waiting, waitFrom := some ((at_ y).waitFrom.getD s.slot) }))) ∧
    (x.st.runs = true → e.nstep ≤ x.step → x.node = none →
      exec (.collectiveComplete c k) s = .next ((if s.ownerHere x then s.modHart x.owner fun h =>
          { h with fp := { h.fp with flags := h.fp.flags ||| x.flags } } else s).modColl c k fun x =>
        { x with st := .done, contrib := 0, waitFrom := none })) ∧
    (∀ w, x.st = .waiting → x.waitFrom = some w → w + e.grace ≤ s.slot → (∃ y ∈ l, s.rankAbsent (at_ y) = true) →
      e.rank < e.ranks → e.peers[e.rank]? = some (s.dev.pkgNum.toNat, c.val) →
      ∃ t, exec (.collectiveGraceExpiry c k) s = .next t ∧ (t.coll c k).st = .bound ∧ (t.coll c k).step ≤ x.step ∧
        (s.ownerHere x = true → ∃ p ∈ (t.hart x.owner).pend, p.cause = 0x15 ∧ p.eaddr.getLsbD 27 = false)) ∧
    exec (.contextSequencerSwap c k) s = .next (s.modColl c k fun x => { x with swapped := true })

/-- Messages: XSEND and XRECV post a side under a free tag; the first posted sides of a pair and tag match, or fault both when
their lengths differ; the data of a matched pair then moves and both tags are done. -/
def Clauses.MessageResults : Prop :=
  ∀ (s : State),
    (∀ f : Fields,
      let tag := f.xField 5 0
      let len := (s.rs f.c).toNat
      let own := s.cur.cluster
      let other : ClusterId := Fin.ofNat 128 ((s.rs f.b).toNat % 128)
      let post (send : Bool) (src dst : ClusterId) : Out := .next ((s.modCluster own fun c => { c with msgs := c.msgs ++
        [{ send := send, src := src, dst := dst, pkg := ((s.rs f.b).extractLsb' 7 16).toNat, mtag := f.imm.setWidth 16
           hart := s.cur, tag := tag, loc := s.rs f.a, len := len, mate := none, faulted := false }] }).modMe
        fun h => h.tagRunning tag).proceed
      s.me.tags.busy.getLsbD tag = false → len % 64 = 0 → 64 ≤ len → len ≤ 16777216 → LocatorOk (s.rs f.a) 64 →
      exec (.xsend f) s = post true own other ∧ exec (.xrecv f) s = post false other own) ∧
    (∀ f : Fields, s.me.tags.busy.getLsbD (f.xField 5 0) = true →
      exec (.xsend f) s = .next (s.trapped 0x01 0 0) ∧ exec (.xrecv f) s = .next (s.trapped 0x01 0 0)) ∧
    (∀ (src dst : ClusterId) (mtag : BitVec 16) (a b : Msg) (la ra lb rb : List Msg),
      let mine (send : Bool) (m : Msg) : Bool := m.of send src dst mtag s.dev.pkgNum.toNat
      let other (m : Msg) (x : Msg) : Prop := x.hart ≠ m.hart ∨ x.tag ≠ m.tag
      src ≠ dst → (s.cluster src).msgs = la ++ a :: ra → (s.cluster dst).msgs = lb ++ b :: rb →
      mine true a = true → mine false b = true → a.hart.cluster = src → b.hart.cluster = dst →
      (∀ x ∈ la ++ ra, other a x) → (∀ x ∈ lb ++ rb, other b x) →
      let withMsgs (l m : List Msg) : State :=
        (s.modCluster src fun c => { c with msgs := l }).modCluster dst fun c => { c with msgs := m }
      (a.mate = none → b.mate = none → (∀ x ∈ la, mine true x = false ∨ x.mate ≠ none) →
        (∀ x ∈ lb, mine false x = false ∨ x.mate ≠ none) →
        (a.len = b.len → exec (.messageMatch src dst mtag) s =
          .next (withMsgs (la ++ { a with mate := some (b.hart, b.tag) } :: ra)
            (lb ++ { b with mate := some (a.hart, a.tag) } :: rb))) ∧
        (a.len ≠ b.len → ∃ t, exec (.messageMatch src dst mtag) s = .next t ∧
          (t.cluster src).msgs = la ++ { a with faulted := true } :: ra ∧
          (t.cluster dst).msgs = lb ++ { b with faulted := true } :: rb ∧
          (t.hart a.hart).tags.faults = (s.hart a.hart).tags.faults ++ [⟨a.tag, 0x17, a.loc⟩] ∧
          (t.hart b.hart).tags.faults = (s.hart b.hart).tags.faults ++ [⟨b.tag, 0x17, b.loc⟩] ∧ SameBytes s t)) ∧
      (a.mate = some (b.hart, b.tag) → b.mate = some (a.hart, a.tag) → (∀ x ∈ la, mine true x = false ∨ x.mate = none) →
        (∀ x ∈ lb, mine false x = false ∨ x.mate ≠ some (a.hart, a.tag)) →
        ∃ t, exec (.messageTransferComplete src dst mtag) s = .next t ∧
          (t.cluster src).msgs = la ++ ra ∧ (t.cluster dst).msgs = lb ++ rb ∧
          (t.hart a.hart).tags.bits.getLsbD a.tag = decide (a.tag < 64) ∧ (t.hart a.hart).tags.busy.getLsbD a.tag = false ∧
          (t.hart b.hart).tags.bits.getLsbD b.tag = decide (b.tag < 64) ∧ (t.hart b.hart).tags.busy.getLsbD b.tag = false ∧
          (let p := locator src a.loc.toNat
           let q := locator dst b.loc.toNat
           p.1 ≠ q.1 → p.2 + a.len ≤ 2 ^ 24 → q.2 + a.len ≤ 2 ^ 24 → a.len % 64 = 0 → ∀ i, i < a.len →
            t.byte (cellarPa q.1 (q.2 + i)) = s.byte (cellarPa p.1 (p.2 + i)))))

/-- The collective instructions, and messages. Derived: bits of a peer above 22 are ignored, a busy tag has EADDR 0, and a whole
message moves in one step (the model's readings, log 54). -/
def Obligations.ExchangeInstructionResults : Prop :=
  Clauses.CollectiveInstructionResults ∧ Clauses.MessageResults

/-! ## Class 0xF: the system (14 R351 to R374) -/

/-- A system-level instruction at task level raises Privilege, and so does a CRR or CRW of a register that 14 Table 14.2 keeps
from task level; nothing else happens. -/
def Clauses.PrivilegeTraps : Prop :=
  ∀ (f : Fields) (s : State), s.me.status.sys = false →
    (∀ i ∈ [Instr.halt, .smark, .sresumeImg, .gload, .gbind, .gbindFree, .eret, .sigev, .hspawn, .hspawnKeep, .hstop, .vsave,
        .vrest, .tlbinv, .cflush],
      exec (i f) s = .next (s.trapped 0x03 0 0)) ∧
    (∀ n : Nat, f.imm.toNat = n →
      (n ∈ [0x004, 0x005, 0x006, 0x007, 0x008, 0x009, 0x061, 0x062, 0x063, 0x090, 0x091, 0x0C0, 0x0D0, 0x0E0, 0x0E1, 0x0E2,
          0x0E3, 0x0E8, 0x0E9, 0x0EA, 0x0EB] →
        exec (.crr f) s = .next (s.trapped 0x03 0 0) ∧ exec (.crw f) s = .next (s.trapped 0x03 0 0)) ∧
      (n ∈ [0x000, 0x001, 0x002, 0x003, 0x014, 0x015, 0x016, 0x060, 0x071, 0x080, 0x081, 0x082, 0x083, 0x084, 0x085] ∨
          0x018 ≤ n ∧ n ≤ 0x037 →
        exec (.crw f) s = .next (s.trapped 0x03 0 0)))

/-- TRAP and BRK take their causes with IMM in EADDR; WAITEV consumes pending events, answers 0 with NOWAIT, or waits; SIGEV
sets event bits of a hart of the package or sends MSI-X; HSPAWN starts a stopped, unbooked hart in the state of R366,
HSPAWN.KEEP where it stood, HSTOP stops one outside a gang, and each failure answers its code in the order of R373. -/
def Clauses.TrapEventAndHartControlResults : Prop :=
  ∀ (f : Fields) (s : State),
    exec (.trap f) s = .next (s.trapped 0x18 (f.imm.setWidth 64) 0) ∧
    exec (.brk f) s = .next (s.trapped 0x19 (f.imm.setWidth 64) 0) ∧
    (let e := s.me.evpend &&& s.rs f.a
     (e ≠ 0 → exec (.waitev f) s =
        .next ((s.modMe fun h => { h with evpend := h.evpend &&& ~~~(s.rs f.a) }).ws f.d e).proceed) ∧
     (e = 0 → f.modBit 42 = true → exec (.waitev f) s = .next (s.ws f.d 0).proceed) ∧
     (e = 0 → f.modBit 42 = false → exec (.waitev f) s = .next (s.waiting .event))) ∧
    (s.me.status.sys = true →
      let a := s.rs f.a
      (∀ h : HartId, a.toNat = h.val → s.storesDone s.cur 3 (s.copySeq + 1) = true →
        exec (.sigev f) s = .next (s.modHart h fun x => { x with evpend := x.evpend ||| s.rs f.b }).proceed) ∧
      (a.extractLsb' 7 57 = 0x100 → exec (.sigev f) s = .next ({ s with dev := { s.dev with
        msix := s.dev.msix ++ [⟨a.getLsbD 6, a.setWidth 6⟩] } } : State).proceed) ∧
      (a.extractLsb' 16 48 ≠ 0 → exec (.sigev f) s = .next (s.trapped 0x01 ((packWord 0xF05 f).setWidth 64) 0)) ∧
      (∀ k : Fin 4, a.toNat = k.val →
        let t := hartOf s.cur.cluster k
        let x := s.hart t
        let fails (i : Fields → Instr) (c : Nat) : Prop :=
          exec (i f) s = .next (s.ws f.d (BitVec.ofNat 64 (2 ^ 63 + c))).proceed
        (t = s.cur → fails .hspawn 3 ∧ fails .hspawnKeep 3) ∧
        (t ≠ s.cur → x.run ≠ .stopped → fails .hspawn 1 ∧ fails .hspawnKeep 1) ∧
        (t ≠ s.cur → x.run = .stopped → s.bookedAhead (100, t.val) = true → fails .hspawn 2 ∧ fails .hspawnKeep 2) ∧
        (t ≠ s.cur → x.run = .stopped → s.bookedAhead (100, t.val) = false →
          exec (.hspawnKeep f) s = .next ((s.modHart t fun x => { x with run := .running }).ws f.d 0).proceed ∧
          (x.tags.busy ≠ 0 → fails .hspawn 4) ∧
          (x.tags.busy = 0 → (s.rs f.b).toNat % 16 ≠ 0 → exec (.hspawn f) s = .next (s.trapped 0x04 0 0)) ∧
          (x.tags.busy = 0 → (s.rs f.b).toNat % 16 = 0 → ∃ u, exec (.hspawn f) s = .next u ∧
            u = ((s.setHart t (u.hart t)).ws f.d 0).proceed ∧
            (let y := u.hart t
             y.pc = s.rs f.b ∧ y.run = .running ∧ (∀ n, y.rs n = if n = 1 then s.rs f.c else 0) ∧
              (∀ n : Fin 32, y.v[n] = 0) ∧ (∀ n : Fin 8, y.m[n] = .bitmap 0) ∧ y.mf = 0 ∧
              y.status = { Status.reset with sys := !f.modBit 42 } ∧ y.vc = { Hart.reset.vc with vsaveptr := x.vc.vsaveptr } ∧
              y.fp = Hart.reset.fp ∧ y.kmode = 0 ∧ y.klimit = 8192 ∧ y.modp = 0 ∧ y.modq = 0 ∧ y.sstatus = 0 ∧ y.mxcfg = 0 ∧
              y.tags.bits = 0 ∧ y.tags.busy = 0 ∧ y.vbind = Hart.reset.vbind ∧ (∀ n : Fin 2, (y.wslot[n]).valid = false) ∧
              y.lees.sp = x.lees.base ∧ y.lees.base = x.lees.base ∧ y.lees.lim = x.lees.lim ∧ y.lees.win = 0 ∧
              y.ptbase = s.me.ptbase ∧ y.asid = s.me.asid ∧ y.tr.tvec = s.me.tr.tvec))) ∧
        (x.gang.isSome = true → fails .hstop 1) ∧
        (x.gang = none → ∃ u, exec (.hstop f) s = .next u ∧ (u.hart t).run = .stopped ∧
          (x.run = .stopped ∨ (u.hart t).mxcfg = x.mxcfg &&& ~~~0x10FF00) ∧ (u.hart t).v = x.v ∧
          (u.hart t).pc = (if t = s.cur then x.pc + 16 else x.pc) ∧ (u.hart s.cur).rs f.d = 0 ∧
          ((∀ x ∈ neededFor t s.storeBuf, x.hart = t) → ∀ k, k ≠ t → k ≠ s.cur → u.hart k = s.hart k))))

/-- Privilege, traps, events, and starting and stopping harts. Derived: a misaligned entry has EADDR 0, since 14 R373 gives none
(R356), and HSTOP stops its hart at once and performs its held stores (log 55). -/
def Obligations.SystemControlResults : Prop :=
  Clauses.PrivilegeTraps ∧ Clauses.TrapEventAndHartControlResults

/-- CRR reads and CRW writes, at system level, the identity, trap, context, status, VHIGH, floating, tag, calendar, translation,
modulus and semaphore registers, and CRW answers the old value; an unassigned number, a register whose every field is RO
and a VHIGH above 2048 raise 0x01. Derived: PREEMPT.DRAIN is computed from the fabric of the cluster (log 43). -/
def Clauses.PlainRegisterResults : Prop :=
  ∀ (f : Fields) (s : State), s.me.status.sys = true →
    let h := s.me
    let bad (i : Fields → Instr) (opc : BitVec 12) : Prop :=
      exec (i f) s = .next (s.trapped 0x01 ((packWord opc f).setWidth 64) 0)
    let new (old : Word) : Word := match f.modField 43 42 with
      | 0 => s.rs f.a | 1 => old ||| s.rs f.a | _ => old &&& ~~~(s.rs f.a)
    let gangWord (g : Task → Nat) : Word := match s.taskOf s.cur with | some t => BitVec.ofNat 64 (g t) | none => BitVec.allOnes 64
    (∀ p ∈ [(0x000#32, BitVec.ofNat 64 (s.cur.val % 4)), (0x001, h.cal.gangid),
        (0x002, BitVec.ofNat 64 (s.cur.val / 4 + s.dev.pkgNum.toNat * 128)), (0x071, h.tags.busy),
        (0x080, BitVec.ofNat 64 (s.cycle / 16)), (0x081, gangWord Task.bookStart), (0x082, gangWord Task.bookEnd),
        (0x0C0, BitVec.ofNat 64 (h.preempt.pend.toNat + (h.preempt.pend && s.mustDrain s.cur).toNat * 2 +
          h.preempt.req.toNat * 4))],
      f.imm = p.1 → exec (.crr f) s = .next (s.ws f.d p.2).proceed ∧ bad .crw 0xF03) ∧
    (f.imm = 0x083 → bad .crw 0xF03 ∧ ∃ v : Word, exec (.crr f) s = .next (s.ws f.d v).proceed) ∧
    (∀ p ∈ [(0x004#32, h.tr.cause.setWidth 64, fun (h : Hart) (w : Word) => { h with tr := { h.tr with cause := w.setWidth 8 } }),
        (0x005, h.tr.epc, fun h w => { h with tr := { h.tr with epc := w &&& ~~~0xF } }),
        (0x006, h.tr.eidx, fun h w => { h with tr := { h.tr with eidx := w } }),
        (0x007, h.tr.eaddr, fun h w => { h with tr := { h.tr with eaddr := w } }),
        (0x008, h.tr.tvec, fun h w => { h with tr := { h.tr with tvec := w &&& ~~~0xF } }),
        (0x009, h.tr.escratch, fun h w => { h with tr := { h.tr with escratch := w } }),
        (0x014, h.vc.vdirty.setWidth 64, fun h w => { h with vc := { h.vc with vdirty := w.setWidth 41 } }),
        (0x015, h.vc.vvalid.setWidth 64, fun h w => { h with vc := { h.vc with vvalid := w.setWidth 41 } }),
        (0x016, h.vc.vsaveptr, fun h w => { h with vc := { h.vc with vsaveptr := w &&& 0xFFFFFFFFFFF000 } }),
        (0x050, h.vc.nfflag.setWidth 64, fun h w => { h with vc := { h.vc with nfflag := w.setWidth 3 } }),
        (0x051, h.fp.flags.setWidth 64, fun h w => { h with fp := { h.fp with flags := w.setWidth 5 } }),
        (0x053, h.fp.seed, fun h w => { h with fp := { h.fp with seed := w } }),
        (0x070, h.tags.bits, fun h w => { h with tags := { h.tags with
          bits := (h.tags.bits &&& h.tags.busy) ||| (w &&& ~~~h.tags.busy) } }),
        (0x084, h.cal.overruns.setWidth 64, fun h w => { h with cal := { h.cal with overruns := w.setWidth 32 } }),
        (0x085, h.cal.hintstalls, fun h w => { h with cal := { h.cal with hintstalls := w } }),
        (0x090, h.ptbase, fun h w => { h with ptbase := w &&& 0xFFFFFFFF00001 }),
        (0x091, h.asid.setWidth 64, fun h w => { h with asid := w.setWidth 16 }),
        (0x0A0, h.modp.setWidth 64, fun h w => { h with modp := w.setWidth 31, sstatus := h.sstatus &&& ~~~4 }),
        (0x0A1, h.modq.setWidth 64, fun h w => { h with modq := w.setWidth 31, sstatus := h.sstatus &&& ~~~4 })],
      f.imm = p.1 → f.modField 43 42 ≤ 2 → exec (.crr f) s = .next (s.ws f.d p.2.1).proceed ∧
        exec (.crw f) s = .next ((s.modMe fun h => p.2.2 h (new p.2.1)).ws f.d p.2.1).proceed) ∧
    (f.imm = 0x003 → ∃ v : Word, exec (.crr f) s = .next (s.ws f.d v).proceed ∧ v.extractLsb' 9 55 = 0 ∧
      [v.getLsbD 0, v.getLsbD 1, v.getLsbD 2, v.getLsbD 3, v.getLsbD 4, v.getLsbD 5, v.getLsbD 6, v.getLsbD 7, v.getLsbD 8] =
        [h.status.sys, h.status.psys, h.status.ie, h.status.pie, h.status.eve, h.status.audit, h.status.mfr, h.status.pmfr,
          h.status.dread] ∧
      exec (.crw f) s = .next ((s.modMe fun h => { h with status := ⟨h.status.sys, (new v).getLsbD 1, (new v).getLsbD 2,
        (new v).getLsbD 3, (new v).getLsbD 4, (new v).getLsbD 5, (new v).getLsbD 6, (new v).getLsbD 7, (new v).getLsbD 8⟩ }).ws f.d v).proceed) ∧
    (∀ n : Fin 32, f.imm = BitVec.ofNat 32 (0x018 + n.val) →
      let v : Word := (h.vc.vhigh[n]).setWidth 64
      exec (.crr f) s = .next (s.ws f.d v).proceed ∧
      (2048 < (new v).toNat % 4096 → bad .crw 0xF03) ∧
      ((new v).toNat % 4096 ≤ 2048 → exec (.crw f) s = .next ((s.modMe fun h => { h with vc := { h.vc with
        vhigh := h.vc.vhigh.set n ((new v).setWidth 12) } }).ws f.d v).proceed)) ∧
    (f.imm = 0x0D0 → let x := s.dev.hsem
      let who : Byte := BitVec.ofNat 8 (s.cur.val / 4 + 4)
      let v : Word := BitVec.ofNat 64 (x.owner.toNat + x.count.toNat * 2 ^ 8 + x.lease.toNat * 2 ^ 24 + x.expired.toNat * 2 ^ 63)
      let withHsem (y : Hsem) : Out := .next (({ s with dev := { s.dev with hsem := y } } : State).ws f.d v).proceed
      exec (.crr f) s = withHsem (if x.owner = 0 then
        { x with owner := who, count := x.count + 1, lease := s.dev.hsemLease } else x) ∧
      (s.storesDone s.cur 4 (s.copySeq + 1) = true →
        exec (.crw f) s = withHsem (if x.owner = who then { x with owner := 0, lease := 0 } else x))) ∧
    (f.imm.toNat < 4096 → (∀ n, f.imm.toNat = n → n ∉ [0x000, 0x001, 0x002, 0x003, 0x004, 0x005, 0x006, 0x007, 0x008, 0x009,
        0x010, 0x011, 0x012, 0x013, 0x014, 0x015, 0x016, 0x060, 0x061, 0x062, 0x063, 0x070, 0x071, 0x090, 0x091, 0x0C0, 0x0D0,
        0x0B0, 0x0B1] ∧ ¬ (0x018 ≤ n ∧ n ≤ 0x037) ∧ ¬ (0x040 ≤ n ∧ n ≤ 0x045) ∧ ¬ (0x050 ≤ n ∧ n ≤ 0x053) ∧
        ¬ (0x080 ≤ n ∧ n ≤ 0x085) ∧ ¬ (0x0A0 ≤ n ∧ n ≤ 0x0A2) ∧ ¬ (0x0E0 ≤ n ∧ n ≤ 0x0E3) ∧ ¬ (0x0E8 ≤ n ∧ n ≤ 0x0EB)) →
      bad .crr 0xF02 ∧ bad .crw 0xF03)

/-- The registers whose values are checked (05 R90, R96, R101, 03 R60, 09 R260, 11 R290, 12 R326, 14 R354, R355): CRR reads them,
and CRW writes them at system level and answers the old value, or raises 0x01 and writes nothing where the new value breaks
the register's rule. A VTYPE below the lengths that stand leaves them (log 29), bits [7:3] of KMODE read as zero (log 32), and
the bytes of a weight slot are read again (10 R274). -/
def Clauses.CheckedRegisterResults : Prop :=
  ∀ (f : Fields) (s : State), s.me.status.sys = true → f.modField 43 42 ≤ 2 →
    let h := s.me
    let new (old : Word) : Word := match f.modField 43 42 with
      | 0 => s.rs f.a | 1 => old ||| s.rs f.a | _ => old &&& ~~~(s.rs f.a)
    let reg (n : Nat) (old : Word) (ok : Word → Prop) (put : Word → Hart) : Prop := f.imm.toNat = n →
      exec (.crr f) s = .next (s.ws f.d old).proceed ∧
      (ok (new old) → exec (.crw f) s = .next ((s.modMe fun _ => put (new old)).ws f.d old).proceed) ∧
      (¬ ok (new old) → exec (.crw f) s = .next (s.trapped 0x01 ((packWord 0xF03 f).setWidth 64) 0))
    let lees (y : LeesRegs) : Prop := y.win = 0 ∧ y.base.toNat ≤ y.sp.toNat ∧ y.sp.toNat ≤ y.lim.toNat
    let sp (w : Word) : LeesRegs := { h.lees with sp := w &&& 0xFFFFFFFFFFFFC0 }
    let base (w : Word) : LeesRegs := { h.lees with base := w &&& 0xFFFFFFFFFFF800 }
    let lim (w : Word) : LeesRegs := { h.lees with lim := w &&& 0xFFFFFFFFFFF800 }
    let slot (n : Fin 2) (w : Word) : WSlot :=
      { addr := (h.wslot[n]).addr, valid := w.getLsbD 0, type := w.extractLsb' 1 4, int := w.getLsbD 5, sp24 := w.getLsbD 6
        u := w.getLsbD 7, k := w.extractLsb' 8 9, n := w.extractLsb' 17 9, pitch := w.extractLsb' 32 32, image := none }
    let bind (w : Word) : VBind :=
      { v := w.getLsbD 0, out := w.getLsbD 1, drained := w.getLsbD 2, group := w.extractLsb' 3 5, lg := w.extractLsb' 8 2
        handle := w.extractLsb' 10 5, type := w.extractLsb' 15 4 }
    let free (k : Fin 4) (b : VBind) : Prop := b.group.toNat % 2 ^ b.lg.toNat = 0 ∧ ∀ i : Fin 4, i ≠ k → (h.vbind[i]).v = true →
      overlaps (h.vbind[i]).group.toNat (h.vbind[i]).size b.group.toNat b.size = false ∧ (h.vbind[i]).handle ≠ b.handle
    reg 0x010 (h.vc.vtype.setWidth 64) (fun w => vtypeOk (w.setWidth 16) = true)
      (fun w => { h with vc := { h.vc with vtype := w.setWidth 16 } }) ∧
    reg 0x011 (h.vc.vlrow.setWidth 64) (fun w => w.toNat % 2 ^ 14 ≤ h.rowcap)
      (fun w => { h with vc := { h.vc with vlrow := w.setWidth 14 } }) ∧
    reg 0x012 (h.vc.vlcol.setWidth 64) (fun w => w.toNat % 2 ^ 14 ≤ h.colcap)
      (fun w => { h with vc := { h.vc with vlcol := w.setWidth 14 } }) ∧
    reg 0x013 (h.vc.vstart.setWidth 64) (fun w => w.toNat % 2 ^ 14 ≤ 8192)
      (fun w => { h with vc := { h.vc with vstart := w.setWidth 14 } }) ∧
    (∀ k : Fin 3, let wd := if k = 2 then 25 else 21
      reg (0x040 + k.val) h.vc.dl[k] (fun w => w.toNat % 2 ^ wd ≤ if k = 2 then 16777216 else 1048576)
        (fun w => { h with vc := { h.vc with dl := h.vc.dl.set k (BitVec.ofNat 64 (w.toNat % 2 ^ wd)) } }) ∧
      reg (0x043 + k.val) h.vc.ds[k] (fun _ => True) (fun w => { h with vc := { h.vc with ds := h.vc.ds.set k w } })) ∧
    reg 0x052 (BitVec.ofNat 64 (h.fp.ctl.rm.toNat + h.fp.ctl.sat8.toNat * 2 ^ 3 + h.fp.ctl.enables.toNat * 2 ^ 5)) (fun _ => True)
      (fun w => { h with fp := { h.fp with ctl :=
        { rm := if w.toNat % 8 ≤ 5 then w.setWidth 3 else h.fp.ctl.rm, sat8 := w.getLsbD 3, enables := w.extractLsb' 5 5 } } }) ∧
    reg 0x060 h.lees.sp (fun w => lees (sp w)) (fun w => { h with lees := sp w }) ∧
    reg 0x061 h.lees.base (fun w => lees (base w)) (fun w => { h with lees := base w }) ∧
    reg 0x062 h.lees.lim (fun w => lees (lim w)) (fun w => { h with lees := lim w }) ∧
    reg 0x063 (h.lees.win.setWidth 64) (fun w => w.toNat % 32 = 0) (fun _ => { h with lees := { h.lees with win := 0, held := [] } }) ∧
    reg 0x0A2 h.sstatus (fun _ => True) (fun w =>
      let x := (h.sstatus &&& ~~~0xFFB) ||| (w &&& 0xFFB)
      { h with sstatus := if w.getLsbD 0 then x else x &&& 0xFFFF }) ∧
    reg 0x0B0 (h.kmode.setWidth 64) (fun w => w.toNat % 4 ≠ 3) (fun w => { h with kmode := w.setWidth 24 &&& 0xFFFF07 }) ∧
    reg 0x0B1 (h.klimit.setWidth 64) (fun w => 1 ≤ w.toNat % 2 ^ 14 ∧ w.toNat % 2 ^ 14 ≤ 8192)
      (fun w => { h with klimit := w.setWidth 14 }) ∧
    (∀ k : Fin 4, f.imm.toNat = 0x0E0 + k.val →
      let x := h.vbind[k]
      let old : Word := BitVec.ofNat 64 (x.v.toNat + x.out.toNat * 2 + x.drained.toNat * 2 ^ 2 + x.group.toNat * 2 ^ 3 +
        x.lg.toNat * 2 ^ 8 + x.handle.toNat * 2 ^ 10 + x.type.toNat * 2 ^ 15)
      let b := bind (new old)
      let sets (b : VBind) : Prop :=
        exec (.crw f) s = .next ((s.modMe fun h => { h with vbind := h.vbind.set k b }).ws f.d old).proceed
      exec (.crr f) s = .next (s.ws f.d old).proceed ∧ (b.v = false → sets b) ∧
      (b.v = true → (∀ t, free k b → h.bindType b.type = some t → sets { b with type := t }) ∧
        (¬ free k b ∨ h.bindType b.type = none →
          exec (.crw f) s = .next (s.trapped 0x01 ((packWord 0xF03 f).setWidth 64) 0)))) ∧
    (∀ n : Fin 2, let x := h.wslot[n]
      reg (0x0E8 + 2 * n.val) x.addr (fun _ => True)
        (fun w => { h with wslot := h.wslot.set n { x with addr := w, image := none } }) ∧
      reg (0x0E9 + 2 * n.val) (BitVec.ofNat 64 (x.valid.toNat + x.type.toNat * 2 + x.int.toNat * 2 ^ 5 + x.sp24.toNat * 2 ^ 6 +
          x.u.toNat * 2 ^ 7 + x.k.toNat * 2 ^ 8 + x.n.toNat * 2 ^ 17 + x.pitch.toNat * 2 ^ 32))
        (fun w => w.getLsbD 0 = true → h.dense = true ∧ (slot n w).legal = true)
        (fun w => { h with wslot := h.wslot.set n (slot n w) }))

/-- CRR and CRW of every register at system level. -/
def Obligations.ControlRegisterResults : Prop :=
  Clauses.PlainRegisterResults ∧ Clauses.CheckedRegisterResults

/-- VSAVE stores the selected, dirty and valid registers in the layout of 14 Table 14.6 and answers the bytes written; VREST
restores every selected register from there and marks it valid and clean; TLBINV removes the translations of its kind;
it waits for the stores that the harts of the affected dies still hold; CFLUSH of at most 2^30 bytes changes nothing that an
observer sees. -/
def Obligations.SaveAreaAndCacheResults : Prop :=
  ∀ (f : Fields) (s : State), s.me.status.sys = true →
    let h := s.me
    let a := s.rs f.a
    let at_ (o : Nat) : Word := h.vc.vsaveptr + BitVec.ofNat 64 o
    (a.extractLsb' 41 23 = 0 →
      (∀ ps, let sel := a.setWidth 41 &&& h.vc.vdirty &&& h.vc.vvalid
        let runs := (h.saveRuns sel.toNat).filter fun r => !r.2.isEmpty
        RowsReady s false (runs.map fun r => (at_ r.1, r.2.length)) ps →
        ∃ t, exec (.vsave f) s = .next t ∧ Stored s t (matPhys ps.flatten) (runs.flatMap fun r => r.2) ∧
          t.me = ((s.ws f.d (BitVec.ofNat 64 (runs.map fun r => r.2.length).sum)).proceed).me ∧
          ∀ k, k ≠ s.cur → t.hart k = s.hart k) ∧
      (∀ ps1 ps2, let vs := (List.range 32).filter a.getLsbD
        let ms := (List.range 9).filter fun k => a.getLsbD (32 + k)
        let high (n : Nat) : Nat := s.rowOf (ps1.getD (vs.idxOf n) [])
        let tag (k : Nat) : Nat := s.rowOf (ps1.getD (vs.length + ms.idxOf k) [])
        let size (k : Nat) : Nat := if tag k % 2 = 1 then 2 * (tag k / 65536) else 1024
        let runs := (vs.map fun n => (0x800 * n, (high n + 63) / 64 * 64)) ++ ms.map fun k => (0x10000 + 0x400 * k, size k)
        let live := runs.filter fun x => x.2 != 0
        let data (o : Nat) : Nat := match (live.zip ps2).find? fun x => x.1.1 == o with | some x => s.rowOf x.2 | none => 0
        let list (k : Nat) : List Nat := (List.range (size k / 2)).map fun i => data (0x10000 + 0x400 * k) / 2 ^ (16 * i) % 65536
        RowsReady s true ((vs.map fun n => (at_ (0x12480 + 8 * n), 8)) ++ ms.map fun k => (at_ (0x12400 + 8 * k), 8)) ps1 →
        (∀ n ∈ vs, high n ≤ 2048) → (∀ k ∈ ms, tag k % 65536 ≤ 1 ∧ tag k / 65536 ≤ 512) →
        RowsReady s true (live.map fun x => (at_ x.1, x.2)) ps2 →
        (∀ k ∈ ms, tag k % 2 = 1 → (list k).Pairwise (· < ·)) →
        ∃ t, exec (.vrest f) s = .next t ∧ OnlyMe s t ∧ SameBytes s t ∧
          (∀ n : Fin 32, t.me.v[n] = if n.val ∈ vs then BitVec.ofNat 16384 (data (0x800 * n.val) % 2 ^ (8 * high n.val))
            else h.v[n]) ∧
          (∀ n : Fin 32, t.me.vc.vhigh[n] = if n.val ∈ vs then BitVec.ofNat 12 (high n.val) else h.vc.vhigh[n]) ∧
          (∀ k : Fin 8, t.me.m[k] = if k.val ∈ ms then
              if tag k.val % 2 = 1 then .list (list k.val) else .bitmap (BitVec.ofNat 8192 (data (0x10000 + 0x400 * k.val)))
            else h.m[k]) ∧
          (8 ∉ ms → t.me.mf = h.mf) ∧
          (8 ∈ ms → tag 8 % 2 = 0 → t.me.mf = BitVec.ofNat 8192 (data 0x12000)) ∧
          (8 ∈ ms → tag 8 % 2 = 1 → ∀ i, i < 8192 → t.me.mf.getLsbD i = decide (i ∈ list 8)) ∧
          (let n := 8 * (vs.length + ms.length) + (runs.map (·.2)).sum
           t.me = { h with
            pc := h.pc + 16, inWait := false, v := t.me.v, m := t.me.m, mf := t.me.mf, latch := t.me.latch
            s := (h.ws f.d (BitVec.ofNat 64 n)).s
            vc := { h.vc with vhigh := t.me.vc.vhigh, vvalid := h.vc.vvalid ||| a.setWidth 41
                              vdirty := h.vc.vdirty &&& ~~~(a.setWidth 41) } }))) ∧
    ((∃ x ∈ s.storeBuf, f.modBit 44 = true ∨ x.hart.die = s.cur.die) → exec (.tlbinv f) s = .next (s.waiting .other)) ∧
    ((∀ x ∈ s.storeBuf, f.modBit 44 = false ∧ x.hart.die ≠ s.cur.die) →
      ∃ t, exec (.tlbinv f) s = .next t ∧ t = { s with harts := t.harts, dies := t.dies } ∧
      (∀ k, t.hart k = s.proceed.hart k) ∧
      (let goes (e : TlbEntry) : Bool :=
        let page := decide (e.va ≤ a.toNat ∧ a.toNat < e.va + 2 ^ e.lg)
        let asid := decide (e.asid = some ((s.rs f.b).setWidth 16))
        match f.modField 43 42 with
        | 0 => true
        | 1 => asid
        | 2 => page
        | _ => page && (asid || e.asid == none)
       ∀ d : DieId, t.die d = if f.modBit 44 = true ∨ d = s.cur.die then
          { s.die d with tlb := (s.die d).tlb.filter fun e => !goes e } else s.die d)) ∧
    ((s.rs f.b).toNat ≤ 2 ^ 30 → exec (.cflush f) s = .next s.proceed) ∧
    (2 ^ 30 < (s.rs f.b).toNat → exec (.cflush f) s = .next (s.trapped 0x01 ((packWord 0xF0B f).setWidth 64) 0))

/-! ## Steps of other agents: asynchronous causes, held stores and copies (02 R32, 06 R142, 07 R167 to R179, 14 R359 to R361) -/

/-- What the hart control block's writes leave, and how the asynchronous causes are taken: a request, an event bit and a host
interrupt become pending; a hart at an instruction boundary takes the one that is first in 14 Table 14.4, and a mis-hint
under AUDIT when none is; FUTURE_POLL lets a hart read its word again. -/
def Obligations.AsynchronousCauseResults : Prop :=
  ∀ (s : State) (h : HartId),
    let x := s.hart h
    let takes (u : State) (cause : Nat) (eidx eaddr : Word) : Out := .next (takeTrap (u.withdraw h) h cause x.pc eidx eaddr)
    (∀ id, (x.run ≠ .stopped → x.preempt.pend = false → exec (.preqWrite h id) s = .next (s.modHart h fun x =>
        { x with preempt := ⟨true, id, s.slot⟩ })) ∧
      (x.run = .stopped ∨ x.preempt.pend = true → exec (.preqWrite h id) s = .next s)) ∧
    (∀ v, exec (.evsetWrite h v) s = .next (s.modHart h fun x => { x with evpend := x.evpend ||| v }) ∧
      exec (.hisetWrite h v) s = .next (s.modHart h fun x => { x with hipend := x.hipend ||| v })) ∧
    (x.run = .running ∨ (∃ w, x.run = .waiting w) → x.status.sys = false ∨ x.status.ie = true →
      (∀ p, firstPending x.pend = some p → p.cause = 0x17 → x.gang = none →
        exec (.streamFault h) s = takes (s.modHart h fun x => { x with pend := x.pend.erase p }) 0x17 p.eidx p.eaddr) ∧
      (x.pend = [] →
        (x.preempt.pend = true → x.gang = none → exec (.preemptGrant h) s =
          takes (s.modHart h fun x => { x with preempt := { x.preempt with pend := false } }) 0x1A 0
            (x.preempt.req.setWidth 64)) ∧
        (∀ d n t, x.preempt.pend = true → x.gang = some (d, n) → s.ownsRun h = false → s.task d n = some t →
          t.st = .running → ∃ u t', exec (.preemptGrant h) s = .next u ∧ (u.hart h).tr.cause = 0x1A ∧
            (u.hart h).pc = x.tr.tvec ∧ (u.hart h).preempt.pend = false ∧ t' ∈ (u.die d).cal.tasks ∧
            t'.num = t.num ∧ t'.st = .suspended ∧ t'.awaiting = [h] ∧
            ∀ m ∈ t.members, m ≠ h → (u.hart m).run = if (s.hart m).run = .stopped then .stopped else .suspended) ∧
        (x.preempt.pend = false ∨ s.mustDrain h = true →
          (x.hipend ≠ 0 → exec (.hostInterrupt h) s =
            takes (s.modHart h fun x => { x with hipend := 0 }) 0x1C 0 x.hipend) ∧
          (x.hipend = 0 → x.status.eve = true → x.evpend ≠ 0 →
            exec (.event h) s = takes s 0x1B 0 x.evpend)))) ∧
    (∀ (r : AuditRecord) (u : State) (w : IWord), x.run = .running ∨ (∃ w, x.run = .waiting w) → x.status.audit = true →
      s.nextAsync h = none → fetch s h = (u, .word w) → (u.hart h).pc = x.pc →
      ∃ v : Word, exec (.hintAudit h r) s = takes u 0x1D 0 v ∧
        v.extractLsb' 0 3 = (hintsOf w).gap ∧ v.extractLsb' 3 3 = r.gapExp ∧ v.extractLsb' 6 2 = (hintsOf w).hk ∧
        v.extractLsb' 8 3 = (hintsOf w).hl ∧ v.extractLsb' 11 2 = r.hkExp ∧ v.extractLsb' 13 3 = r.hlExp ∧
        v.extractLsb' 16 8 = r.cycles ∧ v.getLsbD 24 = r.kind ∧ v.extractLsb' 25 39 = 0) ∧
    (∀ pa, x.run = .waiting (.future pa false) →
      exec (.futurePoll h) s = .next (s.modHart h fun x => { x with run := .running }))

/-- Acknowledgements of held stores and the steps of a Racker channel: a store that every holder has acknowledged is performed, all
its runs of bytes at once, unless an older held store to one of its bytes waits; a copy starts once its hart's earlier stores are
and claims what it has not written, one whose next line fails its check leaves its channel with the cause and address at its
tag, or waits for its suspended gang (07 R172), a line of a fill or of a plain copy is written whole from source words that are
each read once, and a copy whose lines are all written leaves its channel with its tag done. Derived: an acknowledgement without
a holder performs the store (logs 17 and 36), a copy claims again as it starts (log 18), and lines are written one by one in the
order of positions (log 33). -/
def Obligations.StoreAckAndCopyStepResults : Prop :=
  ∀ (s : State), s.memOk →
    (∀ (h : HartId) (l r : List HeldStore) (x : HeldStore), s.storeBuf = l ++ x :: r → x.hart = h →
      let n := (l.filter fun y => y.hart == h).length
      (∀ o, x.acked.contains o = false → exec (.rdupInvalidationAck h n (some o)) s =
        .next { s with storeBuf := l ++ { x with acked := x.acked ++ [o] } :: r }) ∧
      ((∃ y ∈ l, x.overlaps y = true) → exec (.rdupInvalidationAck h n none) s = .next s) ∧
      ((∀ y ∈ l, x.overlaps y = false) →
        x.runs.Pairwise (fun p q => p.1 + p.2.length ≤ q.1 ∨ q.1 + q.2.length ≤ p.1) →
        ∃ t, exec (.rdupInvalidationAck h n none) s = .next t ∧ t.storeBuf = l ++ r ∧
          (∀ a, (∀ p ∈ x.runs, ¬ (p.1 ≤ a ∧ a < p.1 + p.2.length)) → t.byte a = s.byte a) ∧
          (∀ p ∈ x.runs, ∀ i, i < p.2.length → t.byte (p.1 + i) = mergeByte x.mask (s.byte (p.1 + i)) (p.2.getD i 0)) ∧
          (∀ k, t.hart k = if k = h then { s.hart h with cc := (t.hart h).cc } else s.hart k))) ∧
    (∀ (c : ClusterId) (ch : Fin 4) (x : Copy) (r : List Copy), (s.cluster c).racker.channels[ch] = x :: r →
      let with_ (l : List Copy) (u : State) : State := u.modCluster c fun y =>
        { y with racker := { y.racker with channels := y.racker.channels.set ch l } }
      (x.started = false → s.storesDone x.hart x.scope x.id = true →
        exec (.copyStart c ch) s = .next ((with_ ({ x with started := true } :: r) s).reclaim x)) ∧
      (x.started = true → x.dropped = true ∨ x.total ≤ x.pos → ∃ t, exec (.copyComplete c ch) s = .next t ∧
        (t.cluster c).racker.channels[ch] = r ∧ SameBytes s t ∧
        t.hart x.hart = { s.hart x.hart with
          fp := { (s.hart x.hart).fp with flags := (s.hart x.hart).fp.flags ||| x.flags }
          tags := { (s.hart x.hart).tags with
            bits := (s.hart x.hart).tags.bits ||| 1#64 <<< x.tag, busy := (s.hart x.hart).tags.busy &&& ~~~(1#64 <<< x.tag) } } ∧
        ∀ k, k ≠ x.hart → t.hart k = s.hart k) ∧
      (∀ n cause, x.started = true → x.dropped = false → x.pos < x.total → s.copyMoves c x = true →
        let line := x.dstAt x.pos &&& ~~~63#64
        let word := BitVec.ofNat 64 ((x.srcAt (fun _ => 0) x.pos).toNat / 8 * 8)
        let fails (va : Word) : Prop :=
          let taken (u : State) (parked faulted : List Copy) : State := (with_ r u).modCluster c fun y => { y with racker :=
            { y.racker with parked := y.racker.parked ++ parked, faulted := y.racker.faulted ++ faulted } }
          (∀ g, x.gang = some g → suspends cause = true →
            exec (.copyLineWrite c ch) s = .next ((taken s [x] []).suspendGang g.1 g.2 [])) ∧
          (x.gang = none ∨ suspends cause = false → exec (.copyLineWrite c ch) s =
            .next ((taken s [] [x]).modHart x.hart fun h =>
              { h with tags := { h.tags with faults := h.tags.faults ++ [⟨x.tag, cause, va⟩] } }))
        x.inLine line = [(x.pos, n)] → 1 ≤ n →
        (∀ k v t st lv va, x.form = .fill k v → checkPiece s x.ctx false line 64 = (t, .bad st cause lv va) → fails va) ∧
        (∀ len rows pitch pd t st lv va, x.form = .rows len rows pitch pd →
          (∀ i, i < n → (x.srcAt (fun _ => 0) (x.pos + i)).toNat / 8 * 8 = word.toNat) →
          x.got.lookup (word.toNat / 8) = none → checkPiece s x.ctx true word 8 = (t, .bad st cause lv va) → fails va)) ∧
      (∀ pa m e n, x.started = true → x.dropped = false → x.pos < x.total → s.copyMoves c x = true →
        let line := x.dstAt x.pos &&& ~~~63#64
        let o := (x.dstAt x.pos).toNat % 64
        x.inLine line = [(x.pos, n)] → 1 ≤ n → o + n ≤ 64 →
        checkPiece s x.ctx false line 64 = (s, .ok pa m e) → s.ownedFrom x false pa 64 = false →
        x.ctx.ptbase.getLsbD 0 = false ∨ leafD e.leaf = true →
        let writes (got : List (Nat × Word) → Prop) (l : List Byte) : Prop :=
          ∃ t g, exec (.copyLineWrite c ch) s = .next t ∧ t.harts = s.harts ∧ got g ∧
            (t.cluster c).racker.channels[ch] = { x with pos := x.pos + n, got := g } :: r ∧
            ∀ a, t.byte a = if pa + o ≤ a ∧ a < pa + o + n then l.getD (a - (pa + o)) 0 else s.byte a
        (∀ k v, x.form = .fill k v →
          writes (· = x.got) ((List.range n).map fun i => v.extractLsb' (8 * ((x.pos + i) % 8)) 8)) ∧
        (∀ len rows pitch pd, ∀ word : Nat → Word, x.form = .rows len rows pitch pd →
          let src (i : Nat) : Nat := (x.srcAt (fun _ => 0) (x.pos + i)).toNat
          (∀ i, i < n → let w := src i / 8
            x.got.lookup w = some (word w) ∨ x.got.lookup w = none ∧
              ∃ a e, checkPiece s x.ctx true (BitVec.ofNat 64 (8 * w)) 8 = (s, .ok a 8 e) ∧ readsZero e.leaf = false ∧
                s.ownedFrom x true a 8 = false ∧ word w = BitVec.ofNat 64 (ofBytes (s.bytes a 8))) →
          writes (fun g => ∀ i, i < n → g.lookup (src i / 8) = some (word (src i / 8)))
            ((List.range n).map fun i => (word (src i / 8)).extractLsb' (8 * (src i % 8)) 8))))

/-! ## Steps of the dispatcher and the calendar (08 R210 to R223) -/

/-- The dispatcher and the calendar unit on one task: it is checked near the head of its FIFO, enters the ready set when its
inputs and result space allow, moves up a level after 4,096 slots, is searched by a pass and at the end of its search booked
at the slot found, or given a round across dies, if the slot still fits, starts its gang at BOOKSTART, and is stopped at
BOOKEND with its OVERRUNS counted; every occurrence of a rolling claim is reserved, a stream or matrix update that another
booking's occurrence meets charges its gang into Overrun (log 40), and a compaction, one search at a time, moves a booking only to
an earlier slot. Derived: a search is a step of its own, at whose end the slot is checked again, and ROLLING_OCCURRENCE_RESERVE
changes nothing, since a booking's claims hold their resources in every slot they cover (log 39). -/
def Clauses.CalendarStepResults : Prop :=
  ∀ (s : State) (d : DieId) (n : Nat) (t : Task), s.task d n = some t → ((s.die d).cal.tasks.map Task.num).Nodup →
    let u := (s.die d).cal
    let ended : List Nat := (u.tasks.filter fun t => t.st == .ended).map Task.num
    let overruns (i : Instr) : Prop := ∀ m, t.members.head? = some m → t.st = .running →
      ∃ v t', exec i s = .next v ∧ v.task d n = some t' ∧ t'.st = .suspended ∧ t'.overrun = true ∧ t'.awaiting = [m] ∧
        (v.hart m).pend = (s.hart m).pend ++ [⟨0x0E, 0, 0⟩] ∧ (v.hart m).run = (s.hart m).run ∧
        (v.hart m).cal.overruns.toNat = min ((s.hart m).cal.overruns.toNat + 1) (2 ^ 32 - 1) ∧
        ∀ k ∈ t.members, k ≠ m → (v.hart k).run = if (s.hart k).run = .stopped then .stopped else .suspended
    (t.st = .queued → t.hdr = none → (∃ l : Fin 8, n ∈ (u.fifo[l]).take 8) →
      (∀ s' h claims streams, dispatch s (taskCtx t.ptbase t.asid d) t.header (some d) = (s', .ok h claims streams) →
        exec (.dispatchCheck d n) s = .next (s'.modTask d n fun t =>
          { t with hdr := some h, claims := claims, streams := streams, budget := 16 * h.slack })) ∧
      (∀ code, dispatch s (taskCtx t.ptbase t.asid d) t.header (some d) = (s, .refused code 0) → t.node = none →
        ∃ v t', exec (.dispatchCheck d n) s = .next v ∧ v.task d n = some t' ∧ t'.st = .ended ∧ t'.code = code ∧
          ∀ l : Fin 8, n ∉ (v.die d).cal.fifo[l])) ∧
    (t.st = .queued → t.hdr.isSome = true → u.ready.length < 64 → s.readyOk d t = true →
      ∃ v t', exec (.readySetEntry d n) s = .next v ∧ v.task d n = some t' ∧ t' = { t with st := .ready, reserved := true } ∧
        n ∈ (v.die d).cal.ready ∧ (∀ k ∈ u.ready, k ∈ (v.die d).cal.ready) ∧ ∀ l : Fin 8, n ∉ (v.die d).cal.fifo[l]) ∧
    (∀ l : Fin 8, t.st = .queued → t.since + 4096 ≤ s.slot → t.level = l.val →
      ∃ v t', exec (.queueAgePromotion d n) s = .next v ∧ v.task d n = some t' ∧
        t' = { t with level := t.level - 1, since := s.slot } ∧
        (l.val = 0 → ((v.die d).cal.fifo[l]).head? = some n) ∧
        (∀ k : Fin 8, l.val = k.val + 1 → ((v.die d).cal.fifo[k]).getLast? = some n)) ∧
    (t.st = .ready → u.rounds = [] → u.compaction = none → u.calls = [] → u.pass = [] → u.busy ≤ s.cycle →
      (u.search = none → u.ready = [n] → s.cycle % 16 = 0 → ∃ v, exec (.calendarPass d) s = .next v ∧
        v.task d n = some { t with tmin := 0 } ∧ (v.die d).cal.ready = [n] ∧ (v.die d).cal.busy = s.cycle + t.searchCycles ∧
        (v.die d).cal.search = some ⟨.pass, n, s.search d t s.cycle, ended⟩) ∧
      (∀ start old, u.search = some ⟨.pass, n, some start, old⟩ → s.cycle % 16 ≠ 0 →
        let z : State := s.modCal d fun u => u.searched ⟨.pass, n, some start, old⟩
        (z.fitsOn d d t s.slot start = true → t.crossDie d = false → ∃ v t', exec (.calendarPass d) s = .next v ∧
          v.task d n = some t' ∧ t'.st = .booked ∧ t'.bookStart = start ∧ n ∉ (v.die d).cal.ready ∧
          (v.die d).cal.search = none ∧
          (t.claims.any Claim.rolling = false → t'.bookEnd = start + lastEnd t.claims + t.tailNow)) ∧
        (z.fitsOn d d t s.slot start = true → t.crossDie d = true → ∃ v, exec (.calendarPass d) s = .next v ∧
          (v.die d).cal.rounds = [⟨n, start, t.dies.filter (· != d), [], [], none, none⟩] ∧
          (v.die d).cal.holds = u.holds ++ [⟨d, n, start⟩] ∧ (v.die d).cal.ready = u.ready) ∧
        (z.fitsOn d d t s.slot start = false → exec (.calendarPass d) s = .next z)) ∧
      (∀ old, u.search = some ⟨.pass, n, none, old⟩ → s.cycle % 16 ≠ 0 →
        exec (.calendarPass d) s = .next (s.modCal d fun u => u.searched ⟨.pass, n, none, old⟩))) ∧
    (exec (.rollingOccurrenceReserve d) s = .next s ∧
      (t.st = .booked ∨ t.st = .running → ∀ c ∈ t.claims, c.rolling = true → ∀ r ∈ c.resources, ∀ e ∈ r.dies, ∀ skip,
        skip ≠ (d, t.num) → ∀ k i, i < c.length → s.bookedOn e skip r (t.bookStart + c.offset + k * c.period + i) = true)) ∧
    (∀ h, t.hdr = some h → t.st = .booked → t.bookStart ≤ s.slot → s.dev.tripped = false → t.remainder = false → h.harts ≤ 3 →
      (∀ m ∈ h.harts', (s.hart m).gang = none ∧ (s.hart m).run = .stopped ∧ (s.hart m).tags.busy = 0) →
      ∃ v t', exec (.gangStart d n) s = .next v ∧ v.task d n = some t' ∧ t'.st = .running ∧ t'.members = h.harts' ∧
        (∀ c ∈ h.clusters, ∀ k : Fin 4, k.val ≤ h.harts →
          let x := v.hart (hartOf c k)
          x.gang = some (d, t.num) ∧ x.run = .running ∧ x.pc = h.entry.getD k.val 0 ∧ x.status.sys = false ∧ x.rs 1 = h.arg ∧
            x.rs 2 = BitVec.ofNat 64 (h.clusters.idxOf c) ∧ x.rs 3 = BitVec.ofNat 64 t.num ∧ x.ptbase = t.ptbase ∧
            x.asid = t.asid ∧ x.tr.tvec = t.tvec) ∧
        (∀ c ∈ h.clusters, ∀ q : Fin 8, h.qmask.getLsbD q.val = true →
          (v.cluster c).queues[q] = ⟨[], some (d, n), []⟩) ∧
        (∀ m, m ∉ h.harts' → v.hart m = s.hart m) ∧ SameBytes s v) ∧
    (t.bookEnd ≤ s.slot → overruns (.overrun d n)) ∧
    (∀ (c : ClusterId) (g : Fin 16) (cfg : Config) (r : Run), s.live c = some (cfg, r) → r.gang = some (d, n) →
      (s.hart r.owner).gang = some (d, n) → r.groups.getLsbD g.val = true →
      s.occupied (d, n) (groupRes c g.val) s.slot = true → overruns (.bookedOccurrenceConflict c g)) ∧
    (∀ (c : ClusterId) (g : Fin 16) (k : Fin 4) (i : Fin 8), s.live c = none → (s.hart (hartOf c k)).gang = some (d, n) →
      (∀ j : Fin 4, (s.hart (hartOf c j)).denseGroups.getLsbD g.val = decide (j = k)) →
      (s.hart (hartOf c k)).mxcfg.getLsbD (8 + i.val) = true → (s.cluster c).tileHist[i] ≠ [] →
      s.occupied (d, n) (groupRes c g.val) s.slot = true → overruns (.bookedOccurrenceConflict c g)) ∧
    (u.compactDue s.cycle = false ∨ s.cycle < u.busy → exec (.compaction d) s = .next s) ∧
    (∀ k rest, u.calls = k :: rest → k.at_ < s.cycle → u.compaction = none → u.busy ≤ s.cycle → u.search = none →
      (u.movable d = [] → exec (.compaction d) s = .next (s.modCal d fun u => { u with
        calls := rest, answers := u.answers ++ k.hart.toList.map fun h => (h, 0) })) ∧
      (u.movable d = [n] → exec (.compaction d) s = .next (s.modCal d fun u => { u with
        calls := rest, compaction := some ⟨k.hart, [], 0⟩, busy := s.cycle + t.searchCycles
        search := some ⟨.move, n, s.search d t s.cycle, ended⟩ }))) ∧
    (∀ k start old, u.compaction = some k → k.left = [] → u.busy ≤ s.cycle →
      u.search = some ⟨.move, n, some start, old⟩ → t.movable d = true →
      let z : State := s.modCal d fun u => u.searched ⟨.move, n, some start, old⟩
      ∃ v t', exec (.compaction d) s = .next v ∧ v.task d n = some t' ∧ (v.die d).cal.compaction = none ∧
        (z.fitsOn d d t s.slot start = true → start < t.bookStart → t'.st = .booked ∧ t'.bookStart = start ∧
          (t.claims.any Claim.rolling = false → t'.bookEnd = start + lastEnd t.claims + t.tailNow) ∧
          (v.die d).cal.answers = u.answers ++ k.hart.toList.map fun h => (h, k.moved + 1)) ∧
        (z.fitsOn d d t s.slot start = false ∨ t.bookStart ≤ start → t' = t ∧
          (v.die d).cal.answers = u.answers ++ k.hart.toList.map fun h => (h, k.moved)))

/-- A round of a booking across dies: the prepare reaches a die, which holds the slots, or refuses with the first slot from the
one asked for that fits there, or else the end of its horizon; the last
reply commits when every die accepts in time and else aborts; the outcome reaches each die that accepted, and its hold
goes. Derived: a refused round sets the task's earliest start to the latest refusal (log 40). -/
def Clauses.CrossDieRoundResults : Prop :=
  ∀ (s : State) (home remote : DieId) (n : Nat) (t : Task) (r : XRound) (rest : List XRound), remote ≠ home →
    s.task home n = some t → (s.die home).cal.rounds = r :: rest → r.task = n → (∀ x ∈ rest, x.task ≠ n) →
    let hold : XHold := ⟨home, n, r.start⟩
    let withRound (q : List XRound) (u : State) : State := u.modCal home fun u => { u with rounds := q ++ rest }
    (r.asked = [remote] →
      (s.fitsOn home remote t s.slot r.start = true → exec (.xdiePrepare home n remote) s =
        .next (withRound [{ r with asked := [], replies := r.replies ++ [(remote, none)] }]
          (s.modCal remote fun u => { u with holds := u.holds ++ [hold] }))) ∧
      (s.fitsOn home remote t s.slot r.start = false → ∃ k, exec (.xdiePrepare home n remote) s =
          .next (withRound [{ r with asked := [], replies := r.replies ++ [(remote, some k)] }] s) ∧
        let last := s.slot + 4096 - (lastEnd t.claims + t.tailNow)
        (r.start ≤ k ∧ k ≤ last ∧ s.fitsOn home remote t s.slot k = true ∧
          (∀ q, r.start ≤ q → q < k → s.fitsOn home remote t s.slot q = false) ∨
         k = s.slot + 4096 ∧ ∀ q, r.start ≤ q → q ≤ last → s.fitsOn home remote t s.slot q = false))) ∧
    (r.asked = [] → r.accepted = [] → r.refused = none → r.outcome = none →
      (r.replies = [(remote, none)] → t.st = .ready → s.slot < r.start → (s.die home).cal.holds = [hold] →
        ((s.die home).cal.tasks.map Task.num).Nodup →
        ∃ u t', exec (.xdieReply home n remote) s = .next u ∧ u.task home n = some t' ∧ t'.st = .booked ∧
          t'.bookStart = r.start ∧ (u.die home).cal.holds = [] ∧ n ∉ (u.die home).cal.ready ∧
          (u.die home).cal.rounds = { r with replies := [], accepted := [remote], outcome := some true } :: rest) ∧
      (∀ k, r.replies = [(remote, some k)] → (s.die home).cal.holds = [hold] →
        ((s.die home).cal.tasks.map Task.num).Nodup →
        ∃ u, exec (.xdieReply home n remote) s = .next u ∧ u.task home n = some { t with tmin := k } ∧
          (u.die home).cal.holds = [] ∧ (u.die home).cal.rounds = rest)) ∧
    (r.accepted = [remote] → (s.die remote).cal.holds = [hold] →
      let ended : State := withRound [] (s.modCal remote fun u => { u with holds := [] })
      (r.outcome = some true → exec (.xdieCommit home n remote) s = .next ended) ∧
      (r.outcome = some false → exec (.xdieAbort home n remote) s = .next ended))

/-- The steps of the dispatcher and the calendar units. -/
def Obligations.CalendarAndRoundSteps : Prop :=
  Clauses.CalendarStepResults ∧ Clauses.CrossDieRoundResults

/-! ## Steps of a stream program (09 R229 to R259) -/

/-- One firing of each kind of node in a program that is not reversible, with its tokens at hand and nothing downstream held: what
leaves its inputs and what goes out; an IN from a hart port or the Cellar reads one element, an OUT to a hart port or the
Cellar writes one. Derived where it rests on the model's readings: the scales and rounding of tokens (log 45), the control nodes
(log 47), and the frames of XPERM and XCHG (log 48). -/
def Obligations.NodeFiringResults : Prop :=
  ∀ (s : State) (c : ClusterId) (n : Nat) (cfg : Config) (r : Run), s.live c = some (cfg, r) → cfg.rev = false →
    n ∈ cfg.nodes → (r.node n).fin = false → s.blocked c cfg n = false →
    let f := s.fabric c
    let ns := r.node n
    let q (i : Nat) : List Item := (ns.port i).q
    let u := cfg.unit f n
    let o := outEnv s c cfg r n
    let blk := s.factor c cfg n
    let upTo (i k : Nat) (x : NodeState) : NodeState := x.setPort i { x.port i with q := (x.port i).q.drop k }
    let h := s.nodeHandle c cfg n
    let fired (i : Instr) (st : State) (x : NodeState) (took : Nat) (y : List Item) (fx : Fx) : Prop :=
      exec i s = .next (((st.putNode c { x with cnt := ns.cnt + took, out := ns.out + y.length }).emit c cfg n false y).note
        c r.owner fx)
    let whole (i : Instr) (st : State) (y : List Item × Fx) : Prop := fired i st (upTo 0 u ns) u y.1 y.2
    (u ≤ (q 0).length →
      (cfg.kind n = 3 → s.factorHold c cfg n (ns.cnt / cfg.sB n) (u / cfg.sB n) = .now () → whole (.nodeStage c n) s (match cfg.mode with
        | 0 => stageBfp cfg n ns.cnt (cfg.flog f n) blk ((q 0).take u)
        | 1 => stageFloat cfg n ns.cnt o blk ((q 0).take u)
        | _ => stageModular cfg n ns.cnt r.modp r.modq blk ((q 0).take u))) ∧
      (cfg.kind n = 4 → whole (.nodePerm c n) s (cfg.permute (cfg.w n 1) ⟨.err, Scale.zero⟩ ((q 0).take u), Fx.none)) ∧
      (cfg.kind n = 5 →
        let moved := if cfg.mode = 0 ∧ cfg.flog f n < cfg.xLogN n then
            alignFrames cfg n ns.cnt (cfg.flog f n) (cfg.outType f n).2 ((q 0).take u)
          else ((q 0).take u, Fx.none)
        whole (.nodeXperm c n) (s.scratch c cfg r n ((q 0).take u))
          (strideSegment (cfg.xLogN n) (cfg.xLogM n) ⟨.err, Scale.zero⟩ moved.1, moved.2)) ∧
      (cfg.kind n = 6 → cfg.binary n = false → whole (.nodePoint c n) s
        (pointUnit cfg n ns.cnt (cfg.flog f n) r.modp r.modq o ((q 0).take u) [])) ∧
      (cfg.kind n = 6 → cfg.binary n = true → u ≤ (q 1).length →
        let y := pointUnit cfg n ns.cnt (cfg.flog f n) r.modp r.modq o ((q 0).take u) ((q 1).take u)
        fired (.nodePoint c n) s (upTo 1 u (upTo 0 u ns)) u y.1 y.2)) ∧
    (∀ x l, cfg.kind n = 7 → cfg.ctrl n = false → q 0 = x :: l → let d := steerCond cfg n (cfg.inType f n).1 x.tok
      exec (.nodeSteer c n) s = .next ((s.putNode c { upTo 0 1 ns with
        cnt := ns.cnt + 1, out := ns.out + 1, dirs := ns.dirs ++ [d] }).emit c cfg n (!d) [x])) ∧
    (∀ d x l, cfg.kind n = 8 → (r.node (cfg.src n 2).1).dirs[ns.cnt]? = some d → q (if d then 0 else 1) = x :: l →
      fired (.nodeMerge c n) s (upTo (if d then 0 else 1) 1 ns) 1 [x] Fx.none) ∧
    (∀ x l, cfg.kind n = 9 → ns.out ≠ 0 → ns.out % cfg.period n ≠ 0 → q 0 = x :: l →
      (∀ m ∈ cfg.nodes, ∀ p ∈ (cfg.consumes m).zipIdx, p.1.1 = n → ((r.node m).port p.2).q = []) →
      (r.entries cfg n = [] ∨ ∃ p ∈ r.entries cfg n, p.q ≠ []) →
      fired (.nodeCarry c n) s (upTo 0 1 ns) 1 [x] Fx.none) ∧
    (∀ x l, cfg.kind n = 0xA → q 1 = x :: l →
      (∀ v, ns.cnt % cfg.period n ≠ 0 → ns.cur = some v → fired (.nodeInv c n) s (upTo 1 1 ns) 1 [v] Fx.none) ∧
      (∀ v k, ns.cnt % cfg.period n = 0 → q 0 = v :: k →
        fired (.nodeInv c n) s { upTo 1 1 (upTo 0 1 ns) with cur := some v } 1 [v] Fx.none)) ∧
    (cfg.kind n = 0xB → cfg.mode ≠ 0 → (q 0).length < cfg.xP n * cfg.blk n → 1 ≤ cfg.blk n →
      (∀ i, i < cfg.xP n → cfg.blk n ≤ (ns.acc.getD i []).length) →
      let y := (List.range (cfg.xP n)).flatMap fun i => (ns.acc.getD i []).take (cfg.blk n)
      fired (.nodeXchg c n) s { ns with acc := ns.acc.map (·.drop (cfg.blk n)) } 0 y Fx.none) ∧
    (∀ d, cfg.kind n = 1 → h.desc = some d → 2 ≤ d.type → s.admits c cfg r n = true →
      let reads (t : Tok) : Prop := exec (.nodeIn c n) s =
        .next (((s.modHandle c (cfg.handle n) fun h => { h with
          pos := h.pos + 1, passed := h.passed + 1, port := h.port.drop 1 }).putNode c { ns with
            cnt := ns.cnt + 1, out := ns.out + 1 }).emit c cfg n false [⟨t, Scale.zero⟩])
      (∀ v l, d.space = 3 → h.port = v :: l → reads (.val (valOfBits d.type r.modp r.modq v)
        (if d.cplx then valOfBits d.type r.modp r.modq (v / 2 ^ typeBits d.type) else .int 0))) ∧
      (∀ l, d.space = 0 → h.pos < d.elems →
        s.readSlice (locator c (d.w 1)).1 d.diag (((locator c (d.w 1)).2 : Int) + d.offset h.pos).toNat d.eb = .now l →
        reads (tokOfBytes d r.modp r.modq h.pos l))) ∧
    (∀ d x l, cfg.kind n = 2 → h.desc = some d → h.held = false → u = 1 → 2 ≤ d.type → typeGrist d.type = none →
      q 0 = x :: l → x.tok.isErr = false →
      (d.space = 3 → h.portFull = false → ∃ t, exec (.nodeOut c n) s = .next t ∧
        (t.nodeHandle c cfg n).port = h.port ++ [tokBits d.type d.cplx x.tok] ∧ (t.nodeHandle c cfg n).pos = h.pos + 1 ∧
        ((t.fabric c).run.map Run.written) = some (r.written + 1) ∧ SameBytes s t) ∧
      (d.space = 0 → d.chk = false → d.diag = false → h.pos < d.elems →
        let b := tokBytes d.type d.cplx x.tok
        let a := cellarPa (locator c (d.w 1)).1 (((locator c (d.w 1)).2 : Int) + d.offset h.pos).toNat
        (((locator c (d.w 1)).2 : Int) + d.offset h.pos).toNat + b.length ≤ 2 ^ 24 → s.owned = [] → s.memOk →
        ∃ t, exec (.nodeOut c n) s = .next t ∧ (t.nodeHandle c cfg n).pos = h.pos + 1 ∧
          ((t.fabric c).run.map Run.written) = some (r.written + 1) ∧
          ∀ k, t.byte k = if a ≤ k ∧ k < a + b.length then b.getD (k - a) 0 else s.byte k))

/-- The other steps of a program: end of stream and the pre-empt marker pass a node whose input is dry or marked, a failing
ingress holds and tells its owner, the program ends when every OUT has and every node is idle, a drain point freezes the region of
an owner that is asked to yield, and a prefetched image becomes the shadow, once no copy has still to fill it, or is not loaded
where it is poisoned (derived, log 44). -/
def Obligations.ProgramStepResults : Prop :=
  ∀ (s : State) (c : ClusterId),
    (∀ pa, (s.fabric c).loading = some pa →
      let cfg := s.loadConfig c pa
      let runs := s.imageRun pa :: (if cfg.bad.isSome then [] else cfg.tableRuns c)
      ((∃ x ∈ runs, s.ownedIn x.1 x.2 = true ∨ s.absentIn x.1 x.2 = true) → exec (.prefetchLoadComplete c) s = .next s) ∧
      ((∀ x ∈ runs, s.ownedIn x.1 x.2 = false ∧ s.absentIn x.1 x.2 = false) →
        ((∀ x ∈ runs, s.poisonFrom x.1 x.2 = none) → exec (.prefetchLoadComplete c) s =
          .next (s.modFabric c fun x => { x with shadow := some cfg, loading := none })) ∧
        ((∃ x ∈ runs, s.poisonFrom x.1 x.2 ≠ none) → exec (.prefetchLoadComplete c) s =
          .next (s.modFabric c fun x => { x with loading := none })))) ∧
    (∀ cfg r, s.live c = some (cfg, r) →
      (∀ n ∈ cfg.nodes, (r.node n).fin = false → cfg.kind n ∈ [3, 4, 5, 7] → ((r.node n).port 0).q = [] →
        (s.blocked c cfg n = false → ((r.node n).port 0).eos = true → 1 ≤ cfg.unit (s.fabric c) n →
          exec (.endOfStream c n) s = .next (s.close c cfg n)) ∧
        (r.marking = true → (r.node n).marked = false → 1 ≤ cfg.unit (s.fabric c) n →
          (∀ i, i < (cfg.consumes n).length → ((r.node n).port i).marked = true ∨ ((r.node n).port i).eos = true) →
          exec (.preemptMarker c n) s = .next
            (((s.putNode c { r.node n with marked := true }).feed c cfg n false fun p => { p with marked := true }).feed
              c cfg n true fun p => { p with marked := true }))) ∧
      (∀ n ∈ cfg.nodes, ∀ (t : State) (sub : Nat) (va : Word) (g : Fin 32), cfg.kind n = 1 → (r.node n).fin = false →
        s.failing c r (cfg.handle n) = g.val →
        (∀ m ∈ cfg.nodes, m ≠ n → cfg.handle m ≠ g.val ∧ (cfg.kind m = 1 → s.failing c r (cfg.handle m) ≠ g.val)) →
        s.admits c cfg r n = true → s.nextTok c r (cfg.handle n) = (t, .hold sub va) → sub < 256 →
        ∃ u, exec (.streamGeneratorHold c g) s = .next u ∧
          (u.handleOf c g.val).held = true ∧ (u.handleOf c g.val).pos = (s.handleOf c g.val).pos ∧
          (u.hart r.owner).pend = (if (s.hart r.owner).pend.any (fun p => p.cause == 0x17) then (s.hart r.owner).pend else
            (s.hart r.owner).pend ++ [⟨0x17, BitVec.ofNat 64 (sub + g.val * 256),
              BitVec.ofNat 64 (s.handleOf c g.val).pos⟩])) ∧
      (cfg.rev = false → (∀ n ∈ cfg.nodes, (cfg.kind n ≤ 2 → (r.node n).fin = true) ∧
          ((r.node n).fin = true ∨ (∀ p ∈ (r.node n).ins, p.q = []) ∧ ∀ l ∈ (r.node n).acc, l = []) ∧ (cfg.kind n ≤ 2 → (s.nodeHandle c cfg n).held = false)) →
        exec (.programEnd c) s = .next (s.modRun c fun r => { r with ended := true })) ∧
      ((s.hart r.owner).preempt.pend = true → r.gang.isSome = true → 0 < s.pboundOf r.owner → s.drained c cfg r = true →
        (∀ n ∈ cfg.nodes, cfg.kind n = 1 → cfg.param n ≠ 0) →
        ∃ t, exec (.drainPoint c) s = .next t ∧ (t.fabric c).run = some { r with frozen := .suspended } ∧
          (t.hart r.owner).sstatus = (if s.pboundOf r.owner < s.slot - (s.hart r.owner).preempt.since then
            (s.hart r.owner).sstatus ||| 0x800 else (s.hart r.owner).sstatus) ∧
          (t.fabric c).active = some cfg ∧ ∀ k, k ≠ r.owner → t.hart k = s.hart k))

/-! ## The device and its hosts (13 R334, R335, R348 to R350, 14 R368 to R370) -/

/-- Links and hosts: a flit writes its payload, a CRC error is counted and a second one poisons the payload; slot
synchronisation is sent, forwarded and makes a die that is ahead, the link's delay allowed for, stretch; a host writes HBM and reads it without effect;
the host semaphore is taken when free, released and renewed by its owner, and lost when its lease runs out. -/
def Clauses.LinkAndHostResults : Prop :=
  ∀ (s : State),
    let withDev (g : Device → Device) : State := { s with dev := g s.dev }
    (∀ f : Flit, f.data ≠ [] → f.data.length ≤ 224 → f.pa + f.data.length ≤ cellarBase →
      let bump (x : BitVec 32) : BitVec 32 := BitVec.ofNat 32 (min (x.toNat + 1) (2 ^ 32 - 1))
      (f.err1 = false → exec (.flitReceive f) s = .next (s.setBytes f.pa f.data)) ∧
      (f.err1 = true → f.err2 = false → exec (.flitReceive f) s = .next
        ((withDev fun d => { d with errTransient := bump d.errTransient }).setBytes f.pa f.data)) ∧
      (f.err1 = true → f.err2 = true → ∃ t, exec (.flitReceive f) s = .next t ∧
        t.dev = { s.dev with errPermanent := bump s.dev.errPermanent } ∧ t.mem = s.mem ∧ t.harts = s.harts ∧
        (SMap.wf false s.poison = true → ∀ a, t.poisoned a =
          (s.poisoned a || (decide (f.pa / 64 ≤ a / 64) && decide (a / 64 ≤ (f.pa + f.data.length - 1) / 64)))))) ∧
    (∀ d, (s.dev.syncm = true → s.slot % 256 = 0 → exec (.slotSyncSend d) s =
        .next (withDev fun x => { x with syncSent := x.syncSent ++ [s.slot] })) ∧
      (s.dev.syncm = false ∨ s.slot % 256 ≠ 0 → exec (.slotSyncSend d) s = .next s) ∧
      (∀ count : Word, exec (.slotSyncReceive d count) s =
        .next ((withDev fun x => { x with syncSent := x.syncSent ++ [count.toNat] }).modDie d fun x =>
          { x with stretch := s.slot - (count.toNat + Config.linkDelay d.val) }))) ∧
    (∀ port pa l, exec (.hostHdmAccess port pa none) s = .next s ∧
      (pa + l.length ≤ cellarBase → exec (.hostHdmAccess port pa (some l)) s = .next (s.setBytes pa l))) ∧
    (∀ id : Byte, let x := s.dev.hsem
      let withHsem (y : Hsem) : State := withDev fun d => { d with hsem := y }
      (x.owner = 0 → exec (.hsemAcquire id) s =
        .next (withHsem { x with owner := id, count := x.count + 1, lease := s.dev.hsemLease })) ∧
      (x.owner ≠ 0 → exec (.hsemAcquire id) s = .next s) ∧
      (x.owner = id → exec (.hsemRelease id) s = .next (withHsem { x with owner := 0, lease := 0 }) ∧
        exec (.hsemRenew id) s = .next (withHsem { x with lease := s.dev.hsemLease })) ∧
      (x.owner ≠ id → exec (.hsemRelease id) s = .next s ∧ exec (.hsemRenew id) s = .next s) ∧
      (x.owner ≠ 0 → 2 ≤ x.lease.toNat → exec .hsemLeaseExpiry s = .next (withHsem { x with lease := x.lease - 1 })) ∧
      (x.owner ≠ 0 → x.lease = 1 →
        exec .hsemLeaseExpiry s = .next (withHsem { x with lease := 0, owner := 0, expired := true })) ∧
      (x.owner = 0 ∨ x.lease = 0 → exec .hsemLeaseExpiry s = .next s)) ∧
    (∀ v : Word,
      exec (.registerWrite 0x2000308 v) s = .next (withDev fun d => { d with bootpc := v &&& ~~~0xF }) ∧
      exec (.registerWrite 0x2000310 v) s = .next (withDev fun d => { d with cap := v.setWidth 4 }) ∧
      exec (.registerWrite 0x2000100 v) s =
        .next (withDev fun d => { d with pkgNum := v.setWidth 16, syncm := v.getLsbD 16 }) ∧
      exec (.registerWrite 0x2000020 v) s = .next (withDev fun d => { d with hsemLease := v.setWidth 32 }) ∧
      exec (.registerWrite 0x2000200 v) s = .next (withDev fun d => { d with
        errTransient := d.errTransient &&& ~~~(v.setWidth 32), errPermanent := d.errPermanent &&& ~~~(v.extractLsb' 32 32) }) ∧
      (v.getLsbD 0 = true → v.getLsbD 1 = false → exec (.registerWrite 0x2000300 v) s =
        .next { s with agenda := .event .devctlRun :: s.agenda }) ∧
      (∀ h : HartId, let at_ := h.val / 4 * 0x10000 + 0xC000 + h.val % 4 * 0x100
        exec (.registerWrite (at_ + 0x10) v) s = .next (s.modHart h fun x => { x with evpend := x.evpend ||| v }) ∧
        exec (.registerWrite (at_ + 0x20) v) s = .next (s.modHart h fun x => { x with hipend := x.hipend ||| v })))

/-- Reset and power: power-on leaves the reset state, a warm reset keeps the bytes of HBM, the first RUN after a reset starts hart 0
of every cluster at BOOTPC at system level, the controllers set their stretch levels, and the thermal trip stops every
hart until a reset. -/
def Clauses.ResetAndPowerResults : Prop :=
  ∀ (s : State), s.memOk →
    (∃ t, exec .powerOnReset s = .next t ∧ t.harts = State.reset.harts ∧ t.clusters = State.reset.clusters ∧
      t.dies = State.reset.dies ∧ t.dev = State.reset.dev ∧ t.mem = [] ∧ t.present = [] ∧ t.poison = [] ∧ t.images = s.images) ∧
    (∃ t, exec .devctlWarm s = .next t ∧ t.harts = State.reset.harts ∧ t.clusters = State.reset.clusters ∧
      t.dies = State.reset.dies ∧ t.dev = State.reset.dev ∧ t.present = [] ∧
      (∀ a, a < cellarBase → t.byte a = s.byte a) ∧ ∀ a, cellarBase ≤ a → t.byte a = State.reset.byte a) ∧
    (s.dev.ran = false → s.dev.tripped = false → ∃ t, exec .devctlRun s = .next t ∧ t.dev = { s.dev with ran := true } ∧
      t.mem = s.mem ∧
      ∀ h : HartId, (h.val % 4 ≠ 0 → t.hart h = s.hart h) ∧
        (h.val % 4 = 0 → (t.hart h).run = .running ∧ (t.hart h).pc = s.dev.bootpc ∧ (t.hart h).status = Status.reset ∧
          (t.hart h).ptbase.getLsbD 0 = false ∧ (∀ n, (t.hart h).rs n = 0) ∧ (t.hart h).vc.vvalid = BitVec.allOnes 41)) ∧
    (s.dev.ran = true ∨ s.dev.tripped = true → exec .devctlRun s = .next s) ∧
    (∀ p q, ∃ t, exec (.stretchLevelChange p q) s = .next t ∧ t = { s with dev := t.dev } ∧
      t.dev.level = max s.dev.cap.toNat (max p.toNat q.toNat)) ∧
    (∃ t, exec .thermalTrip s = .next t ∧ (∀ h, t.hart h = { s.hart h with run := .stopped }) ∧ t.dev.tripped = true ∧
      SameBytes s t)


/-- Links, hosts, resets and power. Derived: the bits of ERRCNT clear one by one (log 19), what a warm reset keeps (log 57), and how
late a link is (log 58). -/
def Obligations.DeviceAndHostResults : Prop :=
  Clauses.LinkAndHostResults ∧ Clauses.ResetAndPowerResults
end

