-- ==== Sys2Proof/Laws/Bits.lean ====
section
/-!
SUPPORT. Bit fields of registers and the bytes of numbers: what a read gives after a write.
-/

namespace Sys2Proof.Machine

theorem testBit_getBits {w : Nat} (r : BitVec w) (lo n i : Nat) :
    (getBits r lo n).testBit i = (decide (i < n) && r.getLsbD (lo + i)) := by
  unfold getBits
  rw [Nat.testBit_mod_two_pow, Nat.testBit_shiftRight]
  rfl

theorem getBits_lt {w : Nat} (r : BitVec w) (lo n : Nat) : getBits r lo n < 2 ^ n := by
  unfold getBits
  exact Nat.mod_lt _ (Nat.two_pow_pos n)

theorem getLsbD_setBits {w : Nat} (r : BitVec w) (lo n v i : Nat) (hi : i < w) :
    (setBits r lo n v).getLsbD i = if lo ≤ i ∧ i < lo + n then v.testBit (i - lo) else r.getLsbD i := by
  unfold setBits
  simp only [BitVec.getLsbD_or, BitVec.getLsbD_and, BitVec.getLsbD_not, BitVec.getLsbD_ofNat, Nat.testBit_shiftLeft,
    Nat.testBit_two_pow_sub_one, Nat.testBit_mod_two_pow, hi, decide_true, Bool.true_and]
  by_cases h1 : lo ≤ i
  · by_cases h2 : i < lo + n
    · have h3 : i - lo < n := by omega
      simp [h1, h2, h3]
    · have h3 : ¬ i - lo < n := by omega
      simp [h2, h3]
  · simp [h1]

theorem getBits_setBits_same {w : Nat} (r : BitVec w) (lo n v : Nat) (h : lo + n ≤ w) :
    getBits (setBits r lo n v) lo n = v % 2 ^ n := by
  apply Nat.eq_of_testBit_eq
  intro i
  rw [testBit_getBits, Nat.testBit_mod_two_pow]
  by_cases hi : i < n
  · rw [getLsbD_setBits _ _ _ _ _ (by omega), if_pos (by omega), Nat.add_sub_cancel_left]
  · simp [hi]

theorem getBits_setBits_ne {w : Nat} (r : BitVec w) (lo n v lo' n' : Nat) (h' : lo' + n' ≤ w)
    (hd : lo + n ≤ lo' ∨ lo' + n' ≤ lo) : getBits (setBits r lo n v) lo' n' = getBits r lo' n' := by
  apply Nat.eq_of_testBit_eq
  intro i
  rw [testBit_getBits, testBit_getBits]
  by_cases hi : i < n'
  · rw [getLsbD_setBits _ _ _ _ _ (by omega), if_neg (by omega)]
  · simp [hi]

/-! ## Bytes -/

theorem length_toBytes (n v : Nat) : (toBytes n v).length = n := by simp [toBytes]

theorem ofBytes_lt (l : List Byte) : ofBytes l < 2 ^ (8 * l.length) := by
  induction l with
  | nil => simp [ofBytes]
  | cons b bs ih =>
    have hb : b.toNat < 256 := b.isLt
    simp only [ofBytes, List.length_cons, Nat.mul_add, Nat.pow_add]
    omega

theorem testBit_ofBytes (l : List Byte) (i : Nat) :
    (ofBytes l).testBit i = (l.getD (i / 8) 0).getLsbD (i % 8) := by
  induction l generalizing i with
  | nil => simp [ofBytes]
  | cons b bs ih =>
    have hb : b.toNat < 2 ^ 8 := b.isLt
    have e : ofBytes (b :: bs) = 2 ^ 8 * ofBytes bs + b.toNat := by simp only [ofBytes]; omega
    rw [e, Nat.testBit_two_pow_mul_add _ hb]
    split
    · rename_i hi
      have h0 : i / 8 = 0 := by omega
      have h1 : i % 8 = i := by omega
      rw [h0, h1]
      rfl
    · rename_i hi
      rw [ih]
      have h0 : i / 8 = (i - 8) / 8 + 1 := by omega
      have h1 : i % 8 = (i - 8) % 8 := by omega
      rw [h0, h1]
      rfl

/-- The number that the bytes of a number hold. -/
theorem ofBytes_toBytes (n v : Nat) : ofBytes (toBytes n v) = v % 2 ^ (8 * n) := by
  apply Nat.eq_of_testBit_eq
  intro i
  rw [testBit_ofBytes, Nat.testBit_mod_two_pow]
  by_cases hi : i < 8 * n
  · have h8 : i / 8 < n := by omega
    have e : (toBytes n v).getD (i / 8) 0 = BitVec.ofNat 8 (v >>> (8 * (i / 8))) := by
      simp [toBytes, h8]
    rw [e, BitVec.getLsbD_ofNat, Nat.testBit_shiftRight]
    have h1 : 8 * (i / 8) + i % 8 = i := by omega
    have h2 : i % 8 < 8 := by omega
    simp [h1, h2, hi]
  · have h8 : n ≤ i / 8 := by omega
    have e : (toBytes n v).getD (i / 8) 0 = 0 := by
      simp [toBytes, h8]
    rw [e]
    simp [hi]

end Sys2Proof.Machine
end

