-- ==== Sys2Proof/Laws/Decode.lean ====
section
/-!
SUPPORT. The word and its fields: what `packWord` puts in a word, `opcOf` and `fieldsOf` read back, and the other way
round.
-/

namespace Sys2Proof

/-- The low part of a concatenation. -/
theorem extract_low {m n : Nat} (x : BitVec m) (y : BitVec n) : (x ++ y).extractLsb' 0 n = y := by
  ext i hi
  simp [BitVec.getLsbD_append, hi]

/-- A field wholly above the low part. -/
theorem extract_high {m n : Nat} (x : BitVec m) (y : BitVec n) (k l : Nat) (h : n ≤ k) :
    (x ++ y).extractLsb' k l = x.extractLsb' (k - n) l := by
  ext i hi
  have : ¬ k + i < n := by omega
  simp [BitVec.getLsbD_append, this, Nat.sub_add_comm h]

theorem getLsbD_high {m n : Nat} (x : BitVec m) (y : BitVec n) (k : Nat) (h : n ≤ k) :
    (x ++ y).getLsbD k = x.getLsbD (k - n) := by
  simp [BitVec.getLsbD_append, Nat.not_lt.mpr h]

/-- A field wholly inside the low part. -/
theorem extract_in {m n : Nat} (x : BitVec m) (y : BitVec n) (k l : Nat) (h : k + l ≤ n) :
    (x ++ y).extractLsb' k l = y.extractLsb' k l := by
  ext i hi
  have : k + i < n := by omega
  simp [BitVec.getLsbD_append, this]

theorem getLsbD_in {m n : Nat} (x : BitVec m) (y : BitVec n) (k : Nat) (h : k < n) :
    (x ++ y).getLsbD k = y.getLsbD k := by
  rw [BitVec.getLsbD_append]
  simp [h]

theorem extract_all {n : Nat} (x : BitVec n) : x.extractLsb' 0 n = x := by
  ext i hi
  simp

theorem getLsbD_ofBool_zero (b : Bool) : (BitVec.ofBool b).getLsbD 0 = b := by cases b <;> rfl

theorem opcOf_packWord (opc : BitVec 12) (f : Fields) : opcOf (packWord opc f) = opc := extract_low _ _

theorem high_packWord (opc : BitVec 12) (f : Fields) : (packWord opc f).extractLsb' 112 16 = 0 := by
  unfold packWord
  simp (disch := decide) only [extract_high, Nat.reduceSub]
  rfl

theorem fieldsOf_packWord (opc : BitVec 12) (f : Fields) : fieldsOf (packWord opc f) = f := by
  obtain ⟨d, a, b, c, p, w, mod, x, imm, gap, rank, ce, ck, cr, hk, hl, keep⟩ := f
  unfold fieldsOf hintsOf packWord
  simp (disch := decide) only [extract_high, getLsbD_high, Nat.reduceSub, extract_in, getLsbD_in,
    extract_all, getLsbD_ofBool_zero]

/-- Two neighbouring fields make one. -/
theorem extract_glue {n : Nat} (w : BitVec n) (k a b : Nat) :
    w.extractLsb' (k + b) a ++ w.extractLsb' k b = w.extractLsb' k (a + b) := by
  ext i hi
  simp only [BitVec.getElem_append, BitVec.getElem_extractLsb']
  split
  · rfl
  · congr 1
    omega

/-- One bit as a field. -/
theorem ofBool_extract {n : Nat} (w : BitVec n) (k : Nat) : BitVec.ofBool (w.getLsbD k) = w.extractLsb' k 1 := by
  ext i hi
  obtain rfl : i = 0 := by omega
  simp

theorem hints_glue (w : IWord) :
    w.extractLsb' 110 2 ++ w.extractLsb' 107 3 ++ w.extractLsb' 105 2 ++ BitVec.ofBool (w.getLsbD 104) ++
      w.extractLsb' 102 2 ++ BitVec.ofBool (w.getLsbD 101) ++ w.extractLsb' 99 2 ++ w.extractLsb' 96 3 =
    w.extractLsb' 96 16 := by
  rw [ofBool_extract, ofBool_extract, extract_glue w 107 2 3, extract_glue w 105 5 2, extract_glue w 104 7 1,
    extract_glue w 102 8 2, extract_glue w 101 10 1, extract_glue w 99 11 2, extract_glue w 96 13 3]

/-- A word whose bits [127:112] are zero is the packing of its own fields. -/
theorem packWord_fieldsOf (w : IWord) (h : w.extractLsb' 112 16 = 0) : packWord (opcOf w) (fieldsOf w) = w := by
  have e : packWord (opcOf w) (fieldsOf w) = w.extractLsb' 0 128 := by
    unfold packWord fieldsOf hintsOf opcOf
    simp only [hints_glue]
    rw [show (0#16) = w.extractLsb' 112 16 from h.symm]
    rw [extract_glue w 96 16 16, extract_glue w 64 32 32, extract_glue w 48 64 16, extract_glue w 40 80 8,
      extract_glue w 36 88 4, extract_glue w 32 92 4, extract_glue w 27 96 5, extract_glue w 22 101 5,
      extract_glue w 17 106 5, extract_glue w 12 111 5, extract_glue w 0 116 12]
  rw [e, extract_all]

end Sys2Proof
end

