-- ==== Sys2Proof/Laws/State.lean ====
section
/-!
SUPPORT. What each update of a part of the state leaves, and what reading back a part gives: no later proof unfolds a record
update.
-/

namespace Sys2Proof.Machine

/-! ## Reading back a hart, a cluster, a die -/

@[simp] theorem State.hart_setHart_same (s : State) (h : HartId) (x : Hart) : (s.setHart h x).hart h = x := by
  simp [State.hart, State.setHart]

theorem State.hart_setHart_ne (s : State) {h k : HartId} (x : Hart) (hk : k ≠ h) : (s.setHart h x).hart k = s.hart k := by
  have : h.val ≠ k.val := fun e => hk (Fin.ext e.symm)
  simp [State.hart, State.setHart, Vector.getElem_set_ne _ _ this]

@[simp] theorem State.hart_modHart_same (s : State) (h : HartId) (f : Hart → Hart) :
    (s.modHart h f).hart h = f (s.hart h) := State.hart_setHart_same s h _

theorem State.hart_modHart_ne (s : State) {h k : HartId} (f : Hart → Hart) (hk : k ≠ h) :
    (s.modHart h f).hart k = s.hart k := State.hart_setHart_ne s _ hk

@[simp] theorem State.cluster_setCluster_same (s : State) (c : ClusterId) (x : Cluster) :
    (s.setCluster c x).cluster c = x := by
  simp [State.cluster, State.setCluster]

theorem State.cluster_setCluster_ne (s : State) {c k : ClusterId} (x : Cluster) (hk : k ≠ c) :
    (s.setCluster c x).cluster k = s.cluster k := by
  have : c.val ≠ k.val := fun e => hk (Fin.ext e.symm)
  simp [State.cluster, State.setCluster, Vector.getElem_set_ne _ _ this]

@[simp] theorem State.die_setDie_same (s : State) (d : DieId) (x : Die) : (s.setDie d x).die d = x := by
  simp [State.die, State.setDie]

theorem State.die_setDie_ne (s : State) {d k : DieId} (x : Die) (hk : k ≠ d) : (s.setDie d x).die k = s.die k := by
  have : d.val ≠ k.val := fun e => hk (Fin.ext e.symm)
  simp [State.die, State.setDie, Vector.getElem_set_ne _ _ this]

/-! ## The fields each update leaves -/

@[simp] theorem State.setHart_clusters (s : State) (h : HartId) (x : Hart) : (s.setHart h x).clusters = s.clusters := rfl
@[simp] theorem State.setHart_dies (s : State) (h : HartId) (x : Hart) : (s.setHart h x).dies = s.dies := rfl
@[simp] theorem State.setHart_dev (s : State) (h : HartId) (x : Hart) : (s.setHart h x).dev = s.dev := rfl
@[simp] theorem State.setHart_mem (s : State) (h : HartId) (x : Hart) : (s.setHart h x).mem = s.mem := rfl
@[simp] theorem State.setHart_present (s : State) (h : HartId) (x : Hart) : (s.setHart h x).present = s.present := rfl
@[simp] theorem State.setHart_poison (s : State) (h : HartId) (x : Hart) : (s.setHart h x).poison = s.poison := rfl
@[simp] theorem State.setHart_absent (s : State) (h : HartId) (x : Hart) : (s.setHart h x).absent = s.absent := rfl
@[simp] theorem State.setHart_owned (s : State) (h : HartId) (x : Hart) : (s.setHart h x).owned = s.owned := rfl
@[simp] theorem State.setHart_storeBuf (s : State) (h : HartId) (x : Hart) : (s.setHart h x).storeBuf = s.storeBuf := rfl
@[simp] theorem State.setHart_cycle (s : State) (h : HartId) (x : Hart) : (s.setHart h x).cycle = s.cycle := rfl
@[simp] theorem State.setHart_copySeq (s : State) (h : HartId) (x : Hart) : (s.setHart h x).copySeq = s.copySeq := rfl
@[simp] theorem State.setHart_agenda (s : State) (h : HartId) (x : Hart) : (s.setHart h x).agenda = s.agenda := rfl
@[simp] theorem State.setHart_cur (s : State) (h : HartId) (x : Hart) : (s.setHart h x).cur = s.cur := rfl
@[simp] theorem State.setHart_stopAfter (s : State) (h : HartId) (x : Hart) : (s.setHart h x).stopAfter = s.stopAfter := rfl
@[simp] theorem State.setHart_freeCtr (s : State) (h : HartId) (x : Hart) : (s.setHart h x).freeCtr = s.freeCtr := rfl
@[simp] theorem State.setHart_images (s : State) (h : HartId) (x : Hart) : (s.setHart h x).images = s.images := rfl

@[simp] theorem State.modHart_clusters (s : State) (h : HartId) (f : Hart → Hart) : (s.modHart h f).clusters = s.clusters := rfl
@[simp] theorem State.modHart_dies (s : State) (h : HartId) (f : Hart → Hart) : (s.modHart h f).dies = s.dies := rfl
@[simp] theorem State.modHart_dev (s : State) (h : HartId) (f : Hart → Hart) : (s.modHart h f).dev = s.dev := rfl
@[simp] theorem State.modHart_mem (s : State) (h : HartId) (f : Hart → Hart) : (s.modHart h f).mem = s.mem := rfl
@[simp] theorem State.modHart_present (s : State) (h : HartId) (f : Hart → Hart) : (s.modHart h f).present = s.present := rfl
@[simp] theorem State.modHart_poison (s : State) (h : HartId) (f : Hart → Hart) : (s.modHart h f).poison = s.poison := rfl
@[simp] theorem State.modHart_absent (s : State) (h : HartId) (f : Hart → Hart) : (s.modHart h f).absent = s.absent := rfl
@[simp] theorem State.modHart_owned (s : State) (h : HartId) (f : Hart → Hart) : (s.modHart h f).owned = s.owned := rfl
@[simp] theorem State.modHart_storeBuf (s : State) (h : HartId) (f : Hart → Hart) : (s.modHart h f).storeBuf = s.storeBuf := rfl
@[simp] theorem State.modHart_cycle (s : State) (h : HartId) (f : Hart → Hart) : (s.modHart h f).cycle = s.cycle := rfl
@[simp] theorem State.modHart_copySeq (s : State) (h : HartId) (f : Hart → Hart) : (s.modHart h f).copySeq = s.copySeq := rfl
@[simp] theorem State.modHart_agenda (s : State) (h : HartId) (f : Hart → Hart) : (s.modHart h f).agenda = s.agenda := rfl
@[simp] theorem State.modHart_cur (s : State) (h : HartId) (f : Hart → Hart) : (s.modHart h f).cur = s.cur := rfl
@[simp] theorem State.modHart_stopAfter (s : State) (h : HartId) (f : Hart → Hart) : (s.modHart h f).stopAfter = s.stopAfter := rfl
@[simp] theorem State.modHart_freeCtr (s : State) (h : HartId) (f : Hart → Hart) : (s.modHart h f).freeCtr = s.freeCtr := rfl
@[simp] theorem State.modHart_images (s : State) (h : HartId) (f : Hart → Hart) : (s.modHart h f).images = s.images := rfl

@[simp] theorem State.modMe_clusters (s : State) (f : Hart → Hart) : (s.modMe f).clusters = s.clusters := rfl
@[simp] theorem State.modMe_dies (s : State) (f : Hart → Hart) : (s.modMe f).dies = s.dies := rfl
@[simp] theorem State.modMe_dev (s : State) (f : Hart → Hart) : (s.modMe f).dev = s.dev := rfl
@[simp] theorem State.modMe_mem (s : State) (f : Hart → Hart) : (s.modMe f).mem = s.mem := rfl
@[simp] theorem State.modMe_present (s : State) (f : Hart → Hart) : (s.modMe f).present = s.present := rfl
@[simp] theorem State.modMe_poison (s : State) (f : Hart → Hart) : (s.modMe f).poison = s.poison := rfl
@[simp] theorem State.modMe_absent (s : State) (f : Hart → Hart) : (s.modMe f).absent = s.absent := rfl
@[simp] theorem State.modMe_owned (s : State) (f : Hart → Hart) : (s.modMe f).owned = s.owned := rfl
@[simp] theorem State.modMe_storeBuf (s : State) (f : Hart → Hart) : (s.modMe f).storeBuf = s.storeBuf := rfl
@[simp] theorem State.modMe_cycle (s : State) (f : Hart → Hart) : (s.modMe f).cycle = s.cycle := rfl
@[simp] theorem State.modMe_copySeq (s : State) (f : Hart → Hart) : (s.modMe f).copySeq = s.copySeq := rfl
@[simp] theorem State.modMe_agenda (s : State) (f : Hart → Hart) : (s.modMe f).agenda = s.agenda := rfl
@[simp] theorem State.modMe_cur (s : State) (f : Hart → Hart) : (s.modMe f).cur = s.cur := rfl
@[simp] theorem State.modMe_stopAfter (s : State) (f : Hart → Hart) : (s.modMe f).stopAfter = s.stopAfter := rfl
@[simp] theorem State.modMe_freeCtr (s : State) (f : Hart → Hart) : (s.modMe f).freeCtr = s.freeCtr := rfl
@[simp] theorem State.modMe_images (s : State) (f : Hart → Hart) : (s.modMe f).images = s.images := rfl

@[simp] theorem State.setCluster_harts (s : State) (c : ClusterId) (x : Cluster) : (s.setCluster c x).harts = s.harts := rfl
@[simp] theorem State.setCluster_dies (s : State) (c : ClusterId) (x : Cluster) : (s.setCluster c x).dies = s.dies := rfl
@[simp] theorem State.setCluster_dev (s : State) (c : ClusterId) (x : Cluster) : (s.setCluster c x).dev = s.dev := rfl
@[simp] theorem State.setCluster_mem (s : State) (c : ClusterId) (x : Cluster) : (s.setCluster c x).mem = s.mem := rfl
@[simp] theorem State.setCluster_present (s : State) (c : ClusterId) (x : Cluster) : (s.setCluster c x).present = s.present := rfl
@[simp] theorem State.setCluster_poison (s : State) (c : ClusterId) (x : Cluster) : (s.setCluster c x).poison = s.poison := rfl
@[simp] theorem State.setCluster_absent (s : State) (c : ClusterId) (x : Cluster) : (s.setCluster c x).absent = s.absent := rfl
@[simp] theorem State.setCluster_owned (s : State) (c : ClusterId) (x : Cluster) : (s.setCluster c x).owned = s.owned := rfl
@[simp] theorem State.setCluster_storeBuf (s : State) (c : ClusterId) (x : Cluster) : (s.setCluster c x).storeBuf = s.storeBuf := rfl
@[simp] theorem State.setCluster_cycle (s : State) (c : ClusterId) (x : Cluster) : (s.setCluster c x).cycle = s.cycle := rfl
@[simp] theorem State.setCluster_copySeq (s : State) (c : ClusterId) (x : Cluster) : (s.setCluster c x).copySeq = s.copySeq := rfl
@[simp] theorem State.setCluster_agenda (s : State) (c : ClusterId) (x : Cluster) : (s.setCluster c x).agenda = s.agenda := rfl
@[simp] theorem State.setCluster_cur (s : State) (c : ClusterId) (x : Cluster) : (s.setCluster c x).cur = s.cur := rfl
@[simp] theorem State.setCluster_stopAfter (s : State) (c : ClusterId) (x : Cluster) : (s.setCluster c x).stopAfter = s.stopAfter := rfl
@[simp] theorem State.setCluster_freeCtr (s : State) (c : ClusterId) (x : Cluster) : (s.setCluster c x).freeCtr = s.freeCtr := rfl
@[simp] theorem State.setCluster_images (s : State) (c : ClusterId) (x : Cluster) : (s.setCluster c x).images = s.images := rfl

@[simp] theorem State.modCluster_harts (s : State) (c : ClusterId) (f : Cluster → Cluster) : (s.modCluster c f).harts = s.harts := rfl
@[simp] theorem State.modCluster_dies (s : State) (c : ClusterId) (f : Cluster → Cluster) : (s.modCluster c f).dies = s.dies := rfl
@[simp] theorem State.modCluster_dev (s : State) (c : ClusterId) (f : Cluster → Cluster) : (s.modCluster c f).dev = s.dev := rfl
@[simp] theorem State.modCluster_mem (s : State) (c : ClusterId) (f : Cluster → Cluster) : (s.modCluster c f).mem = s.mem := rfl
@[simp] theorem State.modCluster_present (s : State) (c : ClusterId) (f : Cluster → Cluster) : (s.modCluster c f).present = s.present := rfl
@[simp] theorem State.modCluster_poison (s : State) (c : ClusterId) (f : Cluster → Cluster) : (s.modCluster c f).poison = s.poison := rfl
@[simp] theorem State.modCluster_absent (s : State) (c : ClusterId) (f : Cluster → Cluster) : (s.modCluster c f).absent = s.absent := rfl
@[simp] theorem State.modCluster_owned (s : State) (c : ClusterId) (f : Cluster → Cluster) : (s.modCluster c f).owned = s.owned := rfl
@[simp] theorem State.modCluster_storeBuf (s : State) (c : ClusterId) (f : Cluster → Cluster) : (s.modCluster c f).storeBuf = s.storeBuf := rfl
@[simp] theorem State.modCluster_cycle (s : State) (c : ClusterId) (f : Cluster → Cluster) : (s.modCluster c f).cycle = s.cycle := rfl
@[simp] theorem State.modCluster_copySeq (s : State) (c : ClusterId) (f : Cluster → Cluster) : (s.modCluster c f).copySeq = s.copySeq := rfl
@[simp] theorem State.modCluster_agenda (s : State) (c : ClusterId) (f : Cluster → Cluster) : (s.modCluster c f).agenda = s.agenda := rfl
@[simp] theorem State.modCluster_cur (s : State) (c : ClusterId) (f : Cluster → Cluster) : (s.modCluster c f).cur = s.cur := rfl
@[simp] theorem State.modCluster_stopAfter (s : State) (c : ClusterId) (f : Cluster → Cluster) : (s.modCluster c f).stopAfter = s.stopAfter := rfl
@[simp] theorem State.modCluster_freeCtr (s : State) (c : ClusterId) (f : Cluster → Cluster) : (s.modCluster c f).freeCtr = s.freeCtr := rfl
@[simp] theorem State.modCluster_images (s : State) (c : ClusterId) (f : Cluster → Cluster) : (s.modCluster c f).images = s.images := rfl

@[simp] theorem State.setDie_harts (s : State) (d : DieId) (x : Die) : (s.setDie d x).harts = s.harts := rfl
@[simp] theorem State.setDie_clusters (s : State) (d : DieId) (x : Die) : (s.setDie d x).clusters = s.clusters := rfl
@[simp] theorem State.setDie_dev (s : State) (d : DieId) (x : Die) : (s.setDie d x).dev = s.dev := rfl
@[simp] theorem State.setDie_mem (s : State) (d : DieId) (x : Die) : (s.setDie d x).mem = s.mem := rfl
@[simp] theorem State.setDie_present (s : State) (d : DieId) (x : Die) : (s.setDie d x).present = s.present := rfl
@[simp] theorem State.setDie_poison (s : State) (d : DieId) (x : Die) : (s.setDie d x).poison = s.poison := rfl
@[simp] theorem State.setDie_absent (s : State) (d : DieId) (x : Die) : (s.setDie d x).absent = s.absent := rfl
@[simp] theorem State.setDie_owned (s : State) (d : DieId) (x : Die) : (s.setDie d x).owned = s.owned := rfl
@[simp] theorem State.setDie_storeBuf (s : State) (d : DieId) (x : Die) : (s.setDie d x).storeBuf = s.storeBuf := rfl
@[simp] theorem State.setDie_cycle (s : State) (d : DieId) (x : Die) : (s.setDie d x).cycle = s.cycle := rfl
@[simp] theorem State.setDie_copySeq (s : State) (d : DieId) (x : Die) : (s.setDie d x).copySeq = s.copySeq := rfl
@[simp] theorem State.setDie_agenda (s : State) (d : DieId) (x : Die) : (s.setDie d x).agenda = s.agenda := rfl
@[simp] theorem State.setDie_cur (s : State) (d : DieId) (x : Die) : (s.setDie d x).cur = s.cur := rfl
@[simp] theorem State.setDie_stopAfter (s : State) (d : DieId) (x : Die) : (s.setDie d x).stopAfter = s.stopAfter := rfl
@[simp] theorem State.setDie_freeCtr (s : State) (d : DieId) (x : Die) : (s.setDie d x).freeCtr = s.freeCtr := rfl
@[simp] theorem State.setDie_images (s : State) (d : DieId) (x : Die) : (s.setDie d x).images = s.images := rfl

@[simp] theorem State.modDie_harts (s : State) (d : DieId) (f : Die → Die) : (s.modDie d f).harts = s.harts := rfl
@[simp] theorem State.modDie_clusters (s : State) (d : DieId) (f : Die → Die) : (s.modDie d f).clusters = s.clusters := rfl
@[simp] theorem State.modDie_dev (s : State) (d : DieId) (f : Die → Die) : (s.modDie d f).dev = s.dev := rfl
@[simp] theorem State.modDie_mem (s : State) (d : DieId) (f : Die → Die) : (s.modDie d f).mem = s.mem := rfl
@[simp] theorem State.modDie_present (s : State) (d : DieId) (f : Die → Die) : (s.modDie d f).present = s.present := rfl
@[simp] theorem State.modDie_poison (s : State) (d : DieId) (f : Die → Die) : (s.modDie d f).poison = s.poison := rfl
@[simp] theorem State.modDie_absent (s : State) (d : DieId) (f : Die → Die) : (s.modDie d f).absent = s.absent := rfl
@[simp] theorem State.modDie_owned (s : State) (d : DieId) (f : Die → Die) : (s.modDie d f).owned = s.owned := rfl
@[simp] theorem State.modDie_storeBuf (s : State) (d : DieId) (f : Die → Die) : (s.modDie d f).storeBuf = s.storeBuf := rfl
@[simp] theorem State.modDie_cycle (s : State) (d : DieId) (f : Die → Die) : (s.modDie d f).cycle = s.cycle := rfl
@[simp] theorem State.modDie_copySeq (s : State) (d : DieId) (f : Die → Die) : (s.modDie d f).copySeq = s.copySeq := rfl
@[simp] theorem State.modDie_agenda (s : State) (d : DieId) (f : Die → Die) : (s.modDie d f).agenda = s.agenda := rfl
@[simp] theorem State.modDie_cur (s : State) (d : DieId) (f : Die → Die) : (s.modDie d f).cur = s.cur := rfl
@[simp] theorem State.modDie_stopAfter (s : State) (d : DieId) (f : Die → Die) : (s.modDie d f).stopAfter = s.stopAfter := rfl
@[simp] theorem State.modDie_freeCtr (s : State) (d : DieId) (f : Die → Die) : (s.modDie d f).freeCtr = s.freeCtr := rfl
@[simp] theorem State.modDie_images (s : State) (d : DieId) (f : Die → Die) : (s.modDie d f).images = s.images := rfl

@[simp] theorem State.setBytes_harts (s : State) (pa : Nat) (l : List Byte) : (s.setBytes pa l).harts = s.harts := rfl
@[simp] theorem State.setBytes_clusters (s : State) (pa : Nat) (l : List Byte) : (s.setBytes pa l).clusters = s.clusters := rfl
@[simp] theorem State.setBytes_dies (s : State) (pa : Nat) (l : List Byte) : (s.setBytes pa l).dies = s.dies := rfl
@[simp] theorem State.setBytes_dev (s : State) (pa : Nat) (l : List Byte) : (s.setBytes pa l).dev = s.dev := rfl
@[simp] theorem State.setBytes_present (s : State) (pa : Nat) (l : List Byte) : (s.setBytes pa l).present = s.present := rfl
@[simp] theorem State.setBytes_absent (s : State) (pa : Nat) (l : List Byte) : (s.setBytes pa l).absent = s.absent := rfl
@[simp] theorem State.setBytes_owned (s : State) (pa : Nat) (l : List Byte) : (s.setBytes pa l).owned = s.owned := rfl
@[simp] theorem State.setBytes_storeBuf (s : State) (pa : Nat) (l : List Byte) : (s.setBytes pa l).storeBuf = s.storeBuf := rfl
@[simp] theorem State.setBytes_cycle (s : State) (pa : Nat) (l : List Byte) : (s.setBytes pa l).cycle = s.cycle := rfl
@[simp] theorem State.setBytes_copySeq (s : State) (pa : Nat) (l : List Byte) : (s.setBytes pa l).copySeq = s.copySeq := rfl
@[simp] theorem State.setBytes_agenda (s : State) (pa : Nat) (l : List Byte) : (s.setBytes pa l).agenda = s.agenda := rfl
@[simp] theorem State.setBytes_cur (s : State) (pa : Nat) (l : List Byte) : (s.setBytes pa l).cur = s.cur := rfl
@[simp] theorem State.setBytes_stopAfter (s : State) (pa : Nat) (l : List Byte) : (s.setBytes pa l).stopAfter = s.stopAfter := rfl
@[simp] theorem State.setBytes_freeCtr (s : State) (pa : Nat) (l : List Byte) : (s.setBytes pa l).freeCtr = s.freeCtr := rfl
@[simp] theorem State.setBytes_images (s : State) (pa : Nat) (l : List Byte) : (s.setBytes pa l).images = s.images := rfl

@[simp] theorem State.setFull_harts (s : State) (pa : Nat) (b : Bool) : (s.setFull pa b).harts = s.harts := rfl
@[simp] theorem State.setFull_clusters (s : State) (pa : Nat) (b : Bool) : (s.setFull pa b).clusters = s.clusters := rfl
@[simp] theorem State.setFull_dies (s : State) (pa : Nat) (b : Bool) : (s.setFull pa b).dies = s.dies := rfl
@[simp] theorem State.setFull_dev (s : State) (pa : Nat) (b : Bool) : (s.setFull pa b).dev = s.dev := rfl
@[simp] theorem State.setFull_mem (s : State) (pa : Nat) (b : Bool) : (s.setFull pa b).mem = s.mem := rfl
@[simp] theorem State.setFull_poison (s : State) (pa : Nat) (b : Bool) : (s.setFull pa b).poison = s.poison := rfl
@[simp] theorem State.setFull_absent (s : State) (pa : Nat) (b : Bool) : (s.setFull pa b).absent = s.absent := rfl
@[simp] theorem State.setFull_owned (s : State) (pa : Nat) (b : Bool) : (s.setFull pa b).owned = s.owned := rfl
@[simp] theorem State.setFull_storeBuf (s : State) (pa : Nat) (b : Bool) : (s.setFull pa b).storeBuf = s.storeBuf := rfl
@[simp] theorem State.setFull_cycle (s : State) (pa : Nat) (b : Bool) : (s.setFull pa b).cycle = s.cycle := rfl
@[simp] theorem State.setFull_copySeq (s : State) (pa : Nat) (b : Bool) : (s.setFull pa b).copySeq = s.copySeq := rfl
@[simp] theorem State.setFull_agenda (s : State) (pa : Nat) (b : Bool) : (s.setFull pa b).agenda = s.agenda := rfl
@[simp] theorem State.setFull_cur (s : State) (pa : Nat) (b : Bool) : (s.setFull pa b).cur = s.cur := rfl
@[simp] theorem State.setFull_stopAfter (s : State) (pa : Nat) (b : Bool) : (s.setFull pa b).stopAfter = s.stopAfter := rfl
@[simp] theorem State.setFull_freeCtr (s : State) (pa : Nat) (b : Bool) : (s.setFull pa b).freeCtr = s.freeCtr := rfl
@[simp] theorem State.setFull_images (s : State) (pa : Nat) (b : Bool) : (s.setFull pa b).images = s.images := rfl

/-! ## The running hart -/

@[simp] theorem State.me_modMe (s : State) (f : Hart → Hart) : (s.modMe f).me = f s.me := by
  simp [State.me, State.modMe]

@[simp] theorem State.modMe_modMe (s : State) (f g : Hart → Hart) : (s.modMe f).modMe g = s.modMe fun h => g (f h) := by
  simp [State.modMe, State.modHart, State.setHart, State.hart]

theorem State.hart_modMe_ne (s : State) (f : Hart → Hart) {k : HartId} (hk : k ≠ s.cur) :
    (s.modMe f).hart k = s.hart k := State.hart_modHart_ne s f hk

@[simp] theorem State.me_setBytes (s : State) (pa : Nat) (l : List Byte) : (s.setBytes pa l).me = s.me := rfl
@[simp] theorem State.me_modDie (s : State) (d : DieId) (f : Die → Die) : (s.modDie d f).me = s.me := rfl
@[simp] theorem State.me_modCluster (s : State) (c : ClusterId) (f : Cluster → Cluster) : (s.modCluster c f).me = s.me := rfl
@[simp] theorem State.hart_setBytes (s : State) (pa : Nat) (l : List Byte) (h : HartId) :
    (s.setBytes pa l).hart h = s.hart h := rfl
@[simp] theorem State.hart_modDie (s : State) (d : DieId) (f : Die → Die) (h : HartId) : (s.modDie d f).hart h = s.hart h := rfl
@[simp] theorem State.hart_modCluster (s : State) (c : ClusterId) (f : Cluster → Cluster) (h : HartId) :
    (s.modCluster c f).hart h = s.hart h := rfl

@[simp] theorem State.modMe_id (s : State) : (s.modMe fun h => h) = s := by
  simp [State.modMe, State.modHart, State.setHart, State.hart]

/-! ## Scalar registers -/

@[simp] theorem Hart.rs_zero (h : Hart) : h.rs 0#5 = 0#64 := by simp [Hart.rs]

@[simp] theorem Hart.ws_zero (h : Hart) (v : Word) : h.ws 0#5 v = h := by simp [Hart.ws]

theorem Hart.rs_ws_same (h : Hart) {n : BitVec 5} (hn : n ≠ 0) (v : Word) : (h.ws n v).rs n = v := by
  unfold Hart.rs Hart.ws
  rw [if_neg hn, if_neg hn]
  exact Vector.getElem_set_self _

theorem Hart.rs_ws_ne (h : Hart) {n k : BitVec 5} (hk : k ≠ n) (v : Word) : (h.ws n v).rs k = h.rs k := by
  unfold Hart.rs Hart.ws
  have hv : n.toFin.val ≠ k.toFin.val := fun e => hk (BitVec.eq_of_toNat_eq e.symm)
  split
  · rfl
  · split
    · rfl
    · exact Vector.getElem_set_ne n.toFin.isLt k.toFin.isLt hv

@[simp] theorem State.ws_zero (s : State) (v : Word) : s.ws 0#5 v = s := by
  simp [State.ws]

@[simp] theorem State.ws_clusters (s : State) (n : BitVec 5) (v : Word) : (s.ws n v).clusters = s.clusters := rfl
@[simp] theorem State.ws_dies (s : State) (n : BitVec 5) (v : Word) : (s.ws n v).dies = s.dies := rfl
@[simp] theorem State.ws_dev (s : State) (n : BitVec 5) (v : Word) : (s.ws n v).dev = s.dev := rfl
@[simp] theorem State.ws_mem (s : State) (n : BitVec 5) (v : Word) : (s.ws n v).mem = s.mem := rfl
@[simp] theorem State.ws_present (s : State) (n : BitVec 5) (v : Word) : (s.ws n v).present = s.present := rfl
@[simp] theorem State.ws_poison (s : State) (n : BitVec 5) (v : Word) : (s.ws n v).poison = s.poison := rfl
@[simp] theorem State.ws_absent (s : State) (n : BitVec 5) (v : Word) : (s.ws n v).absent = s.absent := rfl
@[simp] theorem State.ws_owned (s : State) (n : BitVec 5) (v : Word) : (s.ws n v).owned = s.owned := rfl
@[simp] theorem State.ws_storeBuf (s : State) (n : BitVec 5) (v : Word) : (s.ws n v).storeBuf = s.storeBuf := rfl
@[simp] theorem State.ws_cycle (s : State) (n : BitVec 5) (v : Word) : (s.ws n v).cycle = s.cycle := rfl
@[simp] theorem State.ws_copySeq (s : State) (n : BitVec 5) (v : Word) : (s.ws n v).copySeq = s.copySeq := rfl
@[simp] theorem State.ws_agenda (s : State) (n : BitVec 5) (v : Word) : (s.ws n v).agenda = s.agenda := rfl
@[simp] theorem State.ws_cur (s : State) (n : BitVec 5) (v : Word) : (s.ws n v).cur = s.cur := rfl
@[simp] theorem State.ws_stopAfter (s : State) (n : BitVec 5) (v : Word) : (s.ws n v).stopAfter = s.stopAfter := rfl
@[simp] theorem State.ws_freeCtr (s : State) (n : BitVec 5) (v : Word) : (s.ws n v).freeCtr = s.freeCtr := rfl
@[simp] theorem State.ws_images (s : State) (n : BitVec 5) (v : Word) : (s.ws n v).images = s.images := rfl

@[simp] theorem State.me_ws (s : State) (n : BitVec 5) (v : Word) : (s.ws n v).me = s.me.ws n v := State.me_modMe s _

/-! What a write of a scalar register leaves of its hart. -/

theorem Hart.ws_field {α : Type} (h : Hart) (n : BitVec 5) (v : Word) (g : Hart → α)
    (hg : ∀ x l, g { h with s := x, latch := l } = g h) : g (h.ws n v) = g h := by
  unfold Hart.ws
  split
  · rfl
  · exact hg _ _

@[simp] theorem Hart.ws_pc (h : Hart) (n : BitVec 5) (v : Word) : (h.ws n v).pc = h.pc := Hart.ws_field h n v (·.pc) (fun _ _ => rfl)
@[simp] theorem Hart.ws_v (h : Hart) (n : BitVec 5) (v : Word) : (h.ws n v).v = h.v := Hart.ws_field h n v (·.v) (fun _ _ => rfl)
@[simp] theorem Hart.ws_m (h : Hart) (n : BitVec 5) (v : Word) : (h.ws n v).m = h.m := Hart.ws_field h n v (·.m) (fun _ _ => rfl)
@[simp] theorem Hart.ws_mf (h : Hart) (n : BitVec 5) (v : Word) : (h.ws n v).mf = h.mf := Hart.ws_field h n v (·.mf) (fun _ _ => rfl)
@[simp] theorem Hart.ws_run (h : Hart) (n : BitVec 5) (v : Word) : (h.ws n v).run = h.run := Hart.ws_field h n v (·.run) (fun _ _ => rfl)
@[simp] theorem Hart.ws_status (h : Hart) (n : BitVec 5) (v : Word) : (h.ws n v).status = h.status := Hart.ws_field h n v (·.status) (fun _ _ => rfl)
@[simp] theorem Hart.ws_tr (h : Hart) (n : BitVec 5) (v : Word) : (h.ws n v).tr = h.tr := Hart.ws_field h n v (·.tr) (fun _ _ => rfl)
@[simp] theorem Hart.ws_vc (h : Hart) (n : BitVec 5) (v : Word) : (h.ws n v).vc = h.vc := Hart.ws_field h n v (·.vc) (fun _ _ => rfl)
@[simp] theorem Hart.ws_fp (h : Hart) (n : BitVec 5) (v : Word) : (h.ws n v).fp = h.fp := Hart.ws_field h n v (·.fp) (fun _ _ => rfl)
@[simp] theorem Hart.ws_lees (h : Hart) (n : BitVec 5) (v : Word) : (h.ws n v).lees = h.lees := Hart.ws_field h n v (·.lees) (fun _ _ => rfl)
@[simp] theorem Hart.ws_tags (h : Hart) (n : BitVec 5) (v : Word) : (h.ws n v).tags = h.tags := Hart.ws_field h n v (·.tags) (fun _ _ => rfl)
@[simp] theorem Hart.ws_cal (h : Hart) (n : BitVec 5) (v : Word) : (h.ws n v).cal = h.cal := Hart.ws_field h n v (·.cal) (fun _ _ => rfl)
@[simp] theorem Hart.ws_ptbase (h : Hart) (n : BitVec 5) (v : Word) : (h.ws n v).ptbase = h.ptbase := Hart.ws_field h n v (·.ptbase) (fun _ _ => rfl)
@[simp] theorem Hart.ws_asid (h : Hart) (n : BitVec 5) (v : Word) : (h.ws n v).asid = h.asid := Hart.ws_field h n v (·.asid) (fun _ _ => rfl)
@[simp] theorem Hart.ws_modp (h : Hart) (n : BitVec 5) (v : Word) : (h.ws n v).modp = h.modp := Hart.ws_field h n v (·.modp) (fun _ _ => rfl)
@[simp] theorem Hart.ws_modq (h : Hart) (n : BitVec 5) (v : Word) : (h.ws n v).modq = h.modq := Hart.ws_field h n v (·.modq) (fun _ _ => rfl)
@[simp] theorem Hart.ws_sstatus (h : Hart) (n : BitVec 5) (v : Word) : (h.ws n v).sstatus = h.sstatus := Hart.ws_field h n v (·.sstatus) (fun _ _ => rfl)
@[simp] theorem Hart.ws_kmode (h : Hart) (n : BitVec 5) (v : Word) : (h.ws n v).kmode = h.kmode := Hart.ws_field h n v (·.kmode) (fun _ _ => rfl)
@[simp] theorem Hart.ws_klimit (h : Hart) (n : BitVec 5) (v : Word) : (h.ws n v).klimit = h.klimit := Hart.ws_field h n v (·.klimit) (fun _ _ => rfl)
@[simp] theorem Hart.ws_preempt (h : Hart) (n : BitVec 5) (v : Word) : (h.ws n v).preempt = h.preempt := Hart.ws_field h n v (·.preempt) (fun _ _ => rfl)
@[simp] theorem Hart.ws_evpend (h : Hart) (n : BitVec 5) (v : Word) : (h.ws n v).evpend = h.evpend := Hart.ws_field h n v (·.evpend) (fun _ _ => rfl)
@[simp] theorem Hart.ws_hipend (h : Hart) (n : BitVec 5) (v : Word) : (h.ws n v).hipend = h.hipend := Hart.ws_field h n v (·.hipend) (fun _ _ => rfl)
@[simp] theorem Hart.ws_vbind (h : Hart) (n : BitVec 5) (v : Word) : (h.ws n v).vbind = h.vbind := Hart.ws_field h n v (·.vbind) (fun _ _ => rfl)
@[simp] theorem Hart.ws_wslot (h : Hart) (n : BitVec 5) (v : Word) : (h.ws n v).wslot = h.wslot := Hart.ws_field h n v (·.wslot) (fun _ _ => rfl)
@[simp] theorem Hart.ws_mxcfg (h : Hart) (n : BitVec 5) (v : Word) : (h.ws n v).mxcfg = h.mxcfg := Hart.ws_field h n v (·.mxcfg) (fun _ _ => rfl)
@[simp] theorem Hart.ws_faultRec (h : Hart) (n : BitVec 5) (v : Word) : (h.ws n v).faultRec = h.faultRec := Hart.ws_field h n v (·.faultRec) (fun _ _ => rfl)
@[simp] theorem Hart.ws_cc (h : Hart) (n : BitVec 5) (v : Word) : (h.ws n v).cc = h.cc := Hart.ws_field h n v (·.cc) (fun _ _ => rfl)
@[simp] theorem Hart.ws_retStack (h : Hart) (n : BitVec 5) (v : Word) : (h.ws n v).retStack = h.retStack := Hart.ws_field h n v (·.retStack) (fun _ _ => rfl)
@[simp] theorem Hart.ws_pend (h : Hart) (n : BitVec 5) (v : Word) : (h.ws n v).pend = h.pend := Hart.ws_field h n v (·.pend) (fun _ _ => rfl)
@[simp] theorem Hart.ws_gang (h : Hart) (n : BitVec 5) (v : Word) : (h.ws n v).gang = h.gang := Hart.ws_field h n v (·.gang) (fun _ _ => rfl)
@[simp] theorem Hart.ws_gbars (h : Hart) (n : BitVec 5) (v : Word) : (h.ws n v).gbars = h.gbars := Hart.ws_field h n v (·.gbars) (fun _ _ => rfl)
@[simp] theorem Hart.ws_gbarHere (h : Hart) (n : BitVec 5) (v : Word) : (h.ws n v).gbarHere = h.gbarHere := Hart.ws_field h n v (·.gbarHere) (fun _ _ => rfl)
@[simp] theorem Hart.ws_atHandler (h : Hart) (n : BitVec 5) (v : Word) : (h.ws n v).atHandler = h.atHandler := Hart.ws_field h n v (·.atHandler) (fun _ _ => rfl)
@[simp] theorem Hart.ws_inWait (h : Hart) (n : BitVec 5) (v : Word) : (h.ws n v).inWait = h.inWait := Hart.ws_field h n v (·.inWait) (fun _ _ => rfl)
@[simp] theorem Hart.ws_lost (h : Hart) (n : BitVec 5) (v : Word) : (h.ws n v).lost = h.lost := Hart.ws_field h n v (·.lost) (fun _ _ => rfl)

end Sys2Proof.Machine
end

