-- ==== Sys2Proof/Laws/Ends.lean ====
section
/-!
SUPPORT. How each kind of ending commits, and the frames of those endings.
-/

namespace Sys2Proof.Machine

/-! ## One lemma per ending -/

theorem commit_done (s : State) : commit (.done s) = .next s.proceed := rfl

theorem commit_jump (s : State) (t : Word) : commit (.jump s t) = .next (s.goTo t) := rfl

theorem commit_trap (s : State) (c : Nat) (ea ei : Word) :
    commit (.trap s { cause := c, eaddr := ea, eidx := ei }) = .next (s.trapped c ea ei) := by
  simp [commit, State.trapped]

theorem commit_wait (s : State) (w : WaitFor) : commit (.wait s w) = .next (s.waiting w) := rfl

/-! ## What the endings leave -/

@[simp] theorem State.me_proceed (s : State) :
    s.proceed.me = { s.me with pc := s.me.pc + 16, inWait := false } := State.me_modMe s _

@[simp] theorem State.me_goTo (s : State) (t : Word) : (s.goTo t).me = { s.me with pc := t, inWait := false } :=
  State.me_modMe s _

theorem onlyMe_modMe (s : State) (f : Hart → Hart) : OnlyMe s (s.modMe f) :=
  ⟨rfl, fun _ hk => State.hart_modMe_ne s f hk⟩

theorem onlyMe_refl (s : State) : OnlyMe s s := ⟨rfl, fun _ _ => rfl⟩

theorem onlyMe_cur {s t : State} (h : OnlyMe s t) : t.cur = s.cur := by
  rw [h.1]

theorem onlyMe_trans {s t u : State} (h : OnlyMe s t) (k : OnlyMe t u) : OnlyMe s u := by
  refine ⟨?_, fun j hj => ?_⟩
  · rw [k.1, h.1]
  · rw [k.2 j (by rw [onlyMe_cur h]; exact hj), h.2 j hj]

theorem sameBytes_of_onlyMe {s t : State} (h : OnlyMe s t) : SameBytes s t := by
  intro a
  have : t.mem = s.mem := by rw [h.1]
  simp [State.byte, this]

theorem onlyMe_ws (s : State) (n : BitVec 5) (v : Word) : OnlyMe s (s.ws n v) := onlyMe_modMe s _

theorem onlyMe_proceed (s : State) : OnlyMe s s.proceed := onlyMe_modMe s _

/-- The frame of an instruction that writes one scalar register and goes on. -/
theorem scalarFrame_ws (s : State) (n : BitVec 5) (v : Word) : ScalarFrame [n] s (s.ws n v).proceed := by
  have ho : OnlyMe s (s.ws n v).proceed := onlyMe_trans (onlyMe_ws s n v) (onlyMe_proceed _)
  refine ⟨ho, sameBytes_of_onlyMe ho, fun k hk => ?_, ?_⟩
  · have hk : k ≠ n := by simpa using hk
    rw [State.me_proceed, State.me_ws]
    exact Hart.rs_ws_ne s.me hk v
  · rw [State.me_proceed, State.me_ws]
    unfold Hart.ws
    split <;> rfl

end Sys2Proof.Machine
end

