-- ==== Sys2Proof/Laws/PerInstr.lean ====
section
/-!
SUPPORT. The families of statements made per instruction. `Named`: where an instruction's row is the form its fields select,
the class and op pair of the row names that very instruction (02 Table 2.8).
-/

namespace Sys2Proof.Laws.Named

/-- The row's class and op pair, with the row's fields, names the instruction. -/
def Statement (i : Instr) : Prop :=
  ∀ r : Row, i.row = some r → r.form = true → ∃ form, assigned r.opc = some form ∧ form r.f = i

/-- From the row, its pair's entry, and the form it selects. -/
theorem intro {i : Instr} {r : Row} {form : Fields → Instr} (hr : i.row = some r) (ha : assigned r.opc = some form)
    (hf : r.form = true → form r.f = i) : Statement i := by
  intro q hq hform
  rw [hr] at hq
  cases hq
  exact ⟨form, ha, hf hform⟩

/-- A step of another agent has no row. -/
theorem noRow {i : Instr} (hr : i.row = none) : Statement i := by
  intro q hq
  rw [hr] at hq
  cases hq

theorem add (f : Fields) : Statement (.add f) := intro rfl (by dsimp only; rfl) fun _ => rfl
theorem sub (f : Fields) : Statement (.sub f) := intro rfl (by dsimp only; rfl) fun _ => rfl
theorem mul (f : Fields) : Statement (.mul f) := intro rfl (by dsimp only; rfl) fun _ => rfl
theorem mulh (f : Fields) : Statement (.mulh f) := intro rfl (by dsimp only; rfl) fun _ => rfl
theorem div (f : Fields) : Statement (.div f) := intro rfl (by dsimp only; rfl) fun _ => rfl
theorem rem (f : Fields) : Statement (.rem f) := intro rfl (by dsimp only; rfl) fun _ => rfl
theorem and (f : Fields) : Statement (.and f) := intro rfl (by dsimp only; rfl) fun _ => rfl
theorem or (f : Fields) : Statement (.or f) := intro rfl (by dsimp only; rfl) fun _ => rfl
theorem xor (f : Fields) : Statement (.xor f) := intro rfl (by dsimp only; rfl) fun _ => rfl
theorem andn (f : Fields) : Statement (.andn f) := intro rfl (by dsimp only; rfl) fun _ => rfl
theorem shl (f : Fields) : Statement (.shl f) := intro rfl (by dsimp only; rfl) fun _ => rfl
theorem shr (f : Fields) : Statement (.shr f) := intro rfl (by dsimp only; rfl) fun _ => rfl
theorem rot (f : Fields) : Statement (.rot f) := intro rfl (by dsimp only; rfl) fun _ => rfl
theorem min (f : Fields) : Statement (.min f) := intro rfl (by dsimp only; rfl) fun _ => rfl
theorem max (f : Fields) : Statement (.max f) := intro rfl (by dsimp only; rfl) fun _ => rfl
theorem cmp (f : Fields) : Statement (.cmp f) := intro rfl (by dsimp only; rfl) fun _ => rfl
theorem sel (f : Fields) : Statement (.sel f) := intro rfl (by dsimp only; rfl) fun _ => rfl
theorem clz (f : Fields) : Statement (.clz f) := intro rfl (by dsimp only; rfl) fun _ => rfl
theorem ctz (f : Fields) : Statement (.ctz f) := intro rfl (by dsimp only; rfl) fun _ => rfl
theorem popc (f : Fields) : Statement (.popc f) := intro rfl (by dsimp only; rfl) fun _ => rfl
theorem bfx (f : Fields) : Statement (.bfx f) := intro rfl (by dsimp only; rfl) fun _ => rfl
theorem bfi (f : Fields) : Statement (.bfi f) := intro rfl (by dsimp only; rfl) fun _ => rfl
theorem li (f : Fields) : Statement (.li f) := intro rfl (by dsimp only; rfl) fun _ => rfl
theorem lea (f : Fields) : Statement (.lea f) := intro rfl (by dsimp only; rfl) fun h => by simp_all
theorem leaPc (f : Fields) : Statement (.leaPc f) := intro rfl (by dsimp only; rfl) fun h => by simp_all
theorem ld (f : Fields) : Statement (.ld f) := intro rfl (by dsimp only; rfl) fun _ => rfl
theorem st (f : Fields) : Statement (.st f) := intro rfl (by dsimp only; rfl) fun _ => rfl
theorem ext (f : Fields) : Statement (.ext f) := intro rfl (by dsimp only; rfl) fun _ => rfl
theorem muladd (f : Fields) : Statement (.muladd f) := intro rfl (by dsimp only; rfl) fun _ => rfl
theorem clamp (f : Fields) : Statement (.clamp f) := intro rfl (by dsimp only; rfl) fun _ => rfl
theorem brev (f : Fields) : Statement (.brev f) := intro rfl (by dsimp only; rfl) fun _ => rfl
theorem modmul (f : Fields) : Statement (.modmul f) := intro rfl (by dsimp only; rfl) fun _ => rfl
theorem modadd (f : Fields) : Statement (.modadd f) := intro rfl (by dsimp only; rfl) fun _ => rfl
theorem br (f : Fields) : Statement (.br f) := intro rfl (by dsimp only; rfl) fun _ => rfl
theorem bz (f : Fields) : Statement (.bz f) := intro rfl (by dsimp only; rfl) fun _ => rfl
theorem bnz (f : Fields) : Statement (.bnz f) := intro rfl (by dsimp only; rfl) fun _ => rfl
theorem jmp (f : Fields) : Statement (.jmp f) := intro rfl (by dsimp only; rfl) fun _ => rfl
theorem jmpr (f : Fields) : Statement (.jmpr f) := intro rfl (by dsimp only; rfl) fun _ => rfl
theorem call (f : Fields) : Statement (.call f) := intro rfl (by dsimp only; rfl) fun _ => rfl
theorem callr (f : Fields) : Statement (.callr f) := intro rfl (by dsimp only; rfl) fun _ => rfl
theorem ret (f : Fields) : Statement (.ret f) := intro rfl (by dsimp only; rfl) fun _ => rfl
theorem loop (f : Fields) : Statement (.loop f) := intro rfl (by dsimp only; rfl) fun _ => rfl
theorem bmask (f : Fields) : Statement (.bmask f) := intro rfl (by dsimp only; rfl) fun _ => rfl
theorem nop (f : Fields) : Statement (.nop f) := intro rfl (by dsimp only; rfl) fun _ => rfl
theorem halt (f : Fields) : Statement (.halt f) := intro rfl (by dsimp only; rfl) fun _ => rfl
theorem vadd (f : Fields) : Statement (.vadd f) := intro rfl (by dsimp only; rfl) fun _ => rfl
theorem vsub (f : Fields) : Statement (.vsub f) := intro rfl (by dsimp only; rfl) fun _ => rfl
theorem vrsub (f : Fields) : Statement (.vrsub f) := intro rfl (by dsimp only; rfl) fun _ => rfl
theorem vmul (f : Fields) : Statement (.vmul f) := intro rfl (by dsimp only; rfl) fun _ => rfl
theorem vmulh (f : Fields) : Statement (.vmulh f) := intro rfl (by dsimp only; rfl) fun _ => rfl
theorem vdiv (f : Fields) : Statement (.vdiv f) := intro rfl (by dsimp only; rfl) fun _ => rfl
theorem vrem (f : Fields) : Statement (.vrem f) := intro rfl (by dsimp only; rfl) fun _ => rfl
theorem vmin (f : Fields) : Statement (.vmin f) := intro rfl (by dsimp only; rfl) fun _ => rfl
theorem vmax (f : Fields) : Statement (.vmax f) := intro rfl (by dsimp only; rfl) fun _ => rfl
theorem vand (f : Fields) : Statement (.vand f) := intro rfl (by dsimp only; rfl) fun _ => rfl
theorem vor (f : Fields) : Statement (.vor f) := intro rfl (by dsimp only; rfl) fun _ => rfl
theorem vxor (f : Fields) : Statement (.vxor f) := intro rfl (by dsimp only; rfl) fun _ => rfl
theorem vshl (f : Fields) : Statement (.vshl f) := intro rfl (by dsimp only; rfl) fun _ => rfl
theorem vshr (f : Fields) : Statement (.vshr f) := intro rfl (by dsimp only; rfl) fun _ => rfl
theorem vsadd (f : Fields) : Statement (.vsadd f) := intro rfl (by dsimp only; rfl) fun _ => rfl
theorem vssub (f : Fields) : Statement (.vssub f) := intro rfl (by dsimp only; rfl) fun _ => rfl
theorem vavg (f : Fields) : Statement (.vavg f) := intro rfl (by dsimp only; rfl) fun _ => rfl
theorem vabsd (f : Fields) : Statement (.vabsd f) := intro rfl (by dsimp only; rfl) fun _ => rfl
theorem vwadd (f : Fields) : Statement (.vwadd f) := intro rfl (by dsimp only; rfl) fun _ => rfl
theorem vwmul (f : Fields) : Statement (.vwmul f) := intro rfl (by dsimp only; rfl) fun _ => rfl
theorem vnshr (f : Fields) : Statement (.vnshr f) := intro rfl (by dsimp only; rfl) fun _ => rfl
theorem vmodadd (f : Fields) : Statement (.vmodadd f) := intro rfl (by dsimp only; rfl) fun _ => rfl
theorem vmodsub (f : Fields) : Statement (.vmodsub f) := intro rfl (by dsimp only; rfl) fun _ => rfl
theorem vmodmul (f : Fields) : Statement (.vmodmul f) := intro rfl (by dsimp only; rfl) fun _ => rfl
theorem vclz (f : Fields) : Statement (.vclz f) := intro rfl (by dsimp only; rfl) fun _ => rfl
theorem vpopc (f : Fields) : Statement (.vpopc f) := intro rfl (by dsimp only; rfl) fun _ => rfl
theorem vfadd (f : Fields) : Statement (.vfadd f) := intro rfl (by dsimp only; rfl) fun _ => rfl
theorem vfsub (f : Fields) : Statement (.vfsub f) := intro rfl (by dsimp only; rfl) fun _ => rfl
theorem vfmul (f : Fields) : Statement (.vfmul f) := intro rfl (by dsimp only; rfl) fun _ => rfl
theorem vfdiv (f : Fields) : Statement (.vfdiv f) := intro rfl (by dsimp only; rfl) fun _ => rfl
theorem vfma (f : Fields) : Statement (.vfma f) := intro rfl (by dsimp only; rfl) fun _ => rfl
theorem vfwma (f : Fields) : Statement (.vfwma f) := intro rfl (by dsimp only; rfl) fun _ => rfl
theorem vfmin (f : Fields) : Statement (.vfmin f) := intro rfl (by dsimp only; rfl) fun _ => rfl
theorem vfmax (f : Fields) : Statement (.vfmax f) := intro rfl (by dsimp only; rfl) fun _ => rfl
theorem vfsqrt (f : Fields) : Statement (.vfsqrt f) := intro rfl (by dsimp only; rfl) fun _ => rfl
theorem vfrsq (f : Fields) : Statement (.vfrsq f) := intro rfl (by dsimp only; rfl) fun _ => rfl
theorem vfrcp (f : Fields) : Statement (.vfrcp f) := intro rfl (by dsimp only; rfl) fun _ => rfl
theorem vfexp (f : Fields) : Statement (.vfexp f) := intro rfl (by dsimp only; rfl) fun _ => rfl
theorem vfsgn (f : Fields) : Statement (.vfsgn f) := intro rfl (by dsimp only; rfl) fun _ => rfl
theorem vfclass (f : Fields) : Statement (.vfclass f) := intro rfl (by dsimp only; rfl) fun _ => rfl
theorem vfcvt (f : Fields) : Statement (.vfcvt f) := intro rfl (by dsimp only; rfl) fun _ => rfl
theorem vfscale (f : Fields) : Statement (.vfscale f) := intro rfl (by dsimp only; rfl) fun _ => rfl
theorem vfrnd (f : Fields) : Statement (.vfrnd f) := intro rfl (by dsimp only; rfl) fun _ => rfl
theorem vfnf (f : Fields) : Statement (.vfnf f) := intro rfl (by dsimp only; rfl) fun _ => rfl
theorem vsetl (f : Fields) : Statement (.vsetl f) := intro rfl (by dsimp only; rfl) fun h => by simp_all
theorem vsetlProgress (f : Fields) : Statement (.vsetlProgress f) := intro rfl (by dsimp only; rfl) fun h => by simp_all
theorem vsetdim (f : Fields) : Statement (.vsetdim f) := intro rfl (by dsimp only; rfl) fun _ => rfl
theorem vcmp (f : Fields) : Statement (.vcmp f) := intro rfl (by dsimp only; rfl) fun _ => rfl
theorem vfcmp (f : Fields) : Statement (.vfcmp f) := intro rfl (by dsimp only; rfl) fun _ => rfl
theorem mlogic (f : Fields) : Statement (.mlogic f) := intro rfl (by dsimp only; rfl) fun _ => rfl
theorem mpopc (f : Fields) : Statement (.mpopc f) := intro rfl (by dsimp only; rfl) fun _ => rfl
theorem mffs (f : Fields) : Statement (.mffs f) := intro rfl (by dsimp only; rfl) fun _ => rfl
theorem mset (f : Fields) : Statement (.mset f) := intro rfl (by dsimp only; rfl) fun _ => rfl
theorem mtolist (f : Fields) : Statement (.mtolist f) := intro rfl (by dsimp only; rfl) fun _ => rfl
theorem mtobits (f : Fields) : Statement (.mtobits f) := intro rfl (by dsimp only; rfl) fun _ => rfl
theorem viota (f : Fields) : Statement (.viota f) := intro rfl (by dsimp only; rfl) fun _ => rfl
theorem vid (f : Fields) : Statement (.vid f) := intro rfl (by dsimp only; rfl) fun _ => rfl
theorem vcompress (f : Fields) : Statement (.vcompress f) := intro rfl (by dsimp only; rfl) fun _ => rfl
theorem vexpand (f : Fields) : Statement (.vexpand f) := intro rfl (by dsimp only; rfl) fun _ => rfl
theorem vperm (f : Fields) : Statement (.vperm f) := intro rfl (by dsimp only; rfl) fun _ => rfl
theorem vslide (f : Fields) : Statement (.vslide f) := intro rfl (by dsimp only; rfl) fun _ => rfl
theorem vsplat (f : Fields) : Statement (.vsplat f) := intro rfl (by dsimp only; rfl) fun _ => rfl
theorem vmvsx (f : Fields) : Statement (.vmvsx f) := intro rfl (by dsimp only; rfl) fun h => by simp_all
theorem vmvxs (f : Fields) : Statement (.vmvxs f) := intro rfl (by dsimp only; rfl) fun h => by simp_all
theorem vredsum (f : Fields) : Statement (.vredsum f) := intro rfl (by dsimp only; rfl) fun _ => rfl
theorem vredmax (f : Fields) : Statement (.vredmax f) := intro rfl (by dsimp only; rfl) fun _ => rfl
theorem vredmin (f : Fields) : Statement (.vredmin f) := intro rfl (by dsimp only; rfl) fun _ => rfl
theorem vredlog (f : Fields) : Statement (.vredlog f) := intro rfl (by dsimp only; rfl) fun _ => rfl
theorem vscan (f : Fields) : Statement (.vscan f) := intro rfl (by dsimp only; rfl) fun _ => rfl
theorem vchain (f : Fields) : Statement (.vchain f) := intro rfl (by dsimp only; rfl) fun _ => rfl
theorem vtrans8 (f : Fields) : Statement (.vtrans8 f) := intro rfl (by dsimp only; rfl) fun _ => rfl
theorem vmerge (f : Fields) : Statement (.vmerge f) := intro rfl (by dsimp only; rfl) fun _ => rfl
theorem vmv (f : Fields) : Statement (.vmv f) := intro rfl (by dsimp only; rfl) fun h => by simp_all
theorem vmvWhole (f : Fields) : Statement (.vmvWhole f) := intro rfl (by dsimp only; rfl) fun h => by simp_all
theorem vld (f : Fields) : Statement (.vld f) := intro rfl (by dsimp only; rfl) fun _ => rfl
theorem vst (f : Fields) : Statement (.vst f) := intro rfl (by dsimp only; rfl) fun _ => rfl
theorem vlds (f : Fields) : Statement (.vlds f) := intro rfl (by dsimp only; rfl) fun _ => rfl
theorem vsts (f : Fields) : Statement (.vsts f) := intro rfl (by dsimp only; rfl) fun _ => rfl
theorem vldx (f : Fields) : Statement (.vldx f) := intro rfl (by dsimp only; rfl) fun _ => rfl
theorem vstx (f : Fields) : Statement (.vstx f) := intro rfl (by dsimp only; rfl) fun _ => rfl
theorem vldff (f : Fields) : Statement (.vldff f) := intro rfl (by dsimp only; rfl) fun _ => rfl
theorem vldseg (f : Fields) : Statement (.vldseg f) := intro rfl (by dsimp only; rfl) fun _ => rfl
theorem vstseg (f : Fields) : Statement (.vstseg f) := intro rfl (by dsimp only; rfl) fun _ => rfl
theorem vldmd (f : Fields) : Statement (.vldmd f) := intro rfl (by dsimp only; rfl) fun _ => rfl
theorem vstmd (f : Fields) : Statement (.vstmd f) := intro rfl (by dsimp only; rfl) fun _ => rfl
theorem vldr (f : Fields) : Statement (.vldr f) := intro rfl (by dsimp only; rfl) fun _ => rfl
theorem vstr (f : Fields) : Statement (.vstr f) := intro rfl (by dsimp only; rfl) fun _ => rfl
theorem vldbc (f : Fields) : Statement (.vldbc f) := intro rfl (by dsimp only; rfl) fun _ => rfl
theorem vpref (f : Fields) : Statement (.vpref f) := intro rfl (by dsimp only; rfl) fun _ => rfl
theorem vbind (f : Fields) : Statement (.vbind f) := intro rfl (by dsimp only; rfl) fun _ => rfl
theorem vunbind (f : Fields) : Statement (.vunbind f) := intro rfl (by dsimp only; rfl) fun _ => rfl
theorem sprog (f : Fields) : Statement (.sprog f) := intro rfl (by dsimp only; rfl) fun _ => rfl
theorem sswap (f : Fields) : Statement (.sswap f) := intro rfl (by dsimp only; rfl) fun _ => rfl
theorem spref (f : Fields) : Statement (.spref f) := intro rfl (by dsimp only; rfl) fun _ => rfl
theorem sbind (f : Fields) : Statement (.sbind f) := intro rfl (by dsimp only; rfl) fun _ => rfl
theorem sunbind (f : Fields) : Statement (.sunbind f) := intro rfl (by dsimp only; rfl) fun _ => rfl
theorem srun (f : Fields) : Statement (.srun f) := intro rfl (by dsimp only; rfl) fun _ => rfl
theorem sdrain (f : Fields) : Statement (.sdrain f) := intro rfl (by dsimp only; rfl) fun _ => rfl
theorem sstat (f : Fields) : Statement (.sstat f) := intro rfl (by dsimp only; rfl) fun h => by simp_all
theorem sstatCfg (f : Fields) : Statement (.sstatCfg f) := intro rfl (by dsimp only; rfl) fun h => by simp_all
theorem stwid (f : Fields) : Statement (.stwid f) := intro rfl (by dsimp only; rfl) fun _ => rfl
theorem smod (f : Fields) : Statement (.smod f) := intro rfl (by dsimp only; rfl) fun _ => rfl
theorem sscale (f : Fields) : Statement (.sscale f) := intro rfl (by dsimp only; rfl) fun _ => rfl
theorem spatch (f : Fields) : Statement (.spatch f) := intro rfl (by dsimp only; rfl) fun _ => rfl
theorem sinj (f : Fields) : Statement (.sinj f) := intro rfl (by dsimp only; rfl) fun _ => rfl
theorem sext (f : Fields) : Statement (.sext f) := intro rfl (by dsimp only; rfl) fun _ => rfl
theorem seos (f : Fields) : Statement (.seos f) := intro rfl (by dsimp only; rfl) fun _ => rfl
theorem smark (f : Fields) : Statement (.smark f) := intro rfl (by dsimp only; rfl) fun _ => rfl
theorem sresume (f : Fields) : Statement (.sresume f) := intro rfl (by dsimp only; rfl) fun h => by simp_all
theorem sresumeImg (f : Fields) : Statement (.sresumeImg f) := intro rfl (by dsimp only; rfl) fun h => by simp_all
theorem mma (f : Fields) : Statement (.mma f) := intro rfl (by dsimp only; rfl) fun _ => rfl
theorem mmax (f : Fields) : Statement (.mmax f) := intro rfl (by dsimp only; rfl) fun _ => rfl
theorem mmas (f : Fields) : Statement (.mmas f) := intro rfl (by dsimp only; rfl) fun _ => rfl
theorem mzero (f : Fields) : Statement (.mzero f) := intro rfl (by dsimp only; rfl) fun _ => rfl
theorem mldacc (f : Fields) : Statement (.mldacc f) := intro rfl (by dsimp only; rfl) fun _ => rfl
theorem mstacc (f : Fields) : Statement (.mstacc f) := intro rfl (by dsimp only; rfl) fun _ => rfl
theorem msavea (f : Fields) : Statement (.msavea f) := intro rfl (by dsimp only; rfl) fun _ => rfl
theorem mresta (f : Fields) : Statement (.mresta f) := intro rfl (by dsimp only; rfl) fun _ => rfl
theorem mmv (f : Fields) : Statement (.mmv f) := intro rfl (by dsimp only; rfl) fun h => by simp_all
theorem mmvToacc (f : Fields) : Statement (.mmvToacc f) := intro rfl (by dsimp only; rfl) fun h => by simp_all
theorem mpeek (f : Fields) : Statement (.mpeek f) := intro rfl (by dsimp only; rfl) fun _ => rfl
theorem mcvt (f : Fields) : Statement (.mcvt f) := intro rfl (by dsimp only; rfl) fun _ => rfl
theorem mwload (f : Fields) : Statement (.mwload f) := intro rfl (by dsimp only; rfl) fun _ => rfl
theorem mcfg (f : Fields) : Statement (.mcfg f) := intro rfl (by dsimp only; rfl) fun h => by simp_all
theorem mcfgRd (f : Fields) : Statement (.mcfgRd f) := intro rfl (by dsimp only; rfl) fun h => by simp_all
theorem rvadd (f : Fields) : Statement (.rvadd f) := intro rfl (by dsimp only; rfl) fun _ => rfl
theorem rvsub (f : Fields) : Statement (.rvsub f) := intro rfl (by dsimp only; rfl) fun _ => rfl
theorem rvmul (f : Fields) : Statement (.rvmul f) := intro rfl (by dsimp only; rfl) fun _ => rfl
theorem rvfma (f : Fields) : Statement (.rvfma f) := intro rfl (by dsimp only; rfl) fun _ => rfl
theorem rvnarrow (f : Fields) : Statement (.rvnarrow f) := intro rfl (by dsimp only; rfl) fun _ => rfl
theorem rvshr (f : Fields) : Statement (.rvshr f) := intro rfl (by dsimp only; rfl) fun _ => rfl
theorem rvrelu (f : Fields) : Statement (.rvrelu f) := intro rfl (by dsimp only; rfl) fun _ => rfl
theorem rvscale (f : Fields) : Statement (.rvscale f) := intro rfl (by dsimp only; rfl) fun _ => rfl
theorem rvcvt (f : Fields) : Statement (.rvcvt f) := intro rfl (by dsimp only; rfl) fun _ => rfl
theorem lpush (f : Fields) : Statement (.lpush f) := intro rfl (by dsimp only; rfl) fun _ => rfl
theorem lpop (f : Fields) : Statement (.lpop f) := intro rfl (by dsimp only; rfl) fun _ => rfl
theorem lmark (f : Fields) : Statement (.lmark f) := intro rfl (by dsimp only; rfl) fun _ => rfl
theorem lchk (f : Fields) : Statement (.lchk f) := intro rfl (by dsimp only; rfl) fun _ => rfl
theorem lspill (f : Fields) : Statement (.lspill f) := intro rfl (by dsimp only; rfl) fun _ => rfl
theorem unadd (f : Fields) : Statement (.unadd f) := intro rfl (by dsimp only; rfl) fun _ => rfl
theorem unsub (f : Fields) : Statement (.unsub f) := intro rfl (by dsimp only; rfl) fun _ => rfl
theorem unmul (f : Fields) : Statement (.unmul f) := intro rfl (by dsimp only; rfl) fun _ => rfl
theorem unfma (f : Fields) : Statement (.unfma f) := intro rfl (by dsimp only; rfl) fun _ => rfl
theorem unnarrow (f : Fields) : Statement (.unnarrow f) := intro rfl (by dsimp only; rfl) fun _ => rfl
theorem unshr (f : Fields) : Statement (.unshr f) := intro rfl (by dsimp only; rfl) fun _ => rfl
theorem unrelu (f : Fields) : Statement (.unrelu f) := intro rfl (by dsimp only; rfl) fun _ => rfl
theorem unscale (f : Fields) : Statement (.unscale f) := intro rfl (by dsimp only; rfl) fun _ => rfl
theorem uncvt (f : Fields) : Statement (.uncvt f) := intro rfl (by dsimp only; rfl) fun _ => rfl
theorem kproj (f : Fields) : Statement (.kproj f) := intro rfl (by dsimp only; rfl) fun h => by simp_all
theorem kprojDesc (f : Fields) : Statement (.kprojDesc f) := intro rfl (by dsimp only; rfl) fun h => by simp_all
theorem kstore (f : Fields) : Statement (.kstore f) := intro rfl (by dsimp only; rfl) fun _ => rfl
theorem ksig (f : Fields) : Statement (.ksig f) := intro rfl (by dsimp only; rfl) fun _ => rfl
theorem kquery (f : Fields) : Statement (.kquery f) := intro rfl (by dsimp only; rfl) fun _ => rfl
theorem kcount (f : Fields) : Statement (.kcount f) := intro rfl (by dsimp only; rfl) fun _ => rfl
theorem kreset (f : Fields) : Statement (.kreset f) := intro rfl (by dsimp only; rfl) fun _ => rfl
theorem kmode (f : Fields) : Statement (.kmode f) := intro rfl (by dsimp only; rfl) fun h => by simp_all
theorem kmodeDense (f : Fields) : Statement (.kmodeDense f) := intro rfl (by dsimp only; rfl) fun h => by simp_all
theorem ktrim (f : Fields) : Statement (.ktrim f) := intro rfl (by dsimp only; rfl) fun _ => rfl
theorem book (f : Fields) : Statement (.book f) := intro rfl (by dsimp only; rfl) fun _ => rfl
theorem bookq (f : Fields) : Statement (.bookq f) := intro rfl (by dsimp only; rfl) fun _ => rfl
theorem unbook (f : Fields) : Statement (.unbook f) := intro rfl (by dsimp only; rfl) fun _ => rfl
theorem compact (f : Fields) : Statement (.compact f) := intro rfl (by dsimp only; rfl) fun _ => rfl
theorem launch (f : Fields) : Statement (.launch f) := intro rfl (by dsimp only; rfl) fun _ => rfl
theorem gbar (f : Fields) : Statement (.gbar f) := intro rfl (by dsimp only; rfl) fun _ => rfl
theorem tdone (f : Fields) : Statement (.tdone f) := intro rfl (by dsimp only; rfl) fun _ => rfl
theorem slackrd (f : Fields) : Statement (.slackrd f) := intro rfl (by dsimp only; rfl) fun _ => rfl
theorem calrdSlot (f : Fields) : Statement (.calrdSlot f) := intro rfl (by dsimp only; rfl) fun h => by simp_all
theorem calrdOcc (f : Fields) : Statement (.calrdOcc f) := intro rfl (by dsimp only; rfl) fun h => by simp_all
theorem calrdTask (f : Fields) : Statement (.calrdTask f) := intro rfl (by dsimp only; rfl) fun h => by
  have h2 : 2 ≤ f.modField 43 42 := by simpa using h
  have h0 : f.modField 43 42 ≠ 0 := by omega
  have h1 : f.modField 43 42 ≠ 1 := by omega
  simp [h0, h1]
theorem yieldt (f : Fields) : Statement (.yieldt f) := intro rfl (by dsimp only; rfl) fun _ => rfl
theorem rkcopy (f : Fields) : Statement (.rkcopy f) := intro rfl (by dsimp only; rfl) fun _ => rfl
theorem rkxpose (f : Fields) : Statement (.rkxpose f) := intro rfl (by dsimp only; rfl) fun _ => rfl
theorem rkconv (f : Fields) : Statement (.rkconv f) := intro rfl (by dsimp only; rfl) fun _ => rfl
theorem rkfill (f : Fields) : Statement (.rkfill f) := intro rfl (by dsimp only; rfl) fun _ => rfl
theorem rkgather (f : Fields) : Statement (.rkgather f) := intro rfl (by dsimp only; rfl) fun _ => rfl
theorem rkred (f : Fields) : Statement (.rkred f) := intro rfl (by dsimp only; rfl) fun _ => rfl
theorem twaitany (f : Fields) : Statement (.twaitany f) := intro rfl (by dsimp only; rfl) fun _ => rfl
theorem twaitall (f : Fields) : Statement (.twaitall f) := intro rfl (by dsimp only; rfl) fun _ => rfl
theorem tfirst (f : Fields) : Statement (.tfirst f) := intro rfl (by dsimp only; rfl) fun _ => rfl
theorem tclr (f : Fields) : Statement (.tclr f) := intro rfl (by dsimp only; rfl) fun h => by simp_all
theorem tclrCancel (f : Fields) : Statement (.tclrCancel f) := intro rfl (by dsimp only; rfl) fun h => by simp_all
theorem lda (f : Fields) : Statement (.lda f) := intro rfl (by dsimp only; rfl) fun _ => rfl
theorem strel (f : Fields) : Statement (.strel f) := intro rfl (by dsimp only; rfl) fun _ => rfl
theorem fence (f : Fields) : Statement (.fence f) := intro rfl (by dsimp only; rfl) fun _ => rfl
theorem amo (f : Fields) : Statement (.amo f) := intro rfl (by dsimp only; rfl) fun _ => rfl
theorem cas (f : Fields) : Statement (.cas f) := intro rfl (by dsimp only; rfl) fun _ => rfl
theorem futrd (f : Fields) : Statement (.futrd f) := intro rfl (by dsimp only; rfl) fun _ => rfl
theorem futwr (f : Fields) : Statement (.futwr f) := intro rfl (by dsimp only; rfl) fun _ => rfl
theorem futclr (f : Fields) : Statement (.futclr f) := intro rfl (by dsimp only; rfl) fun _ => rfl
theorem qpush (f : Fields) : Statement (.qpush f) := intro rfl (by dsimp only; rfl) fun _ => rfl
theorem qpop (f : Fields) : Statement (.qpop f) := intro rfl (by dsimp only; rfl) fun _ => rfl
theorem qtry (f : Fields) : Statement (.qtry f) := intro rfl (by dsimp only; rfl) fun h => by simp_all
theorem qtryPush (f : Fields) : Statement (.qtryPush f) := intro rfl (by dsimp only; rfl) fun h => by simp_all
theorem qfence (f : Fields) : Statement (.qfence f) := intro rfl (by dsimp only; rfl) fun _ => rfl
theorem pubhw (f : Fields) : Statement (.pubhw f) := intro rfl (by dsimp only; rfl) fun _ => rfl
theorem readhw (f : Fields) : Statement (.readhw f) := intro rfl (by dsimp only; rfl) fun _ => rfl
theorem mbar (f : Fields) : Statement (.mbar f) := intro rfl (by dsimp only; rfl) fun _ => rfl
theorem gload (f : Fields) : Statement (.gload f) := intro rfl (by dsimp only; rfl) fun _ => rfl
theorem gbind (f : Fields) : Statement (.gbind f) := intro rfl (by dsimp only; rfl) fun h => by simp_all
theorem gbindFree (f : Fields) : Statement (.gbindFree f) := intro rfl (by dsimp only; rfl) fun h => by simp_all
theorem cstart (f : Fields) : Statement (.cstart f) := intro rfl (by dsimp only; rfl) fun _ => rfl
theorem cpoll (f : Fields) : Statement (.cpoll f) := intro rfl (by dsimp only; rfl) fun _ => rfl
theorem cflagrd (f : Fields) : Statement (.cflagrd f) := intro rfl (by dsimp only; rfl) fun _ => rfl
theorem cflagset (f : Fields) : Statement (.cflagset f) := intro rfl (by dsimp only; rfl) fun _ => rfl
theorem cabort (f : Fields) : Statement (.cabort f) := intro rfl (by dsimp only; rfl) fun _ => rfl
theorem xsend (f : Fields) : Statement (.xsend f) := intro rfl (by dsimp only; rfl) fun _ => rfl
theorem xrecv (f : Fields) : Statement (.xrecv f) := intro rfl (by dsimp only; rfl) fun _ => rfl
theorem trap (f : Fields) : Statement (.trap f) := intro rfl (by dsimp only; rfl) fun _ => rfl
theorem eret (f : Fields) : Statement (.eret f) := intro rfl (by dsimp only; rfl) fun _ => rfl
theorem crr (f : Fields) : Statement (.crr f) := intro rfl (by dsimp only; rfl) fun _ => rfl
theorem crw (f : Fields) : Statement (.crw f) := intro rfl (by dsimp only; rfl) fun _ => rfl
theorem waitev (f : Fields) : Statement (.waitev f) := intro rfl (by dsimp only; rfl) fun _ => rfl
theorem sigev (f : Fields) : Statement (.sigev f) := intro rfl (by dsimp only; rfl) fun _ => rfl
theorem hspawn (f : Fields) : Statement (.hspawn f) := intro rfl (by dsimp only; rfl) fun h => by simp_all
theorem hspawnKeep (f : Fields) : Statement (.hspawnKeep f) := intro rfl (by dsimp only; rfl) fun h => by simp_all
theorem hstop (f : Fields) : Statement (.hstop f) := intro rfl (by dsimp only; rfl) fun _ => rfl
theorem vsave (f : Fields) : Statement (.vsave f) := intro rfl (by dsimp only; rfl) fun _ => rfl
theorem vrest (f : Fields) : Statement (.vrest f) := intro rfl (by dsimp only; rfl) fun _ => rfl
theorem tlbinv (f : Fields) : Statement (.tlbinv f) := intro rfl (by dsimp only; rfl) fun _ => rfl
theorem cflush (f : Fields) : Statement (.cflush f) := intro rfl (by dsimp only; rfl) fun _ => rfl
theorem brk (f : Fields) : Statement (.brk f) := intro rfl (by dsimp only; rfl) fun _ => rfl
theorem hintAudit (h : HartId) (r : AuditRecord) : Statement (.hintAudit h r) := noRow rfl
theorem futurePoll (h : HartId) : Statement (.futurePoll h) := noRow rfl
theorem rdupInvalidationAck (h : HartId) (n : Nat) (observer : Option HartId) : Statement (.rdupInvalidationAck h n observer) := noRow rfl
theorem copyStart (c : ClusterId) (ch : Fin 4) : Statement (.copyStart c ch) := noRow rfl
theorem copyComplete (c : ClusterId) (ch : Fin 4) : Statement (.copyComplete c ch) := noRow rfl
theorem dispatchCheck (d : DieId) (task : Nat) : Statement (.dispatchCheck d task) := noRow rfl
theorem readySetEntry (d : DieId) (task : Nat) : Statement (.readySetEntry d task) := noRow rfl
theorem queueAgePromotion (d : DieId) (task : Nat) : Statement (.queueAgePromotion d task) := noRow rfl
theorem calendarPass (d : DieId) : Statement (.calendarPass d) := noRow rfl
theorem rollingOccurrenceReserve (d : DieId) : Statement (.rollingOccurrenceReserve d) := noRow rfl
theorem xdiePrepare (home : DieId) (task : Nat) (remote : DieId) : Statement (.xdiePrepare home task remote) := noRow rfl
theorem xdieReply (home : DieId) (task : Nat) (remote : DieId) : Statement (.xdieReply home task remote) := noRow rfl
theorem xdieCommit (home : DieId) (task : Nat) (remote : DieId) : Statement (.xdieCommit home task remote) := noRow rfl
theorem xdieAbort (home : DieId) (task : Nat) (remote : DieId) : Statement (.xdieAbort home task remote) := noRow rfl
theorem gangStart (d : DieId) (task : Nat) : Statement (.gangStart d task) := noRow rfl
theorem bookedOccurrenceConflict (c : ClusterId) (group : Fin 16) : Statement (.bookedOccurrenceConflict c group) := noRow rfl
theorem overrun (d : DieId) (task : Nat) : Statement (.overrun d task) := noRow rfl
theorem compaction (d : DieId) : Statement (.compaction d) := noRow rfl
theorem prefetchLoadComplete (c : ClusterId) : Statement (.prefetchLoadComplete c) := noRow rfl
theorem nodeIn (c : ClusterId) (node : Nat) : Statement (.nodeIn c node) := noRow rfl
theorem nodeOut (c : ClusterId) (node : Nat) : Statement (.nodeOut c node) := noRow rfl
theorem nodeStage (c : ClusterId) (node : Nat) : Statement (.nodeStage c node) := noRow rfl
theorem nodePerm (c : ClusterId) (node : Nat) : Statement (.nodePerm c node) := noRow rfl
theorem nodeXperm (c : ClusterId) (node : Nat) : Statement (.nodeXperm c node) := noRow rfl
theorem nodePoint (c : ClusterId) (node : Nat) : Statement (.nodePoint c node) := noRow rfl
theorem nodeSteer (c : ClusterId) (node : Nat) : Statement (.nodeSteer c node) := noRow rfl
theorem nodeMerge (c : ClusterId) (node : Nat) : Statement (.nodeMerge c node) := noRow rfl
theorem nodeCarry (c : ClusterId) (node : Nat) : Statement (.nodeCarry c node) := noRow rfl
theorem nodeInv (c : ClusterId) (node : Nat) : Statement (.nodeInv c node) := noRow rfl
theorem nodeXchg (c : ClusterId) (node : Nat) : Statement (.nodeXchg c node) := noRow rfl
theorem endOfStream (c : ClusterId) (node : Nat) : Statement (.endOfStream c node) := noRow rfl
theorem preemptMarker (c : ClusterId) (node : Nat) : Statement (.preemptMarker c node) := noRow rfl
theorem streamGeneratorHold (c : ClusterId) (handle : Fin 32) : Statement (.streamGeneratorHold c handle) := noRow rfl
theorem streamFault (h : HartId) : Statement (.streamFault h) := noRow rfl
theorem programEnd (c : ClusterId) : Statement (.programEnd c) := noRow rfl
theorem drainPoint (c : ClusterId) : Statement (.drainPoint c) := noRow rfl
theorem contextSequencerSwap (c : ClusterId) (slot : Fin 8) : Statement (.contextSequencerSwap c slot) := noRow rfl
theorem collectiveStep (c : ClusterId) (slot : Fin 8) : Statement (.collectiveStep c slot) := noRow rfl
theorem collectiveComplete (c : ClusterId) (slot : Fin 8) : Statement (.collectiveComplete c slot) := noRow rfl
theorem collectiveGraceExpiry (c : ClusterId) (slot : Fin 8) : Statement (.collectiveGraceExpiry c slot) := noRow rfl
theorem messageMatch (src dst : ClusterId) (mtag : BitVec 16) : Statement (.messageMatch src dst mtag) := noRow rfl
theorem messageTransferComplete (src dst : ClusterId) (mtag : BitVec 16) : Statement (.messageTransferComplete src dst mtag) := noRow rfl
theorem graphNodeLaunch (d : DieId) (graph : Fin 16) (node : Nat) : Statement (.graphNodeLaunch d graph node) := noRow rfl
theorem graphPendingRetry (d : DieId) (graph : Fin 16) : Statement (.graphPendingRetry d graph) := noRow rfl
theorem graphComplete (d : DieId) (graph : Fin 16) : Statement (.graphComplete d graph) := noRow rfl
theorem flitReceive (f : Flit) : Statement (.flitReceive f) := noRow rfl
theorem slotSyncSend (d : DieId) : Statement (.slotSyncSend d) := noRow rfl
theorem slotSyncReceive (d : DieId) (count : Word) : Statement (.slotSyncReceive d count) := noRow rfl
theorem hostHdmAccess (port : Fin 2) (pa : Nat) (data : Option (List Byte)) : Statement (.hostHdmAccess port pa data) := noRow rfl
theorem gsaddrWrite (d : DieId) (va : Word) : Statement (.gsaddrWrite d va) := noRow rfl
theorem hsemAcquire (id : BitVec 8) : Statement (.hsemAcquire id) := noRow rfl
theorem hsemRelease (id : BitVec 8) : Statement (.hsemRelease id) := noRow rfl
theorem hsemRenew (id : BitVec 8) : Statement (.hsemRenew id) := noRow rfl
theorem hsemLeaseExpiry : Statement (.hsemLeaseExpiry) := noRow rfl
theorem preqWrite (h : HartId) (id : BitVec 8) : Statement (.preqWrite h id) := noRow rfl
theorem evsetWrite (h : HartId) (v : Word) : Statement (.evsetWrite h v) := noRow rfl
theorem hisetWrite (h : HartId) (v : Word) : Statement (.hisetWrite h v) := noRow rfl
theorem preemptGrant (h : HartId) : Statement (.preemptGrant h) := noRow rfl
theorem hostInterrupt (h : HartId) : Statement (.hostInterrupt h) := noRow rfl
theorem event (h : HartId) : Statement (.event h) := noRow rfl
theorem registerWrite (offset : Nat) (v : Word) : Statement (.registerWrite offset v) := noRow rfl
theorem powerOnReset : Statement (.powerOnReset) := noRow rfl
theorem devctlRun : Statement (.devctlRun) := noRow rfl
theorem devctlWarm : Statement (.devctlWarm) := noRow rfl
theorem stretchLevelChange (power thermal : BitVec 4) : Statement (.stretchLevelChange power thermal) := noRow rfl
theorem thermalTrip : Statement (.thermalTrip) := noRow rfl
theorem copyLineWrite (c : ClusterId) (ch : Fin 4) : Statement (.copyLineWrite c ch) := noRow rfl

end Sys2Proof.Laws.Named
end

