-- ==== Sys2Proof/Laws/SMap.lean ====
section
/-!
SUPPORT. Sparse maps: a read after a write, and that every write keeps the canonical form.
-/

namespace Sys2Proof.Machine

variable {α : Type}

/-! ## Reads after writes -/

theorem SMap.get_insert (d : α) (m : SMap α) (k j : Nat) (v : α) :
    SMap.get d (SMap.insert m k v) j = if k = j then v else SMap.get d m j := by
  induction m with
  | nil => simp [SMap.insert, SMap.get]
  | cons e r ih =>
    obtain ⟨a, w⟩ := e
    simp only [SMap.insert]
    split
    · simp only [SMap.get, ih]
      split <;> split <;> simp_all
    · split <;> simp only [SMap.get] <;> split <;> simp_all

/-- Every key of the map is above `b`. -/
def SMap.above (b : Nat) (m : SMap α) : Prop := ∀ e ∈ m, b < e.1

variable [DecidableEq α]

theorem SMap.wf_cons (d : α) (a : Nat) (v : α) (m : SMap α) :
    SMap.wf d ((a, v) :: m) = true ↔ v ≠ d ∧ SMap.above a m ∧ SMap.wf d m = true := by
  induction m generalizing a v with
  | nil => simp [SMap.wf, SMap.above]
  | cons e r ih =>
    obtain ⟨b, w⟩ := e
    simp only [SMap.wf, Bool.and_eq_true, decide_eq_true_eq, bne_iff_ne, ne_eq]
    constructor
    · rintro ⟨⟨hab, hv⟩, h⟩
      refine ⟨hv, ?_, h⟩
      intro e he
      rcases List.mem_cons.mp he with rfl | he
      · exact hab
      · exact Nat.lt_trans hab (((ih b w).mp h).2.1 e he)
    · rintro ⟨hv, ha, h⟩
      exact ⟨⟨ha _ List.mem_cons_self, hv⟩, h⟩

theorem SMap.wf_tail {d : α} {a : Nat} {v : α} {m : SMap α} (h : SMap.wf d ((a, v) :: m) = true) :
    SMap.wf d m = true := ((SMap.wf_cons d a v m).mp h).2.2

omit [DecidableEq α] in
/-- A key below every entry reads as the default. -/
theorem SMap.get_above {d : α} {m : SMap α} {k : Nat} (h : SMap.above k m) : SMap.get d m k = d := by
  induction m with
  | nil => rfl
  | cons e r ih =>
    obtain ⟨a, w⟩ := e
    have ha : k < a := h _ List.mem_cons_self
    simp only [SMap.get]
    rw [if_neg (by omega)]
    exact ih fun e he => h e (List.mem_cons_of_mem _ he)

theorem SMap.get_erase {d : α} {m : SMap α} (h : SMap.wf d m = true) (k j : Nat) :
    SMap.get d (SMap.erase m k) j = if k = j then d else SMap.get d m j := by
  induction m with
  | nil => simp [SMap.erase, SMap.get]
  | cons e r ih =>
    obtain ⟨a, w⟩ := e
    have hc := (SMap.wf_cons d a w r).mp h
    simp only [SMap.erase]
    split
    · rename_i hak
      subst hak
      split
      · rename_i haj
        subst haj
        exact SMap.get_above hc.2.1
      · rename_i haj
        simp [SMap.get, haj]
    · rename_i hak
      simp only [SMap.get, ih hc.2.2]
      split <;> split <;> simp_all

/-- A read after a write of one key (the memory law of every byte). -/
theorem SMap.get_set {d : α} {m : SMap α} (h : SMap.wf d m = true) (k j : Nat) (v : α) :
    SMap.get d (SMap.set d m k v) j = if k = j then v else SMap.get d m j := by
  unfold SMap.set
  split
  · rename_i hv
    rw [SMap.get_erase h, hv]
  · exact SMap.get_insert d m k j v

/-! ## The canonical form is kept -/

omit [DecidableEq α] in
theorem SMap.above_insert {b k : Nat} {m : SMap α} (v : α) (hk : b < k) (h : SMap.above b m) :
    SMap.above b (SMap.insert m k v) := by
  induction m with
  | nil => simpa [SMap.insert, SMap.above] using hk
  | cons e r ih =>
    obtain ⟨a, w⟩ := e
    have ha : b < a := h _ List.mem_cons_self
    have hr : SMap.above b r := fun e he => h e (List.mem_cons_of_mem _ he)
    intro e he
    simp only [SMap.insert] at he
    split at he
    · rcases List.mem_cons.mp he with rfl | he
      · exact ha
      · exact ih hr e he
    · split at he
      · rcases List.mem_cons.mp he with rfl | he
        · exact hk
        · exact hr e he
      · rcases List.mem_cons.mp he with rfl | he
        · exact hk
        · exact h e he

omit [DecidableEq α] in
theorem SMap.above_erase {b k : Nat} {m : SMap α} (h : SMap.above b m) : SMap.above b (SMap.erase m k) := by
  induction m with
  | nil => exact h
  | cons e r ih =>
    obtain ⟨a, w⟩ := e
    have hr : SMap.above b r := fun e he => h e (List.mem_cons_of_mem _ he)
    simp only [SMap.erase]
    split
    · exact hr
    · intro e he
      rcases List.mem_cons.mp he with rfl | he
      · exact h _ List.mem_cons_self
      · exact ih hr e he

theorem SMap.wf_insert {d : α} {m : SMap α} (h : SMap.wf d m = true) (k : Nat) {v : α} (hv : v ≠ d) :
    SMap.wf d (SMap.insert m k v) = true := by
  induction m with
  | nil => simp [SMap.insert, SMap.wf, hv]
  | cons e r ih =>
    obtain ⟨a, w⟩ := e
    have hc := (SMap.wf_cons d a w r).mp h
    simp only [SMap.insert]
    split
    · rename_i hak
      exact (SMap.wf_cons _ _ _ _).mpr ⟨hc.1, SMap.above_insert v hak hc.2.1, ih hc.2.2⟩
    · split
      · rename_i hak
        subst hak
        exact (SMap.wf_cons _ _ _ _).mpr ⟨hv, hc.2.1, hc.2.2⟩
      · refine (SMap.wf_cons _ _ _ _).mpr ⟨hv, ?_, h⟩
        intro e he
        rcases List.mem_cons.mp he with rfl | he
        · change k < a
          omega
        · have := hc.2.1 e he
          omega

theorem SMap.wf_erase {d : α} {m : SMap α} (h : SMap.wf d m = true) (k : Nat) : SMap.wf d (SMap.erase m k) = true := by
  induction m with
  | nil => exact h
  | cons e r ih =>
    obtain ⟨a, w⟩ := e
    have hc := (SMap.wf_cons d a w r).mp h
    simp only [SMap.erase]
    split
    · exact hc.2.2
    · exact (SMap.wf_cons _ _ _ _).mpr ⟨hc.1, SMap.above_erase hc.2.1, ih hc.2.2⟩

theorem SMap.wf_set {d : α} {m : SMap α} (h : SMap.wf d m = true) (k : Nat) (v : α) : SMap.wf d (SMap.set d m k v) = true := by
  unfold SMap.set
  split
  · exact SMap.wf_erase h k
  · rename_i hv
    exact SMap.wf_insert h k hv

theorem SMap.wf_setMany {d : α} {m : SMap α} (h : SMap.wf d m = true) (k : Nat) (l : List α) :
    SMap.wf d (SMap.setMany d m k l) = true := by
  induction l generalizing m k with
  | nil => exact h
  | cons v vs ih => exact ih (SMap.wf_set h k v) (k + 1)

theorem SMap.wf_filter {d : α} {m : SMap α} (h : SMap.wf d m = true) (p : Nat × α → Bool) :
    SMap.wf d (m.filter p) = true := by
  induction m with
  | nil => exact h
  | cons e r ih =>
    obtain ⟨a, w⟩ := e
    have hc := (SMap.wf_cons d a w r).mp h
    simp only [List.filter_cons]
    split
    · refine (SMap.wf_cons _ _ _ _).mpr ⟨hc.1, ?_, ih hc.2.2⟩
      intro e he
      exact hc.2.1 e (List.mem_filter.mp he).1
    · exact ih hc.2.2

/-- A read after a write of consecutive keys. -/
theorem SMap.get_setMany {d : α} {m : SMap α} (h : SMap.wf d m = true) (k : Nat) (l : List α) (j : Nat) :
    SMap.get d (SMap.setMany d m k l) j =
      if k ≤ j ∧ j < k + l.length then l.getD (j - k) d else SMap.get d m j := by
  induction l generalizing m k with
  | nil =>
    simp only [SMap.setMany, List.length_nil, Nat.add_zero]
    rw [if_neg (by omega)]
  | cons v vs ih =>
    simp only [SMap.setMany, List.length_cons]
    rw [ih (SMap.wf_set h k v) (k + 1), SMap.get_set h]
    by_cases h1 : k = j
    · subst h1
      rw [if_neg (by omega), if_pos rfl, if_pos (by omega)]
      simp
    · by_cases h2 : k + 1 ≤ j ∧ j < k + 1 + vs.length
      · rw [if_pos h2, if_pos (by omega)]
        obtain ⟨n, hn⟩ : ∃ n, j - k = n + 1 := ⟨j - k - 1, by omega⟩
        rw [hn, show j - (k + 1) = n from by omega]
        simp
      · rw [if_neg h2, if_neg h1, if_neg (by omega)]

/-- Two canonical maps that read alike everywhere are equal: equal memories are equal data. -/
theorem SMap.ext_get {d : α} {m n : SMap α} (hm : SMap.wf d m = true) (hn : SMap.wf d n = true)
    (h : ∀ k, SMap.get d m k = SMap.get d n k) : m = n := by
  induction m generalizing n with
  | nil =>
    cases n with
    | nil => rfl
    | cons e r =>
      obtain ⟨a, w⟩ := e
      have := h a
      simp only [SMap.get, if_true] at this
      exact absurd this.symm ((SMap.wf_cons d a w r).mp hn).1
  | cons e r ih =>
    obtain ⟨a, w⟩ := e
    have hc := (SMap.wf_cons d a w r).mp hm
    cases n with
    | nil =>
      have := h a
      simp only [SMap.get, if_true] at this
      exact absurd this hc.1
    | cons f t =>
      obtain ⟨b, x⟩ := f
      have hd := (SMap.wf_cons d b x t).mp hn
      have hab : a = b := by
        rcases Nat.lt_trichotomy a b with hl | he | hl
        · have e := h a
          have ht : SMap.above a t := fun e he => Nat.lt_trans hl (hd.2.1 e he)
          simp only [SMap.get, if_true] at e
          rw [if_neg (by omega), SMap.get_above ht] at e
          exact absurd e hc.1
        · exact he
        · have e := h b
          have hr : SMap.above b r := fun e he => Nat.lt_trans hl (hc.2.1 e he)
          simp only [SMap.get, if_true] at e
          rw [if_neg (by omega), SMap.get_above hr] at e
          exact absurd e.symm hd.1
      subst hab
      have hw : w = x := by
        have := h a
        simpa [SMap.get] using this
      subst hw
      have : r = t := ih hc.2.2 hd.2.2 fun k => by
        have e := h k
        simp only [SMap.get] at e
        by_cases hk : a = k
        · subst hk
          rw [SMap.get_above hc.2.1, SMap.get_above hd.2.1]
        · simpa [hk] using e
      rw [this]

end Sys2Proof.Machine
end

