-- ==== Sys2Proof/Laws/VecElem.lean ====
section
/-!
SUPPORT. Elements of vector groups: reads after writes, and the tail.
-/

namespace Sys2Proof.Machine

/-- A hart that differs from `h` at most in its vector registers and what their writes record. -/
def Hart.SameExceptV (h x : Hart) : Prop :=
  x = { h with v := x.v, latch := x.latch, vc := { h.vc with vdirty := x.vc.vdirty, vhigh := x.vc.vhigh } }

theorem Hart.SameExceptV.refl (h : Hart) : h.SameExceptV h := rfl

theorem Hart.SameExceptV.trans {h x y : Hart} (a : h.SameExceptV x) (b : x.SameExceptV y) : h.SameExceptV y := by
  unfold Hart.SameExceptV at *
  rw [b, a]

theorem Hart.putV_same (h : Hart) (r : Nat) (v : VReg) (top : Nat) : h.SameExceptV (h.putV r v top) := rfl

theorem Hart.setE_same (h : Hart) (n w p v : Nat) : h.SameExceptV (h.setE n w p v) := rfl

theorem Hart.putV_v (h : Hart) (r : Nat) (v : VReg) (top : Nat) : (h.putV r v top).v = h.v.set (Fin.ofNat 32 r) v := rfl

theorem ofNat32_val {a : Nat} (h : a < 32) : (Fin.ofNat 32 a).val = a := Nat.mod_eq_of_lt h

theorem ofNat32_ne {a b : Nat} (ha : a < 32) (hb : b < 32) (h : a ≠ b) : (Fin.ofNat 32 a).val ≠ (Fin.ofNat 32 b).val := by
  rw [ofNat32_val ha, ofNat32_val hb]
  exact h

/-- The register and the bit at which an element starts. -/
theorem elem_in_reg {w p : Nat} (hw : w ∣ 16384) : p * w % 16384 + w ≤ 16384 := by
  obtain ⟨m, hm⟩ := hw
  have e : p * w % 16384 = w * (p % m) := by
    rw [hm, Nat.mul_comm p w, Nat.mul_mod_mul_left]
  have hm0 : 0 < m := by
    rcases Nat.eq_zero_or_pos m with h | h
    · subst h
      simp at hm
    · exact h
  have : p % m + 1 ≤ m := Nat.mod_lt _ hm0
  calc p * w % 16384 + w = w * (p % m + 1) := by rw [e, Nat.mul_add, Nat.mul_one]
    _ ≤ w * m := Nat.mul_le_mul_left _ this
    _ = 16384 := hm.symm

theorem elem_disjoint {w p q : Nat} (hpq : p ≠ q) (hr : p * w / 16384 = q * w / 16384) :
    p * w % 16384 + w ≤ q * w % 16384 ∨ q * w % 16384 + w ≤ p * w % 16384 := by
  have hp := Nat.div_add_mod (p * w) 16384
  have hq := Nat.div_add_mod (q * w) 16384
  rcases Nat.lt_or_gt_of_ne hpq with h | h
  · left
    have : (p + 1) * w ≤ q * w := Nat.mul_le_mul_right _ h
    rw [Nat.add_mul, Nat.one_mul] at this
    omega
  · right
    have : (q + 1) * w ≤ p * w := Nat.mul_le_mul_right _ h
    rw [Nat.add_mul, Nat.one_mul] at this
    omega

theorem Hart.getE_setE_same (h : Hart) {n w p : Nat} (v : Nat) (hw : w ∣ 16384) :
    (h.setE n w p v).getE n w p = v % 2 ^ w := by
  unfold Hart.setE Hart.getE
  simp only [Hart.putV_v, Fin.getElem_fin, Vector.getElem_set_self]
  exact getBits_setBits_same _ _ _ _ (elem_in_reg hw)

theorem Hart.getE_setE_ne (h : Hart) {n w p q : Nat} (v : Nat) (hw : w ∣ 16384) (hpq : p ≠ q)
    (hp : n + p * w / 16384 < 32) (hq : n + q * w / 16384 < 32) :
    (h.setE n w p v).getE n w q = h.getE n w q := by
  unfold Hart.setE Hart.getE
  simp only [Hart.putV_v, Fin.getElem_fin]
  by_cases hr : p * w / 16384 = q * w / 16384
  · simp only [hr, Vector.getElem_set_self]
    exact getBits_setBits_ne _ _ _ _ _ _ (elem_in_reg hw) (elem_disjoint hpq hr)
  · rw [Vector.getElem_set_ne _ _ (ofNat32_ne hp hq (by omega))]

theorem Hart.v_setE_ne (h : Hart) {n w p : Nat} (v : Nat) (r : Fin 32) (hp : n + p * w / 16384 < 32)
    (hr : n + p * w / 16384 ≠ r.val) : (h.setE n w p v).v[r] = h.v[r] := by
  unfold Hart.setE
  simp only [Hart.putV_v, Fin.getElem_fin]
  rw [Vector.getElem_set_ne]
  rw [ofNat32_val hp]
  exact hr

/-! ## Positions and groups -/

theorem Hart.pos_inj (h : Hart) (hc : h.cols ≤ h.colcap) {j k : Nat} (h0 : 0 < h.cols) (e : h.pos j = h.pos k) : j = k := by
  unfold Hart.pos at e
  have hj : j % h.cols < h.colcap := Nat.lt_of_lt_of_le (Nat.mod_lt _ h0) hc
  have hk : k % h.cols < h.colcap := Nat.lt_of_lt_of_le (Nat.mod_lt _ h0) hc
  have hm : j % h.cols = k % h.cols := by
    have e' := congrArg (· % h.colcap) e
    simp only [Nat.mul_add_mod_self_right, Nat.mod_eq_of_lt hj, Nat.mod_eq_of_lt hk] at e'
    exact e'
  have hd : j / h.cols = k / h.cols := by
    have hp : 0 < h.colcap := Nat.lt_of_le_of_lt (Nat.zero_le _) hj
    rw [hm] at e
    exact Nat.eq_of_mul_eq_mul_right hp (Nat.add_right_cancel e)
  rw [← Nat.div_add_mod j h.cols, ← Nat.div_add_mod k h.cols, hm, hd]

theorem Hart.cols_pos {h : Hart} {k : Nat} (hk : k < h.vl) : 0 < h.cols := by
  rcases Nat.eq_zero_or_pos h.cols with e | e
  · unfold Hart.cols at e
    simp [Hart.vl, e] at hk
  · exact e

/-- A position of a group lies in one of its registers. -/
theorem Opnd.position_in_group {h : Hart} {o : Opnd} {p : Nat} (hp : p < o.size h * 16384 / o.w) :
    p * o.w / 16384 < o.size h := by
  have h0 : 0 < o.w := by
    rcases Nat.eq_zero_or_pos o.w with e | e
    · rw [e, Nat.div_zero] at hp
      omega
    · exact e
  have h1 : (p + 1) * o.w ≤ o.size h * 16384 :=
    Nat.le_trans (Nat.mul_le_mul_right _ hp) (Nat.div_mul_le_self _ _)
  rw [Nat.add_mul, Nat.one_mul] at h1
  exact Nat.div_lt_of_lt_mul (by rw [Nat.mul_comm 16384]; omega)

/-- A body position lies in its group. -/
theorem Hart.pos_in_group {h : Hart} {o : Opnd} (ho : o.ok h = true) {k : Nat}
    (hk : k < h.vl) : h.pos k * o.w / 16384 < o.size h := by
  have hcols := Hart.cols_pos hk
  simp only [Opnd.ok, Hart.bodyFits, Bool.and_eq_true, Bool.or_eq_true, decide_eq_true_eq, beq_iff_eq] at ho
  have hfit : (h.rows - 1) * h.colcap + h.cols ≤ o.size h * 16384 / o.w := by
    rcases ho.2 with e | e
    · omega
    · exact e
  have hrow : k / h.cols ≤ h.rows - 1 := by
    have hv : h.vl = h.rows * h.cols := rfl
    have : k / h.cols < h.rows := Nat.div_lt_of_lt_mul (by rw [Nat.mul_comm]; omega)
    omega
  have hpos : h.pos k < o.size h * 16384 / o.w := by
    unfold Hart.pos
    have h1 : k / h.cols * h.colcap ≤ (h.rows - 1) * h.colcap := Nat.mul_le_mul_right _ hrow
    have h2 := Nat.mod_lt k hcols
    omega
  exact Opnd.position_in_group hpos

theorem Hart.g_cases (h : Hart) : h.g = 1 ∨ h.g = 2 ∨ h.g = 4 ∨ h.g = 8 := by
  unfold Hart.g vtG
  have : bits (h.vc.vtype.toNat) 7 6 < 4 := by
    unfold bits
    exact Nat.mod_lt _ (by decide)
  generalize bits (h.vc.vtype.toNat) 7 6 = b at this
  have : b = 0 ∨ b = 1 ∨ b = 2 ∨ b = 3 := by omega
  rcases this with rfl | rfl | rfl | rfl <;> simp

/-- An aligned group ends within the register file. -/
theorem Opnd.group_in_file {h : Hart} {o : Opnd} (ho : o.ok h = true) (hr : o.reg < 32) : o.reg + o.size h ≤ 32 := by
  simp only [Opnd.ok, Bool.and_eq_true, decide_eq_true_eq, beq_iff_eq] at ho
  obtain ⟨⟨h8, hm⟩, _⟩ := ho
  have hs : o.size h = 1 ∨ o.size h = 2 ∨ o.size h = 4 ∨ o.size h = 8 := by
    unfold Opnd.size at *
    rcases Hart.g_cases h with e | e | e | e <;> split <;> simp_all
  rcases hs with e | e | e | e <;> rw [e] at hm ⊢ <;> omega

end Sys2Proof.Machine
end

