-- ==== Sys2Proof/Laws/VecGroups.lean ====
section
/-!
SUPPORT. The loop over element groups, once: whatever each ordinal keeps, the whole loop keeps.
-/

namespace Sys2Proof.Machine

/-- The flags of ordinals `a` to `a + n - 1`, ORed. -/
def orRun (fl : Nat → FFlags) (a n : Nat) : FFlags := (List.range n).foldl (fun acc i => acc ||| fl (a + i)) 0

theorem orRun_succ (fl : Nat → FFlags) (a n : Nat) : orRun fl a (n + 1) = orRun fl a n ||| fl (a + n) := by
  simp [orRun, List.range_succ]

theorem orRun_append (fl : Nat → FFlags) (a n m : Nat) : orRun fl a (n + m) = orRun fl a n ||| orRun fl (a + n) m := by
  induction m with
  | zero => simp [orRun]
  | succ m ih => rw [← Nat.add_assoc, orRun_succ, ih, orRun_succ, ← BitVec.or_assoc, Nat.add_assoc]

/-- An invariant of the loop: `P kf k x` says what hart `x` is with ordinals below `k` performed and flags recorded below
`kf`; `fl` gives the flags of an ordinal. -/
structure LoopInv (vl : Nat) (body : Hart → Hart → Nat → Hart × FFlags) (fl : Nat → FFlags) (P : Nat → Nat → Hart → Prop) :
    Prop where
  step : ∀ hG x kf k, P kf kf hG → P kf k x → kf ≤ k → k < vl → P kf (k + 1) (body hG x k).1 ∧ (body hG x k).2 = fl k
  flush : ∀ x kf n, P kf (kf + n) x → kf + n ≤ vl → P (kf + n) (kf + n) (x.addFlags (orRun fl kf n))
  traps : ∀ x kf k, P kf k x → x.fp.ctl.enables = 0

variable {vl : Nat} {body : Hart → Hart → Nat → Hart × FFlags} {fl : Nat → FFlags} {P : Nat → Nat → Hart → Prop}

theorem LoopInv.group (I : LoopInv vl body fl P) {hG : Hart} {kf : Nat} (h : P kf kf hG) (n : Nat) (hn : kf + n ≤ vl) :
    let r := runGroup (body hG) hG ((List.range n).map (kf + ·))
    P kf (kf + n) r.1 ∧ r.2.1 = orRun fl kf n ∧ r.2.2 = none := by
  induction n with
  | zero => exact ⟨h, rfl, rfl⟩
  | succ n ih =>
    have ih := ih (by omega)
    simp only [runGroup, List.range_succ, List.map_append, List.foldl_append, List.map_cons, List.map_nil,
      List.foldl_cons, List.foldl_nil] at ih ⊢
    have p := I.step hG _ kf (kf + n) h ih.1 (by omega) (by omega)
    have ht : ∀ x, hG.trapsOn x = false := by
      intro x
      unfold Hart.trapsOn
      rw [I.traps hG kf kf h]
      simp
    rw [p.2, ih.2.1, ih.2.2, orRun_succ, ht]
    exact ⟨p.1, rfl, rfl⟩

/-- Every ordinal from `k` up is performed. -/
theorem LoopInv.groups (I : LoopInv vl body fl P) {epg : Nat} (hepg : 0 < epg) (n : Nat) {k : Nat} {x : Hart}
    (h : P k k x) (hn : vl < k + n) :
    ∃ y, runGroups epg vl body n none k x = .all y ∧ P (max k vl) (max k vl) y := by
  induction n generalizing k x with
  | zero =>
    refine ⟨x, rfl, ?_⟩
    rw [Nat.max_eq_left (by omega)]
    exact h
  | succ n ih =>
    unfold runGroups
    by_cases hk : vl ≤ k
    · rw [if_pos hk, Nat.max_eq_left hk]
      exact ⟨x, rfl, h⟩
    · rw [if_neg hk, if_neg (by simp)]
      have hlt : k < (k / epg + 1) * epg := by
        rw [Nat.add_mul, Nat.one_mul, Nat.mul_comm]
        have := Nat.div_add_mod k epg
        have := Nat.mod_lt k hepg
        omega
      generalize hE : min vl ((k / epg + 1) * epg) = e
      have hke : k < e := by omega
      have r := I.group h (e - k) (by omega)
      simp only [r.2.2, r.2.1, Option.map_none]
      have l := I.flush _ k (e - k) r.1 (by omega)
      rw [show k + (e - k) = e from by omega] at l
      obtain ⟨y, hy, ly⟩ := ih l (by omega)
      refine ⟨y, hy, ?_⟩
      rw [Nat.max_eq_right (by omega)] at ly
      rw [Nat.max_eq_right (by omega)]
      exact ly

end Sys2Proof.Machine
end

