-- ==== Sys2Proof/Laws/VecLoop.lean ====
section
/-!
SUPPORT. The loop over element groups: without a stop and with no trap enabled it performs every ordinal, and an
element-wise body leaves each body element at its value or its policy and everything else alone.
-/

namespace Sys2Proof.Machine

theorem orFlags_eq (h : Hart) (f : Fields) (fl : Nat → FFlags) (a n : Nat) :
    orFlags h f fl a n = orRun (fun k => if h.enabled f k then fl k else 0) a n := rfl

/-- The hart part way through an element-wise loop: ordinals below `k` are performed, flags up to `kf` recorded. -/
structure LoopAt (h0 : Hart) (f : Fields) (o : Opnd) (g : Nat → Nat × FFlags) (kf k : Nat) (x : Hart) : Prop where
  rest : x = { h0 with
    v := x.v, latch := x.latch, vc := { h0.vc with vdirty := x.vc.vdirty, vhigh := x.vc.vhigh },
    fp := { h0.fp with flags := h0.fp.flags ||| orFlags h0 f (fun i => (g i).2) h0.vstart (kf - h0.vstart) } }
  elem : ∀ j, j < h0.vl → x.getE o.reg o.w (h0.pos j) =
    if h0.vstart ≤ j ∧ j < k then h0.elemOut f o.w j (g j).1 (h0.getE o.reg o.w (h0.pos j))
    else h0.getE o.reg o.w (h0.pos j)
  tail : TailLeft h0 x o false
  other : ∀ r : Fin 32, ¬ (o.reg ≤ r.val ∧ r.val < o.reg + o.size h0) → x.v[r] = h0.v[r]

/-- What the loop needs of its destination: aligned, of a width that divides a register, its positions distinct. -/
structure DstOk (h : Hart) (o : Opnd) : Prop where
  ok : o.ok h = true
  file : o.reg + o.size h ≤ 32
  width : o.w ∣ 16384
  cols : h.cols ≤ h.colcap

theorem DstOk.outside {h : Hart} {o : Opnd} (d : DstOk h o) {p : Nat} (hp : h.OutsideBody o p) :
    o.reg + p * o.w / 16384 < 32 := by
  have := Opnd.position_in_group hp.1
  have := d.file
  omega

theorem DstOk.lt {h : Hart} {o : Opnd} (d : DstOk h o) {k : Nat} (hk : k < h.vl) : o.reg + h.pos k * o.w / 16384 < 32 := by
  have := Hart.pos_in_group d.ok hk
  have := d.file
  omega

variable {h0 : Hart} {f : Fields} {o : Opnd} {g : Nat → Nat × FFlags}

theorem LoopAt.enabled {kf k : Nat} {x : Hart} (l : LoopAt h0 f o g kf k x) (j : Nat) : x.enabled f j = h0.enabled f j := by
  unfold Hart.enabled Hart.predMask
  rw [l.rest]

theorem LoopAt.mp {kf k : Nat} {x : Hart} (l : LoopAt h0 f o g kf k x) : x.mp = h0.mp := by
  unfold Hart.mp
  rw [l.rest]

theorem LoopAt.pos {kf k : Nat} {x : Hart} (l : LoopAt h0 f o g kf k x) (j : Nat) : x.pos j = h0.pos j := by
  unfold Hart.pos Hart.cols Hart.colcap
  rw [l.rest]

/-- One ordinal written. -/
theorem LoopAt.write {kf k : Nat} {x : Hart} (d : DstOk h0 o) (l : LoopAt h0 f o g kf k x) (hk : k < h0.vl)
    (hs : h0.vstart ≤ k) (v : Nat)
    (hv : v % 2 ^ o.w = h0.elemOut f o.w k (g k).1 (h0.getE o.reg o.w (h0.pos k))) :
    LoopAt h0 f o g kf (k + 1) (x.setE o.reg o.w (h0.pos k) v) := by
  have hc := Hart.cols_pos hk
  refine ⟨?_, ?_, ?_, ?_⟩
  · have e := x.setE_same o.reg o.w (h0.pos k) v
    unfold Hart.SameExceptV at e
    rw [e]
    rw [l.rest]
  · intro j hj
    by_cases hjk : j = k
    · subst hjk
      rw [Hart.getE_setE_same _ _ d.width, if_pos ⟨hs, by omega⟩, hv]
    · have hne : h0.pos k ≠ h0.pos j := fun e => hjk (Hart.pos_inj h0 d.cols hc e).symm
      rw [Hart.getE_setE_ne _ _ d.width hne (d.lt hk) (d.lt hj), l.elem j hj]
      by_cases h1 : h0.vstart ≤ j ∧ j < k
      · rw [if_pos h1, if_pos ⟨h1.1, by omega⟩]
      · rw [if_neg h1, if_neg (by omega)]
  · intro p hp
    rw [Hart.getE_setE_ne _ _ d.width (hp.2 k hk).symm (d.lt hk) (d.outside hp)]
    exact l.tail p hp
  · intro r hr
    have := Hart.pos_in_group d.ok hk
    rw [Hart.v_setE_ne _ _ _ (d.lt hk) (by omega)]
    exact l.other r hr

/-- One ordinal left as it is. -/
theorem LoopAt.skip {kf k : Nat} {x : Hart} (l : LoopAt h0 f o g kf k x)
    (hv : h0.elemOut f o.w k (g k).1 (h0.getE o.reg o.w (h0.pos k)) = h0.getE o.reg o.w (h0.pos k)) :
    LoopAt h0 f o g kf (k + 1) x := by
  refine ⟨l.rest, ?_, l.tail, l.other⟩
  intro j hj
  rw [l.elem j hj]
  by_cases hjk : j = k
  · subst hjk
    rw [if_neg (by omega)]
    split
    · exact hv.symm
    · rfl
  · by_cases h1 : h0.vstart ≤ j ∧ j < k
    · rw [if_pos h1, if_pos ⟨h1.1, by omega⟩]
    · rw [if_neg h1, if_neg (by omega)]

/-- One ordinal of `putK`. -/
theorem LoopAt.putK {kf k : Nat} {x : Hart} (d : DstOk h0 o) (l : LoopAt h0 f o g kf k x) (hk : k < h0.vl)
    (hs : h0.vstart ≤ k) :
    LoopAt h0 f o g kf (k + 1) (x.putK f o k fun _ => g k).1 ∧
      (x.putK f o k fun _ => g k).2 = if h0.enabled f k then (g k).2 else 0 := by
  unfold Hart.putK
  rw [l.enabled, l.mp, l.pos]
  by_cases he : h0.enabled f k = true
  · simp only [he, if_true]
    refine ⟨l.write d hk hs _ ?_, trivial⟩
    simp [Hart.elemOut, he]
  · simp only [he, if_false, Bool.false_eq_true]
    by_cases hm : h0.mp = true
    · simp only [hm, if_true]
      refine ⟨l.write d hk hs _ ?_, trivial⟩
      simp [Hart.elemOut, he, hm]
    · simp only [hm, if_false, Bool.false_eq_true]
      refine ⟨l.skip ?_, trivial⟩
      simp [Hart.elemOut, he, hm]

/-- A body that performs ordinal `k` as `putK` does, given that its sources still read as they did. -/
def BodyIs (h0 : Hart) (f : Fields) (o : Opnd) (g : Nat → Nat × FFlags) (body : Hart → Hart → Nat → Hart × FFlags) : Prop :=
  ∀ hG x k kf kx, LoopAt h0 f o g kf kf hG → LoopAt h0 f o g kf kx x → kf ≤ k → k < h0.vl →
    body hG x k = x.putK f o k fun _ => g k

/-- The element-wise loop keeps `LoopAt`. -/
theorem loopAt_inv (d : DstOk h0 o) (he : h0.fp.ctl.enables = 0) {body : Hart → Hart → Nat → Hart × FFlags}
    (hb : BodyIs h0 f o g body) :
    LoopInv h0.vl body (fun k => if h0.enabled f k then (g k).2 else 0)
      (fun kf k x => h0.vstart ≤ kf ∧ LoopAt h0 f o g kf k x) := by
  refine ⟨?_, ?_, ?_⟩
  · intro hG x kf k hl hx hk hv
    have p := hx.2.putK d hv (by omega)
    rw [hb hG x k kf k hl.2 hx.2 hk hv]
    exact ⟨⟨hx.1, p.1⟩, p.2⟩
  · intro x kf n hx hn
    obtain ⟨hs, l⟩ := hx
    refine ⟨by omega, ?_, l.elem, l.tail, l.other⟩
    have e := orRun_append (fun k => if h0.enabled f k then (g k).2 else 0) h0.vstart (kf - h0.vstart) n
    rw [show kf - h0.vstart + n = kf + n - h0.vstart from by omega,
      show h0.vstart + (kf - h0.vstart) = kf from by omega] at e
    unfold Hart.addFlags
    rw [l.rest]
    simp only [orFlags_eq, e, BitVec.or_assoc]
  · intro x kf k hx
    rw [hx.2.rest]
    exact he

end Sys2Proof.Machine
end

