-- ==== Sys2Proof/Laws/VecTail.lean ====
section
/-!
SUPPORT. The tail of a vector destination: TP zeroes outside the body and nowhere else.
-/

namespace Sys2Proof.Machine

theorem testBit_foldl_or (l : List Nat) (m : Nat → Nat) (a b : Nat) (h : a.testBit b = true ∨ ∃ r ∈ l, (m r).testBit b = true) :
    (l.foldl (fun a r => a ||| m r) a).testBit b = true := by
  induction l generalizing a with
  | nil => simpa using h
  | cons x t ih =>
    refine ih _ ?_
    rw [Nat.testBit_or]
    rcases h with h | ⟨r, hr, h⟩
    · exact Or.inl (by rw [h]; rfl)
    · rcases List.mem_cons.mp hr with rfl | hr
      · exact Or.inl (by rw [h]; simp)
      · exact Or.inr ⟨r, hr, h⟩

/-- The body mask has every bit of every body element. -/
theorem Hart.bodyMask_bit (h : Hart) {w k i : Nat} (hk : k < h.vl) (hi : i < w) :
    (h.bodyMask w).testBit (h.pos k * w + i) = true := by
  have hc := Hart.cols_pos hk
  unfold Hart.bodyMask
  refine testBit_foldl_or _ _ _ _ (Or.inr ⟨k / h.cols, ?_, ?_⟩)
  · rw [List.mem_range]
    have hv : h.vl = h.rows * h.cols := rfl
    exact Nat.div_lt_of_lt_mul (by rw [Nat.mul_comm]; omega)
  · rw [Nat.testBit_shiftLeft, Nat.testBit_two_pow_sub_one]
    have e : h.pos k * w + i = k / h.cols * h.colcap * w + (k % h.cols * w + i) := by
      unfold Hart.pos
      rw [Nat.add_mul, Nat.add_assoc]
    have hlt : k % h.cols * w + i < h.cols * w := by
      have h1 : k % h.cols + 1 ≤ h.cols := Nat.mod_lt _ hc
      have h2 := Nat.mul_le_mul_right w h1
      rw [Nat.add_mul, Nat.one_mul] at h2
      omega
    rw [e]
    simp [hlt]

theorem testBit_foldl_or_iff (l : List Nat) (m : Nat → Nat) (a b : Nat) :
    (l.foldl (fun a r => a ||| m r) a).testBit b = true ↔ a.testBit b = true ∨ ∃ r ∈ l, (m r).testBit b = true := by
  refine ⟨fun h => ?_, testBit_foldl_or l m a b⟩
  induction l generalizing a with
  | nil => exact Or.inl h
  | cons x t ih =>
    rcases ih _ h with h | ⟨r, hr, h⟩
    · rw [Nat.testBit_or, Bool.or_eq_true] at h
      rcases h with h | h
      · exact Or.inl h
      · exact Or.inr ⟨x, List.mem_cons_self, h⟩
    · exact Or.inr ⟨r, List.mem_cons_of_mem _ hr, h⟩

/-- The body mask has no bit of a position outside the body. -/
theorem Hart.bodyMask_outside (h : Hart) {w p i : Nat} (hp : ∀ k, k < h.vl → p ≠ h.pos k) (hi : i < w) :
    (h.bodyMask w).testBit (p * w + i) = false := by
  rw [Bool.eq_false_iff]
  unfold Hart.bodyMask
  rw [Ne, testBit_foldl_or_iff]
  rintro (h0 | ⟨r, hr, hb⟩)
  · simp at h0
  · rw [List.mem_range] at hr
    rw [Nat.testBit_shiftLeft, Nat.testBit_two_pow_sub_one, Bool.and_eq_true, decide_eq_true_eq, decide_eq_true_eq] at hb
    obtain ⟨hlo, hhi⟩ := hb
    have h1 : r * h.colcap ≤ p := by
      rcases Nat.lt_or_ge p (r * h.colcap) with hc | hc
      · have := Nat.mul_le_mul_right w (Nat.succ_le_of_lt hc)
        rw [Nat.succ_mul] at this
        omega
      · exact hc
    have h2 : p - r * h.colcap < h.cols := by
      rcases Nat.lt_or_ge (p - r * h.colcap) h.cols with hc | hc
      · exact hc
      · have h3 := Nat.mul_le_mul_right w hc
        rw [Nat.sub_mul] at h3
        omega
    have hc : 0 < h.cols := by omega
    refine hp (r * h.cols + (p - r * h.colcap)) ?_ ?_
    · have hv : h.vl = h.rows * h.cols := rfl
      have := Nat.mul_le_mul_right h.cols (Nat.succ_le_of_lt hr)
      rw [Nat.succ_mul] at this
      omega
    · unfold Hart.pos
      have e : r * h.cols + (p - r * h.colcap) = p - r * h.colcap + h.cols * r := by rw [Nat.mul_comm, Nat.add_comm]
      rw [e, Nat.add_mul_div_left _ _ hc, Nat.add_mul_mod_self_left, Nat.div_eq_of_lt h2, Nat.mod_eq_of_lt h2, Nat.zero_add]
      omega

theorem getBits_and_zero {w : Nat} (v k : BitVec w) (lo n : Nat) (hk : ∀ i, i < n → k.getLsbD (lo + i) = false) :
    getBits (v &&& k) lo n = 0 := by
  apply Nat.eq_of_testBit_eq
  intro i
  rw [testBit_getBits]
  by_cases hi : i < n
  · simp [hk i hi]
  · simp [hi]

theorem getBits_and_keep {w : Nat} (v k : BitVec w) (lo n : Nat) (hk : ∀ i, i < n → k.getLsbD (lo + i) = true) :
    getBits (v &&& k) lo n = getBits v lo n := by
  apply Nat.eq_of_testBit_eq
  intro i
  rw [testBit_getBits, testBit_getBits]
  by_cases hi : i < n
  · simp [hi, hk i hi]
  · simp [hi]

theorem Hart.keepBits_same (h : Hart) (r keep : Nat) : h.SameExceptV (h.keepBits r keep) := by
  unfold Hart.keepBits
  simp only
  split
  · exact Hart.SameExceptV.refl h
  · exact h.putV_same _ _ _

theorem and_of_not_zero {w : Nat} (v : BitVec w) {k : BitVec w} (h : ~~~k = 0) : v &&& k = v := by
  have e : k = BitVec.allOnes w := by
    rw [← BitVec.not_not (b := k), h]
    simp
  rw [e, BitVec.and_allOnes]

theorem Hart.keepBits_v (h : Hart) (r keep : Nat) (i : Fin 32) (hr : r < 32) :
    (h.keepBits r keep).v[i] = if r = i.val then h.v[i] &&& BitVec.ofNat 16384 keep else h.v[i] := by
  unfold Hart.keepBits
  simp only
  generalize BitVec.ofNat 16384 keep = k
  split
  · rename_i h0
    split
    · exact (and_of_not_zero _ h0).symm
    · rfl
  · simp only [Hart.putV_v, Fin.getElem_fin]
    split
    · rename_i e
      have e' : (Fin.ofNat 32 r).val = i.val := by rw [ofNat32_val hr, e]
      simp only [e', Vector.getElem_set_self]
    · rename_i e
      have e' : (Fin.ofNat 32 r).val ≠ i.val := by rw [ofNat32_val hr]; exact e
      exact Vector.getElem_set_ne (Fin.ofNat 32 r).isLt i.isLt e'

/-- What zeroing the tail of the first `n` registers of a group leaves. -/
structure TailAt (h : Hart) (o : Opnd) (n : Nat) (x : Hart) : Prop where
  same : h.SameExceptV x
  elem : ∀ j, j < h.vl → x.getE o.reg o.w (h.pos j) = h.getE o.reg o.w (h.pos j)
  tail : ∀ p, h.OutsideBody o p → x.getE o.reg o.w p = if p * o.w / 16384 < n then 0 else h.getE o.reg o.w p
  other : ∀ r : Fin 32, ¬ (o.reg ≤ r.val ∧ r.val < o.reg + o.size h) → x.v[r] = h.v[r]

/-- An element after one register of a group keeps only the bits of the group's mask `m`. -/
theorem Hart.getE_keepGroup (x : Hart) {n w p q m : Nat} (hw : w ∣ 16384) (hr : n + q < 32) (hp : n + p * w / 16384 < 32) :
    ((∀ i, i < w → m.testBit (p * w + i) = true) → (x.keepBits (n + q) (m >>> (16384 * q))).getE n w p = x.getE n w p) ∧
      ((∀ i, i < w → m.testBit (p * w + i) = false) →
        (x.keepBits (n + q) (m >>> (16384 * q))).getE n w p = if q = p * w / 16384 then 0 else x.getE n w p) := by
  unfold Hart.getE
  have e := Hart.keepBits_v x (n + q) (m >>> (16384 * q)) (Fin.ofNat 32 (n + p * w / 16384)) hr
  rw [e]
  simp only [ofNat32_val hp]
  have hb := elem_in_reg (p := p) hw
  have hbit (hq : q = p * w / 16384) (i : Nat) (hi : i < w) :
      (BitVec.ofNat 16384 (m >>> (16384 * q))).getLsbD (p * w % 16384 + i) = m.testBit (p * w + i) := by
    have := Nat.div_add_mod (p * w) 16384
    have e2 : 16384 * q + (p * w % 16384 + i) = p * w + i := by
      rw [hq]
      omega
    rw [BitVec.getLsbD_ofNat, Nat.testBit_shiftRight, e2]
    have : p * w % 16384 + i < 16384 := by omega
    simp [this]
  by_cases hq : q = p * w / 16384
  · rw [if_pos (by omega), if_pos hq]
    exact ⟨fun h => getBits_and_keep _ _ _ _ fun i hi => by rw [hbit hq i hi, h i hi],
      fun h => getBits_and_zero _ _ _ _ fun i hi => by rw [hbit hq i hi, h i hi]⟩
  · rw [if_neg (by omega), if_neg hq]
    exact ⟨fun _ => rfl, fun _ => rfl⟩

theorem Hart.zeroTail_at {h : Hart} {o : Opnd} (d : DstOk h o) : TailAt h o (o.size h) (h.zeroTail o) := by
  unfold Hart.zeroTail
  simp only
  suffices H : ∀ n, n ≤ o.size h → TailAt h o n
      ((List.range n).foldl (fun (x : Hart) i => x.keepBits (o.reg + i) (h.bodyMask o.w >>> (16384 * i))) h) from H _ (Nat.le_refl _)
  intro n
  induction n with
  | zero => exact fun _ => ⟨Hart.SameExceptV.refl h, fun _ _ => rfl, fun _ _ => by simp, fun _ _ => rfl⟩
  | succ n ih =>
    intro hn
    have t := ih (by omega)
    simp only [List.range_succ, List.foldl_append, List.foldl_cons, List.foldl_nil]
    have hr : o.reg + n < 32 := by have := d.file; omega
    refine ⟨t.same.trans (Hart.keepBits_same _ _ _), ?_, ?_, ?_⟩
    · intro j hj
      rw [← t.elem j hj]
      exact (Hart.getE_keepGroup _ d.width hr (d.lt hj)).1 fun i hi => h.bodyMask_bit hj hi
    · intro p hp
      rw [(Hart.getE_keepGroup _ d.width hr (d.outside hp)).2 fun i hi => h.bodyMask_outside hp.2 hi, t.tail p hp]
      by_cases h1 : n = p * o.w / 16384
      · rw [if_pos h1, if_pos (by omega)]
      · rw [if_neg h1]
        by_cases h2 : p * o.w / 16384 < n
        · rw [if_pos h2, if_pos (by omega)]
        · rw [if_neg h2, if_neg (by omega)]
    · intro r hrr
      rw [Hart.keepBits_v _ _ _ r hr, if_neg (by omega)]
      exact t.other r hrr

/-- What the TP policy of a group leaves. -/
structure TpAt (h : Hart) (o : Opnd) (x : Hart) : Prop where
  same : h.SameExceptV x
  elem : ∀ j, j < h.vl → x.getE o.reg o.w (h.pos j) = h.getE o.reg o.w (h.pos j)
  tail : TailLeft h x o h.tp
  other : ∀ r : Fin 32, ¬ (o.reg ≤ r.val ∧ r.val < o.reg + o.size h) → x.v[r] = h.v[r]

theorem Hart.applyTp_at {h : Hart} {o : Opnd} (d : DstOk h o) : TpAt h o (h.applyTp o) := by
  unfold Hart.applyTp
  by_cases ht : h.tp = true
  · rw [if_pos ht]
    have z := Hart.zeroTail_at d
    refine ⟨z.same, z.elem, fun p hp => ?_, z.other⟩
    rw [z.tail p hp, if_pos (Opnd.position_in_group hp.1), ht, if_pos rfl]
  · rw [if_neg ht]
    exact ⟨Hart.SameExceptV.refl h, fun _ _ => rfl, fun _ _ => by simp [ht], fun _ _ => rfl⟩

end Sys2Proof.Machine
end

