-- ==== Sys2Proof/Laws/VecRun.lean ====
section
/-!
SUPPORT. The resumable instructions: what an element-wise one with a vector destination does once its operands pass the
checks.
-/

namespace Sys2Proof.Machine

theorem firstUse_allValid {h : Hart} (hv : h.vc.vvalid = BitVec.allOnes 41) (l : List Nat) : h.firstUse l = none := by
  unfold Hart.firstUse
  rw [List.find?_eq_none]
  intro k hk
  have : k < 41 := List.mem_range.mp hk
  have hb : h.vc.vvalid.getLsbD k = true := by
    rw [hv, BitVec.getLsbD_allOnes]
    simpa using this
  simp only [hb, Bool.not_true, Bool.and_false]
  decide

theorem withRegs_allValid {s : State} (hv : s.me.vc.vvalid = BitVec.allOnes 41) (l : List Nat) (k : Eff) : withRegs s l k = k := by
  unfold withRegs
  rw [firstUse_allValid hv]

theorem bindings_none {h : Hart} (hb : ∀ i : Fin 4, (h.vbind[i]).v = false) (out : Bool) (l : List Opnd) :
    h.bindings out l = [] := by
  unfold Hart.bindings Hart.boundTo
  rw [List.filter_eq_nil_iff]
  intro i _
  have h1 : (h.vbind[i.val]).v = false := hb i
  simp [h1]

theorem withBindings_nil (s : State) (k : State → Eff) : withBindings s [] [] k = k s := by
  unfold withBindings
  simp

theorem withStreams_none {s : State} (hb : ∀ i : Fin 4, (s.me.vbind[i]).v = false) (d p : List Opnd) (k : State → Eff) :
    withStreams s d p k = k s := by
  unfold withStreams
  rw [bindings_none hb, bindings_none hb, withBindings_nil]

theorem pushAll_none {s : State} (hb : ∀ i : Fin 4, (s.me.vbind[i]).v = false) (d : List Opnd) : pushAll s d = s := by
  unfold pushAll pushBound
  rw [bindings_none hb]
  simp

theorem DstOk.of_groups {h : Hart} {o : Opnd} {srcs : List Opnd} (hg : groupsOk h [o] srcs = true) (hr : o.reg < 32)
    (hw : o.w ∣ 16384) (hc : h.cols ≤ h.colcap) : DstOk h o := by
  simp only [groupsOk, Bool.and_eq_true, List.all_eq_true] at hg
  have ho := hg.1 o (by simp)
  exact ⟨ho, Opnd.group_in_file ho hr, hw, hc⟩

theorem LoopAt.start (h : Hart) (f : Fields) (o : Opnd) (g : Nat → Nat × FFlags) : LoopAt h f o g h.vstart h.vstart h := by
  refine ⟨?_, ?_, fun _ _ => rfl, fun _ _ => rfl⟩
  · simp [orFlags]
  · intro j _
    rw [if_neg (by omega)]

/-- A source operand's element still reads as before the loop, whether its group is the destination's or apart from it. -/
theorem LoopAt.source {h0 : Hart} {f : Fields} {o a : Opnd} {g : Nat → Nat × FFlags} {kf k : Nat} {x : Hart}
    {srcs : List Opnd} (l : LoopAt h0 f o g kf kf x) (hg : groupsOk h0 [o] srcs = true) (ha : a ∈ srcs) (har : a.reg < 32)
    (hsw : a.size h0 = o.size h0 → a.w = o.w) (hkf : kf ≤ k) (hk : k < h0.vl) :
    x.getE a.reg a.w (x.pos k) = h0.getE a.reg a.w (h0.pos k) := by
  rw [l.pos]
  simp only [groupsOk, Bool.and_eq_true, List.all_eq_true] at hg
  have hao := hg.1 a (by simp [ha])
  have hcl := hg.2 o (by simp) a ha
  have hin := Hart.pos_in_group hao hk
  have hfile := Opnd.group_in_file hao har
  by_cases hsame : o.reg = a.reg ∧ o.size h0 = a.size h0
  · have hw := hsw hsame.2.symm
    have e := l.elem k hk
    rw [if_neg (by omega)] at e
    rw [← hsame.1, hw]
    exact e
  · have hdis : a.reg + a.size h0 ≤ o.reg ∨ o.reg + o.size h0 ≤ a.reg := by
      simp only [Opnd.clash, overlaps, Bool.not_eq_true', Bool.and_eq_false_iff, Bool.not_eq_false',
        decide_eq_false_iff_not, Bool.and_eq_true, beq_iff_eq] at hcl
      rcases hcl with (h | h) | h
      · omega
      · omega
      · exact absurd h hsame
    unfold Hart.getE
    have hlt : a.reg + h0.pos k * a.w / 16384 < 32 := by omega
    have e := l.other (Fin.ofNat 32 (a.reg + h0.pos k * a.w / 16384)) (by rw [ofNat32_val hlt]; omega)
    rw [e]

theorem LoopAt.rs {h0 : Hart} {f : Fields} {o : Opnd} {g : Nat → Nat × FFlags} {kf k : Nat} {x : Hart}
    (l : LoopAt h0 f o g kf k x) (n : BitVec 5) : x.rs n = h0.rs n := by
  have e : x.s = h0.s := by rw [l.rest]
  unfold Hart.rs
  rw [e]

/-- `elemB` under the loop: IMM, the scalar, or a vector element of a source. -/
theorem LoopAt.elemB {h0 : Hart} {f : Fields} {o : Opnd} {g : Nat → Nat × FFlags} {kf k w : Nat} {x : Hart}
    {srcs : List Opnd} (l : LoopAt h0 f o g kf kf x) (hg : groupsOk h0 [o] srcs = true)
    (ha : f.immB = false → f.scalarB = false → (⟨f.b.toNat, w, false⟩ : Opnd) ∈ srcs)
    (hsw : (⟨f.b.toNat, w, false⟩ : Opnd).size h0 = o.size h0 → w = o.w) (hkf : kf ≤ k) (hk : k < h0.vl) :
    x.elemB f w k = h0.elemB f w k := by
  unfold Hart.elemB
  by_cases h1 : f.immB = true
  · rw [if_pos h1, if_pos h1]
  · rw [if_neg h1, if_neg h1]
    by_cases h2 : f.scalarB = true
    · rw [if_pos h2, if_pos h2, l.rs]
    · rw [if_neg h2, if_neg h2]
      have ha := ha (by simpa using h1) (by simpa using h2)
      exact l.source (a := ⟨f.b.toNat, w, false⟩) hg ha f.b.isLt hsw hkf hk

theorem resumable_elementwise {s : State} {opc : BitVec 12} {f : Fields} {o : Opnd} {srcs : List Opnd} {masks : List Nat}
    {rm : Option RMode} {body : Hart → Hart → Nat → Hart × FFlags} {g : Nat → Nat × FFlags} (hr : VecReady s)
    (hg : groupsOk s.me [o] srcs = true) (hreg : o.reg < 32) (hw : o.w ∣ 16384)
    (hepg : 0 < epgOf (([o] ++ srcs).map Opnd.w)) (hb : BodyIs s.me f o g body) :
    ∃ t, commit (resumable s opc f (.vec o) srcs masks rm body) = .next t ∧ VecResult s t f o rm g := by
  have d := DstOk.of_groups hg hreg hw hr.cols
  obtain ⟨y, hy, _, ly⟩ := (loopAt_inv d hr.traps hb).groups hepg (s.me.vl + 1)
    ⟨Nat.le_refl _, LoopAt.start s.me f o g⟩ (by omega)
  let x1 := if s.me.vstart < s.me.vl then y.applyTpD (.vec o) else y
  let x2 := (x1.setVstart 0).stepSeed (rm.getD .rne)
  have hx1 : ∀ (x : Hart), x = (if s.me.vstart < s.me.vl then y.applyTp o else y) →
      y.SameExceptV x ∧ (∀ j, j < s.me.vl → x.getE o.reg o.w (s.me.pos j) = y.getE o.reg o.w (s.me.pos j)) ∧
        TailLeft s.me x o s.me.zeroesTail ∧
        ∀ r : Fin 32, ¬ (o.reg ≤ r.val ∧ r.val < o.reg + o.size s.me) → x.v[r] = y.v[r] := by
    intro x hx
    have hsz : o.size y = o.size s.me := by
      unfold Opnd.size Hart.g
      rw [ly.rest]
    have hpos : ∀ j, y.pos j = s.me.pos j := ly.pos
    have hvl : y.vl = s.me.vl := by
      unfold Hart.vl
      rw [ly.rest]
    have dy : DstOk y o := by
      refine ⟨?_, ?_, d.width, ?_⟩
      · have := d.ok
        unfold Opnd.ok Hart.bodyFits Hart.vl Hart.rows Hart.cols Hart.colcap at *
        rw [hsz, ly.rest]
        exact this
      · rw [hsz]
        exact d.file
      · unfold Hart.cols Hart.colcap
        rw [ly.rest]
        exact d.cols
    have htp : y.tp = s.me.tp := by
      unfold Hart.tp
      rw [ly.rest]
    have hout : ∀ p, s.me.OutsideBody o p → y.OutsideBody o p := fun p hp =>
      ⟨by rw [hsz]; exact hp.1, fun k hk => by rw [hpos k]; exact hp.2 k (by rw [← hvl]; exact hk)⟩
    subst hx
    by_cases hlt : s.me.vstart < s.me.vl
    · rw [if_pos hlt]
      have t := Hart.applyTp_at dy
      refine ⟨t.same, fun j hj => ?_, fun p hp => ?_, fun r hrr => ?_⟩
      · rw [← hpos j]
        exact t.elem j (by rw [hvl]; exact hj)
      · rw [t.tail p (hout p hp), htp, ly.tail p hp]
        simp [Hart.zeroesTail, hlt]
      · exact t.other r (by rw [hsz]; exact hrr)
    · rw [if_neg hlt]
      refine ⟨Hart.SameExceptV.refl y, fun _ _ => rfl, fun p hp => ?_, fun _ _ => rfl⟩
      rw [ly.tail p hp]
      simp [Hart.zeroesTail, hlt]
  obtain ⟨hsame, helem, htail, hother⟩ := hx1 x1 rfl
  let fl := s.me.fp.flags ||| orFlags s.me f (fun i => (g i).2) s.me.vstart (s.me.vl - s.me.vstart)
  have hx1r : x1 = { s.me with
      v := x1.v, latch := x1.latch, vc := { s.me.vc with vdirty := x1.vc.vdirty, vhigh := x1.vc.vhigh },
      fp := { s.me.fp with flags := fl } } := by
    have e1 : y.SameExceptV x1 := hsame
    unfold Hart.SameExceptV at e1
    have e2 := ly.rest
    rw [show max s.me.vstart s.me.vl - s.me.vstart = s.me.vl - s.me.vstart from by omega] at e2
    rw [e2] at e1
    exact e1
  have hx2r : x2 = { s.me with
      v := x1.v, latch := x1.latch, vc := { s.me.vc with vstart := 0, vdirty := x1.vc.vdirty, vhigh := x1.vc.vhigh },
      fp := { s.me.fp with
        flags := fl
        seed := if rm = some .sr then srStep s.me.fp.seed else s.me.fp.seed } } := by
    change (x1.setVstart 0).stepSeed (rm.getD .rne) = _
    have hz : (BitVec.ofNat 14 0) = 0 := rfl
    unfold Hart.stepSeed Hart.setVstart
    rw [hx1r]
    cases rm with
    | none => simp
    | some m => cases m <;> simp
  have hnb : ∀ i : Fin 4, ((s.modMe fun _ => x2).me.vbind[i]).v = false := by
    intro i
    rw [State.me_modMe, hx2r]
    exact hr.streams i
  have hrun : resumable s opc f (.vec o) srcs masks rm body = .done (s.modMe fun _ => x2) := by
    unfold resumable
    rw [if_neg (by simp [Dst.opnds, hg]), withRegs_allValid hr.valid, withStreams_none hr.streams]
    simp only [Dst.opnds, hr.stop, hy]
    rw [pushAll_none hnb]
  refine ⟨(s.modMe fun _ => x2).proceed, by rw [hrun]; rfl, ?_⟩
  have hme : (s.modMe fun _ => x2).proceed.me = { x2 with pc := x2.pc + 16, inWait := false } := by
    rw [State.me_proceed, State.me_modMe]
  have honly : OnlyMe s (s.modMe fun _ => x2).proceed := onlyMe_trans (onlyMe_modMe s _) (onlyMe_proceed _)
  refine ⟨honly, sameBytes_of_onlyMe honly, ?_, ?_, ?_, ?_⟩
  · intro k hk
    rw [hme]
    have e : ({ x2 with pc := x2.pc + 16, inWait := false } : Hart).getE o.reg o.w (s.me.pos k) =
        x1.getE o.reg o.w (s.me.pos k) := by
      unfold Hart.getE
      rw [hx2r]
    rw [e, helem k hk, ly.elem k hk]
    by_cases h1 : s.me.vstart ≤ k
    · rw [if_pos h1, if_pos ⟨h1, by omega⟩]
    · rw [if_neg h1, if_neg (by omega)]
  · intro p hp
    rw [hme, ← htail p hp]
    unfold Hart.getE
    rw [hx2r]
  · intro r hrr
    rw [hme]
    have e : ({ x2 with pc := x2.pc + 16, inWait := false } : Hart).v[r] = x1.v[r] := by
      rw [hx2r]
    rw [e, hother r hrr, ly.other r hrr]
  · rw [hme, hx2r]

end Sys2Proof.Machine
end

