-- ==== Sys2Proof/Laws/VecMask.lean ====
section
/-!
SUPPORT. Mask destinations: the bits of a mask after a write, the loop of an element-wise instruction that writes one, and
what such an instruction leaves.
-/

namespace Sys2Proof.Machine

theorem bit_setBit {w : Nat} (b : BitVec w) (k j : Nat) (v : Bool) (hj : j < w) :
    (setBit b k v).getLsbD j = if j = k then v else b.getLsbD j := by
  unfold setBit
  rw [getLsbD_setBits _ _ _ _ _ hj]
  by_cases h : j = k
  · subst h
    cases v <;> simp
  · rw [if_neg (by omega), if_neg h]

theorem bit_toBits (m : Mask) (k : Nat) (hk : k < 8192) : m.toBits.getLsbD k = m.bit k := by
  cases m with
  | bitmap b => rfl
  | list l =>
    simp only [Mask.toBits, Mask.bit]
    suffices H : ∀ (l : List Nat) (b : MBits), (l.foldl (fun b k => setBit b k true) b).getLsbD k =
        (l.contains k || b.getLsbD k) by
      rw [H]
      simp
    intro l
    induction l with
    | nil => simp
    | cons a t ih =>
      intro b
      rw [List.foldl_cons, ih, bit_setBit _ _ _ _ hk, List.contains_cons]
      by_cases h : k = a
      · subst h
        simp
      · have hb : (k == a) = false := by simpa using h
        rw [if_neg h, hb, Bool.false_or]

theorem Hart.m_setM (h : Hart) (n : Nat) (k : Nat) (b : Bool) :
    (h.setM n k b).m = h.m.set (Fin.ofNat 8 n) (.bitmap (setBit (h.m[Fin.ofNat 8 n]).toBits k b)) := rfl

theorem Hart.bit_setM_same (h : Hart) (n : Fin 8) (k j : Nat) (b : Bool) (hj : j < 8192) :
    ((h.setM n.val k b).m[n]).bit j = if j = k then b else (h.m[n]).bit j := by
  have hn : Fin.ofNat 8 n.val = n := Fin.ext (Nat.mod_eq_of_lt n.isLt)
  simp only [Hart.m_setM, hn, Fin.getElem_fin, Vector.getElem_set_self]
  simp only [Mask.bit]
  rw [bit_setBit _ _ _ _ hj, bit_toBits _ _ hj]
  rfl

theorem Hart.m_setM_ne (h : Hart) (n : Fin 8) (k : Nat) (b : Bool) {j : Fin 8} (hj : j ≠ n) :
    (h.setM n.val k b).m[j] = h.m[j] := by
  have hn : Fin.ofNat 8 n.val = n := Fin.ext (Nat.mod_eq_of_lt n.isLt)
  simp only [Hart.m_setM, hn, Fin.getElem_fin]
  exact Vector.getElem_set_ne n.isLt j.isLt fun e => hj (Fin.ext e.symm)

/-- The hart part way through a loop that writes mask `n`. -/
structure MaskAt (h0 : Hart) (f : Fields) (n : Fin 8) (g : Nat → Bool × FFlags) (kf k : Nat) (x : Hart) : Prop where
  rest : x = { h0 with
    m := x.m, latch := x.latch, vc := { h0.vc with vdirty := x.vc.vdirty },
    fp := { h0.fp with flags := h0.fp.flags ||| orFlags h0 f (fun i => (g i).2) h0.vstart (kf - h0.vstart) } }
  bits : ∀ j, j < 8192 → (x.m[n]).bit j =
    if h0.vstart ≤ j ∧ j < k then if h0.enabled f j then (g j).1 else if h0.mp then false else (h0.m[n]).bit j
    else (h0.m[n]).bit j
  other : ∀ j : Fin 8, j ≠ n → x.m[j] = h0.m[j]

variable {h0 : Hart} {f : Fields} {n : Fin 8} {g : Nat → Bool × FFlags}

/-- The predicate's bit of an ordinal that is not performed yet. -/
theorem MaskAt.enabled {kf k : Nat} {x : Hart} (l : MaskAt h0 f n g kf k x) {j : Nat} (hj : k ≤ j) (hj2 : j < 8192) :
    x.enabled f j = h0.enabled f j := by
  have e : (x.predMask f).bit j = (h0.predMask f).bit j := by
    unfold Hart.predMask
    by_cases hn : Fin.ofNat 8 (f.p.toNat % 8) = n
    · subst hn
      rw [l.bits j hj2, if_neg (by omega)]
    · rw [l.other _ hn]
  unfold Hart.enabled
  rw [e]

theorem MaskAt.mp {kf k : Nat} {x : Hart} (l : MaskAt h0 f n g kf k x) : x.mp = h0.mp := by
  unfold Hart.mp
  rw [l.rest]

theorem MaskAt.write {kf k : Nat} {x : Hart} (l : MaskAt h0 f n g kf k x) (hs : h0.vstart ≤ k) (b : Bool)
    (hb : b = if h0.enabled f k then (g k).1 else if h0.mp then false else (h0.m[n]).bit k) :
    MaskAt h0 f n g kf (k + 1) (x.setM n.val k b) := by
  refine ⟨?_, ?_, ?_⟩
  · have e : x.setM n.val k b = { x with
        m := (x.setM n.val k b).m, latch := (x.setM n.val k b).latch
        vc := { x.vc with vdirty := (x.setM n.val k b).vc.vdirty } } := rfl
    rw [e, l.rest]
  · intro j hj
    rw [Hart.bit_setM_same _ _ _ _ _ hj, l.bits j hj]
    by_cases hjk : j = k
    · subst hjk
      rw [if_pos rfl, if_pos ⟨hs, by omega⟩, hb]
    · rw [if_neg hjk]
      by_cases h1 : h0.vstart ≤ j ∧ j < k
      · have h2 : h0.vstart ≤ j ∧ j < k + 1 := ⟨h1.1, by omega⟩
        rw [if_pos h1, if_pos h2]
      · rw [if_neg h1, if_neg (by omega)]
  · intro j hj
    rw [Hart.m_setM_ne _ _ _ _ hj]
    exact l.other j hj

theorem MaskAt.skip {kf k : Nat} {x : Hart} (l : MaskAt h0 f n g kf k x) (he : h0.enabled f k = false)
    (hm : h0.mp = false) : MaskAt h0 f n g kf (k + 1) x := by
  refine ⟨l.rest, ?_, l.other⟩
  intro j hj
  rw [l.bits j hj]
  by_cases hjk : j = k
  · subst hjk
    rw [if_neg (by omega)]
    simp [he, hm]
  · by_cases h1 : h0.vstart ≤ j ∧ j < k
    · have h2 : h0.vstart ≤ j ∧ j < k + 1 := ⟨h1.1, by omega⟩
      rw [if_pos h1, if_pos h2]
    · rw [if_neg h1, if_neg (by omega)]

theorem MaskAt.putMk {kf k : Nat} {x : Hart} (l : MaskAt h0 f n g kf k x) (hs : h0.vstart ≤ k) (hk : k < 8192) :
    MaskAt h0 f n g kf (k + 1) (x.putMk f n.val k fun _ => g k).1 ∧
      (x.putMk f n.val k fun _ => g k).2 = if h0.enabled f k then (g k).2 else 0 := by
  unfold Hart.putMk
  rw [l.enabled (Nat.le_refl k) hk, l.mp]
  by_cases he : h0.enabled f k = true
  · simp only [he, if_true]
    exact ⟨l.write hs _ (by simp [he]), trivial⟩
  · have he : h0.enabled f k = false := by simpa using he
    by_cases hm : h0.mp = true
    · simp only [he, hm, if_true, Bool.false_eq_true, if_false]
      exact ⟨l.write hs _ (by simp [he, hm]), trivial⟩
    · have hm : h0.mp = false := by simpa using hm
      simp only [he, hm, Bool.false_eq_true, if_false]
      exact ⟨l.skip he hm, trivial⟩

/-- A body that performs ordinal `k` as `putMk` does. -/
def MaskBodyIs (h0 : Hart) (f : Fields) (n : Fin 8) (g : Nat → Bool × FFlags) (body : Hart → Hart → Nat → Hart × FFlags) :
    Prop :=
  ∀ hG x k kf kx, MaskAt h0 f n g kf kf hG → MaskAt h0 f n g kf kx x → kf ≤ k → k < h0.vl →
    body hG x k = x.putMk f n.val k fun _ => g k

theorem maskAt_inv (hvl : h0.vl ≤ 8192) (he : h0.fp.ctl.enables = 0) {body : Hart → Hart → Nat → Hart × FFlags}
    (hb : MaskBodyIs h0 f n g body) :
    LoopInv h0.vl body (fun k => if h0.enabled f k then (g k).2 else 0)
      (fun kf k x => h0.vstart ≤ kf ∧ MaskAt h0 f n g kf k x) := by
  refine ⟨?_, ?_, ?_⟩
  · intro hG x kf k hl hx hk hv
    have p := hx.2.putMk (by omega) (by omega : k < 8192)
    rw [hb hG x k kf k hl.2 hx.2 hk hv]
    exact ⟨⟨hx.1, p.1⟩, p.2⟩
  · intro x kf m hx hn
    obtain ⟨hs, l⟩ := hx
    refine ⟨by omega, ?_, l.bits, l.other⟩
    have e := orRun_append (fun k => if h0.enabled f k then (g k).2 else 0) h0.vstart (kf - h0.vstart) m
    rw [show kf - h0.vstart + m = kf + m - h0.vstart from by omega,
      show h0.vstart + (kf - h0.vstart) = kf from by omega] at e
    unfold Hart.addFlags
    rw [l.rest]
    simp only [orFlags_eq, e, BitVec.or_assoc]
  · intro x kf k hx
    rw [hx.2.rest]
    exact he

/-- A mask destination at its end: a bitmap whose tail is zero under TP and as it was otherwise. -/
theorem Hart.applyTpM_cases (h : Hart) (n : Fin 8) :
    (h.applyTpM n.val = h ∧ h.tp = false ∧ ∃ b, h.m[n] = .bitmap b) ∨
      ∃ b : MBits, h.applyTpM n.val = h.putM n.val (.bitmap b) ∧
        ∀ j, j < 8192 → b.getLsbD j = if h.vl ≤ j ∧ h.tp = true then false else (h.m[n]).bit j := by
  have hn : h.m[Fin.ofNat 8 n.val] = h.m[n] := by
    congr 1
    exact Fin.ext (Nat.mod_eq_of_lt n.isLt)
  unfold Hart.applyTpM
  rw [hn]
  by_cases ht : h.tp = true
  · rw [if_pos ht]
    refine .inr ⟨_, rfl, fun j hj => ?_⟩
    rw [BitVec.getLsbD_and, bit_toBits _ _ hj, BitVec.getLsbD_ofNat, Nat.testBit_two_pow_sub_one]
    by_cases hv : h.vl ≤ j
    · have : ¬ j < h.vl := by omega
      simp [hv, this, ht]
    · have : j < h.vl := by omega
      simp [hv, this, hj]
  · rw [if_neg ht]
    split
    · next b hm => exact .inl ⟨rfl, by simpa using ht, b, hm⟩
    · next l hm =>
      refine .inr ⟨_, rfl, fun j hj => ?_⟩
      rw [if_neg (fun c => ht c.2), hm, bit_toBits _ _ hj]

/-- The tail of a mask destination. -/
theorem Hart.applyTpM_bits (h : Hart) (n : Fin 8) :
    (∀ j, j < 8192 → ((h.applyTpM n.val).m[n]).bit j = if h.vl ≤ j ∧ h.tp = true then false else (h.m[n]).bit j) ∧
      (∀ j : Fin 8, j ≠ n → (h.applyTpM n.val).m[j] = h.m[j]) ∧
      (∃ b, (h.applyTpM n.val).m[n] = .bitmap b) ∧
      h.applyTpM n.val = { h with
        m := (h.applyTpM n.val).m, latch := (h.applyTpM n.val).latch
        vc := { h.vc with vdirty := (h.applyTpM n.val).vc.vdirty } } := by
  have hn : Fin.ofNat 8 n.val = n := Fin.ext (Nat.mod_eq_of_lt n.isLt)
  obtain ⟨e, ht, hb⟩ | ⟨b, e, hb⟩ := h.applyTpM_cases n
  · rw [e]
    exact ⟨fun j _ => by simp [ht], fun _ _ => rfl, hb, rfl⟩
  · have hput : (h.putM n.val (.bitmap b)).m[n] = .bitmap b := by
      simp only [Hart.putM, hn, Fin.getElem_fin, Vector.getElem_set_self]
    rw [e]
    refine ⟨fun j hj => by rw [hput]; exact hb j hj, fun j hj => ?_, ⟨b, hput⟩, rfl⟩
    simp only [Hart.putM, hn, Fin.getElem_fin]
    exact Vector.getElem_set_ne n.isLt j.isLt fun e => hj (Fin.ext e.symm)

theorem resumable_mask {s : State} {opc : BitVec 12} {f : Fields} {n : Fin 8} {srcs : List Opnd} {masks : List Nat}
    {body : Hart → Hart → Nat → Hart × FFlags} {g : Nat → Bool × FFlags} (hr : VecReady s)
    (hg : groupsOk s.me [] srcs = true) (hvl : s.me.vl ≤ 8192) (hepg : 0 < epgOf (srcs.map Opnd.w))
    (hb : MaskBodyIs s.me f n g body) :
    ∃ t, commit (resumable s opc f (.mask n.val) srcs masks none body) = .next t ∧ MaskResult s t f n g := by
  have hstart : MaskAt s.me f n g s.me.vstart s.me.vstart s.me := by
    refine ⟨?_, ?_, fun _ _ => rfl⟩
    · simp [orFlags]
    · intro j _
      rw [if_neg (by omega)]
  obtain ⟨y, hy, _, ly⟩ := (maskAt_inv hvl hr.traps hb).groups hepg (s.me.vl + 1) ⟨Nat.le_refl _, hstart⟩ (by omega)
  let x1 := if s.me.vstart < s.me.vl then y.applyTpM n.val else y
  let x2 := (x1.setVstart 0).stepSeed .rne
  let fl := s.me.fp.flags ||| orFlags s.me f (fun i => (g i).2) s.me.vstart (s.me.vl - s.me.vstart)
  have hyr := ly.rest
  rw [show max s.me.vstart s.me.vl - s.me.vstart = s.me.vl - s.me.vstart from by omega] at hyr
  have hyvl : y.vl = s.me.vl := by
    unfold Hart.vl
    rw [hyr]
  have hytp : y.tp = s.me.tp := by
    unfold Hart.tp
    rw [hyr]
  have hx1 : (∀ j, j < 8192 → (x1.m[n]).bit j =
        if s.me.vl ≤ j ∧ s.me.vstart < s.me.vl ∧ s.me.tp = true then false else (y.m[n]).bit j) ∧
      (∀ j : Fin 8, j ≠ n → x1.m[j] = y.m[j]) ∧
      (s.me.vstart < s.me.vl → ∃ b, x1.m[n] = .bitmap b) ∧
      x1 = { y with m := x1.m, latch := x1.latch, vc := { y.vc with vdirty := x1.vc.vdirty } } := by
    obtain ⟨a, b, bm, c⟩ := y.applyTpM_bits n
    by_cases h : s.me.vstart < s.me.vl
    · have e : x1 = y.applyTpM n.val := if_pos h
      rw [e]
      refine ⟨fun j hj => ?_, b, fun _ => bm, c⟩
      rw [a j hj, hyvl, hytp]
      simp [h]
    · have e : x1 = y := if_neg h
      rw [e]
      refine ⟨fun j _ => ?_, fun _ _ => rfl, fun hh => absurd hh h, rfl⟩
      rw [if_neg (by simp [h])]
  have hx2r : x2 = { s.me with
      m := x1.m, latch := x1.latch, vc := { s.me.vc with vstart := 0, vdirty := x1.vc.vdirty }, fp := { s.me.fp with flags := fl } } := by
    change (x1.setVstart 0).stepSeed .rne = _
    unfold Hart.stepSeed Hart.setVstart
    rw [hx1.2.2.2, hyr]
    simp [fl]
  have hnb : ∀ i : Fin 4, ((s.modMe fun _ => x2).me.vbind[i]).v = false := by
    intro i
    rw [State.me_modMe, hx2r]
    exact hr.streams i
  have hrun : resumable s opc f (.mask n.val) srcs masks none body = .done (s.modMe fun _ => x2) := by
    unfold resumable
    rw [if_neg (by simp [Dst.opnds, hg]), withRegs_allValid hr.valid, withStreams_none hr.streams]
    simp only [Dst.opnds, hr.stop, List.nil_append, hy]
    change Eff.done (pushAll (s.modMe fun _ => x2) []) = _
    rw [pushAll_none hnb]
  refine ⟨(s.modMe fun _ => x2).proceed, by rw [hrun]; rfl, ?_⟩
  have hme : (s.modMe fun _ => x2).proceed.me = { x2 with pc := x2.pc + 16, inWait := false } := by
    rw [State.me_proceed, State.me_modMe]
  have honly : OnlyMe s (s.modMe fun _ => x2).proceed := onlyMe_trans (onlyMe_modMe s _) (onlyMe_proceed _)
  refine ⟨honly, sameBytes_of_onlyMe honly, ?_, ?_, ?_, ?_⟩
  · intro k hk
    have e : ({ x2 with pc := x2.pc + 16, inWait := false } : Hart).m[n] = x1.m[n] := by rw [hx2r]
    rw [hme, e, hx1.1 k hk, ly.bits k hk]
    by_cases h1 : s.me.vstart ≤ k ∧ k < s.me.vl
    · rw [if_pos h1, if_neg (by omega), if_pos ⟨h1.1, by omega⟩]
    · rw [if_neg h1]
      by_cases h2 : s.me.vl ≤ k ∧ s.me.vstart < s.me.vl ∧ s.me.tp = true
      · rw [if_pos h2, if_pos h2]
      · rw [if_neg h2, if_neg h2]
        by_cases h3 : s.me.vstart ≤ k ∧ k < max s.me.vstart s.me.vl
        · omega
        · rw [if_neg h3]
  · intro hlt
    have e : ({ x2 with pc := x2.pc + 16, inWait := false } : Hart).m[n] = x1.m[n] := by rw [hx2r]
    rw [hme, e]
    exact hx1.2.2.1 hlt
  · intro j hj
    have e : ({ x2 with pc := x2.pc + 16, inWait := false } : Hart).m[j] = x1.m[j] := by rw [hx2r]
    rw [hme, e, hx1.2.1 j hj, ly.other j hj]
  · rw [hme, hx2r]

end Sys2Proof.Machine
end

