-- ==== Sys2Proof/Tests/Slice0.lean ====
section
/-!
SUPPORT. The author's own tests: words written out from the encoding tables, ill-formed terms, single steps whose results are
computed by hand from the rules cited, and for each statement with hypotheses a state and operands that meet them.
-/

set_option maxRecDepth 100000
set_option exponentiation.threshold 100000

namespace Sys2Proof.Tests

-- One test at a time: tests that wait for the kernel would each hold a thread and its stack.
set_option Elab.async false

open Sys2Proof Sys2Proof.Machine

/-- Hart 0 running at system level with translation off. -/
def base : State := State.reset.modHart 0 fun h => { h with run := .running, pc := 0x1000 }

/-- The same with hart 0 changed. -/
def sysAt (g : Hart → Hart) : State := base.modMe g

/-- What hart `cur` holds in a register after an instruction that goes on. -/
def regAfter (o : Out) (n : BitVec 5) : Option Word :=
  match o with
  | .next t => some (t.me.rs n)
  | _ => none

/-- Where hart `cur` goes on. -/
def pcAfter (o : Out) : Option Word :=
  match o with
  | .next t => some t.me.pc
  | _ => none

/-- The cause and address of the trap an instruction takes. -/
def trapAfter (o : Out) : Option (Byte × Word) :=
  match o with
  | .next t => if t.me.atHandler then some (t.me.tr.cause, t.me.tr.eaddr) else none
  | _ => none

/-- A register file with the values given to s1, s2 and s3. -/
def regs3 (x y z : Word) : Hart → Hart := fun h => ((h.ws 1 x).ws 2 y).ws 3 z

/-! ## Decoding: words written out from the encoding tables -/

/-- R75, Table 4.3. -/
theorem test_decodeAdd :
    decode 0x00000000000000050000010000041000 = .ok (.add { Fields.zero with d := 1, a := 2, mod := 1, imm := 5 }) := rfl

/-- Table 4.3. -/
theorem test_decodeLd :
    decode 0x00000000000000080000006000083018 = .ok (.ld { Fields.zero with d := 3, a := 4, w := 6, imm := 8 }) := rfl

/-- Table 4.6. -/
theorem test_decodeLoop :
    decode 0x00000000FFFFFFC00000000000002108 = .ok (.loop { Fields.zero with d := 2, imm := 4294967232 }) := rfl

/-- Table 4.6. -/
theorem test_decodeRet :
    decode 0x000000000000000000000000003E0107 = .ok (.ret { Fields.zero with a := 31 }) := rfl

/-- Table 5.9. -/
theorem test_decodeVadd :
    decode 0x00000000000000000000000006208200 = .ok (.vadd { Fields.zero with d := 8, a := 16, b := 24 }) := rfl

/-- Table 5.11. -/
theorem test_decodeVfmul :
    decode 0x00000000000000000000005B06208302 = .ok (.vfmul { Fields.zero with d := 8, a := 16, b := 24, p := 11, w := 5 }) := rfl

/-- Table 5.14. -/
theorem test_decodeVmerge :
    decode 0x00000000000000000000000806208419 = .ok (.vmerge { Fields.zero with d := 8, a := 16, b := 24, p := 8 }) := rfl

/-- Table 5.14. -/
theorem test_decodeVsetlProgress :
    decode 0x00000000000000000000040020C41400 = .ok (.vsetlProgress { Fields.zero with d := 1, a := 2, b := 3, c := 4, mod := 4, imm := 0 }) := rfl

/-- Table 6.11. -/
theorem test_decodeVld :
    decode 0x00000000000000400000000000028500 = .ok (.vld { Fields.zero with d := 8, a := 1, imm := 64 }) := rfl

/-- Table 9.15. -/
theorem test_decodeSprog :
    decode 0x000000000000000000000000000A0600 = .ok (.sprog { Fields.zero with a := 5 }) := rfl

/-- Table 9.15. -/
theorem test_decodeSstatCfg :
    decode 0x00000000000000000000040000006607 = .ok (.sstatCfg { Fields.zero with d := 6, mod := 4 }) := rfl

/-- Table 10.2. -/
theorem test_decodeMzero :
    decode 0x00000000000000100000000000001703 = .ok (.mzero { Fields.zero with d := 1, imm := 16 }) := rfl

/-- Table 11.3. -/
theorem test_decodeRvadd :
    decode 0x00000000000000000000005004108800 = .ok (.rvadd { Fields.zero with d := 8, a := 8, b := 16, w := 5 }) := rfl

/-- Table 11.3. -/
theorem test_decodeLmark :
    decode 0x00000000000000000000000000000842 = .ok (.lmark Fields.zero) := rfl

/-- Table 11.3. -/
theorem test_decodeUnadd :
    decode 0x00000000000000000000005004108900 = .ok (.unadd { Fields.zero with d := 8, a := 8, b := 16, w := 5 }) := rfl

/-- Table 12.4. -/
theorem test_decodeKreset :
    decode 0x00000000000000000000000000020A05 = .ok (.kreset { Fields.zero with a := 1 }) := rfl

/-- Table 8.11. -/
theorem test_decodeGbar :
    decode 0x00000000000000000000000000000B05 = .ok (.gbar Fields.zero) := rfl

/-- Table 7.4. -/
theorem test_decodeRkcopy :
    decode 0x00000000000000000004000018820C00 = .ok (.rkcopy { Fields.zero with a := 1, b := 2, c := 3, x := 4 }) := rfl

/-- Table 7.9. -/
theorem test_decodeAmo :
    decode 0x00000000000000000000006001CC5D03 = .ok (.amo { Fields.zero with d := 5, a := 6, b := 7, w := 6 }) := rfl

/-- Table 13.4. -/
theorem test_decodeCpoll :
    decode 0x000000000000000000000000000A4E03 = .ok (.cpoll { Fields.zero with d := 4, a := 5 }) := rfl

/-- Table 14.8. -/
theorem test_decodeCrr :
    decode 0x00000000000000030000000000009F02 = .ok (.crr { Fields.zero with d := 9, imm := 3 }) := rfl

/-- Table 14.8. -/
theorem test_decodeEret :
    decode 0x00000000000000000000000000000F01 = .ok (.eret Fields.zero) := rfl

/-- R35. -/
theorem test_refuseUnassignedOp : decode 0x000000000000000000000000000001FF = .error .unassigned := rfl

/-- R35: ops 0x09 to 0xFF of class 0x9. -/
theorem test_refuseUnassignedUndo : decode 0x00000000000000000000000000000909 = .error .unassigned := rfl

/-- Table 2.7, step 2. -/
theorem test_refuseReservedBits : decode 0x0001000000000000000000000000010A = .error .reservedBits := rfl

/-- Table 2.7, step 3. -/
theorem test_refuseRankThree : decode 0x0000001800000000000000000000010A = .error .rank := rfl

/-- Table 2.7, step 4. -/
theorem test_refuseUnusedField : decode 0x0000000000000000000000000000110A = .error .unusedField := rfl

/-- Table 2.7, step 4. -/
theorem test_refuseBAndImmediate : decode 0x00000000000000050000010000C41000 = .error .unusedField := rfl

/-- R76: codes 6 and 7. -/
theorem test_refuseReservedCondition : decode 0x00000000000000000000180000C4100F = .error .badOperand := rfl

/-- R79: pos + len above 64. -/
theorem test_refuseFieldTooLong : decode 0x00000000000020210000000000041014 = .error .badOperand := rfl

/-! ## Well-formed and ill-formed instructions -/

theorem test_wfAdd : (Instr.add { Fields.zero with d := 1, a := 2, mod := 1, imm := 5 }).wf = true := rfl

/-- RANK = 3 (R31). -/
theorem test_illRank : (Instr.nop { Fields.zero with hints := { Hints.none with rank := 3 } }).wf = false := rfl

/-- A field the entry does not use (Table 2.7, step 4). -/
theorem test_illUnusedField : (Instr.nop { Fields.zero with a := 1 }).wf = false := rfl

/-- An option value outside the entry's set (R76). -/
theorem test_illOption : (Instr.cmp { Fields.zero with d := 1, mod := 0x1C }).wf = false := rfl

/-- A form that the fields do not select: MOD[45] = 0 is LEA and not its PC form (R80). -/
theorem test_illForm : (Instr.leaPc { Fields.zero with d := 1 }).wf = false := rfl

/-! ## Single steps, by class -/

/-- R77: 2^64 - 1 + 2 wraps to 1. -/
theorem test_addWraps : regAfter (exec (.add { Fields.zero with d := 4, a := 1, b := 2 })
    (sysAt (regs3 0xFFFFFFFFFFFFFFFF 2 0))) 4 = some 1 := by decide

/-- R77: the source is also the destination. -/
theorem test_subSelf : regAfter (exec (.sub { Fields.zero with d := 1, a := 1, b := 1 }) (sysAt (regs3 9 0 0))) 1 = some 0 := by
  decide

/-- R77: (-1) × 2 signed, high half all ones; unsigned, high half 1. -/
theorem test_mulhSigned : regAfter (exec (.mulh { Fields.zero with d := 4, a := 1, b := 2 })
    (sysAt (regs3 0xFFFFFFFFFFFFFFFF 2 0))) 4 = some 0xFFFFFFFFFFFFFFFF := by decide

theorem test_mulhUnsigned : regAfter (exec (.mulh { Fields.zero with d := 4, a := 1, b := 2, mod := 0x4 })
    (sysAt (regs3 0xFFFFFFFFFFFFFFFF 2 0))) 4 = some 1 := by decide

/-- R78: the most negative value by -1 gives itself, and -7 by 2 truncates to -3. -/
theorem test_divMostNegative : regAfter (exec (.div { Fields.zero with d := 4, a := 1, b := 2 })
    (sysAt (regs3 0x8000000000000000 0xFFFFFFFFFFFFFFFF 0))) 4 = some 0x8000000000000000 := by decide

theorem test_divTruncates : regAfter (exec (.div { Fields.zero with d := 4, a := 1, b := 2 })
    (sysAt (regs3 0xFFFFFFFFFFFFFFF9 2 0))) 4 = some 0xFFFFFFFFFFFFFFFD := by decide

/-- R78: division by zero. -/
theorem test_remByZero : regAfter (exec (.rem { Fields.zero with d := 4, a := 1, b := 2 }) (sysAt (regs3 7 0 0))) 4 = some 7 := by
  decide

/-- R77: a negative amount shifts everything out; arithmetic, the sign fills. -/
theorem test_shlByNegative : regAfter (exec (.shl { Fields.zero with d := 4, a := 1, mod := 1, imm := 0xFFFFFFFF })
    (sysAt (regs3 5 0 0))) 4 = some 0 := by decide

theorem test_sarByNegative : regAfter (exec (.shr { Fields.zero with d := 4, a := 1, mod := 5, imm := 0xFFFFFFFF })
    (sysAt (regs3 0x8000000000000000 0 0))) 4 = some 0xFFFFFFFFFFFFFFFF := by decide

/-- R77: only ROT takes its amount modulo 64. -/
theorem test_rotRight : regAfter (exec (.rot { Fields.zero with d := 4, a := 1, mod := 5, imm := 68 })
    (sysAt (regs3 1 0 0))) 4 = some 0x1000000000000000 := by decide

/-- R77: b > c gives c. -/
theorem test_clampCrossed : regAfter (exec (.clamp { Fields.zero with d := 4, a := 1, b := 2, c := 3 })
    (sysAt (regs3 5 9 7))) 4 = some 7 := by decide

/-- R76: signed and unsigned orders differ. -/
theorem test_cmpSigned : regAfter (exec (.cmp { Fields.zero with d := 4, a := 1, b := 2, mod := 0x8 })
    (sysAt (regs3 0xFFFFFFFFFFFFFFFF 1 0))) 4 = some 1 := by decide

theorem test_cmpUnsigned : regAfter (exec (.cmp { Fields.zero with d := 4, a := 1, b := 2, mod := 0x10 })
    (sysAt (regs3 0xFFFFFFFFFFFFFFFF 1 0))) 4 = some 0 := by decide

/-- R79: 64 for A = 0. -/
theorem test_clzZero : regAfter (exec (.clz { Fields.zero with d := 4, a := 1 }) base) 4 = some 64 := by decide

/-- R79: bits [7:4] of 0xF0, sign-extended from bit 7. -/
theorem test_bfxSigned : regAfter (exec (.bfx { Fields.zero with d := 4, a := 1, mod := 4, imm := 0x404 })
    (sysAt (regs3 0xF0 0 0))) 4 = some 0xFFFFFFFFFFFFFFFF := by decide

/-- R79: BFI keeps the other bits of D. -/
theorem test_bfiKeeps : regAfter (exec (.bfi { Fields.zero with d := 2, a := 1, imm := 0x404 })
    (sysAt (regs3 3 0xFF 0))) 2 = some 0x3F := by decide

/-- 04, example: brev(1, 3) = 4. -/
theorem test_brev : regAfter (exec (.brev { Fields.zero with d := 4, a := 1, imm := 3 }) (sysAt (regs3 1 0 0))) 4 = some 4 := by
  decide

/-- R79: byte 0x80 sign-extended. -/
theorem test_extByte : regAfter (exec (.ext { Fields.zero with d := 4, a := 1, w := 3 }) (sysAt (regs3 0x180 0 0))) 4 =
    some 0xFFFFFFFFFFFFFF80 := by decide

/-- R80: form 2 keeps the low half of D. -/
theorem test_liHigh : regAfter (exec (.li { Fields.zero with d := 1, mod := 8, imm := 0xAB }) (sysAt (regs3 0xFFFFFFFF00000001 0 0))) 1 =
    some 0x000000AB00000001 := by decide

/-- R80: PC is the address of the LEA itself. -/
theorem test_leaPc : regAfter (exec (.leaPc { Fields.zero with d := 4, mod := 0x20, imm := 0xFFFFFFF0 }) base) 4 = some 0xFF0 := by
  decide

/-- R81: 2 - 5 modulo 7 is 4. -/
theorem test_modsub : regAfter (exec (.modadd { Fields.zero with d := 4, a := 1, b := 2, c := 3, mod := 0x18 })
    (sysAt (regs3 2 5 7))) 4 = some 4 := by decide

/-- R82: a byte is sign-extended; memory is little-endian. -/
theorem test_ldByte : regAfter (exec (.ld { Fields.zero with d := 4, a := 1, w := 3 })
    ((sysAt (regs3 0x2000 0 0)).setBytes 0x2000 [0x80, 0x01])) 4 = some 0xFFFFFFFFFFFFFF80 := by decide

theorem test_ldHalfUnsigned : regAfter (exec (.ld { Fields.zero with d := 4, a := 1, w := 4, mod := 4 })
    ((sysAt (regs3 0x2000 0 0)).setBytes 0x2000 [0x80, 0x81])) 4 = some 0x8180 := by decide

/-- Table 4.6a: alignment is checked first, EADDR the address. -/
theorem test_ldMisaligned : trapAfter (exec (.ld { Fields.zero with d := 4, a := 1, w := 6 }) (sysAt (regs3 0x2004 0 0))) =
    some (0x04, 0x2004) := by decide

/-- R84: the link is the address after the call. -/
theorem test_callLink : regAfter (exec (.call { Fields.zero with d := 31, imm := 0x40 }) base) 31 = some 0x1010 := by decide

/-- R84: a taken transfer to a misaligned target traps with EADDR the target. -/
theorem test_jmpMisaligned : trapAfter (exec (.jmp { Fields.zero with imm := 8 }) base) = some (0x04, 0x1008) := by decide

/-- R86: LOOP with s[D] = 1 counts to 0 and falls through; with 0 it stays 0. -/
theorem test_loopEnds : pcAfter (exec (.loop { Fields.zero with d := 1, imm := 0xFFFFFFC0 }) (sysAt (regs3 1 0 0))) =
    some 0x1010 := by decide

theorem test_loopTaken : pcAfter (exec (.loop { Fields.zero with d := 1, imm := 0xFFFFFFC0 }) (sysAt (regs3 2 0 0))) =
    some 0xFC0 := by decide

/-- R358: at task level ERET raises Privilege. -/
theorem test_eretAtTask : trapAfter (exec (.eret Fields.zero)
    (sysAt fun h => { h with status := { h.status with sys := false } })) = some (0x03, 0) := by decide

/-- R371: TRAP puts its immediate in EADDR. -/
theorem test_trap : trapAfter (exec (.trap { Fields.zero with imm := 0x80000001 }) base) = some (0x18, 0x80000001) := by decide

/-- A body of `r` rows by `c` columns under VTYPE `vt`, with v8, v16 and v24 given as numbers. -/
def vecAt (vt : BitVec 16) (r c : BitVec 14) (x y z : Nat) (g : Hart → Hart) : State :=
  sysAt fun h => g { h with
    vc := { h.vc with vtype := vt, vlrow := r, vlcol := c }
    v := ((h.v.set 8 (BitVec.ofNat 16384 x)).set 16 (BitVec.ofNat 16384 y)).set 24 (BitVec.ofNat 16384 z) }

/-- Element `p` of width `w` of v8 after an instruction that goes on without a trap. -/
def elemAfter (o : Out) (w p : Nat) : Option Nat :=
  match o with
  | .next t => if t.me.atHandler then none else some (t.me.getE 8 w p)
  | _ => none

/-- Bits 0 to 7 of m1 after an instruction that goes on. -/
def maskAfter (o : Out) : Option (List Bool) :=
  match o with
  | .next t => some ((List.range 8).map fun k => (t.me.m[1]).bit k)
  | _ => none

/-- D = v8, A = v16, B = v24. -/
def vabc : Fields := { Fields.zero with d := 8, a := 16, b := 24 }

/-- R109 at width 8: 255 + 2 wraps in its own element. -/
theorem test_vaddWraps : elemAfter (exec (.vadd vabc) (vecAt 0x400 1 4 0 0x01FF 0x0102 id)) 8 0 = some 1 := by decide

/-- R103: a masked element is kept without MP and zeroed with it. -/
theorem test_vaddMasked : elemAfter (exec (.vadd { vabc with p := 9 }) (vecAt 0x400 1 4 0x77 0x01 0x01 id)) 8 0 = some 0x77 := by
  decide

theorem test_vaddMaskedZero : elemAfter (exec (.vadd { vabc with p := 9 }) (vecAt 0x8400 1 4 0x77 0x01 0x01 id)) 8 0 = some 0 := by
  decide

/-- R109: saturation at -128 signed and at 0 unsigned. -/
theorem test_vssubSigned : elemAfter (exec (.vssub vabc) (vecAt 0x400 1 4 0 0x80 0x01 id)) 8 0 = some 0x80 := by decide

theorem test_vssubUnsigned : elemAfter (exec (.vssub { vabc with mod := 4 }) (vecAt 0x400 1 4 0 0x01 0x02 id)) 8 0 = some 0 := by
  decide

/-- R109: a signed average rounds toward minus infinity: floor((-1 + 0) / 2) = -1. -/
theorem test_vavg : elemAfter (exec (.vavg vabc) (vecAt 0x400 1 4 0 0xFF 0x00 id)) 8 0 = some 0xFF := by decide

/-- R110: signed 8-bit -1 × 2 gives the 16-bit -2. -/
theorem test_vwmul : elemAfter (exec (.vwmul vabc) (vecAt 0x400 1 4 0 0xFF 0x02 id)) 16 0 = some 0xFFFE := by decide

/-- R110: 0x18 >> 4 = 1.5 ties to even with RND, 2. -/
theorem test_vnshrTies : elemAfter (exec (.vnshr { vabc with mod := 8 }) (vecAt 0x400 1 4 0 0x0018 0x04 id)) 8 0 = some 2 := by
  decide

/-- R111: (2 - 5) mod 7 with MODP = 7. -/
theorem test_vmodsub : elemAfter (exec (.vmodsub vabc) (vecAt 0x402 1 4 0 2 5 fun h => { h with modp := 7 })) 32 0 = some 4 := by
  decide

/-- R112: 1.0 + 2^-24 in binary32 is a tie that goes to even, 1.0, with NX. -/
theorem test_vfaddTies : elemAfter (exec (.vfadd vabc) (vecAt 0x402 1 1 0 0x3F800000 0x33800000 id)) 32 0 = some 0x3F800000 := by
  decide

/-- R112: 1/0 is +∞ in binary32. -/
theorem test_vfdivZero : elemAfter (exec (.vfdiv vabc) (vecAt 0x402 1 1 0 0x3F800000 0 id)) 32 0 = some 0x7F800000 := by decide

/-- Table 5.12: 2^3 = 8 exactly. -/
theorem test_vfexp : elemAfter (exec (.vfexp { vabc with b := 0 }) (vecAt 0x402 1 1 0 0x40400000 0 id)) 32 0 = some 0x41000000 := by
  decide

/-- R115: 3.5 to a signed 32-bit integer by the format's rounding, ties to even: 4. -/
theorem test_vfcvtInt : elemAfter (exec (.vfcvt { vabc with b := 0, w := 5, mod := 0x20, x := 5 })
    (vecAt 0x402 1 1 0 0x40600000 0 id)) 32 0 = some 4 := by decide

/-- R120: the compare writes a bit per ordinal. -/
theorem test_vcmp : maskAfter (exec (.vcmp { vabc with d := 1, mod := 8 }) (vecAt 0x400 1 2 0 0x01FF 0x0100 id)) =
    some [true, false, false, false, false, false, false, false] := by decide

/-- R123: each active ordinal counts the set bits of A below it. -/
theorem test_viota : elemAfter (exec (.viota { vabc with a := 1, b := 0 })
    (vecAt 0x400 1 4 0 0 0 fun h => { h with m := h.m.set 1 (.bitmap 0x5) })) 8 3 = some 2 := by decide

/-- R126: 1 + 2 + 3 + 4 with the seed 10. -/
theorem test_vredsum : elemAfter (exec (.vredsum vabc) (vecAt 0x400 1 4 0 0x04030201 0x0A id)) 8 0 = some 20 := by decide

/-- R127: the carry of VCHAIN starts at s[C]: ((5 × 2 + 1) × 3 + 1). -/
theorem test_vchain : elemAfter (exec (.vchain { vabc with c := 1 }) (vecAt 0x400 1 2 0 0x0302 0x0101 fun h => h.ws 1 5)) 8 1 =
    some 34 := by decide

/-- R98: eight columns asked of a type that holds sixteen. -/
theorem test_vsetl : regAfter (exec (.vsetl { Fields.zero with d := 4, a := 1, b := 2, imm := 0x402 }) (sysAt (regs3 2 8 0))) 4 =
    some 16 := by decide

/-- R141: unit stride, lowest address first. -/
theorem test_vld : elemAfter (exec (.vld { Fields.zero with d := 8, a := 1, w := 4 })
    ((vecAt 0x401 1 2 0 0 0 (regs3 0x2000 0 0)).setBytes 0x2000 [1, 2, 3, 4])) 16 1 = some 0x0403 := by decide

/-- R141: an indexed load takes element 0 from base + 2 × index 3. -/
theorem test_vldx : elemAfter (exec (.vldx { Fields.zero with d := 8, a := 1, b := 24, w := 4, mod := 0x20 })
    ((vecAt 0x401 1 1 0 0 3 (regs3 0x2000 0 0)).setBytes 0x2000 [0, 0, 0, 0, 0, 0, 0x34, 0x12])) 16 0 = some 0x1234 := by decide

/-- R146: a store of two 16-bit elements. -/
theorem test_vst : (match exec (.vst { Fields.zero with a := 1, c := 8, w := 4 }) (vecAt 0x401 1 2 0x04030201 0 0 (regs3 0x2000 0 0)) with
    | .next t => some (t.bytes 0x2000 4)
    | _ => none) = some [1, 2, 3, 4] := by decide

/-- R145: a misaligned element traps before any access. -/
theorem test_vldMisaligned : trapAfter (exec (.vld { Fields.zero with d := 8, a := 1, w := 4 })
    (vecAt 0x401 1 2 0 0 0 (regs3 0x2001 0 0))) = some (0x04, 0x2001) := by decide

/-- R282: MZERO clears the rows named and no others. -/
theorem test_mzero : (match exec (.mzero { Fields.zero with d := 1, imm := 1 })
    ((sysAt fun h => { h with mxcfg := 0x200 }).modCluster 0 fun c => { c with tiles := c.tiles.set 1 [(0, 5), (256, 7)] }) with
    | .next t => some (tileAt (t.tile 1) 0 0, tileAt (t.tile 1) 1 0)
    | _ => none) = some (0, 7) := by decide

/-- R270: MCFG answers the old value. -/
theorem test_mcfg : regAfter (exec (.mcfg { Fields.zero with d := 4, a := 1 })
    (sysAt fun h => { h.ws 1 0x100 with mxcfg := 0x200 })) 4 = some 0x200 := by decide

/-- R266: SSTAT of an unbound handle is zero. -/
theorem test_sstat : regAfter (exec (.sstat { Fields.zero with d := 4, a := 1 }) base) 4 = some 0 := by decide

/-- A lees stack of 64 KiB at 0x10000. -/
def leesAt (h : Hart) : Hart := { h with lees := { h.lees with sp := 0x10000, base := 0x10000, lim := 0x20000 } }

/-- R303, R305: a push and a pop give the value back. -/
theorem test_pushPop : (match exec (.lpush { Fields.zero with a := 1 }) (sysAt fun h => leesAt (h.ws 1 0x1234)) with
    | .next t => regAfter (exec (.lpop { Fields.zero with d := 4 }) t) 4
    | _ => none) = some 0x1234 := by decide

/-- R305: an empty stack. -/
theorem test_popEmpty : trapAfter (exec (.lpop { Fields.zero with d := 4 }) (sysAt leesAt)) = some (0x0D, 0) := by decide

/-- R296, R304: RVADD of 250 + 10 wraps to 4, and UNADD gives 250 back. -/
theorem test_rvaddWraps : elemAfter (exec (.rvadd { vabc with a := 8, b := 16 }) (vecAt 0x400 1 2 250 10 0 leesAt)) 8 0 = some 4 := by
  decide

/-- R304: an undo with no frame underflows. -/
theorem test_undoEmpty : trapAfter (exec (.unadd { vabc with a := 8, b := 16 }) (vecAt 0x400 1 2 250 10 0 leesAt)) =
    some (0x0D, 0) := by decide

/-- R326: a limit of 0 is refused. -/
theorem test_kmode : (match exec (.kmode { Fields.zero with a := 1, b := 2 }) (sysAt (regs3 1 64 0)) with
    | .next t => some (t.me.kmode, t.me.klimit)
    | _ => none) = some (1, 64) := by decide

/-- R226: CALRD.SLOT is the clock divided by 16. -/
theorem test_calrdSlot : regAfter (exec (.calrdSlot { Fields.zero with d := 4 }) { base with cycle := 47 }) 4 = some 2 := by decide

/-- R226: a free hart has no gang to wait for. -/
theorem test_gbarFree : trapAfter (exec (.gbar Fields.zero) base) = some (0x01, 0xB05) := by decide

/-- R170: a copy of no bytes is done at once. -/
theorem test_twaitDone : regAfter (exec (.twaitall { Fields.zero with d := 4, a := 1 })
    (sysAt fun h => { h.ws 1 6 with tags := { h.tags with bits := 3 } })) 4 = some 2 := by decide

/-- R196: AMO add of 4 bytes answers the old value, sign-extended. -/
theorem test_amoAdd : (match exec (.amo { Fields.zero with d := 4, a := 1, b := 2, w := 5, mod := 0x4 })
      ((sysAt (regs3 0x2000 1 0)).setBytes 0x2000 [0xFF, 0xFF, 0xFF, 0xFF]) with
    | .next t => some (t.me.rs 4, t.bytes 0x2000 5)
    | _ => none) = some (0xFFFFFFFFFFFFFFFF, [0, 0, 0, 0, 0]) := by decide

/-- R196: a failed CAS writes nothing. -/
theorem test_casFails : (match exec (.cas { Fields.zero with d := 4, a := 1, b := 2, c := 3, w := 6 })
      ((sysAt (regs3 0x2000 1 9)).setBytes 0x2000 [2]) with
    | .next t => some (t.me.rs 4, t.bytes 0x2000 1)
    | _ => none) = some (2, [2]) := by decide

/-- R200: the head of a queue is what was pushed first. -/
theorem test_queueOrder : (match exec (.qpush { Fields.zero with a := 1, b := 2 }) (sysAt (regs3 11 0 0)) with
    | .next t => (match exec (.qpush { Fields.zero with a := 2, b := 2 }) (t.modMe (regs3 0 22 0)) with
      | .next u => regAfter (exec (.qpop { Fields.zero with d := 4, b := 2 }) u) 4
      | _ => none)
    | _ => none) = some 11 := by decide

/-- R347: the state of an unbound slot is 0. -/
theorem test_cpoll : regAfter (exec (.cpoll { Fields.zero with d := 4, a := 1 }) base) 4 = some 0 := by decide

/-- R346: a slot operand above 7. -/
theorem test_cpollRange : trapAfter (exec (.cpoll { Fields.zero with d := 4, a := 1 }) (sysAt (regs3 8 0 0))) =
    some (0x01, 0x24E03) := by decide

/-- R372: STATUS at system level after reset. -/
theorem test_crrStatus : regAfter (exec (.crr { Fields.zero with d := 4, imm := 3 }) base) 4 = some 1 := by decide

/-- R372: CRW answers the old value and writes the new. -/
theorem test_crwEscratch : (match exec (.crw { Fields.zero with d := 4, a := 1, imm := 9 }) (sysAt (regs3 7 0 0)) with
    | .next t => some (t.me.rs 4, t.me.tr.escratch)
    | _ => none) = some (0, 7) := by decide

/-- R360: an event bit that is pending is consumed. -/
theorem test_waitev : (match exec (.waitev { Fields.zero with d := 4, a := 1 }) (sysAt fun h => { h.ws 1 6 with evpend := 3 }) with
    | .next t => some (t.me.rs 4, t.me.evpend)
    | _ => none) = some (2, 1) := by decide

/-- R366: s1 of a spawned hart is the value given. -/
theorem test_hspawn : (match exec (.hspawn { Fields.zero with d := 4, a := 1, b := 2, c := 3 }) (sysAt (regs3 1 0x4000 99)) with
    | .next t => some ((t.hart 1).pc, (t.hart 1).rs 1, t.me.rs 4)
    | _ => none) = some (0x4000, 99, 0) := by decide

/-- R350: a lease of 1 runs out. -/
theorem test_leaseExpires : (match exec .hsemLeaseExpiry { base with dev := { base.dev with hsem := ⟨1, 1, 1, false⟩ } } with
    | .next t => some (t.dev.hsem.owner, t.dev.hsem.expired)
    | _ => none) = some (0, true) := by decide

/-- R33: a step fetches the word at the program counter, decodes it and runs it: li s1, 7. -/
theorem test_stepRuns : regAfter (step (base.withFetchWord 128 0x00000000000000070000000000001016)) 1 = some 7 := by decide

/-- R34: EADDR of a refused word holds its bits [63:0]. -/
theorem test_stepRefuses : trapAfter (step (base.withFetchWord 128 0x0000000000000007000000000000010C)) = some (0x01, 0x10C) := by
  decide

/-! ## Witnesses: states and operands that meet the hypotheses of the statements, clause by clause -/

theorem witness_encodeThenDecode :
    (Instr.add { Fields.zero with d := 31, a := 31, mod := 1, imm := 0xFFFFFFFF }).wf = true ∧
      encode (.add { Fields.zero with d := 31, a := 31, mod := 1, imm := 0xFFFFFFFF }) =
        some 0x00000000FFFFFFFF00000100003FF000 := ⟨rfl, rfl⟩

theorem witness_decodeThenEncode : decode 0x00000000000000000000000000000F01 = .ok (.eret Fields.zero) := rfl

/-- The last listed op and the first unlisted one of a class, and the last of the lees-control ops. -/
theorem witness_assignedPairs :
    (assigned 0x01F).isSome = true ∧ decode 0x020 = .error .unassigned ∧ decode 0x842 ≠ .error .unassigned ∧
      (assigned 0x844).isSome = true ∧ decode 0x845 = .error .unassigned ∧
      (0x0001000000000000000000000000010A : IWord).extractLsb' 112 16 ≠ 0 :=
  ⟨rfl, rfl, by rw [show decode 0x842 = .ok (.lmark Fields.zero) from rfl]; simp, rfl, rfl,
    by decide⟩

/-- Hart 0 about to run a word at 0x1000. -/
def atWord (w : Nat) : State := base.withFetchWord 128 w

theorem witness_stepRuns : (atWord 0x10A).agenda = [] ∧ (atWord 0x10A).me.run ≠ .stopped ∧ (atWord 0x10A).me.run ≠ .suspended ∧
    (atWord 0x10A).nextAsync (atWord 0x10A).cur = none ∧ (atWord 0x10A).parked (atWord 0x10A).cur = false ∧
    fetch (atWord 0x10A) (atWord 0x10A).cur = (atWord 0x10A, .word 0x10A) ∧ decode 0x10A = .ok (.nop Fields.zero) ∧
    ((atWord 0x10A).hart (atWord 0x10A).cur).holds (hintsOfInstr (.nop Fields.zero)) = none :=
  ⟨rfl, by decide, by decide, by decide, by decide, by rfl, rfl, by decide⟩

/-- A NOP that an HL hold has kept back for three cycles under AUDIT: it waits for nothing now. -/
theorem witness_misHinted : let s := (atWord 0x10A).modMe fun h => { h with
      status := { h.status with audit := true }, mis := { h.mis with held := 3 } }
    s.agenda = [] ∧ s.me.run ≠ .stopped ∧ s.me.run ≠ .suspended ∧ s.nextAsync s.cur = none ∧ s.parked s.cur = false ∧
    (fetch s s.cur).2 = .word 0x10A ∧ decode 0x10A = .ok (.nop Fields.zero) ∧
    (((fetch s s.cur).1).hart s.cur).holds (hintsOfInstr (.nop Fields.zero)) = none ∧
    (((fetch s s.cur).1).hart s.cur).misHinted = true ∧
    Out.waitsFor (exec (.nop Fields.zero) ((fetch s s.cur).1.prepare s.cur (.nop Fields.zero))) s.cur .hazard = false :=
  ⟨rfl, by decide, by decide, by decide, by decide, by rfl, rfl, by decide, by decide, by decide⟩

theorem witness_refusedWord : (atWord 0x10C).agenda = [] ∧ (atWord 0x10C).me.run ≠ .stopped ∧
    (atWord 0x10C).me.run ≠ .suspended ∧ (atWord 0x10C).nextAsync (atWord 0x10C).cur = none ∧
    (atWord 0x10C).parked (atWord 0x10C).cur = false ∧
    fetch (atWord 0x10C) (atWord 0x10C).cur = (atWord 0x10C, .word 0x10C) ∧ decode 0x10C = .error .unassigned :=
  ⟨rfl, by decide, by decide, by decide, by decide, by rfl, rfl⟩

/-- The last word of HBM. -/
theorem witness_untranslatedFetch : ∃ s : State,
    let x := s.hart 0
    x.status.sys = true ∧ x.ptbase.getLsbD 0 = false ∧ x.pc.toNat < cellarBase ∧ s.poisoned x.pc.toNat = false :=
  ⟨sysAt fun h => { h with pc := 0xFFFFFFFFF0 }, by decide⟩

theorem witness_agendaHead : ∃ s1 s2 s3 : State, s1.agenda = [.event .hsemLeaseExpiry] ∧ s2.agenda = [.hart 511] ∧
    s3.agenda = [.tick] :=
  ⟨{ base with agenda := [.event .hsemLeaseExpiry] }, { base with agenda := [.hart 511] }, { base with agenda := [.tick] },
    rfl, rfl, rfl⟩

theorem witness_stepKeepsMemory : (atWord 0x10A).memOk ∧ ∃ t, step (atWord 0x10A) = .next t := ⟨by unfold State.memOk; decide, _, rfl⟩

theorem witness_memoryLaws : (base.setBytes 0x2000 [1, 0, 3]).memOk ∧
    SMap.wf false (base.setBytes 0x2000 [1, 0, 3]).poison = true := ⟨by unfold State.memOk; decide, by decide⟩

/-- A hart with a held store of its own beside one of another hart. -/
theorem witness_trapEntry : ({ base with storeBuf := [⟨0, [(0x2000, [1])], 0xFF, [], 0, 0, false⟩, ⟨1, [(0x2000, [2])], 0xFF, [], 0, 0, true⟩] } : State).memOk := by
  unfold State.memOk; decide

theorem witness_eret : base.me.gang = none ∧ base.me.status.sys = true ∧
    (sysAt fun h => { h with status := { h.status with sys := false } }).me.status.sys = false :=
  ⟨by decide, by decide, by decide⟩

/-- A member of a gang that runs may return: its task is not suspended. -/
theorem witness_eretInGang : ∃ s : State, s.me.gang = some (0, 1) ∧ ∃ t, s.task 0 1 = some t ∧ t.st ≠ .suspended :=
  ⟨(sysAt fun h => { h with gang := some (0, 1) }).modCal 0 fun u => { u with
      tasks := [{ Task.queued 1 0 0 0 0 0 0 none with st := .running }] }, by decide, _, rfl, by decide⟩

/-! ### Scalar -/

/-- The codes of MULH and CMP, the largest fields of BFX and BFI, both ends of BREV and EXT, and the forms of LI. -/
theorem witness_scalarForms :
    ({ Fields.zero with mod := 0 }).modField 43 42 = 0 ∧ ({ Fields.zero with mod := 4 }).modField 43 42 = 1 ∧
    ({ Fields.zero with mod := 8 }).modField 43 42 = 2 ∧ ({ Fields.zero with mod := 0x14 }).modField 44 42 = 5 ∧
    (let f : Fields := { Fields.zero with imm := 0x4000 };
      f.imm.toNat / 256 % 128 = 64 ∧ f.imm.toNat % 64 + f.imm.toNat / 256 % 128 ≤ 64) ∧
    (let f : Fields := { Fields.zero with imm := 0x13F };
      f.imm.toNat / 256 % 128 = 1 ∧ f.imm.toNat % 64 + f.imm.toNat / 256 % 128 = 64) ∧
    ({ Fields.zero with imm := 64 }).imm.toNat = 64 ∧ ({ Fields.zero with w := 5 }).w.toNat = 5 := by decide

/-- The smallest and the largest modulus, and the first one refused on each side. -/
theorem witness_residues :
    (sysAt fun h => { h with modp := 2 }).me.modp.toNat = 2 ∧ (sysAt fun h => { h with modq := 0x7FFFFFFF }).me.modq.toNat < 2 ^ 31 ∧
    ((sysAt (regs3 0 0 0x7FFFFFFF)).rs 3).toNat < 2 ^ 31 ∧ ((sysAt (regs3 0 0 0x80000000)).rs 3).toNat = 2 ^ 31 ∧
    base.me.modp.toNat < 2 := by decide

theorem witness_scalarFrames : ∃ t, exec (.add { Fields.zero with d := 0, a := 1 }) base = .next t := ⟨_, rfl⟩

/-- Hart 0 with translation on: one page of 4 KiB at 0x4000 with the leaf `w`, in the die's cache. -/
def paged (w : Word) (g : Hart → Hart) : State :=
  (sysAt fun h => g { h with ptbase := 1 }).modDie 0 fun d => { d with tlb := [⟨0x4000, 12, none, 0x8000, w, 0⟩] }

/-- Leaves of the frame at 0x4000: plain, DISC, RDUP, PRES and WONCE, with R, W, A and D. -/
def leafPlain : Word := 0x40CF
def leafWith (b : Nat) : Word := leafPlain ||| 1#64 <<< b

/-- The last 8-byte word of the page, as plain, discarded, presence-tagged and full, and presence-tagged and empty. -/
theorem witness_load : ∃ f : Fields, ∀ b ∈ [0, 10, 52],
    let s := (paged (leafWith b) (regs3 0x4FF8 0 0)).setFull 0x4FF8 true
    let va := s.rs f.a + f.imm.signExtend 64
    3 ≤ f.w.toNat ∧ f.w.toNat ≤ 6 ∧ va.toNat % 2 ^ (f.w.toNat - 3) = 0 ∧
    ∃ s' pa e, checkAccess s s.ctx .load va = (s', .ok pa e) ∧ (spaceOf pa = .hbm ∨ spaceOf pa = .cellar) ∧
      leafDisc e.leaf = (b == 10) ∧ (leafPres e.leaf = true → s'.full pa = true) ∧ s'.ownedIn pa 8 = false ∧
      s'.absentIn pa 8 = false ∧ s'.poisonedIn pa 8 = false := by
  refine ⟨{ Fields.zero with d := 4, a := 1, w := 6 }, ?_⟩
  intro b hb
  simp only [List.mem_cons, List.not_mem_nil, or_false] at hb
  obtain rfl | rfl | rfl := hb <;>
    exact ⟨by decide, by decide, by decide, _, _, _, rfl, by decide, by decide, by decide, by decide, by decide, by decide⟩

/-- The first word of the page: plain, RDUP, an empty presence word, an unwritten WONCE word. -/
theorem witness_store : ∃ f : Fields, ∀ b ∈ [0, 11, 52, 53],
    let s := paged (leafWith b) (regs3 0x4000 0 0)
    let va := s.rs f.a + f.imm.signExtend 64
    3 ≤ f.w.toNat ∧ f.w.toNat ≤ 6 ∧ va.toNat % 2 ^ (f.w.toNat - 3) = 0 ∧
    ∃ s' pa e, checkAccess s s.ctx .store va = (s', .ok pa e) ∧ (spaceOf pa = .hbm ∨ spaceOf pa = .cellar) ∧
      leafDisc e.leaf = false ∧ s'.ownedIn pa 8 = false ∧ leafPres e.leaf = (b == 52) ∧ leafWonce e.leaf = (b == 53) ∧
      leafRdup e.leaf = (b == 11) ∧ s'.full pa = false ∧ s'.meetsHeld s'.cur pa 8 = false ∧
      s'.meetsHeld s'.cur (pa / 8 * 8) 8 = false ∧ (s'.markDirty s'.ctx e).memOk := by
  refine ⟨{ Fields.zero with b := 2, a := 1, w := 6 }, ?_⟩
  intro b hb
  simp only [List.mem_cons, List.not_mem_nil, or_false] at hb
  obtain rfl | rfl | rfl | rfl := hb <;>
    exact ⟨by decide, by decide, by decide, _, _, _, rfl, by decide, by decide, by decide, by decide, by decide, by decide,
      by decide, by decide, by decide, by unfold State.memOk; decide⟩

/-- A held store of the hart to the last byte of an ordinary word. -/
theorem witness_storeBehindHeld : ∃ (s s' : State) (pa : Nat) (e : TlbEntry),
    checkAccess s s.ctx .store 0x4000 = (s', .ok pa e) ∧ spaceOf pa = .hbm ∧ leafDisc e.leaf = false ∧ s'.ownedIn pa 8 = false ∧
      leafPres e.leaf = false ∧ leafWonce e.leaf = false ∧ leafRdup e.leaf = false ∧ s'.meetsHeld s'.cur pa 8 = true :=
  ⟨{ paged leafPlain id with storeBuf := [⟨0, [(0x4007, [1])], 0xFF, [], 0, 0, false⟩] }, _, _, _, rfl, by decide, by decide, by decide,
    by decide, by decide, by decide, by decide⟩

/-- A page of control space, the device's words, that the task level may use. -/
def ctlPage : State := (sysAt fun h => { regs3 0x2000 0x2010 0 h with ptbase := 1, status := { h.status with sys := false } }).modDie 0
  fun d => { d with tlb := [⟨0x2000, 12, none, 0x8000, 0x200020000D7, 0⟩] }

/-- The words of control space: HSEM whole and its upper half, BOOTPC, HSEMREL at task level, and two bytes. -/
theorem witness_controlSpace : ∃ (pa pa' : Nat) (e e' : TlbEntry) (t u : State) (v x : Word) (h : Nat),
    checkAccess base base.ctx .load 0x20002000000 = (base, .ok pa e) ∧ spaceOf pa = .control ∧ leafDisc e.leaf = false ∧
    ctlRead base (whoOf base.cur) (pa - controlBase) = some (t, v) ∧ (pa - controlBase) % 8 = 0 ∧
    ctlLoad base (whoOf base.cur) (pa - controlBase) 8 = some (t, v.toNat) ∧
    ctlLoad base (whoOf base.cur) (pa + 4 - controlBase) 4 = some (t, h) ∧
    checkAccess base base.ctx .store 0x20002000308 = (base, .ok pa' e') ∧ spaceOf pa' = .control ∧ leafDisc e'.leaf = false ∧
    ctlReleases (pa' - controlBase) = false ∧
    ctlStore (base.markDirty base.ctx e') (whoOf base.cur) (pa' - controlBase) 8 (x.toNat % 2 ^ 64) = some u ∧
    2 ^ ((4 : Nat) - 3) < 4 := by
  refine ⟨0x20002000000, 0x20002000308, bareEntry 0x20002000000, bareEntry 0x20002000308, _, _, _, 0x1000, _, rfl, by decide,
    by decide, rfl, by decide, rfl, rfl, rfl, by decide, by decide, by decide, rfl, by decide⟩

theorem witness_controlAtTask : ∃ (pa : Nat) (e : TlbEntry) (t : State), ctlPage.me.status.sys = false ∧
    checkAccess ctlPage ctlPage.ctx .store 0x2010 = (ctlPage, .ok pa e) ∧ spaceOf pa = .control ∧ leafDisc e.leaf = false ∧
    ctlReleases (pa - controlBase) = true ∧ (∀ y ∈ ctlPage.storeBuf, y.hart ≠ ctlPage.cur) ∧
    ctlStore (ctlPage.markDirty ctlPage.ctx e) (whoOf ctlPage.cur) (pa - controlBase) 8 0 = some t := by
  refine ⟨0x20002000010, _, _, by decide, rfl, by decide, by decide, by decide, by decide, rfl⟩

/-- An empty presence-tagged word. -/
theorem witness_parkingLoad : ∃ (s s' : State) (pa : Nat) (e : TlbEntry), checkAccess s s.ctx .load 0x4008 = (s', .ok pa e) ∧
    spaceOf pa = .hbm ∧ leafDisc e.leaf = false ∧ leafPres e.leaf = true ∧ s'.full pa = false :=
  ⟨paged (leafWith 52) id, _, _, _, rfl, by decide, by decide, by decide, by decide⟩

/-- A misaligned word, an address above 2^56, an unmapped page, a page without W, a store to a DISC page and to full words. -/
theorem witness_accessTraps :
    (0x4004 : Word).toNat % 8 ≠ 0 ∧ 2 ^ 56 ≤ (0x0100000000000000 : Word).toNat ∧
    (∃ s' c l, checkAccess (paged leafPlain id) (paged leafPlain id).ctx .load 0x5000 = (s', .bad c l)) ∧
    (∃ s' c l, checkAccess (paged 0x40C3 id) (paged 0x40C3 id).ctx .store 0x4000 = (s', .bad c l)) ∧
    (∃ s' pa e, checkAccess (paged (leafWith 10) id) (paged (leafWith 10) id).ctx .store 0x4000 = (s', .ok pa e) ∧
      spaceOf pa = .hbm ∧ leafDisc e.leaf = true) ∧
    (∀ b ∈ [52, 53], let s := (paged (leafWith b) id).setFull 0x4000 true;
      ∃ s' pa e, checkAccess s s.ctx .store 0x4000 = (s', .ok pa e) ∧ spaceOf pa = .hbm ∧ leafDisc e.leaf = false ∧
        (leafPres e.leaf = true ∨ leafWonce e.leaf = true) ∧ s'.full pa = true) := by
  refine ⟨by decide, by decide, ⟨_, _, _, rfl⟩, ⟨_, _, _, rfl⟩, ⟨_, _, _, rfl, by decide, by decide⟩, ?_⟩
  intro b hb
  simp only [List.mem_cons, List.not_mem_nil, or_false] at hb
  obtain rfl | rfl := hb <;> exact ⟨_, _, _, rfl, by decide, by decide, by decide, by decide⟩

/-- The last word of the page on a line whose poison is set: an LD of it. -/
theorem witness_poisonedLoad : let s := { paged leafPlain id with poison := [(0x13F, true)] }
    ∃ s' pa e, (0x4FF8 : Word).toNat % 8 = 0 ∧ checkAccess s s.ctx .load 0x4FF8 = (s', .ok pa e) ∧ spaceOf pa = .hbm ∧
      leafDisc e.leaf = false ∧ leafPres e.leaf = false ∧ s'.ownedIn pa 8 = false ∧ s'.absentIn pa 8 = false ∧
      s'.poisonedIn pa 8 = true :=
  ⟨_, _, _, by decide, rfl, by decide, by decide, by decide, by decide, by decide, by decide⟩

/-! ### Control transfer -/

/-- Aligned and misaligned targets at both ends, zero and nonzero operands, and the counts 0, 1 and 2. -/
theorem witness_transfers : ∃ s : State, ((s.me.pc + (0xFFFFFFF0 : BitVec 32).signExtend 64).extractLsb' 0 4 = 0) ∧
    ((s.me.pc + (1 : BitVec 32).signExtend 64).extractLsb' 0 4 ≠ 0) ∧ ((s.rs 1 + 0).extractLsb' 0 4 = 0) ∧
    ((s.rs 2 + 0).extractLsb' 0 4 ≠ 0) ∧ s.rs 0 = 0 ∧ s.rs 2 = 1 ∧ s.rs 3 = 2 ∧
    Machine.cond 5 (s.rs 3) (s.rs 2) = true ∧ Machine.cond 0 (s.rs 3) (s.rs 2) = false :=
  ⟨sysAt (regs3 0x10 1 2), by decide⟩

/-- Every condition on m0 and on MF, a bitmap and an index list, and a mask that is not in the hart. -/
theorem witness_bmask : ∃ s : State, (8 : BitVec 5).toNat ≤ 8 ∧ s.me.maskOp 1 = .list [0, 8191] ∧
    ([0, 8191].Pairwise (· < ·) ∧ ∀ k ∈ ([0, 8191] : List Nat), k < 8192) ∧ s.me.vc.vvalid.getLsbD (32 + 1) = true ∧
    s.me.vc.vvalid.getLsbD (32 + 2) = false ∧ (∀ c : Fin 4, bmaskTaken c.val 1 2 = (c.val == 0 || c.val == 3)) :=
  ⟨sysAt fun h => { h with m := h.m.set 1 (.list [0, 8191]), vc := { h.vc with vvalid := ~~~(1#41 <<< 34) } }, by decide,
    by decide, by decide, by decide, by decide, by decide⟩

theorem witness_halt : base.me.status.sys = true ∧ ∀ x ∈ base.storeBuf, x.hart ≠ base.cur := by decide

/-! ### Vectors -/

/-- The widths 8 and 64 with groups of one and eight registers, and a body that fills the type. -/
theorem witness_vecNarrow : VecReady (vecAt 0x400 128 16 0 0 0 id) ∧
    (vecAt 0x400 128 16 0 0 0 id).me.intW 0 = some 8 ∧
    groupsOk (vecAt 0x400 128 16 0 0 0 id).me [⟨8, 8, false⟩] (srcAB vabc 8 8) = true :=
  ⟨⟨by decide, by decide, by decide, by decide, by decide⟩, by decide, by decide⟩

theorem witness_vecWide : VecReady (vecAt 0x4C3 128 16 0 0 0 id) ∧
    (vecAt 0x4C3 128 16 0 0 0 id).me.intW 6 = some 64 ∧
    groupsOk (vecAt 0x4C3 128 16 0 0 0 id).me [⟨8, 64, false⟩] (srcAB vabc 64 64) = true ∧
    groupsOk (vecAt 0x4C3 128 16 0 0 0 id).me [⟨8, 64, false⟩] [⟨16, 64, false⟩] = true :=
  ⟨⟨by decide, by decide, by decide, by decide, by decide⟩, by decide, by decide, by decide⟩

/-- Widening from 32 bits into eight registers, and narrowing. -/
theorem witness_widening : let s := vecAt 0x482 64 16 0 0 0 id;
    VecReady s ∧ s.me.intW 5 = some 32 ∧ (32 : Nat) ≠ 64 ∧ groupsOk s.me [⟨8, 64, true⟩] (srcAB vabc 32 32) = true ∧
    groupsOk s.me [⟨8, 32, false⟩] (⟨16, 64, true⟩ :: (srcAB vabc 32 32).drop 1) = true :=
  ⟨⟨by decide, by decide, by decide, by decide, by decide⟩, by decide, by decide, by decide, by decide⟩

theorem witness_modular : let s := vecAt 0x402 1 4 0 0 0 fun h => { h with modp := 2, modq := 0x7FFFFFFF };
    VecReady s ∧ s.me.intW 0 = some 32 ∧ 2 ≤ s.me.modp.toNat ∧ s.me.modq.toNat < 2 ^ 31 ∧
    groupsOk s.me [⟨8, 32, false⟩] (srcAB vabc 32 32) = true :=
  ⟨⟨by decide, by decide, by decide, by decide, by decide⟩, by decide, by decide, by decide, by decide⟩

/-- Groups of eight of which one is misaligned, and a register that is not in the hart while every lower operand is. -/
theorem witness_vecTraps :
    (let s := vecAt 0x4C3 128 16 0 0 0 id; let f := { vabc with d := 9 }
      s.me.intW 6 = some 64 ∧ groupsOk s.me [⟨f.d.toNat, 64, false⟩] (srcAB f 64 64) = false) ∧
    (let s := vecAt 0x400 1 4 0 0 0 fun h => { h with vc := { h.vc with vvalid := ~~~(1#41 <<< 16) } };
      let regs := (⟨8, 8, false⟩ : Opnd).regs s.me ++ (srcAB vabc 8 8).flatMap (fun x => x.regs s.me) ++ predRegs vabc
      groupsOk s.me [⟨8, 8, false⟩] (srcAB vabc 8 8) = true ∧ 16 ∈ regs ∧ s.me.vc.vvalid.getLsbD 16 = false ∧
      ∀ q, q < 16 → q ∈ regs → s.me.vc.vvalid.getLsbD q = true) := by decide

/-- The same of floating forms and of moves: groups that a widening, a narrowing and a permutation refuse, and the lowest of the
registers that are not in the hart. -/
theorem witness_floatAndMoveTraps :
    (let h := (vecAt 0x482 64 16 0 0 0 id).me;
      h.fmtOf 0 = some .b32 ∧ wideOf .b32 = some .b64 ∧ groupsOk h [⟨9, 32, false⟩] (srcAB vabc 32 32) = false ∧
      groupsOk h [⟨10, 64, true⟩] (srcAB vabc 32 32 ++ [⟨10, 64, true⟩]) = false ∧
      (!overlaps 16 h.g 16 h.g && groupsOk h [⟨16, 32, false⟩] [⟨16, 32, false⟩]) = false ∧ (9 % h.g == 0) = false) ∧
    (let h := (vecAt 0x402 1 4 0 0 0 fun h => { h with vc := { h.vc with vvalid := ~~~(5#41 <<< 8) } }).me;
      let s := vecAt 0x402 1 4 0 0 0 fun h => { h with vc := { h.vc with vvalid := ~~~(5#41 <<< 8) } };
      let regs := usedRegs s { vabc with b := 10 } (.vec ⟨8, 32, false⟩) (srcAB { vabc with b := 10 } 32 32) []
      h.fmtOf 0 = some .b32 ∧ groupsOk h [⟨8, 32, false⟩] (srcAB { vabc with b := 10 } 32 32) = true ∧ 8 ∈ regs ∧ 10 ∈ regs ∧
      h.vc.vvalid.getLsbD 8 = false ∧ h.vc.vvalid.getLsbD 10 = false ∧ (∀ q, q < 8 → q ∈ regs → h.vc.vvalid.getLsbD q = true)) ∧
    (let s := vecAt 0x402 1 4 0 0 0 fun h => { h with vc := { h.vc with vvalid := ~~~(1#41 <<< 33) } };
      33 ∈ usedRegs s vabc (.mask 1) [] [maskIndex 1] ∧ s.me.vc.vvalid.getLsbD 33 = false ∧ s.me.vstart = 0) := by decide

/-- Binary64 and E4M3, with an immediate that the format holds. -/
theorem witness_float : let s := vecAt 0x400 1 4 0 0 0 id;
    VecReady s ∧ s.me.fmtOf 0 = some .e4m3 ∧ s.me.fmtOf 6 = some .b64 ∧
    (let f : Fields := { vabc with b := 0, mod := 1, imm := 0xFF };
      f.immB = true ∧ immFits .e4m3 f = true) ∧
    groupsOk s.me [⟨8, 8, false⟩] (srcAB vabc 8 8 ++ [⟨0, 8, false⟩]) = true ∧ wideOf .bf16 = some .b32 ∧
    groupsOk (vecAt 0x401 1 4 0 0 0 id).me [⟨8, 32, true⟩] (srcAB vabc 16 16 ++ [⟨8, 32, true⟩]) = true :=
  ⟨⟨by decide, by decide, by decide, by decide, by decide⟩, by decide, by decide, by decide, by decide, by decide, by decide⟩

theorem witness_convert : let s := vecAt 0x402 1 4 0 0 0 id; let f : Fields := { vabc with b := 0, w := 5, x := 4 };
    VecReady s ∧ s.me.vl ≤ 8192 ∧ ConvertsTo s.me (.fmt .bf16) (.fmt .b32) ∧ s.me.cvtSide (f.x.getLsbD 4) (f.x.getLsbD 5) (f.xField 3 0) = some (.fmt .bf16) ∧
    s.me.cvtSide (f.modBit 45) (f.modBit 46) f.w.toNat = some (.fmt .b32) ∧
    (CTy.fmt .b32).width = 2 * (CTy.fmt .bf16).width ∧
    groupsOk s.me [⟨8, 32, true⟩] [⟨16, 16, false⟩] = true ∧ (7 : BitVec 5).toNat < 8 ∧ groupsOk s.me [] [⟨16, 32, false⟩] = true :=
  ⟨⟨by decide, by decide, by decide, by decide, by decide⟩, by decide, by unfold ConvertsTo; decide, by decide, by decide, by decide, by decide, by decide,
    by decide⟩

/-- A conversion to a grist format by whole slots, from bfloat16; one over a body of 4 columns, and one from 8 to 32 bits. -/
theorem witness_convertGrist : let s := vecAt 0x401 1 16 0 0 0 id; let f : Fields := { vabc with b := 0, w := 10, x := 4 };
    VecReady s ∧ ConvertsTo s.me (.fmt .bf16) (.grist .mg7) ∧
    s.me.cvtSide (f.x.getLsbD 4) (f.x.getLsbD 5) (f.xField 3 0) = some (.fmt .bf16) ∧
    s.me.cvtSide (f.modBit 45) (f.modBit 46) f.w.toNat = some (.grist .mg7) ∧
    groupsOk s.me [⟨8, 8, false⟩] [⟨16, 16, true⟩] = true ∧
    ¬ ConvertsTo (vecAt 0x401 1 4 0 0 0 id).me (.fmt .bf16) (.grist .mg7) ∧ ¬ ConvertsTo s.me (.fmt .e4m3) (.int 32 false) :=
  ⟨⟨by decide, by decide, by decide, by decide, by decide⟩, by unfold ConvertsTo; decide, by decide, by decide, by decide,
    by unfold ConvertsTo; decide, by unfold ConvertsTo; decide⟩

/-- The types of 06 Table 6.10 that a whole vector body of one row takes, and a body of a type that VSETL refuses. -/
theorem witness_vsetl :
    vtypeOk 0xDC0 = true ∧ vtypeOk 0xE40 = false ∧ ((0 : Word).toNat = 0) ∧ ((sysAt (regs3 1 2 0x2000)).rs 3).toNat % 16 = 0 ∧
    min ((sysAt (regs3 1 2 0x2000)).rs 1).toNat (vtRowcap 0x402) ≠ 0 ∧
    min ((sysAt (regs3 1 2 0x2000)).rs 2).toNat (vtColcap 0x402) ≠ 0 ∧
    (1048576 : Nat) ≤ dlLimit 0 ∧ (16777216 : Nat) ≤ dlLimit 2 := by decide

/-- The progress cell: two words of HBM that hold 5 and 3. -/
theorem witness_vsetlProgress :
    let s := (sysAt (regs3 1 2 0x2000)).setBytes 0x2000 [5, 0, 0, 0, 0, 0, 0, 0, 3];
    ∃ p q e1 e2, checkAccess s s.ctx .load (s.rs 3) = (s, .ok p e1) ∧ checkAccess s s.ctx .load (s.rs 3 + 8) = (s, .ok q e2) ∧
      spaceOf p = .hbm ∧ spaceOf q = .hbm ∧ leafDisc e1.leaf = false ∧ leafPres e1.leaf = false ∧ leafDisc e2.leaf = false ∧
      leafPres e2.leaf = false ∧ s.ownedIn p 8 = false ∧ s.absentIn p 8 = false ∧ s.poisonedIn p 8 = false ∧
      s.ownedIn q 8 = false ∧ s.absentIn q 8 = false ∧ s.poisonedIn q 8 = false ∧
      (ofBytes (s.bytesFor s.cur p 8) - ofBytes (s.bytesFor s.cur q 8) ≠ 0) :=
  ⟨_, _, _, _, rfl, rfl, by decide, by decide, by decide, by decide, by decide, by decide, by decide, by decide, by decide,
    by decide, by decide, by decide, by decide⟩

/-- Compares and mask instructions: a full body of 8,192 ordinals, every mask number, an empty and a full list. -/
theorem witness_masks : let s := vecAt 0xDC0 1 8192 0 0 0 fun h => { h with m := h.m.set 1 (.list [0, 8191]) };
    VecReady s ∧ s.me.vstart = 0 ∧ s.me.vl = 8192 ∧ (7 : BitVec 5).toNat < 8 ∧ (8 : BitVec 5).toNat ≤ 8 ∧
    s.me.intW 0 = some 8 ∧ s.me.fmtOf 0 = some .e4m3 ∧ (sysAt id).me.vl = 0 :=
  ⟨⟨by decide, by decide, by decide, by decide, by decide⟩, by decide, by decide, by decide, by decide, by decide, by decide,
    by decide⟩

theorem witness_compares : let s := vecAt 0x400 1 4 0 0 0 id;
    groupsOk s.me [] (srcAB vabc 8 8) = true ∧ ({ vabc with mod := 0x10 }).modField 44 42 ≤ 4 := by decide

/-- A list of 512 ordinals and one of 513. -/
theorem witness_maskLists : let full := vecAt 0xD00 1 513 0 0 0 fun h => { h with m := h.m.set 1 (.bitmap (BitVec.allOnes 8192)) };
    let fits := vecAt 0xD00 1 512 0 0 0 fun h => { h with m := h.m.set 1 (.bitmap (BitVec.allOnes 8192)) };
    fits.me.vl ≠ 0 ∧ ((List.range fits.me.vl).filter fun k => (fits.me.maskOp 1).bit k).length = 512 ∧
    ((List.range full.me.vl).filter fun k => (full.me.maskOp 1).bit k).length = 513 := by decide +kernel

/-- VIOTA to VMERGE, VSPLAT of a float, VMV.WHOLE and both directions of VMVSX. -/
theorem witness_moves : let s := vecAt 0x4C0 2 8 0 0 0 id;
    VecReady s ∧ s.me.intW 0 = some 8 ∧ groupsOk s.me [⟨8, 8, false⟩] [] = true ∧
    groupsOk s.me [⟨8, 8, false⟩] (srcAB vabc 8 8) = true ∧ s.me.fmtOf 0 = some .e4m3 ∧
    ({ vabc with mod := 0x20 }).modBit 45 = true ∧ (16 : BitVec 5).toNat % s.me.g = 0 ∧ (24 : BitVec 5).toNat % s.me.g = 0 :=
  ⟨⟨by decide, by decide, by decide, by decide, by decide⟩, by decide, by decide, by decide, by decide, by decide, by decide,
    by decide⟩

theorem witness_permute : let s := vecAt 0x400 2 8 0 0 0 id;
    VecReady s ∧ s.me.vstart = 0 ∧ s.me.intW 0 = some 8 ∧ groupsOk s.me [⟨8, 8, false⟩] [⟨16, 8, false⟩, ⟨24, 8, false⟩] = true ∧
    groupsOk s.me [⟨8, 8, false⟩] [⟨16, 8, false⟩] = true ∧ overlaps 8 s.me.g 16 s.me.g = false ∧
    overlaps 8 s.me.g 24 s.me.g = false :=
  ⟨⟨by decide, by decide, by decide, by decide, by decide⟩, by decide, by decide, by decide, by decide, by decide, by decide⟩

theorem witness_transpose : let s := vecAt 0x7C0 64 64 0 0 0 id;
    VecReady s ∧ s.me.vstart = 0 ∧ s.me.g = 8 ∧ s.me.cols ≤ s.me.rowcap ∧ s.me.rows ≤ s.me.colcap ∧
    (∀ g, vtFlt s.me.vc.vtype ≠ some (.grist g)) ∧ vtypeOk s.me.vc.vtype = true ∧
    groupsOk s.me [⟨8, s.me.sew, false⟩] [] = true := by
  refine ⟨⟨by decide, by decide, by decide, by decide, by decide⟩, by decide, by decide, by decide, by decide, ?_, by decide,
    by decide⟩
  intro g; cases g <;> decide

/-- One result and one per row, integers and floats. -/
theorem witness_reductions : let s := vecAt 0x400 4 8 0 0 0 id;
    let o : Opnd := ⟨8, 8, false⟩
    VecReady s ∧ s.me.vstart = 0 ∧ s.me.intW 0 = some 8 ∧ s.me.fmtOf 0 = some .e4m3 ∧ vabc.modBit 45 = false ∧
    ({ vabc with mod := 0x20 }).modBit 45 = true ∧
    groupsOk s.me [o] [⟨16, 8, false⟩, ⟨24, 8, false⟩] = true ∧ s.me.rows ≤ o.size s.me * 16384 / 8 ∧
    ({ vabc with x := 1 }).x.getLsbD 0 = true ∧ groupsOk s.me [o] [⟨24, 8, false⟩] = true :=
  ⟨⟨by decide, by decide, by decide, by decide, by decide⟩, by decide, by decide, by decide, by decide, by decide, by decide,
    by decide, by decide, by decide⟩

/-! ### Vector memory -/

/-- Two 16-bit elements in v8, addresses in s1. -/
def vmemAt (va sB : Word) : State := vecAt 0x401 1 2 0 0 0 (regs3 va sB 0)

def loadFields : Fields := { Fields.zero with d := 8, a := 1, b := 2 }
def storeFields : Fields := { Fields.zero with c := 8, a := 1, b := 2 }

/-- The form of a unit-stride load at `va`. -/
def unitLoad (va : Word) : MemOp := { load := true, ty := .plain 16, reg := 8, nf := 1, cell := cellUnit (.plain 16) va, vl := 2, epg := 1 }

def unitStore (va : Word) : MemOp :=
  { load := false, ty := .plain 16, reg := 8, nf := 1, cell := cellUnit (.plain 16) va, vl := 2, epg := 1 }

/-- What the checks of each access find. -/
def found (s : State) (m : MemOp) (k : Nat) : List Piece := (checkRun s s.ctx m.load (m.cell s.me k).1 m.bytes).2

/-- Two elements on both sides of a line. -/
theorem witness_vectorLoad : let s := vmemAt 0x203E 0;
    VecReady s ∧ s.me.memTy 0 = some (.plain 16) ∧ (MTy.plain 16).shapeOk s.me = true ∧
    (8 + 1 * s.me.g ≤ 32 ∧ ∀ j, j < 1 → Opnd.ok ⟨8 + j * s.me.g, 16, false⟩ s.me = true) ∧
    MemReady s loadFields (unitLoad 0x203E) (found s (unitLoad 0x203E)) := by
  refine ⟨⟨by decide, by decide, by decide, by decide, by decide⟩, by decide, by decide, ⟨by decide, by decide⟩, by decide, ?_, ?_,
    ?_, ?_⟩
  · intro k h
    simp only [MemOp.active, Bool.and_eq_true, decide_eq_true_eq] at h
    have h2 : k < 2 := h.1.1
    obtain rfl | rfl : k = 0 ∨ k = 1 := by omega
    all_goals decide
  · rw [show (unitLoad 0x203E).touched (vmemAt 0x203E 0).me loadFields = [0, 1] by decide]
    intro k h
    simp at h
    obtain rfl | rfl := h <;> rfl
  · rw [show (unitLoad 0x203E).touched (vmemAt 0x203E 0).me loadFields = [0, 1] by decide]
    intro k h p hp
    simp at h
    obtain rfl | rfl := h
    · rw [show found (vmemAt 0x203E 0) (unitLoad 0x203E) 0 = [.ok 0x203E 2 (bareEntry 0x203E)] by decide] at hp
      simp at hp; subst hp; exact ⟨_, _, _, rfl, by intro h; cases h⟩
    · rw [show found (vmemAt 0x203E 0) (unitLoad 0x203E) 1 = [.ok 0x2040 2 (bareEntry 0x2040)] by decide] at hp
      simp at hp; subst hp; exact ⟨_, _, _, rfl, by intro h; cases h⟩
  · rw [show (unitLoad 0x203E).touched (vmemAt 0x203E 0).me loadFields = [0, 1] by decide]
    decide

theorem witness_vectorStore : let s := vmemAt 0x203E 0;
    s.me.status.mfr = false ∧ s.memOk ∧ s.me.vstart < s.me.vl ∧
    MemReady s storeFields (unitStore 0x203E) (found s (unitStore 0x203E)) := by
  refine ⟨by decide, by unfold State.memOk; decide, by decide, by decide, ?_, ?_, ?_, ?_⟩
  · intro k h
    simp only [MemOp.active, Bool.and_eq_true, decide_eq_true_eq] at h
    have h2 : k < 2 := h.1.1
    obtain rfl | rfl : k = 0 ∨ k = 1 := by omega
    all_goals decide
  · rw [show (unitStore 0x203E).touched (vmemAt 0x203E 0).me storeFields = [0, 1] by decide]
    intro k h
    simp at h
    obtain rfl | rfl := h <;> rfl
  · rw [show (unitStore 0x203E).touched (vmemAt 0x203E 0).me storeFields = [0, 1] by decide]
    intro k h p hp
    simp at h
    obtain rfl | rfl := h
    · rw [show found (vmemAt 0x203E 0) (unitStore 0x203E) 0 = [.ok 0x203E 2 (bareEntry 0x203E)] by decide] at hp
      simp at hp; subst hp; exact ⟨_, _, _, rfl, fun _ => ⟨by decide, by decide, by decide⟩⟩
    · rw [show found (vmemAt 0x203E 0) (unitStore 0x203E) 1 = [.ok 0x2040 2 (bareEntry 0x2040)] by decide] at hp
      simp at hp; subst hp; exact ⟨_, _, _, rfl, fun _ => ⟨by decide, by decide, by decide⟩⟩
  · rw [show (unitStore 0x203E).touched (vmemAt 0x203E 0).me storeFields = [0, 1] by decide]
    decide

/-- An issue past its length, and the first elements of the groups of a segment and of a sweep. -/
theorem witness_vectorEmpty : (let h := ((vmemAt 0x203E 0).modMe fun h => { h with vc := { h.vc with vstart := 2 } }).me;
      h.vl ≠ 0 ∧ h.vl ≤ h.vstart) ∧
    (let h := ((vmemAt 0x203E 0).modMe fun h => { h with vc := { h.vc with dl := #v[2, 1, 1] } }).me;
      let total := h.vc.dl[0].toNat * h.vc.dl[1].toNat * h.vc.dl[2].toNat;
      total ≠ 0 ∧ (0 : Nat) + h.vl ≤ total ∧ (MTy.plain 16).isPlain = true ∧ (MTy.plain 16).isPacked = false ∧
      8 + 8 * h.g ≤ 32 ∧ h.bodyFits 1 16 = true ∧ overlaps 8 h.g 24 1 = false) := by decide

/-! ### Batched faults, VLDFF and bindings -/

/-- Two 16-bit elements: the last of the mapped page at 0x4000, and the first of the unmapped page after it. -/
def batchAt : State := (vecAt 0x401 1 2 0 0 0 fun h => { regs3 0x4FFE 0 0 h with ptbase := 1 }).modDie 0 fun d =>
  { d with tlb := [⟨0x4000, 12, none, 0x8000, leafPlain, 0⟩] }

/-- A batch of the form `m`, and a misaligned form of it. -/
def BatchFails (s : State) (f : Fields) (m : MemOp) (k0 k c : Nat) : Prop :=
  ∃ l lv a, BatchReady s f m l ∧ ((m.touched s.me f).find? fun k0 => (worst (l k0)).isSome) = some k0 ∧
    worst (l k0) = some (c, lv, a) ∧ (m.failOrds s.me f k0).head? = some k

/-- A piece that a store may write in one pass. -/
def storable (s : State) : Piece → Bool
  | .ok _ _ e => !leafRdup e.leaf && (!s.me.ptbase.getLsbD 0 || leafD e.leaf)
  | _ => false

theorem batchReady_of {s : State} {f : Fields} {m : MemOp} (h0 : s.me.vstart < m.vl)
    (h1 : (List.range m.vl).all (fun k => !m.active s.me f k || !m.misaligned s.me k) = true)
    (h2 : ∀ k0 ∈ m.touched s.me f, (checkRun s s.ctx m.load (m.cell s.me k0).1 m.bytes).1 = s)
    (h3 : (m.touched s.me f).all (fun k0 => (nowhereOf (found s m k0)).isNone) = true)
    (h4 : (m.passing s.me f (found s m)).all (fun k0 => !s.held m.load (found s m k0)) = true)
    (h5 : m.load = false → (s.me.gang = none ∧ s.me.status.mfr = false ∧ s.memOk ∧ s.storeBuf = []) ∧
      (m.passing s.me f (found s m)).all (fun k0 => (found s m k0).all (storable s)) = true) :
    BatchReady s f m (found s m) where
  started := h0
  aligned k hk := by
    have hlt : k < m.vl := by
      simp only [MemOp.active, Bool.and_eq_true, decide_eq_true_eq] at hk
      exact hk.1.1
    have := List.all_eq_true.1 h1 k (List.mem_range.2 hlt)
    simpa [hk] using this
  checked k0 hk := ⟨Prod.ext (h2 k0 hk) rfl, by simpa using List.all_eq_true.1 h3 k0 hk⟩
  free k0 hk := by simpa using List.all_eq_true.1 h4 k0 hk
  store hl := by
    obtain ⟨⟨a, b, c, d⟩, h⟩ := h5 hl
    refine ⟨a, b, c, d, ?_⟩
    intro k0 hk p hp
    have := List.all_eq_true.1 (List.all_eq_true.1 h k0 hk) p hp
    cases p with
    | ok pa n e =>
      simp only [storable, Bool.and_eq_true, Bool.or_eq_true, Bool.not_eq_true'] at this
      exact ⟨pa, n, e, rfl, this.1, this.2⟩
    | bad => cases this
    | nowhere => cases this

/-- The forms over `batchAt`: element 0 passes and element 1 fails. -/
def batchOp (load : Bool) (nf : Nat) (cell : Hart → Nat → Word × Nat) : MemOp :=
  { load := load, ty := .plain 16, reg := 8, nf := nf, cell := cell, vl := 2, epg := 1 }

/-- The last 16-bit element of the page, or the last segment of two, and the first of the unmapped page after it; index 2, and
a sweep over two columns. -/
def batchFrom (va : Word) : State := (vecAt 0x401 1 2 0 0 0x20000 fun h =>
    { regs3 va (if va = 0x4FFC then 4 else 0) 0 h with ptbase := 1, vc := { h.vc with dl := #v[2, 1, 1], ds := #v[2, 0, 0] } }).modDie 0
  fun d => { d with tlb := [⟨0x4000, 12, none, 0x8000, leafPlain, 0⟩] }

theorem batchFails_two {s : State} {f : Fields} {m : MemOp} {c lv : Nat} {a : Word} (ht : m.touched s.me f = [0, 1])
    (e0 : (checkRun s s.ctx m.load (m.cell s.me 0).1 m.bytes).1 = s) (e1 : (checkRun s s.ctx m.load (m.cell s.me 1).1 m.bytes).1 = s)
    (h0 : s.me.vstart < m.vl) (h1 : (List.range m.vl).all (fun k => !m.active s.me f k || !m.misaligned s.me k) = true)
    (h3 : (m.touched s.me f).all (fun k0 => (nowhereOf (found s m k0)).isNone) = true)
    (h4 : (m.passing s.me f (found s m)).all (fun k0 => !s.held m.load (found s m k0)) = true)
    (h5 : m.load = false → (s.me.gang = none ∧ s.me.status.mfr = false ∧ s.memOk ∧ s.storeBuf = []) ∧
      (m.passing s.me f (found s m)).all (fun k0 => (found s m k0).all (storable s)) = true)
    (w0 : worst (found s m 0) = none) (w1 : worst (found s m 1) = some (c, lv, a)) (hk : (m.failOrds s.me f 1).head? = some 1) :
    BatchFails s f m 1 1 c := by
  refine ⟨_, lv, a, batchReady_of h0 h1 ?_ h3 h4 h5, ?_, w1, hk⟩
  · intro k h
    rw [ht] at h
    simp at h
    obtain rfl | rfl := h
    · exact e0
    · exact e1
  · rw [ht]; simp [w0, w1]

theorem witness_batchUnit : let s := batchFrom 0x4FFE
    BatchFails s loadFields (batchOp true 1 (cellUnit (.plain 16) 0x4FFE)) 1 1 5 ∧
    BatchFails s storeFields (batchOp false 1 (cellUnit (.plain 16) 0x4FFE)) 1 1 6 :=
  ⟨batchFails_two (by decide) rfl rfl (by decide) (by decide) (by decide) (by decide) (by intro h; cases h)
      (by decide) rfl (by decide),
    batchFails_two (by decide) rfl rfl (by decide) (by decide) (by decide) (by decide) (fun _ => ⟨⟨by decide, by decide, by unfold State.memOk; decide, by decide⟩, by decide⟩)
      (by decide) rfl (by decide)⟩

theorem witness_batchRows : let s := batchFrom 0x4FFE
    BatchFails s loadFields (batchOp true 1 (cellRows 0 (.plain 16) 0x4FFE)) 1 1 5 ∧
    BatchFails s storeFields (batchOp false 1 (cellRows 0 (.plain 16) 0x4FFE)) 1 1 6 :=
  ⟨batchFails_two (by decide) rfl rfl (by decide) (by decide) (by decide) (by decide) (by intro h; cases h)
      (by decide) rfl (by decide),
    batchFails_two (by decide) rfl rfl (by decide) (by decide) (by decide) (by decide) (fun _ => ⟨⟨by decide, by decide, by unfold State.memOk; decide, by decide⟩, by decide⟩)
      (by decide) rfl (by decide)⟩

theorem witness_batchSeg : let s := batchFrom 0x4FFC
    BatchFails s { loadFields with mod := 4 } (batchOp true 2 (cellSeg 4 (.plain 16) 0x4FFC)) 1 1 5 ∧
    BatchFails s { storeFields with mod := 4 } (batchOp false 2 (cellSeg 4 (.plain 16) 0x4FFC)) 1 1 6 :=
  ⟨batchFails_two (by decide) rfl rfl (by decide) (by decide) (by decide) (by decide) (by intro h; cases h)
      (by decide) rfl (by decide),
    batchFails_two (by decide) rfl rfl (by decide) (by decide) (by decide) (by decide) (fun _ => ⟨⟨by decide, by decide, by unfold State.memOk; decide, by decide⟩, by decide⟩)
      (by decide) rfl (by decide)⟩

theorem witness_batchCast : let s := batchFrom 0x4FFE
    BatchFails s loadFields (batchOp true 1 fun h k => (0x4FFE + BitVec.ofNat 64 (k % h.cols * (16 / 8)), 0)) 1 1 5 :=
  batchFails_two (by decide) rfl rfl (by decide) (by decide) (by decide) (by decide) (by intro h; cases h)
      (by decide) rfl (by decide)

theorem witness_batchIndex : let s := batchFrom 0x4FFE
    BatchFails s { loadFields with b := 24 } (batchOp true 1 fun h k => (0x4FFE + idxOffset { loadFields with b := 24 } 16 h k, 0)) 1 1 5 ∧
    BatchFails s { storeFields with b := 24 } (batchOp false 1 fun h k => (0x4FFE + idxOffset { loadFields with b := 24 } 16 h k, 0)) 1 1 6 :=
  ⟨batchFails_two (by decide) rfl rfl (by decide) (by decide) (by decide) (by decide) (by intro h; cases h)
      (by decide) rfl (by decide),
    batchFails_two (by decide) rfl rfl (by decide) (by decide) (by decide) (by decide) (fun _ => ⟨⟨by decide, by decide, by unfold State.memOk; decide, by decide⟩, by decide⟩)
      (by decide) rfl (by decide)⟩

theorem witness_batchSweep : let s := batchFrom 0x4FFE
    BatchFails s loadFields { batchOp true 1 (fun h k =>
      let i := h.sweep (0 + k)
      (0x4FFE + BitVec.ofNat 64 i.1 * h.vc.ds[0] + BitVec.ofNat 64 i.2.1 * h.vc.ds[1] + BitVec.ofNat 64 i.2.2 * h.vc.ds[2], 0)) with eidx := fun k =>
        ((batchFrom 0x4FFE).me.sweep (0 + k)).1 + ((batchFrom 0x4FFE).me.sweep (0 + k)).2.1 * 2 ^ 20 +
          ((batchFrom 0x4FFE).me.sweep (0 + k)).2.2 * 2 ^ 40 } 1 1 5 ∧
    BatchFails s storeFields { batchOp false 1 (fun h k =>
      let i := h.sweep (0 + k)
      (0x4FFE + BitVec.ofNat 64 i.1 * h.vc.ds[0] + BitVec.ofNat 64 i.2.1 * h.vc.ds[1] + BitVec.ofNat 64 i.2.2 * h.vc.ds[2], 0)) with eidx := fun k =>
        ((batchFrom 0x4FFE).me.sweep (0 + k)).1 + ((batchFrom 0x4FFE).me.sweep (0 + k)).2.1 * 2 ^ 20 +
          ((batchFrom 0x4FFE).me.sweep (0 + k)).2.2 * 2 ^ 40 } 1 1 6 :=
  ⟨batchFails_two (by decide) rfl rfl (by decide) (by decide) (by decide) (by decide) (by intro h; cases h)
      (by decide) rfl (by decide),
    batchFails_two (by decide) rfl rfl (by decide) (by decide) (by decide) (by decide) (fun _ => ⟨⟨by decide, by decide, by unfold State.memOk; decide, by decide⟩, by decide⟩)
      (by decide) rfl (by decide)⟩

/-- Whole registers with translation off: the words of the second line, which is poisoned, and of a store all 256, above 2^56. -/
def wholeOp (load : Bool) (base : Word) : MemOp :=
  { load := load, ty := .plain 64, reg := 8, cell := fun _ k => (base + BitVec.ofNat 64 (8 * k), 0), vl := 256, epg := 1, whole := true }

theorem checkRun_bare {s : State} {x : MemCtx} (h : x.ptbase.getLsbD 0 = false) (load : Bool) (va : Word) (n : Nat) :
    (checkRun s x load va n).1 = s := by
  have hp : ∀ (va : Word) (n : Nat), (checkPiece s x load va n).1 = s := by
    intro va n
    have ht : (Machine.translate s x (if load then .load else .store) va).1 = s := by
      unfold Machine.translate
      simp only [h]
      split
      · rfl
      · simp only [Bool.not_false, if_true]; split <;> rfl
    unfold checkPiece
    generalize Machine.translate s x (if load then .load else .store) va = r at ht
    obtain ⟨s1, y⟩ := r
    cases y <;> exact ht
  unfold checkRun
  generalize lineRuns (n / 64 + 2) va n = l
  suffices ∀ p : List Piece, (l.foldl (fun (a : State × List Piece) r =>
      let c := checkPiece a.1 x load r.1 r.2
      (c.1, a.2 ++ [c.2])) (s, p)).1 = s from this []
  induction l with
  | nil => intro p; rfl
  | cons r l ih => intro p; simp only [List.foldl_cons, hp]; exact ih _

theorem witness_batchWhole : (let s := { vmemAt 0x2000 0 with poison := [(0x81, true)] }; BatchFails s loadFields (wholeOp true 0x2000) 8 8 0x16) ∧
    (let s := vmemAt 0x0100000000000000 0; BatchFails s storeFields (wholeOp false 0x0100000000000000) 0 0 6) := by
  refine ⟨⟨_, _, _, batchReady_of (by decide) (by decide) (fun k _ => checkRun_bare (by decide) _ _ _) (by decide) (by decide)
    (by intro h; cases h), by decide, rfl, by decide⟩, ⟨_, _, _, batchReady_of (by decide) (by decide)
      (fun k _ => checkRun_bare (by decide) _ _ _) (by decide) (by decide)
    (fun _ => ⟨⟨by decide, by decide, by unfold State.memOk; decide, by decide⟩, by decide⟩), by decide, rfl, by decide⟩⟩

/-- The first misaligned element: of 16 bits at an odd address, and of whole registers. -/
theorem witness_batchMisaligned : (let s := batchFrom 0x4001; let m := batchOp true 1 (cellUnit (.plain 16) 0x4001);
      s.me.vstart < m.vl ∧ ((List.range m.vl).find? fun k => m.active s.me loadFields k && m.misaligned s.me k) = some 0) ∧
    (let s := vmemAt 0x2008 0; let m := wholeOp false 0x2008;
      ((List.range m.vl).find? fun k => m.active s.me storeFields k && m.misaligned s.me k) = some 0) := by decide

/-- A first element that fails, and no element at all. -/
theorem witness_vldff : (let s := batchAt.modMe fun h => h.ws 1 0x5000;
    (worst (checkRun s s.ctx true 0x5000 2).2).isSome = true) ∧ (vecAt 0x401 0 2 0 0 0 id).me.vl = 0 := by decide

/-- The lowest free binding, and bindings held. -/
theorem witness_binding : ∃ s : State, let h := s.me; let f : Fields := { Fields.zero with d := 8, a := 3 };
    h.vstart = 0 ∧ (h.bindType f.w).isSome = true ∧ (h.vbind[(1 : Fin 4)]).v = false ∧
    (∀ j : Fin 4, j < 1 → (h.vbind[j]).v = true) ∧
    (∀ j : Fin 4, (h.vbind[j]).v = true →
      overlaps (h.vbind[j]).group.toNat (2 ^ (h.vbind[j]).lg.toNat) f.d.toNat h.g = false ∧ (h.vbind[j]).handle ≠ f.a) ∧
    f.d.toNat % h.g = 0 ∧ h.vc.vvalid = BitVec.allOnes 41 ∧ (s.handleOf s.cur.cluster f.a.toNat).desc.isSome = true ∧
    (h.vbind[(0 : Fin 4)]).group = 16 :=
  ⟨(vecAt 0x401 1 2 0 0 0 fun h => { h with vbind := h.vbind.set 0 ⟨true, false, false, 16, 0, 4, 0⟩ }).modHandle 0 3
    fun h => { h with desc := some 1 }, by decide⟩

/-! ### Streams -/

/-- A line of 64 bytes from its words. -/
def lineOf (l : List Nat) : BitVec 512 := BitVec.ofNat 512 (l.foldr (fun w n => w + n * 2 ^ 64) 0)

/-- An image of four lines in float mode: IN from handle 0, a STAGE of radix 2 on PE group 0, OUT to handle 1. -/
def image3 : List (BitVec 512) :=
  [lineOf [4 + 2 ^ 12 + 3 * 2 ^ 18, 1], lineOf [1 + 2 ^ 8], lineOf [3 + 2 * 2 ^ 8 + 2 ^ 16, 2 ^ 32 + 10 * 2 ^ 11 + 2 * 2 ^ 3, 0x1000],
    lineOf [2 + 3 * 2 ^ 8 + 2 * 2 ^ 16 + 2 ^ 40]]

def imageBytes : List Byte := image3.flatMap fun l => toBytes 64 l.toNat

def config3 : Config := ⟨cellarBase, image3, [], none⟩

/-- Cluster 0 with its fabric changed, the image at the start of its slice, and registers. -/
def fabAt (x y z : Word) (g : Fabric → Fabric) : State := ((sysAt (regs3 x y z)).setBytes cellarBase imageBytes).modFabric 0 g

theorem witness_image : let s := fabAt 0x80000000 0 0 id
    ImageReady s (s.rs 1) ∧ (s.loadConfig 0 (s.located (s.rs 1))).bad = none ∧
      RunsReady s ((s.loadConfig 0 (s.located (s.rs 1))).tableRuns 0) ∧ (s.fabric 0).running = false ∧
      (s.fabric 0).shadow = none :=
  ⟨⟨by unfold LocatorOk; decide, by decide, by decide, by decide, by decide, by decide⟩, by decide, by unfold RunsReady; decide,
    by decide, by decide⟩

/-- An image loaded already, and one whose header fails its check. -/
theorem witness_shadowAndBad : (let s := fabAt 0x80000000 0 0 fun x => { x with shadow := some config3 };
    LocatorOk (s.rs 1) 64 ∧ config3.loc = s.located (s.rs 1) ∧ (s.fabric 0).loading = none ∧ config3.bad = none ∧
      RunsReady s (config3.tableRuns 0)) ∧
    (let s := sysAt (regs3 0x80000000 0 0);
      s.imageLines (s.located (s.rs 1)) = 0 ∧ (s.loadConfig 0 (s.located (s.rs 1))).bad = some 0) := by
  unfold LocatorOk RunsReady; decide

/-- An image whose header's line is poisoned. -/
theorem witness_poisonedImage : let s := { fabAt 0x80000000 0 0 id with poison := [(cellarBase / 64, true)] }
    LocatorOk (s.rs 1) 64 ∧ s.ownedIn (s.located (s.rs 1)) 64 = false ∧ s.absentIn (s.located (s.rs 1)) 64 = false ∧
    (s.poisonFrom (s.located (s.rs 1)) 64).isSome = true := by unfold LocatorOk; decide

/-- A descriptor of binary32 elements at a hart port, which is legal, and words that say no stream. -/
theorem witness_sbind : let s := (sysAt (regs3 0x2000 0x2FC0 0)).setBytes 0x2000 [0xAD]
    WordsAt s (s.rs 1) 8 (fun k => 0x2000 + 8 * k) ∧ WordsAt s (s.rs 2) 8 (fun k => 0x2FC0 + 8 * k) ∧
    (StreamDesc.ok (BitVec.ofNat 512 (wordsAt s 8 fun k => 0x2000 + 8 * k)) 0 = true ∧
      StreamDesc.valid (BitVec.ofNat 512 (wordsAt s 8 fun k => 0x2FC0 + 8 * k)) = false) ∧
    (s.fabric 0).uses 31 = false := by
  refine ⟨⟨by decide, ?_⟩, ⟨by decide, ?_⟩, by decide, by decide⟩ <;>
  · intro k hk
    obtain rfl | rfl | rfl | rfl | rfl | rfl | rfl | rfl :
      k = 0 ∨ k = 1 ∨ k = 2 ∨ k = 3 ∨ k = 4 ∨ k = 5 ∨ k = 6 ∨ k = 7 := by omega
    all_goals exact ⟨_, rfl, by decide, by decide, by decide, by decide, by decide, by decide⟩

/-- STWID of the STAGE's table, and a patch of the IN's first parameter. -/
theorem witness_patch : let s := fabAt 8 0 0 fun x => { x with active := some config3 }
    (s.fabric 0).target false = some config3 ∧ config3.bad = none ∧ config3.kind 2 = 3 ∧ config3.resident 2 = true ∧
    2 ≤ config3.nnode ∧ RunsReady s [(cellarPa 0 (config3.sFtab 2), config3.sNb 2 * config3.blockBytes 2)] ∧
    ({ config3 with lines := config3.lines.set 1 (setBits (config3.line 1) (64 * 1) 64 (s.rs 1).toNat) } : Config).firstBad =
      none := by unfold RunsReady; decide

theorem witness_smod : ∃ p q n : Nat, p < 2 ^ 31 ∧ q < 2 ^ 31 ∧ p ≠ q ∧ n ≠ 0 ∧ (∀ d, d ∣ p → d = 1 ∨ d = p) ∧
    (∀ d, d ∣ q → d = 1 ∨ d = q) ∧ (p - 1) % n = 0 ∧ (q - 1) % n = 0 ∧ (fabAt 3 5 2 id).rs 1 = BitVec.ofNat 64 p ∧
    (fabAt 3 5 2 id).rs 2 = BitVec.ofNat 64 q ∧ (fabAt 3 5 2 id).rs 3 = BitVec.ofNat 64 n := by
  refine ⟨3, 5, 2, by decide, by decide, by decide, by decide, ?_, ?_, by decide, by decide, by decide, by decide, by decide⟩
  · intro d h
    have := Nat.le_of_dvd (by decide) h
    obtain rfl | rfl | rfl | rfl : d = 0 ∨ d = 1 ∨ d = 2 ∨ d = 3 := by omega
    all_goals revert h; decide
  · intro d h
    have := Nat.le_of_dvd (by decide) h
    obtain rfl | rfl | rfl | rfl | rfl | rfl : d = 0 ∨ d = 1 ∨ d = 2 ∨ d = 3 ∨ d = 4 ∨ d = 5 := by omega
    all_goals revert h; decide

theorem witness_sscale : ∃ d : StreamDesc, ((base.modHandle 0 4 fun h => { h with desc := some d }).handleOf 0 4).desc = some d ∧
    d.type ≤ 1 := ⟨1, by decide, by decide⟩

/-- Handle 0 an ingress and handle 1 an egress, both binary32 at hart ports, and the image active. -/
def programAt (x y z : Word) (g : Fabric → Fabric) : State := fabAt x y z fun f => g { f with
  active := some config3
  handles := (f.handles.set 0 { Handle.reset with desc := some 0xAD }).set 1 { Handle.reset with desc := some 0xAF } }

theorem witness_srun : let s := programAt 0 0 0 id
    let x := s.fabric 0
    x.active = some config3 ∧ x.running = false ∧ config3.bad = none ∧ config3.bound x = true ∧ config3.mode ≠ 2 ∧
    config3.rev = false ∧ config3.scratchOk x = true ∧ typeFault config3 x = none ∧ s.canTake config3.groups (s.heldGroups 0 none) = true ∧
    RunsReady s (s.topRuns 0 config3) := by
  unfold RunsReady; decide

/-- The same program running. -/
def run3 : Run :=
  { owner := 0, gang := none, groups := 1, nodes := [NodeState.start 1 0, NodeState.start 2 1, NodeState.start 3 1]
    env := ⟨.rne, false, 0, 0⟩, rounds := true, modp := 0, modq := 0, ctx := ⟨0, 0, true, 0⟩, written := 0, ovf := false, ended := false
    frozen := .no, marking := false, recs := [] }

/-- Another hart's dense mode holds the group; a run that has ended and one that goes on. -/
theorem witness_srunFails : let s := (programAt 0 0 0 id).modHart 1 fun h => { h with mxcfg := 0x100100 }
    s.canTake config3.groups (s.heldGroups 0 none) = false ∧ s.me.gang = none := by decide

theorem witness_sdrain : let s := programAt 0 0 0 fun x => { x with run := some { run3 with ended := true } }
    ∃ r, (s.fabric 0).run = some r ∧ r.owner = s.cur ∧ r.ended = true ∧ r.ovf = false := ⟨_, rfl, by decide, by decide, by decide⟩

/-- A free lane, a lane that another hart holds, a token waiting, and the end. -/
theorem witness_ports : ∃ s1 s2 s3 s4 : State,
    ((s1.handleOf 0 0).desc = some 0xAD ∧ (s1.handleOf 0 0).takeLane 0 ≠ none ∧ (s1.handleOf 0 0).port.length ≤ Config.portDepth) ∧
    ((s2.handleOf 0 0).desc = some 0xAD ∧ (s2.handleOf 0 0).takeLane 0 = none) ∧
    ((s3.handleOf 0 1).desc = some 0xAF ∧ (s3.handleOf 0 1).port = [7]) ∧
    ((s4.handleOf 0 1).desc = some 0xAF ∧ (s4.handleOf 0 1).port = [] ∧ (s4.handleOf 0 1).ended = true) ∧
    (∃ s5 : State, (s5.handleOf 0 0).desc = some 0xAD ∧ (s5.handleOf 0 0).takeLane 0 ≠ none ∧
      Config.portDepth < (s5.handleOf 0 0).port.length) ∧
    (StreamDesc.space 0xAD = 3 ∧ StreamDesc.out 0xAD = false ∧ StreamDesc.space 0xAF = 3 ∧ StreamDesc.out 0xAF = true) :=
  ⟨programAt 0 0 0 id, (programAt 0 0 0 id).modHandle 0 0 fun h => { h with lanes := [⟨1, false⟩] },
    (programAt 0 0 0 id).modHandle 0 1 fun h => { h with port := [7] },
    (programAt 0 0 0 id).modHandle 0 1 fun h => { h with ended := true },
    ⟨by decide, by decide, Nat.zero_le _⟩, by decide, by decide, by decide,
    ⟨(programAt 0 0 0 id).modHandle 0 0 fun h => { h with port := List.replicate (Config.portDepth + 1) 0 }, by decide, by decide, by
      show Config.portDepth < (List.replicate (Config.portDepth + 1) 0).length
      simp⟩, by decide⟩

/-- A program whose marker has passed every node. -/
theorem witness_smark : let s := programAt 0x80010000 0 0 fun x => { x with run := some { run3 with
      marking := true, nodes := run3.nodes.map fun n => { n with marked := true } } }
    s.me.status.sys = true ∧ LocatorOk (s.rs 1) 65536 ∧ s.memOk ∧ ∃ r, s.live 0 = some (config3, r) ∧ r.marking = true ∧
      r.allMarked config3 = true :=
  ⟨by decide, by unfold LocatorOk; decide, by unfold State.memOk; decide +kernel, _, rfl, by decide, by decide⟩

/-- A save area whose node images stand as they were saved, and an area of a region that nothing has saved. -/
theorem witness_sresumeImg : ∃ (s : State) (v : Saved), s.me.status.sys = true ∧ LocatorOk (s.rs 1) 65536 ∧ s.memOk ∧
    (s.fabric 0).active = some config3 ∧ RunsReady s [(s.located (s.rs 1), 65536)] ∧ s.imageIn (s.bytes (s.located (s.rs 1)) 65536) config3.lines = some v ∧
    (programAt 0x80010000 0 0 id).imageIn (s.bytes (s.located (s.rs 1)) 65536) config3.lines = none := by
  let t := programAt 0x80010000 0 0 id
  let image := ((t.bytes (t.located (t.rs 1)) 65536).drop 512).take 1536
  let v : Saved := ⟨image, config3, run3, (t.fabric 0).handles⟩
  refine ⟨{ t with images := [v] }, v, by decide, by unfold LocatorOk; decide, by unfold State.memOk; decide +kernel, by decide,
    by unfold RunsReady; decide +kernel, ?_, rfl⟩
  show [v].find? _ = _
  apply List.find?_cons_of_pos
  rw [Bool.and_eq_true]
  refine ⟨by decide, ?_⟩
  show (List.take image.length ((t.bytes (t.located (t.rs 1)) 65536).drop 512) == image) = true
  rw [beq_iff_eq, List.length_take, ← List.take_eq_take_min]

/-- A generator that holds, and none that does, with no frozen program; and a gang's frozen program. -/
theorem witness_sresume : ∃ s u : State,
    let mine (s : State) (p : Parked) : Bool := s.me.gang.isSome && p.saved.run.gang == s.me.gang
    (s.handleOf 0 1).held = true ∧ (s.handleOf 0 0).held = false ∧ (s.fabric 0).parked.any (mine s) = false ∧
      (u.fabric 0).parked.any (mine u) = true :=
  ⟨base.modHandle 0 1 fun h => { h with held := true }, (sysAt fun h => { h with gang := some (0, 1) }).modFabric 0 fun x =>
    { x with parked := [⟨⟨[], config3, { run3 with gang := some (0, 1) }, x.handles⟩, []⟩] }, by decide⟩

/-! ### Floating-point traps and bound groups -/

/-- Elements 0 and 1 of four by one and element 2 by zero, with DZ enabled: the trap is at element 2 in the first group. -/
theorem witness_fltTraps : let s := vecAt 0x402 1 4 0 0x3F8000003F8000003F8000003F800000 0x3F8000003F800000 fun h =>
      { h with fp := { h.fp with ctl := { h.fp.ctl with enables := 8 } } };
    let o : Opnd := ⟨8, 32, false⟩;
    let g (k : Nat) := Fmt.b32.fdiv (s.me.fenv 0) (s.me.pos k) (s.me.getE 16 32 (s.me.pos k)) (s.me.fltB vabc .b32 k);
    s.me.fmtOf 0 = some .b32 ∧ VecReady s.untrapped ∧ groupsOk s.me [o] (srcAB vabc 32 32) = true ∧ s.me.vstart ≤ 2 ∧ 2 < s.me.vl ∧
    (s.me.enabled vabc 2 = true ∧ (g 2).2 &&& s.me.fp.ctl.enables ≠ 0) ∧ ∀ k, k < 2 → (g k).2 &&& s.me.fp.ctl.enables = 0 :=
  ⟨by decide, ⟨by decide, by decide, by decide, by decide, by decide⟩, by decide, by decide, by decide, by decide, by decide⟩

/-- v8 := v16 + v24 in four elements of 32 bits, with binding 2 at one of the two ports of `programAt`. -/
def boundAt (b : VBind) (p : List Nat) (ended : Bool) (v : BitVec 14) : State :=
  (vecAt 0x402 1 4 0 0 0 fun h => { h with vbind := h.vbind.set 2 b, vc := { h.vc with vstart := v } }).modFabric 0 fun f => { f with
    handles := (f.handles.set 0 { Handle.reset with desc := some 0xAD, port := p }).set 1
      { Handle.reset with desc := some 0xAF, port := p, ended := ended } }

def bindIn : VBind := ⟨true, false, false, 16, 0, 1, 5⟩
def bindOut : VBind := ⟨true, true, false, 8, 0, 0, 5⟩

/-- What every clause asks for. -/
def BoundReady (s : State) : Prop :=
  VecReady (s.bound 2 { s.me.vbind[(2 : Fin 4)] with v := false }) ∧ groupsOk s.me [⟨8, 32, false⟩] (srcAB vabc 32 32) = true ∧
    s.me.vl = 4 ∧ s.me.fp.ctl.enables = 0

theorem bound_ready {s : State} (h : let t := s.bound 2 { s.me.vbind[(2 : Fin 4)] with v := false }
    (t.me.vc.vvalid = BitVec.allOnes 41 ∧ (∀ i : Fin 4, (t.me.vbind[i]).v = false) ∧ t.me.fp.ctl.enables = 0 ∧ t.stopAfter = none ∧
      t.me.cols ≤ t.me.colcap) ∧ groupsOk s.me [⟨8, 32, false⟩] (srcAB vabc 32 32) = true ∧ s.me.vl = 4 ∧
      s.me.fp.ctl.enables = 0) : BoundReady s :=
  ⟨⟨h.1.1, h.1.2.1, h.1.2.2.1, h.1.2.2.2.1, h.1.2.2.2.2⟩, h.2⟩

/-- A group bound IN among the sources with tokens enough, too few, and at the end; one that has been drained, one resumed, and
one of no source; a group bound OUT that is the destination, with its port free and full, and one that is not. -/
theorem witness_boundGroups : let d : Opnd := ⟨8, 32, false⟩;
    (∀ p ∈ [([1, 2, 3, 4], false), ([1, 2, 3], false), ([1, 2, 3], true)], let s := boundAt bindIn p.1 p.2 0;
      BoundReady s ∧ (s.myHandle 1).port = p.1 ∧ (s.myHandle 1).ended = p.2 ∧ (s.myHandle 1).isPort true = true ∧
      (∃ o ∈ srcAB vabc 32 32, bindIn.group.toNat = o.reg ∧ bindIn.size = o.size s.me) ∧ s.me.vstart = 0) ∧
    BoundReady (boundAt { bindIn with drained := true } [] true 0) ∧ BoundReady (boundAt bindIn [] false 1) ∧
    (BoundReady (boundAt { bindIn with group := 12 } [] false 0) ∧ ∀ o ∈ srcAB vabc 32 32, o.reg ≠ 12) ∧
    (let s := boundAt bindOut [] false 0;
      BoundReady s ∧ bindOut.group.toNat = d.reg ∧ bindOut.size = d.size s.me ∧ s.canPush bindOut = true ∧ (s.myHandle 0).portFull = false) ∧
    (let s := boundAt bindOut (List.replicate (Config.portDepth + 1) 0) false 0;
      BoundReady s ∧ s.canPush bindOut = true ∧ (s.myHandle 0).portFull = true) ∧
    BoundReady (boundAt { bindOut with group := 12 } [] false 0) := by
  refine ⟨?_, bound_ready (by decide), bound_ready (by decide), ⟨bound_ready (by decide), by decide⟩, ⟨bound_ready (by decide), by decide, by decide, by decide, ?_⟩,
    ⟨bound_ready (by decide), by decide, ?_⟩, bound_ready (by decide)⟩
  · simp only [List.forall_mem_cons]
    refine ⟨⟨bound_ready (by decide), by decide, by decide, by decide, by decide, by decide⟩,
      ⟨bound_ready (by decide), by decide, by decide, by decide, by decide, by decide⟩,
      ⟨bound_ready (by decide), by decide, by decide, by decide, by decide, by decide⟩, ?_⟩
    intro x hx; cases hx
  · show decide (Config.portDepth < 0) = false
    simp
  · show decide (Config.portDepth < (List.replicate (Config.portDepth + 1) 0).length) = true
    simp

/-! ### Nodes and programs -/

/-- A float-mode image with a node of each kind; its nodes are given by their words 0 and 1. -/
def allNodes : Config := ⟨0, lineOf [15 + 2 ^ 12 + 14 * 2 ^ 18, 1] :: (List.map (fun p : Nat × Nat => lineOf [p.1, p.2]) [
    (1 + 1 * 2 ^ 8, 0),
    (3 + 2 * 2 ^ 8 + 1 * 2 ^ 16, 2 ^ 32 + 10 * 2 ^ 11 + 2 * 2 ^ 3),
    (4 + 3 * 2 ^ 8 + 2 * 2 ^ 16, 0),
    (5 + 4 * 2 ^ 8 + 3 * 2 ^ 16, 1 + 2 ^ 5),
    (6 + 5 * 2 ^ 8 + 4 * 2 ^ 16, 1 + 10 * 2 ^ 5),
    (6 + 6 * 2 ^ 8 + 5 * 2 ^ 16 + 13 * 2 ^ 24, 10 * 2 ^ 5),
    (7 + 7 * 2 ^ 8 + 6 * 2 ^ 16, 0),
    (8 + 8 * 2 ^ 8 + 7 * 2 ^ 16 + (7 + 2 ^ 7) * 2 ^ 24 + 7 * 2 ^ 32, 0),
    (9 + 9 * 2 ^ 8 + 8 * 2 ^ 16, 2),
    (0xA + 10 * 2 ^ 8 + 9 * 2 ^ 16 + 13 * 2 ^ 24, 2),
    (0xB + 11 * 2 ^ 8 + 10 * 2 ^ 16, 2 ^ 7 + 2 ^ 32),
    (2 + 12 * 2 ^ 8 + 11 * 2 ^ 16 + 2 ^ 40, 0),
    (1 + 13 * 2 ^ 8 + 2 * 2 ^ 40, 0),
    (2 + 14 * 2 ^ 8 + 13 * 2 ^ 16 + 3 * 2 ^ 40, 0)]), [], none⟩

/-- A token of binary32: one. -/
def tok1 : Item := ⟨.val (.flt .b32 0x3F800000) (.int 0), Scale.zero⟩

/-- Two inputs that hold two tokens each, with the parts that the kinds with memory need. -/
def nodeWith (n : Nat) : NodeState :=
  { NodeState.start n 2 with
    ins := if n = 11 then [Port.empty] else [⟨[tok1, tok1], false, false⟩, ⟨[tok1, tok1], false, false⟩]
    dirs := [true], acc := [[tok1], [tok1]], out := if n = 9 then 1 else 0, cnt := if n = 10 then 1 else 0, cur := some tok1 }

def runAll (g : NodeState → NodeState) : Run := { run3 with nodes := (List.range 14).map fun n => g (nodeWith (n + 1)) }

/-- Handles 0 and 1 at hart ports, 2 and 3 at the start of the own slice, all binary32. -/
def nodesAt (g : NodeState → NodeState) : State := base.modFabric 0 fun f => { f with
  active := some allNodes, run := some (runAll g)
  handles := (((f.handles.set 0 { Handle.reset with desc := some 0xAD, port := [5] }).set 1
    { Handle.reset with desc := some 0xAF }).set 2
    { Handle.reset with desc := some (lineOf [0xA1, 0x80000000, 4 + 2 ^ 32, 1, 4, 0]) }).set 3
    { Handle.reset with desc := some (lineOf [0xA3, 0x80001000, 4 + 2 ^ 32, 1, 4, 0]) } }

theorem witness_nodes : let s := nodesAt id; let r := runAll id; let c : ClusterId := 0
    s.live c = some (allNodes, r) ∧ allNodes.rev = false ∧ allNodes.mode = 1 ∧
    (∀ n ∈ allNodes.nodes, (r.node n).fin = false ∧ s.blocked c allNodes n = false) ∧
    allNodes.nodes.map allNodes.kind = [1, 3, 4, 5, 6, 6, 7, 8, 9, 0xA, 0xB, 2, 1, 2] ∧
    (∀ n ∈ [2, 3, 4, 5, 6], allNodes.unit (s.fabric c) n ≤ ((r.node n).port 0).q.length ∧
      allNodes.unit (s.fabric c) n ≤ ((r.node n).port 1).q.length) ∧
    s.factorHold c allNodes 2 ((r.node 2).cnt / allNodes.sB 2) (allNodes.unit (s.fabric c) 2 / allNodes.sB 2) = .now () ∧
    allNodes.binary 5 = false ∧ allNodes.binary 6 = true ∧ allNodes.ctrl 7 = false ∧
    (r.node (allNodes.src 8 2).1).dirs[(r.node 8).cnt]? = some true := by decide +kernel

theorem witness_nodesWithMemory : let s := nodesAt id; let r := runAll id
    ((r.node 9).out % allNodes.period 9 ≠ 0 ∧ (r.node 9).out ≠ 0 ∧ (∀ p ∈ ((r.node 10).port 0).q, p = tok1)) ∧
    ((r.node 10).cnt % allNodes.period 10 ≠ 0 ∧ (r.node 10).cur = some tok1) ∧
    (((runAll fun n => { n with cnt := 0 }).node 10).cnt % allNodes.period 10 = 0) ∧
    ((r.node 11).port 0).q.length < allNodes.xP 11 * allNodes.blk 11 ∧ 1 ≤ allNodes.blk 11 ∧ allNodes.xP 11 = 2 ∧
    (∀ i, i < 2 → allNodes.blk 11 ≤ ((r.node 11).acc.getD i []).length) ∧ s.images = [] := by decide +kernel

/-- A CARRY between tokens, whose consumer has taken the last and whose loop has no entry. -/
theorem witness_carry : let r := runAll fun n => if n.id = 10 then { n with ins := [Port.empty, ⟨[tok1], false, false⟩] } else n
    (∀ m ∈ allNodes.nodes, ∀ p ∈ (allNodes.consumes m).zipIdx, p.1.1 = 9 → ((r.node m).port p.2).q = []) ∧
      (r.entries allNodes 9 = [] ∨ ∃ p ∈ r.entries allNodes 9, p.q ≠ []) := by decide +kernel

theorem witness_ends : let s := nodesAt id; let r := runAll id; let c : ClusterId := 0
    (∀ n ∈ [1, 13], s.admits c allNodes r n = true) ∧
    (∀ p ∈ [(1, 3), (13, 0), (12, 3), (14, 0)], ∃ d, (s.nodeHandle c allNodes p.1).desc = some d ∧ 2 ≤ d.type ∧
      d.space = p.2 ∧ d.chk = false ∧ d.diag = false ∧ typeGrist d.type = none) ∧
    (s.nodeHandle c allNodes 1).port = [5] ∧
    (∃ d, (s.nodeHandle c allNodes 13).desc = some d ∧ (s.nodeHandle c allNodes 13).pos < d.elems ∧
      ∃ l, s.readSlice (locator c (d.w 1)).1 d.diag (((locator c (d.w 1)).2 : Int) + d.offset 0).toNat d.eb = .now l) ∧
    (∀ n ∈ [12, 14], (s.nodeHandle c allNodes n).held = false ∧ allNodes.unit (s.fabric c) n = 1 ∧
      ((r.node n).port 0).q = [tok1, tok1]) ∧
    (s.nodeHandle c allNodes 12).portFull = false ∧ (∃ d, (s.nodeHandle c allNodes 14).desc = some d ∧
      (s.nodeHandle c allNodes 14).pos < d.elems ∧ (((locator c (d.w 1)).2 : Int) + d.offset 0).toNat + 4 ≤ 2 ^ 24) ∧
    s.owned = [] ∧ s.memOk := by
  refine ⟨by decide +kernel, ?_, by decide, ⟨_, rfl, by decide +kernel, _, rfl⟩, by decide +kernel, ?_, ⟨_, rfl, by decide +kernel,
    by decide +kernel⟩, by decide, by unfold State.memOk; decide⟩
  · intro p hp
    simp only [List.mem_cons, List.not_mem_nil, or_false] at hp
    obtain rfl | rfl | rfl | rfl := hp <;>
      exact ⟨_, rfl, by decide +kernel, by decide +kernel, by decide +kernel, by decide +kernel, by decide +kernel⟩
  · simp [Handle.portFull]; decide

/-- A node whose input is dry: after end of stream, and after the marker. -/
theorem witness_dryNodes : let m (mk : Bool) : Run := runAll fun n => if n.id = 2 then
      { n with ins := [⟨[], !mk, mk⟩] } else n
    let s := nodesAt id
    (∀ b, ((m b).node 2).fin = false ∧ (((m b).node 2).port 0).q = [] ∧ ((m b).node 2).marked = false ∧
      (((m b).node 2).port 0).eos = !b ∧ (((m b).node 2).port 0).marked = b) ∧
    allNodes.kind 2 = 3 ∧ s.blocked 0 allNodes 2 = false ∧ 1 ≤ allNodes.unit (s.fabric 0) 2 ∧
    (allNodes.consumes 2).length = 1 := by
  refine ⟨?_, by decide +kernel, by decide +kernel, by decide +kernel, by decide +kernel⟩
  intro b; cases b <;> decide +kernel

/-- An ingress whose line is poisoned holds. -/
theorem witness_hold : ∃ (t : State) (va : Word),
    let s := { nodesAt id with poison := [(cellarBase / 64, true)] }
    allNodes.kind 13 = 1 ∧ ((runAll id).node 13).fin = false ∧ s.failing 0 (runAll id) (allNodes.handle 13) = 2 ∧
    (∀ m ∈ allNodes.nodes, m ≠ 13 → allNodes.handle m ≠ 2 ∧
      (allNodes.kind m = 1 → s.failing 0 (runAll id) (allNodes.handle m) ≠ 2)) ∧
    s.admits 0 allNodes (runAll id) 13 = true ∧ s.nextTok 0 (runAll id) (allNodes.handle 13) = (t, .hold 0x16 va) :=
  ⟨_, _, by decide +kernel, by decide +kernel, by decide +kernel, by decide +kernel, by decide +kernel, rfl⟩

/-- Every OUT has ended, and a node that has ended keeps a surplus token. -/
theorem witness_programEnd : ∃ r : Run, let s := programAt 0 0 0 fun x => { x with run := some r }
    s.live 0 = some (config3, r) ∧ config3.rev = false ∧ ∀ n ∈ config3.nodes, (config3.kind n ≤ 2 → (r.node n).fin = true) ∧
      ((r.node n).fin = true ∨ (∀ p ∈ (r.node n).ins, p.q = []) ∧ ∀ l ∈ (r.node n).acc, l = []) ∧ (config3.kind n ≤ 2 → (s.nodeHandle 0 config3 n).held = false) :=
  ⟨{ run3 with nodes := run3.nodes.map fun n => { n with fin := true, ins := n.ins.map fun p => { p with q := [tok1] } } },
    by decide +kernel⟩

/-- A prefetch of a readable image, of one whose header waits for a copy, and of one whose header is poisoned. -/
theorem witness_prefetch : let s (l : SMap (List Nat)) (p : List (Nat × Bool)) : State :=
      { fabAt 0 0 0 fun x => { x with loading := some cellarBase } with absent := l, poison := p };
    (∀ x ∈ [s [] [], s [(cellarBase, [1])] [], s [] [(cellarBase / 64, true)]], (x.fabric 0).loading = some cellarBase ∧
      (x.loadConfig 0 cellarBase).bad = none ∧ x.imageRun cellarBase = (cellarBase, 256)) ∧
    (∀ x ∈ (s [] []).imageRun cellarBase :: ((s [] []).loadConfig 0 cellarBase).tableRuns 0,
      (s [] []).ownedIn x.1 x.2 = false ∧ (s [] []).absentIn x.1 x.2 = false ∧ (s [] []).poisonFrom x.1 x.2 = none) ∧
    (s [(cellarBase, [1])] []).absentIn cellarBase 256 = true ∧ (s [] [(cellarBase / 64, true)]).poisonFrom cellarBase 256 ≠ none := by
  decide +kernel

/-! ### Tasks and the calendar -/

/-- A header: slack 2, pre-emption bound 16, the gang's clusters, entry 0x1000. -/
def headerBytes (mask : Nat) : List Byte := [0x1000200000, 0, 0, 0, mask, 0, 0x1000].flatMap (toBytes 8)

def header (mask : Nat) : Header := (parseHeader (headerBytes mask ++ List.replicate 200 0)).1

/-- A task as it was queued, and after its check. -/
def newTask (n : Nat) : Task := Task.queued n 0x3000 1 0 0 0 0x9000 none
def checkedTask (n mask : Nat) : Task := (newTask n).checked (header mask) [] []

/-- The header of cluster 1's task at 0x3000, at a cycle, with the tasks of die 0. -/
def calAt (cyc : Nat) (l : List Task) (g : CalUnit → CalUnit) : State :=
  (({ base with cycle := cyc } : State).setBytes 0x3000 (headerBytes 2)).modCal 0 fun u => g { u with tasks := l }

theorem witness_dispatchCheck : let s := calAt 0 [newTask 1] fun u => { u with fifo := u.fifo.set 1 [1] }
    s.task 0 1 = some (newTask 1) ∧ ((s.die 0).cal.tasks.map Task.num).Nodup ∧ (newTask 1).st = .queued ∧ (newTask 1).hdr = none ∧
    1 ∈ ((s.die 0).cal.fifo[(1 : Fin 8)]).take 8 ∧
    (∃ s' h claims streams, dispatch s (taskCtx 0 0 0) 0x3000 (some 0) = (s', .ok h claims streams)) ∧
    dispatch base (taskCtx 0 0 0) 0x3000 (some 0) = (base, .refused 2 0) :=
  ⟨by decide, by decide, by decide, by decide, by decide, ⟨_, _, _, _, rfl⟩, rfl⟩

theorem witness_readySet : let s := calAt 65536 [checkedTask 1 2] id
    s.task 0 1 = some (checkedTask 1 2) ∧ (checkedTask 1 2).st = .queued ∧ (checkedTask 1 2).hdr.isSome = true ∧
    (s.die 0).cal.ready.length < 64 ∧ s.readyOk 0 (checkedTask 1 2) = true ∧ (checkedTask 1 2).since + 4096 ≤ s.slot := by
  decide +kernel

/-- A ready task alone: one whose hart is free, and one whose hart runs. -/
def readyTask (mask : Nat) : Task := { checkedTask 1 mask with st := .ready, reserved := true }

/-- The unit free at a slot boundary; and at the end of a search that found a slot, which still fits, does not, or is asked of
another die too, or found none. -/
theorem witness_calendarPass : let s (cyc m : Nat) (x : Option CalSearch) := calAt cyc [readyTask m] fun u => { u with ready := [1], search := x }
    let z (m : Nat) := (s 1610 m (some ⟨.pass, 1, some 104, [3]⟩)).modCal 0 fun u => u.searched ⟨.pass, 1, some 104, [3]⟩
    (∀ cyc ∈ [1600, 1610], ∀ m ∈ [1, 2, 2 + 2 ^ 40], ∀ x ∈ [none, some ⟨.pass, 1, none, []⟩, some ⟨.pass, 1, some 104, [3]⟩],
      let u := ((s cyc m x).die 0).cal
      (s cyc m x).task 0 1 = some (readyTask m) ∧ u.busy ≤ cyc ∧ u.ready = [1] ∧ u.compaction = none ∧ u.calls = [] ∧ u.rounds = [] ∧
        u.pass = [] ∧ u.search = x) ∧
    1600 % 16 = 0 ∧ 1610 % 16 ≠ 0 ∧
    (z 2).fitsOn 0 0 (readyTask 2) 100 104 = true ∧ (readyTask 2).crossDie 0 = false ∧
    (z 1).fitsOn 0 0 (readyTask 1) 100 104 = false ∧
    (z (2 + 2 ^ 40)).fitsOn 0 0 (readyTask (2 + 2 ^ 40)) 100 104 = true ∧ (readyTask (2 + 2 ^ 40)).crossDie 0 = true := by
  decide +kernel

/-- A running task with a claim of a PE group in every other slot until it ends. -/
theorem witness_rolling : let c : Claim := ⟨0, 3, 0, 1, 2, 0, 0, 0, 0, 0, []⟩
    let t : Task := { readyTask 2 with st := .running, claims := [c], bookStart := 4 }
    let s := calAt 64 [t] id
    s.task 0 1 = some t ∧ ((s.die 0).cal.tasks.map Task.num).Nodup ∧ (t.st = .booked ∨ t.st = .running) ∧ c ∈ t.claims ∧
      c.rolling = true ∧ (0, 3) ∈ c.resources ∧ (0 : DieId) ∈ Resource.dies (0, 3) ∧ ((1, 0) : DieId × Nat) ≠ (0, t.num) ∧ 0 < c.length := by decide +kernel

/-- A booked task at its start, a running one at its end, and one that runs while another's occurrence takes its group. -/
theorem witness_gangStart : let t : Task := { readyTask 2 with st := .booked, bookStart := 4 }
    let s := calAt 64 [t] id
    s.task 0 1 = some t ∧ t.hdr = some (header 2) ∧ t.bookStart ≤ s.slot ∧ s.dev.tripped = false ∧ t.remainder = false ∧
    (header 2).harts ≤ 3 ∧ ∀ m ∈ (header 2).harts', (s.hart m).gang = none ∧ (s.hart m).run = .stopped ∧ (s.hart m).tags.busy = 0 := by
  decide +kernel

def runningTask (l : List HartId) : Task :=
  { readyTask 1 with st := .running, members := l, allMembers := l, bookStart := 0, bookEnd := 4, tail := 2 }

/-- A gang member that halts. -/
theorem witness_haltInGang : let s := (calAt 64 [runningTask [0]] id).modMe fun h => { h with gang := some (0, 1) }
    s.me.status.sys = true ∧ s.me.gang = some (0, 1) ∧ s.task 0 1 = some (runningTask [0]) ∧ (runningTask [0]).hdr.isSome = true ∧
    s.cur ∈ (runningTask [0]).members := by decide +kernel

theorem witness_overrun : let s := calAt 64 [runningTask [0]] id
    s.task 0 1 = some (runningTask [0]) ∧ (runningTask [0]).members.head? = some 0 ∧ (runningTask [0]).bookEnd ≤ s.slot := by decide +kernel

def groupClaim : Claim := ⟨0, 0, 0, 8, 0, 0, 0, 0, 0, 0, []⟩

theorem witness_bookedConflict : let t2 : Task := { checkedTask 2 2 with
      st := .booked, claims := [groupClaim], bookStart := 4, bookEnd := 14, span := 8, tail := 2 }
    let s := ((calAt 64 [runningTask [0], t2] id).modFabric 0 fun f => { f with
      active := some config3, run := some { run3 with gang := some (0, 1) } }).modMe fun h => { h with gang := some (0, 1) }
    ∃ r, s.live 0 = some (config3, r) ∧ r.gang = some (0, 1) ∧ (s.hart r.owner).gang = some (0, 1) ∧ r.groups.getLsbD 0 = true ∧
      s.occupied (0, 1) (groupRes 0 0) s.slot = true := ⟨_, rfl, by decide +kernel, by decide +kernel, by decide, by decide +kernel⟩

/-- A matrix update of hart 0 in dense mode on PE group 0, which the other booking holds. -/
theorem witness_bookedConflictMatrix : let t2 : Task := { checkedTask 2 2 with
      st := .booked, claims := [groupClaim], bookStart := 4, bookEnd := 14, span := 8, tail := 2 }
    let s := ((calAt 64 [runningTask [0], t2] id).modCluster 0 fun c => { c with tileHist := c.tileHist.set 0 [[(0, 1)]] }).modMe
      fun h => { h with gang := some (0, 1), mxcfg := 0x100100 }
    s.live 0 = none ∧ (s.hart (hartOf 0 0)).gang = some (0, 1) ∧
      (∀ j : Fin 4, (s.hart (hartOf 0 j)).denseGroups.getLsbD 0 = decide (j = 0)) ∧ (s.hart (hartOf 0 0)).mxcfg.getLsbD 8 = true ∧
      (s.cluster 0).tileHist[(0 : Fin 8)] ≠ [] ∧ s.occupied (0, 1) (groupRes 0 0) s.slot = true := by decide +kernel

/-- Nothing that can move; one booking that can; the end of its search, at which the slot found fits or lies later; and a compaction
that is not due yet. -/
theorem witness_compaction : let s := calAt 64 [runningTask [0]] fun u => { u with calls := [⟨some 0, 63⟩] }
    let t (b : Nat) : Task := { checkedTask 1 2 with st := .booked, hdr := some { header 2 with movable := true }, bookStart := b }
    let u := calAt 64 [t 100] fun u => { u with calls := [⟨some 0, 63⟩] }
    let j : CalSearch := ⟨.move, 1, some 7, []⟩
    let v (b : Nat) := calAt 64 [t b] fun u => { u with compaction := some ⟨some 0, [], 0⟩, search := some j }
    ((s.die 0).cal.compaction = none ∧ (s.die 0).cal.busy ≤ 64 ∧ (s.die 0).cal.search = none ∧ (s.die 0).cal.movable 0 = [] ∧
      ((s.die 0).cal.tasks.map Task.num).Nodup) ∧
    ((u.die 0).cal.compaction = none ∧ (u.die 0).cal.movable 0 = [1] ∧ u.task 0 1 = some (t 100)) ∧
    ((t 100).movable 0 = true ∧ ((v 100).modCal 0 fun u => u.searched j).fitsOn 0 0 (t 100) 4 7 = true ∧ 7 < (t 100).bookStart ∧
      (t 7).bookStart ≤ 7 ∧ (t 7).movable 0 = true) ∧
    ((calAt 64 [t 100] fun u => { u with calls := [⟨none, 64⟩] }).die 0).cal.compactDue 64 = false := by decide +kernel

/-- A round of a task of die 0 whose gang has clusters on dies 0 and 1: asked, replied both ways, and accepted. -/
theorem witness_rounds : let t := readyTask (2 + 2 ^ 40)
    let rd (a : List DieId) (p : List (DieId × Option Nat)) (acc : List DieId) (o : Option Bool) : XRound := ⟨1, 200, a, p, acc, none, o⟩
    let s (r : XRound) := (calAt 64 [t] fun u => { u with rounds := [r], holds := [⟨0, 1, 200⟩] }).modCal 1 fun u => { u with
      holds := if r.accepted = [] then [] else [⟨0, 1, 200⟩] }
    (∀ r ∈ [rd [1] [] [] none, rd [] [(1, none)] [] none, rd [] [(1, some 7)] [] none, rd [] [] [1] (some true),
        rd [] [] [1] (some false)],
      (s r).task 0 1 = some t ∧ ((s r).die 0).cal.rounds = [r] ∧ r.task = 1 ∧ ((s r).die 0).cal.holds = [⟨0, 1, 200⟩] ∧
        t.st = .ready ∧ (s r).slot < r.start ∧ (((s r).die 0).cal.tasks.map Task.num).Nodup ∧
        (r.accepted = [1] → ((s r).die 1).cal.holds = [⟨0, 1, 200⟩])) ∧
    (s (rd [1] [] [] none)).fitsOn 0 1 t 4 200 = true ∧
    ((s (rd [1] [] [] none)).modHart 160 fun h => { h with run := .running }).fitsOn 0 1 t 4 200 = false := by
  decide +kernel

/-! ### Class 0xB -/

theorem witness_launch : let s := (calAt 0 [] id).modMe fun h => h.ws 1 0x3000
    (s.rs 1).toNat % 256 = 0 ∧ WordsAt s (s.rs 1) 6 (fun k => 0x3000 + 8 * k) ∧ (s.die 0).cal.queueFull = false ∧
    (s.die 0).cal.nextNum = some 1 ∧
    ((calAt 0 [] fun u => { u with fifo := u.fifo.set 0 (List.range 256) }).die 0).cal.queueFull = true := by
  refine ⟨by decide, ⟨by decide, ?_⟩, by decide, by decide, by decide⟩
  intro k hk
  obtain rfl | rfl | rfl | rfl | rfl | rfl : k = 0 ∨ k = 1 ∨ k = 2 ∨ k = 3 ∨ k = 4 ∨ k = 5 := by omega
  all_goals exact ⟨_, rfl, by decide, by decide, by decide, by decide, by decide, by decide⟩

theorem numFrom_full (used : List Nat) (h : ∀ m, 1 ≤ m → m ≤ 65535 → m ∈ used) :
    ∀ k n, 1 ≤ n → n ≤ 65535 → numFrom used k n = none
  | 0, _, _, _ => rfl
  | k + 1, n, h1, h2 => by
    rw [numFrom, if_pos (List.contains_iff_mem.2 (h n h1 h2))]
    exact numFrom_full used h k _ (by omega) (by omega)

/-- A die whose every task number is taken, with room in its queue. -/
theorem witness_numbersOut : ∃ u : CalUnit, u.queueFull = false ∧ u.nextNum = none :=
  ⟨{ CalUnit.reset with tasks := (List.range 65536).map newTask }, by decide,
    numFrom_full _ (fun m _ h => List.mem_map.2 ⟨newTask m, List.mem_map.2 ⟨m, List.mem_range.2 (by omega), rfl⟩, rfl⟩) _ _
      (by decide) (by decide)⟩

/-- A task that books at its earliest slot, with its number taken for BOOK and without one for BOOKQ. -/
theorem witness_book : ∀ n ∈ [0, 1], ∃ (l : List Byte) (start lo : Nat),
    let s := (calAt 0 [] id).modMe fun h => h.ws 1 0x3000
    let y := if n = 0 then s else s.modCal 0 fun u => { u with lastNum := n }
    checkAccess s s.ctx .load 0x3000 = (s, .ok 0x3000 (bareEntry 0x3000)) ∧
    calRead s (taskCtx s.me.ptbase s.me.asid s.cur.die) (0x3000 + 0x20) 16 = (s, some l) ∧ homeOfMask (ofBytes l) = some 0 ∧
    (s.die 0).cal.nextNum = some 1 ∧
    dispatch y (taskCtx s.me.ptbase s.me.asid 0) 0x3000 none = (y, .ok (header 2) [] []) ∧
    (let t : Task := { ((Task.queued n 0x3000 (header 2).prio y.slot s.me.ptbase s.me.asid s.me.tr.tvec none).checked (header 2) [] [])
        with reserved := true, tmin := (s.rs 2).toNat, st := .ready };
      (y.die 0).cal.ready.length < 64 ∧ y.readyOk 0 t = true ∧ t.crossDie 0 = false ∧ (y.die 0).cal.bookingsFull = false ∧
      (y.die 0).cal.idle y.cycle = true ∧
      y.searchLow 0 t y.cycle = some lo ∧ lo ≤ start ∧ start + lastEnd [] + t.tailNow ≤ y.slot + 4096 ∧
      y.fitsOn 0 0 t y.slot start = true ∧ (∀ k, lo ≤ k → k < start → y.fitsOn 0 0 t y.slot k = false)) := by
  intro n hn
  simp only [List.mem_cons, List.not_mem_nil, or_false] at hn
  obtain rfl | rfl := hn
  all_goals
    refine ⟨_, _, _, rfl, rfl, by decide, by decide, rfl, by decide +kernel, by decide +kernel, by decide +kernel, by decide +kernel,
      by decide, rfl, Nat.le_refl _, by decide +kernel, by decide +kernel, by intro k h1 h2; omega⟩

/-- A unit that is searching for its pass. -/
theorem witness_bookWaits : ({ CalUnit.reset with search := some ⟨.pass, 1, none, []⟩, busy := 9 } : CalUnit).idle 4 = false := by
  decide

/-- An answer that waits, a compaction that is called for, and none. -/
theorem witness_compact : let u (a : List (HartId × Nat)) (k : List CompactCall) : CalUnit := { CalUnit.reset with answers := a, calls := k };
    (u [(0, 2)] []).answers.find? (fun x => x.1 == (0 : HartId)) = some (0, 2) ∧
    (∀ k ∈ [[], [⟨some 0, 5⟩]], (u [(1, 2)] k).answers.find? (fun x => x.1 == (0 : HartId)) = none) ∧
    (u [] [⟨some 0, 5⟩]).called 0 = true ∧ (u [] [⟨some 1, 5⟩]).called 0 = false := by decide

theorem witness_bookRefused : ∃ (l : List Byte) (c : Nat) (cell : Word),
    let s := (base.setBytes 0x3020 [2, 0, 0, 0, 0, 0, 0, 0, 0, 0, 0, 0, 0, 0, 0, 0, 8]).modMe fun h => h.ws 1 0x3000
    let y := s.modCal 0 fun u => { u with lastNum := 1 }
    calRead s (taskCtx s.me.ptbase s.me.asid s.cur.die) (0x3000 + 0x20) 16 = (s, some l) ∧ homeOfMask (ofBytes l) = some 0 ∧
    dispatch s (taskCtx s.me.ptbase s.me.asid 0) 0x3000 none = (s, .refused c cell) ∧
    (s.die 0).cal.nextNum = some 1 ∧ dispatch y (taskCtx s.me.ptbase s.me.asid 0) 0x3000 none = (y, .refused c cell) :=
  ⟨_, _, _, rfl, by decide, rfl, by decide, rfl⟩

theorem witness_unbook : let s := calAt 64 [readyTask 2, { runningTask [0] with num := 2 }] id
    s.task 0 3 = none ∧ s.task 0 1 = some (readyTask 2) ∧ (readyTask 2).members = [] ∧ (readyTask 2).hdr.isSome = true ∧
    (readyTask 2).st.code = 2 ∧ (∃ t, s.task 0 2 = some t ∧ t.st.code = 4) ∧ ((s.die 0).cal.tasks.map Task.num).Nodup :=
  ⟨by decide, by decide +kernel, by decide, by decide +kernel, by decide, ⟨_, rfl, by decide⟩, by decide⟩

/-- A member of a running gang of two, and the last member; the first to reach GBAR, and the last. -/
theorem witness_gang : let s (l : List HartId) (k : Nat) := ((calAt 64 [runningTask l] id).modMe fun h => { h with
      gang := some (0, 1), gbars := k }).modHart 4 fun h => { h with gang := some (0, 1) }
    (∀ l ∈ [[0], [0, 4]], ∀ k ∈ [0, 1], (s l k).me.gang = some (0, 1) ∧ (s l k).task 0 1 = some (runningTask l) ∧
      (runningTask l).num = 1 ∧ (s l k).me.tags.busy = 0 ∧ (s l k).storesDone 0 3 1 = true ∧ (runningTask l).st = .running ∧
      (runningTask l).overrun = false ∧ l.head? = some 0) ∧
    ((s [0] 0).storesDone 0 (runningTask [0]).barScope 1 = true) ∧
    (∃ m ∈ ([0, 4] : List HartId), m ≠ 0 ∧ ((s [0, 4] 0).hart m).gbars + ((s [0, 4] 0).hart m).gbarHere.toNat ≤ 0) ∧
    (let u := (s [0, 4] 0).modHart 4 fun h => { h with gbarHere := true }
      ∀ m ∈ ([0, 4] : List HartId), m ≠ 0 → 0 + 1 ≤ (u.hart m).gbars + (u.hart m).gbarHere.toNat) := by
  decide +kernel

theorem witness_calrd : (4032 : Nat) ≤ 4032 ∧ indexOk 7 31 = true ∧
    (∀ st ∈ [TaskState.booked, .running, .queued, .ended], ∃ t : Task, t.st = st ∧ t.code < 256) := by
  refine ⟨by decide, by decide, ?_⟩
  intro st _
  exact ⟨{ newTask 1 with st := st }, rfl, (by decide : (newTask 1).code < 256)⟩

/-- A program's owner in a gang with a pre-emption bound, asked to yield, with every node drained at its drain point. -/
theorem witness_drainPoint : let r : Run := { run3 with gang := some (0, 1), nodes := run3.nodes.map fun n => { n with fin := true } }
    let cfg : Config := { config3 with lines := config3.lines.set 1 (lineOf [1 + 2 ^ 8, 8]) }
    let s := ((calAt 64 [runningTask [0]] id).modFabric 0 fun f => { f with active := some cfg, run := some r }).modMe
      fun h => { h with gang := some (0, 1), preempt := { h.preempt with pend := true } }
    s.live 0 = some (cfg, r) ∧ (s.hart r.owner).preempt.pend = true ∧ r.gang.isSome = true ∧ 0 < s.pboundOf r.owner ∧
      s.drained 0 cfg r = true ∧ ∀ n ∈ cfg.nodes, cfg.kind n = 1 → cfg.param n ≠ 0 := by decide +kernel

/-! ### Copies, tags, atomics, queues -/

/-- A free tag, a free channel with room, and lengths at both ends. -/
theorem witness_copyIssue : let s := sysAt (regs3 0x2000 0x3000 0)
    s.me.tags.busy.getLsbD 63 = false ∧ s.hasClaim s.cur (2, 0) = true ∧ s.hasClaim s.cur (2, 3) = true ∧
    ((s.cluster 0).racker.channels[(3 : Fin 4)]).length < 16 ∧
    ((0x40000000 : Word).extractLsb' 0 32).toNat ≤ 2 ^ 30 ∧ intCode 6 = some 64 ∧ intCode 3 = some 8 ∧
    (let v : Word := 0x10001000;
      1 ≤ (v.extractLsb' 0 16).toNat ∧ (v.extractLsb' 0 16).toNat ≤ 4096 ∧ (v.extractLsb' 16 16).toNat ≤ 4096) ∧
    (0x2000 : Word).toNat % (fltOf 5).align = 0 ∧ 16 % convUnit 5 2 = 0 ∧ 65536 % redBytes true 5 = 0 := by decide +kernel

/-- Tags at rest, done, busy, and one whose copy has faulted since the wait began. -/
theorem witness_tags : let s (g : TagRegs → TagRegs) := sysAt fun h => { h.ws 1 6 with tags := g h.tags, inWait := true };
    (∀ g ∈ [id, fun t : TagRegs => { t with bits := 2 }, fun t => { t with busy := 4 }, fun t => { t with bits := 2, busy := 4 }],
      (s g).me.inWait = true ∧ (s g).me.firstFault ((s g).rs 1) = none) ∧
    ((s fun t => { t with bits := 2 }).me.tags.bits &&& (s id).rs 1 ≠ 0) ∧
    ((s fun t => { t with busy := 4 }).me.tags.busy &&& (s id).rs 1 ≠ 0) ∧
    (s fun t => { t with busy := 4, faults := [⟨2, 0x05, 0x5000⟩] }).me.firstFault 6 = some ⟨2, 0x05, 0x5000⟩ := by decide

/-- An ordinary word, and presence words full and empty, for loads and stores. -/
theorem witness_atomics : ∀ b ∈ [0, 52], ∀ k ∈ [Access.load, .store],
    let s := (paged (leafWith b) (regs3 0x4000 1 0)).setFull 0x4000 true
    ∃ s' pa e, checkAccess s s.ctx k 0x4000 = (s', .ok pa e) ∧ spaceOf pa = .hbm ∧ leafPres e.leaf = (b == 52) ∧
      leafWonce e.leaf = false ∧ leafDisc e.leaf = false ∧ leafR e.leaf = true ∧ s'.ownedIn pa 16 = false ∧
      s'.absentIn pa 16 = false ∧ s'.poisonedIn pa 16 = false ∧ s'.storeBuf = [] ∧ s'.full 0x4000 = true ∧
      s'.full 0x4008 = false ∧ s.storesDone s.cur 4 (s.copySeq + 1) = true := by
  intro b hb k hk
  simp only [List.mem_cons, List.not_mem_nil, or_false] at hb hk
  obtain rfl | rfl := hb <;> obtain rfl | rfl := hk <;>
    exact ⟨_, _, _, rfl, by decide, by decide, by decide, by decide, by decide, by decide, by decide, by decide, by decide,
      by decide, by decide, by decide⟩

/-- A queue of a free hart with no item, one and sixteen, and one bound to a gang. -/
theorem witness_queues : let s (q : Queue) := base.modCluster 0 fun c => { c with queues := c.queues.set 0 q }
    (∀ n ∈ [0, 1, 15, 16], let x := s ⟨List.replicate n 7, none, []⟩
      ((x.cluster 0).queues[(0 : Fin 8)]).bound = x.me.gang ∧ ((x.cluster 0).queues[(0 : Fin 8)]).items.length = n ∧
      ((x.cluster 0).queues[(0 : Fin 8)]).waiters = []) ∧
    ((s ⟨[], some (0, 1), []⟩).cluster 0).queues[(0 : Fin 8)].bound ≠ (s ⟨[], some (0, 1), []⟩).me.gang ∧
    base.me.tags.busy = 0 ∧ base.storesDone base.cur 4 (base.copySeq + 1) = true ∧
    (sysAt fun h => { h with tags := { h.tags with busy := 1 } }).me.tags.busy ≠ 0 := by decide

/-- Held stores of a hart: one of two runs of bytes, for a holder that has not acknowledged, one apart from it and one that meets
it. -/
theorem witness_storeAck : let a : HeldStore := ⟨0, [(0x2000, [1]), (0x2040, [3, 4])], 0xFF, [], 0, 0, false⟩
    let b (pa : Nat) : HeldStore := ⟨0, [(pa, [2])], 0xF0, [], 0, 1, false⟩
    let s (pa : Nat) : State := { base with storeBuf := [a, b pa] }
    (s 0x2080).memOk ∧ (s 0x2080).storeBuf = [] ++ a :: [b 0x2080] ∧ (s 0x2080).storeBuf = [a] ++ b 0x2080 :: [] ∧ a.hart = 0 ∧
      a.acked.contains 3 = false ∧ (b 0x2080).overlaps a = false ∧ (b 0x2041).overlaps a = true ∧
      a.runs.Pairwise (fun p q => p.1 + p.2.length ≤ q.1 ∨ q.1 + q.2.length ≤ p.1) :=
  ⟨by unfold State.memOk; decide, rfl, rfl, by decide, by decide, by decide, by decide, by decide⟩

/-- A fill and a copy of 64 bytes: queued, under way, and with every byte written. -/
def copyOf (f : CopyForm) (st : Bool) (p : Nat) : Copy :=
  { id := 1, hart := 0, tag := 3, ch := 0, scope := 0, np := false, src := 0x3000, dst := 0x2000, form := f
    ctx := base.ctx, gang := none, started := st, pos := p, flags := 0, stamped := [], dropped := false, got := [] }

def channelAt (x : Copy) : State := base.modCluster 0 fun c => { c with
  racker := { c.racker with channels := c.racker.channels.set 0 [x] } }

/-- A whole line, and the last 8 bytes of one. -/
theorem witness_copySteps : ∀ f ∈ [CopyForm.fill 8 7, .rows 64 1 0 false],
    (∀ st, ∀ p ∈ [0, 64], let x := copyOf f st p
      ((channelAt x).cluster 0).racker.channels[(0 : Fin 4)] = [x]) ∧
    (channelAt (copyOf f false 0)).storesDone 0 0 1 = true ∧ (copyOf f true 64).total ≤ 64 ∧ 0 < (copyOf f true 0).total ∧
    (∀ y ∈ [(0, 0, 64), (0x38, 0, 8)], let x := { copyOf f true y.2.1 with dst := 0x2000 + BitVec.ofNat 64 y.1 }
      let s := channelAt x
      let line := x.dstAt x.pos &&& ~~~63#64
      s.copyMoves 0 x = true ∧ x.inLine line = [(x.pos, y.2.2)] ∧ (x.dstAt x.pos).toNat % 64 + y.2.2 ≤ 64 ∧
        (∃ pa m e, checkPiece s x.ctx false line 64 = (s, .ok pa m e) ∧ s.ownedFrom x false pa 64 = false) ∧
        x.ctx.ptbase.getLsbD 0 = false) := by
  intro f hf
  simp only [List.mem_cons, List.not_mem_nil, or_false] at hf
  obtain rfl | rfl := hf
  all_goals
    refine ⟨by decide, by decide, by decide, by decide, ?_⟩
    intro y hy
    simp only [List.mem_cons, List.not_mem_nil, or_false] at hy
    obtain rfl | rfl := hy <;> exact ⟨by decide, by decide, by decide, ⟨_, _, _, rfl, by decide⟩, by decide⟩

/-- The first source word read already, and one that is read now. -/
theorem witness_copySource : let x := { copyOf (.rows 64 1 0 false) true 0 with got := [(0x600, 7)] }; let s := channelAt x
    let src (i : Nat) : Nat := (x.srcAt (fun _ => 0) (x.pos + i)).toNat
    x.got.lookup (src 0 / 8) = some 7 ∧ x.got.lookup (src 63 / 8) = none ∧
      ∃ a e, checkPiece s x.ctx true (BitVec.ofNat 64 (8 * (src 63 / 8))) 8 = (s, .ok a 8 e) ∧ readsZero e.leaf = false ∧
        s.ownedFrom x true a 8 = false :=
  ⟨by decide, by decide, _, _, rfl, by decide, by decide⟩

/-- A fill above 2^56, and a copy from there, of a free hart and of a gang that waits for its page. -/
theorem witness_copyFaults : ∀ g ∈ [none, some (0, 1)],
    (let x := { copyOf (.fill 8 7) true 0 with dst := 0x0100000000000000, gang := g }; let s := channelAt x
      s.copyMoves 0 x = true ∧ x.inLine (x.dstAt 0 &&& ~~~63#64) = [(0, 64)] ∧ suspends 6 = true ∧
      ∃ t st lv va, checkPiece s x.ctx false (x.dstAt 0 &&& ~~~63#64) 64 = (t, .bad st 6 lv va)) ∧
    (let x := { copyOf (.rows 64 1 0 false) true 0 with src := 0x0100000000000000, dst := 0x2038, gang := g }; let s := channelAt x
      let word := BitVec.ofNat 64 ((x.srcAt (fun _ => 0) 0).toNat / 8 * 8)
      s.copyMoves 0 x = true ∧ x.inLine (x.dstAt 0 &&& ~~~63#64) = [(0, 8)] ∧
      (∀ i, i < 8 → (x.srcAt (fun _ => 0) (0 + i)).toNat / 8 * 8 = word.toNat) ∧ x.got.lookup (word.toNat / 8) = none ∧
      ∃ t st lv va, checkPiece s x.ctx true word 8 = (t, .bad st 5 lv va)) := by
  intro g hg
  simp only [List.mem_cons, List.not_mem_nil, or_false] at hg
  obtain rfl | rfl := hg
  all_goals exact ⟨⟨by decide, by decide, by decide, _, _, _, _, rfl⟩, by decide, by decide, by decide, by decide, _, _, _, _, rfl⟩

/-! ### The key index -/

/-- A head of one table of 256 buckets, keys of one element, four rows and four blocks, all untranslated. -/
def keyHead (ver : BitVec 16) : KHead := { KHead.reset with
  valid := true, desc := ⟨1, 8, 1, 0x10000, 64, 4, 0x20000, 4, [0x30000]⟩, frames := List.replicate 3 ⟨0, 0, 0⟩
  version := Vector.replicate 4 ver, loaded := Vector.replicate 4 true, alloc := 1 }

def keyAt (ver : BitVec 16) (s : State) : State := s.setKHead 0 5 (keyHead ver)

theorem key_in {v : BitVec 16} {r va : Nat} (h : KIn (keyHead v) r va) : (keyHead v).pa r va = va ∧
    (r = 0 ∧ 0x10000 ≤ va ∧ va < 0x10100 ∨ r = 1 ∧ 0x20000 ≤ va ∧ va < 0x20100 ∨ r = 2 ∧ 0x30000 ≤ va ∧ va < 0x30840) := by
  obtain ⟨q, hq, h1, h2⟩ := h
  have hr : (keyHead v).desc.regions = [(0x10000, 256), (0x20000, 256), (0x30000, 2112)] := rfl
  rw [hr] at hq
  have hp : ∀ r, r < 3 → (keyHead v).pa r va = va := by
    intro r hr
    have : (keyHead v).frames[r]? = some ⟨0, 0, 0⟩ := by
      obtain rfl | rfl | rfl : r = 0 ∨ r = 1 ∨ r = 2 := by omega
      all_goals rfl
    simp only [KHead.pa, this, skewLine]
    have := Nat.div_add_mod va 64
    simp
    omega
  match r with
  | 0 => simp at hq; subst hq; exact ⟨hp 0 (by decide), by simp at h1 h2; omega⟩
  | 1 => simp at hq; subst hq; exact ⟨hp 1 (by decide), by simp at h1 h2; omega⟩
  | 2 => simp at hq; subst hq; exact ⟨hp 2 (by decide), by simp at h1 h2; omega⟩
  | n + 3 => simp at hq

theorem key_ready {s : State} {v : BitVec 16} (h1 : s.me.vstart = 0) (h0 : UnitFree s) (h2 : s.kHead s.cur.die 5 = keyHead v)
    (h3 : s.owned = [] ∧ s.absent = [] ∧ s.poison = [] ∧ s.storeBuf = []) (h4 : s.memOk) : KeyReady s 5 (keyHead v) where
  start := h1
  unit := h0
  head := ⟨by decide, h2, rfl⟩
  quiet := h3
  memory := h4
  shape := (by decide : 1 ≤ 4 ∧ 64 % 64 = 0 ∧ 2 * 1 ≤ 64 ∧
    ∀ q ∈ [((0x10000 : Nat), (256 : Nat)), (0x20000, 256), (0x30000, 2112)], q.1 % 64 = 0)
  count := rfl
  space := by
    intro r va h
    obtain ⟨hp, hc⟩ := key_in h
    rw [hp]
    left
    have : va < cellarBase := by simp only [cellarBase]; omega
    simp [spaceOf, this]
  lines := by
    intro r va i h hi
    obtain ⟨q, hq, ha, hb⟩ := h
    have hlast : KIn (keyHead v) r (va + i) := by
      have hr : (keyHead v).desc.regions = [(0x10000, 256), (0x20000, 256), (0x30000, 2112)] := rfl
      rw [hr] at hq
      refine ⟨q, by rw [hr]; exact hq, by omega, ?_⟩
      match r with
      | 0 => simp at hq; subst hq; simp at ha hb ⊢; omega
      | 1 => simp at hq; subst hq; simp at ha hb ⊢; omega
      | 2 => simp at hq; subst hq; simp at ha hb ⊢; omega
      | n + 3 => simp at hq
    rw [(key_in hlast).1, (key_in ⟨q, hq, ha, hb⟩).1]
  apart := by
    intro r va r' va' h h' e
    obtain ⟨p, c⟩ := key_in h
    obtain ⟨p', c'⟩ := key_in h'
    rw [p, p'] at e
    omega

/-- A query and a store of one finite key, the table reset and its buckets empty. -/
theorem witness_key : let s := keyAt 0 (vecAt 0x401 1 1 0 0x3F80 0 (regs3 5 2 0)); let h := keyHead 0
    let f : Fields := { Fields.zero with d := 8, a := 16, b := 1, c := 3 }
    VecReady s ∧ KeyReady s (s.rs f.b).toNat h ∧ keyVec s.me f h.desc = true ∧ s.me.vl ≠ 0 ∧ TablesFresh s h ∧ s.me.rows = 1 ∧
    (∀ p ∈ queryProbes s 5 h (keyRow s.me f 1 0), p.2 < 2 ^ h.desc.b ∧ (s.bucket h p.1 p.2).ovf = false ∧
      (s.chain h 4096 (s.bucket h p.1 p.2).head).isSome = true) ∧
    h.dense = false ∧ notFinite (keyRow s.me f 1 0) = false ∧ groupsOk s.me [⟨8, 16, false⟩] [] = true ∧
    overlaps 8 s.me.g 16 s.me.g = false ∧ 4 * s.me.rows ≤ s.me.g * 1024 ∧
    ((s.rs f.c).toNat + 1 ≤ h.desc.krows ∧ h.free < h.desc.pblk ∧ h.alloc < h.desc.pblk ∧ h.desc.l = 1 ∧ h.free = 0 ∧
      s.bucket h 0 (sigOf (s.dots 0 5 h.desc 0 (keyRow s.me f 1 0))) = ⟨0, 0, false⟩) ∧
    (∀ l, l < h.desc.l → h.loaded[Fin.ofNat 4 l] = true) := by
  refine ⟨⟨by decide, by decide, by decide, by decide, by decide⟩, key_ready (by decide) (by unfold UnitFree; decide) (by decide)
    (by decide) (by unfold State.memOk; decide), by decide, by decide, ?_, by decide, by decide +kernel, by decide, by decide, by decide, by decide,
    by decide, by decide +kernel, ?_⟩
  · intro l hl
    obtain rfl : l = 0 := Nat.lt_one_iff.mp hl
    decide
  · intro l hl
    obtain rfl : l = 0 := Nat.lt_one_iff.mp hl
    decide

/-- Hart 1 has the unit in this cycle, or hart 0 itself. -/
theorem witness_keyUnit : ¬ UnitFree (base.modCluster 0 fun c => { c with keyUnit := some 1 }) ∧
    UnitFree (base.modCluster 0 fun c => { c with keyUnit := some 0 }) := by unfold UnitFree; decide

/-- A dense head. -/
theorem witness_keyDense : ({ keyHead 0 with dense := true } : KHead).dense = true ∧ (keyAt 0 base).kHead 0 4 = KHead.reset := by decide

/-- One bucket in use: its block holds tokens below the bound. -/
theorem witness_ktrim : let s := keyAt 1 (((sysAt (regs3 5 10 0)).setBytes (0x30040 + 8 * 7)
      (toBytes 8 (1 + 2 ^ 40 + 2 ^ 57))).setBytes 0x20040 (toBytes 4 5))
    let h := keyHead 1
    KeyReady s (s.rs 1).toNat h ∧ (s.rs 2).extractLsb' 32 32 = 0 ∧ 7 < 2 ^ h.desc.b ∧ 0 < h.desc.l ∧
    (∀ l sg, l < h.desc.l → sg < 2 ^ h.desc.b →
      (s.keyNum h (2 + l) (h.desc.entryVa l sg) 8 / 2 ^ 57 = (h.ver l).toNat % 128 ↔ l = 0 ∧ sg = 7)) ∧
    (s.bucket h 0 7).head = 1 ∧ 1 < h.desc.pblk ∧ nextOf (s.poolBlock h 1) = 0 ∧
    (∀ v ∈ tokensOf (s.poolBlock h 1), v < max h.wbase (s.rs 2).toNat) ∧ h.free < 2 ^ 32 := by
  refine ⟨key_ready (by decide) (by unfold UnitFree; decide) (by decide) (by decide) (by unfold State.memOk; decide), by decide,
    by decide, by decide, ?_,
    by decide, by decide, by decide, by decide, by decide⟩
  intro l sg hl hs
  obtain rfl : l = 0 := Nat.lt_one_iff.mp hl
  revert sg
  have : ∀ sg : Fin 256, ((keyAt 1 (((sysAt (regs3 5 10 0)).setBytes (0x30040 + 8 * 7)
      (toBytes 8 (1 + 2 ^ 40 + 2 ^ 57))).setBytes 0x20040 (toBytes 4 5))).keyNum (keyHead 1) (2 + 0)
        ((keyHead 1).desc.entryVa 0 sg.val) 8 / 2 ^ 57 = ((keyHead 1).ver 0).toNat % 128 ↔ 0 = 0 ∧ sg.val = 7) := by
    decide +kernel
  intro sg hs
  exact this ⟨sg, hs⟩

/-- The descriptor of such a head, its projection, and a table with none. -/
theorem witness_keyDirectory : ∃ (l : List Piece) (x : KDesc) (dense : Bool) (fr : Nat × Nat → KFrame),
    let s := (sysAt (regs3 5 0x2000 0)).setBytes 0x2000 ([64, 0x10000, 64 + 4 * 2 ^ 32, 0x20000, 4, 0x30000].flatMap (toBytes 8))
    let u := s.keyTaken
    s.me.vstart = 0 ∧ UnitFree s ∧ (s.rs 2).toNat % 64 = 0 ∧ checkRun u u.ctx true 0x2000 128 = (u, l) ∧
    (∀ p ∈ l, ∃ pa m e, p = .ok pa m e) ∧ u.held true l = false ∧ discIn l = false ∧
    parseKDesc (fun i => ofBytes (u.seen l) / 2 ^ (64 * i) % 2 ^ 64) = some (x, dense) ∧
    ∀ q ∈ x.regions, checkRegion u q.1 q.2 = (u, .ok (fr q)) := by
  refine ⟨[.ok 0x2000 64 (bareEntry 0x2000), .ok 0x2040 64 (bareEntry 0x2040)], _, _, fun _ => ⟨0, 0, 0⟩, by decide,
    by unfold UnitFree; decide, by decide, rfl, ?_,
    by decide, by decide, rfl, ?_⟩
  · intro p hp
    simp only [List.mem_cons, List.not_mem_nil, or_false] at hp
    obtain rfl | rfl := hp <;> exact ⟨_, _, _, rfl⟩
  · intro q hq
    have hq : q ∈ [((0x10000 : Nat), (256 : Nat)), (0x20000, 256), (0x30000, 2112)] := hq
    simp only [List.mem_cons, List.not_mem_nil, or_false] at hq
    obtain rfl | rfl | rfl := hq <;> rfl

theorem witness_kproj : let s := keyAt 0 (sysAt (regs3 5 0x2000 0))
    (keyHead 0).valid = true ∧ (s.rs 3).toNat < (keyHead 0).desc.l ∧
    (let u := s.keyTaken; let l := (checkRun u u.ctx true 0x2000 512).2;
      (checkRun u u.ctx true 0x2000 512).1 = u ∧ u.held true l = false ∧ discIn l = false ∧
      ∀ j, j < 8 → ∀ i, i < 1 → projCode (ofBytes (u.seen l) / 2 ^ (512 * j)) i ≠ 2) := by
  refine ⟨by decide, by decide, by rfl, by decide, by decide, by decide⟩

theorem witness_kreset : (let h := { keyHead 0 with loaded := Vector.replicate 4 false };
      0 < h.desc.l ∧ h.loaded[Fin.ofNat 4 0] = false) ∧ (0 : Word).extractLsb' 0 2 ≠ 3 ∧
    ((8192 : Word).extractLsb' 0 14).toNat ≤ 8192 ∧ (8192 : Word).extractLsb' 0 14 ≠ 0 := by decide

/-! ### Matrices and tiles -/

/-- One row of 16 bytes in v16 against an image of one row, in dense mode with tile 0. -/
def matAt (va : Word) : State := vecAt 0x400 1 16 0 1 0 fun h => { regs3 va 16 16 h with
  mxcfg := 0x100100, wslot := h.wslot.set 0 { WSlot.zero with valid := true, type := 3, int := true, k := 16, n := 1
                                                              image := some (List.replicate 16 1) } }

def matFields : Fields := { Fields.zero with a := 16, w := 3, mod := 0x8, imm := 1 }

theorem witness_products : let s := matAt 0x2000; let h := s.me; let f := matFields; let t : ATy := .int 8 false
    VecReady s ∧ h.vstart = 0 ∧ h.holdsTile 0 = true ∧ h.dense = true ∧ h.aTy (f.modBit 43) (f.x.getLsbD 0) f.w.toNat = some t ∧
    SMap.wf 0 (s.tile 0) = true ∧ (let w := h.wslot[(0 : Fin 2)]
      w.valid = true ∧ w.image.isSome = true ∧ prodTypes h t w = true ∧ w.n.toNat ≤ 256 ∧ h.cols = w.k.toNat ∧
        w.k.toNat % t.block = 0 ∧ w.k.toNat % 16 = 0) ∧
    aGroup h f t = true ∧ h.rows = 1 ∧ h.rows ≤ 16 * (h.ngm1 + 1) ∧ 24 % h.g = 0 ∧ h.rows ≤ h.g * 512 ∧ f.immField 8 0 = 1 :=
  ⟨⟨by decide, by decide, by decide, by decide, by decide⟩, by decide, by decide, by decide, by decide, by decide, by decide,
    by decide, by decide, by decide, by decide, by decide, by decide⟩

/-- The lines of rows at a line boundary, untranslated. -/
def rowPieces (va n : Nat) : List MPiece := (List.range n).map fun i => .ok (.ok (va + 64 * i) 64 (bareEntry (va + 64 * i)))

theorem rowPieces_mem {va n : Nat} {load : Bool} {s : State} {p : MPiece} (h : p ∈ rowPieces va n) (h0 : s.owned = [])
    (h1 : s.absent = []) (h2 : s.storeBuf = []) (h3 : s.me.ptbase.getLsbD 0 = false) :
    ∃ pa n e, p = .ok (.ok pa n e) ∧ (load = true → readsZero e.leaf = false) ∧ s.held load [.ok pa n e] = false ∧
      (load = false → leafRdup e.leaf = false ∧ s.meetsHeld s.cur pa n = false ∧
        (s.me.ptbase.getLsbD 0 = false ∨ leafD e.leaf = true)) := by
  simp only [rowPieces, List.mem_map] at h
  obtain ⟨i, -, rfl⟩ := h
  have bits (j : Nat) (hj : 4 ≤ j) (hk : j < 12) : (bareEntry (va + 64 * i)).leaf.getLsbD j = false := by
    simp only [bareEntry, BitVec.getLsbD_ofNat, Bool.and_eq_false_iff]
    right
    have := Nat.testBit_eq_decide_div_mod_eq (x := (va + 64 * i) / 4096 * 4096 % 2 ^ 52 + 0xF) (i := j)
    rw [this, decide_eq_false_iff_not]
    obtain rfl | rfl | rfl | rfl | rfl | rfl | rfl | rfl :
      j = 4 ∨ j = 5 ∨ j = 6 ∨ j = 7 ∨ j = 8 ∨ j = 9 ∨ j = 10 ∨ j = 11 := by omega
    all_goals omega
  exact ⟨_, _, _, rfl, fun _ => by rw [readsZero, leafDisc, bits 10 (by decide) (by decide)]; rfl,
    by simp [State.held, State.ownedIn, State.absentIn, h0, h1, SMap.get],
    fun _ => ⟨bits 11 (by decide) (by decide), by simp [State.meetsHeld, h2], .inl h3⟩⟩

theorem witness_mmaxRows : let s := matAt 0x2000
    RowsReady s true ((List.range 1).map fun i => (s.rs 1 + BitVec.ofNat 64 i * s.rs 3, (ATy.int 8 false).rowBytes 16))
      [[.ok (.ok 0x2000 16 (bareEntry 0x2000))]] := by
  refine ⟨rfl, ?_⟩
  intro p hp
  simp at hp
  subst hp
  exact ⟨_, _, _, rfl, fun _ => by decide, by decide, fun h => by cases h⟩

theorem witness_mwload : let s := matAt 0x2000
    let w : WSlot := { addr := 0x2000, valid := true, type := 3, int := true, sp24 := false, u := false, k := 16, n := 1
                       pitch := 16, image := none }
    w.legal = true ∧ w.badNibble (List.replicate 16 0) = none ∧
    RowsReady s true ((List.range w.n.toNat).map fun n => (s.rs 1 + BitVec.ofNat 64 n * s.rs 2, w.rowBytes))
      [[.ok (.ok 0x2000 16 (bareEntry 0x2000))]] := by
  refine ⟨by decide, by decide, rfl, ?_⟩
  intro p hp
  simp at hp
  subst hp
  exact ⟨_, _, _, rfl, fun _ => by decide, by decide, fun h => by cases h⟩

/-- One row of bytes, and one raw row of 2,048, for a load and for a store. -/
theorem witness_tileMemory : let s := matAt 0x2000; let h := s.me
    s.memOk ∧ h.holdsTile 0 = true ∧ SMap.wf 0 (s.tile 0) = true ∧ h.aTy true false 3 = some (.int 8 false) ∧
    memTile (.int 8 false) = true ∧ (s.rs 1).toNat % 64 = 0 ∧
    ∀ load, RowsReady s load [(s.rs 1, 1)] [[.ok (.ok 0x2000 1 (bareEntry 0x2000))]] ∧
      RowsReady s load [(s.rs 1, 2048)] [rowPieces 0x2000 32] := by
  refine ⟨by unfold State.memOk; decide, by decide, by decide, by decide, by decide, by decide, fun load => ⟨⟨?_, ?_⟩, ?_, ?_⟩⟩
  · cases load <;> rfl
  · intro p hp
    simp at hp
    subst hp
    exact ⟨_, _, _, rfl, fun _ => by decide, by cases load <;> decide, fun _ => ⟨by decide, by decide, by decide⟩⟩
  · cases load <;> rfl
  · intro p hp
    simp at hp
    exact rowPieces_mem hp (by decide) (by decide) (by decide) (by decide)

/-- The corner of a tile. -/
theorem witness_tileMove : let s := matAt 0; let h := s.me; let ty : ATy := .int 8 false
    VecReady s ∧ h.vl ≠ 0 ∧ h.aTy true false 3 = some ty ∧ 255 + h.rows ≤ 256 ∧ 240 + h.cols ≤ 256 ∧ moveTile ty = true ∧
    h.colcap % ty.block = 0 ∧ h.cols % ty.block = 0 ∧ groupsOk h [⟨8, ty.width, false⟩] [] = true ∧
    groupsOk h [] [⟨16, ty.width, false⟩] = true :=
  ⟨⟨by decide, by decide, by decide, by decide, by decide⟩, by decide, by decide, by decide, by decide, by decide, by decide,
    by decide, by decide, by decide⟩

/-- A configuration that takes tile 0 and group 0: free, its tile held by hart 1, its group held by hart 1. -/
theorem witness_mcfg : let v : Word := 0x100100
    v.extractLsb' 21 43 = 0 ∧ (v.extractLsb' 0 4).toNat + (v.extractLsb' 4 4).toNat ≤ 15 ∧
    ({ base.me with mxcfg := v.setWidth 21 } : Hart).denseGroups = 1 ∧ base.heldGroups 0 (some 0) = 0 ∧ base.canTake 1 0 = true := by
  decide

theorem witness_mcfgHeld : let s (x : BitVec 21) : State := base.modHart 1 fun h => { h with mxcfg := x }
    (s 0x100000).canTake 1 ((s 0x100000).heldGroups 0 (some 0)) = false ∧ ((s 0x100).hart 1).mxcfg.getLsbD 8 = true := by decide

/-! ### Reversible forms and the lees stack -/

/-- Sixteen elements of 16 bits, and the nine forms on them: of floats BF16, of integers 16 bits. -/
def rvAt (g : Hart → Hart) : State := vecAt 0x401 1 16 0xBF80 0x4000 0x3F00 g
def rvInts : Fields := { vabc with a := 8, b := 16 }
def rvFloats : Fields := { rvInts with w := 4, mod := 0x20 }
def rvForms : List ((Hart → Fields → Option RvForm) × Fields) :=
  [(addForm, rvInts), (subForm, rvInts), (mulForm, rvInts), (shrForm, rvInts), (reluForm, { rvInts with b := 0 }),
    (addForm, rvFloats), (subForm, rvFloats), (mulForm, rvFloats), (scaleForm, rvFloats), (reluForm, { rvFloats with b := 0 }),
    (fmaForm, { rvFloats with c := 24 }), (narrowForm, { rvInts with b := 0 }), (cvtForm, { rvInts with b := 0, w := 4, x := 3 }),
    (cvtForm, { rvInts with b := 0, w := 4, x := 1 })]

/-- The forward forms with room for their frames on an empty stack, each of which leaves a record for some element. -/
theorem witness_rvForward : let s := rvAt leesAt
    VecReady s ∧ s.me.vstart = 0 ∧ s.me.cols ≤ s.me.colcap ∧ ∀ x ∈ rvForms, x.2.d = x.2.a ∧ ∃ r, x.1 s.me x.2 = some r ∧ r.ok s.me = true ∧
      LeesRoom s.me (64 * frameLen (r.payloadMax s.me.vl)) ∧ frameLen (r.payloadMax s.me.vl) < 65536 ∧
      (∀ o ∈ r.srcs, overlaps r.a.reg (r.a.size s.me) o.reg (o.size s.me) = false) ∧
      ((r.runAll s.me s.me.vl).2.2.getD 0 none).isSome = true := by
  refine ⟨⟨by decide, by decide, by decide, by decide, by decide⟩, by decide, by decide, ?_⟩
  simp only [rvForms, List.forall_mem_cons]
  refine ⟨?_, ?_, ?_, ?_, ?_, ?_, ?_, ?_, ?_, ?_, ?_, ?_, ?_, ?_, ?_⟩
  all_goals first
    | exact ⟨by decide, _, rfl, by decide, ⟨by decide, by decide, by decide, by decide, by decide⟩, by decide, by decide, by decide⟩
    | (intro x hx; cases hx)

/-- The bytes of a stack's first block. -/
def leesWith (l : List Byte) (h : Hart) : Hart := { h with lees := { h.lees with
  sp := 0x10000 + BitVec.ofNat 64 l.length, base := 0x10000, lim := 0x20000, held := [⟨0, BitVec.ofNat 16384 (ofBytes l), false⟩] } }

/-- The undo forms with a frame of their own on the stack: a record of 1 for each element, of RVRELU for the first alone. -/
theorem witness_undo : ∀ x ∈ rvForms, ∃ r, x.1 (rvAt leesAt).me x.2 = some r ∧ ∃ recs : List (Option Nat),
    let s := rvAt (leesWith (r.frame 16 recs))
    VecReady s ∧ s.me.vstart = 0 ∧ x.1 s.me x.2 = some r ∧ r.okUndo s.me = true ∧ recs.length = s.me.vl ∧
    (∀ v ∈ recs, r.recOk v) ∧ (r.frame 16 recs).length < 64 * 65536 ∧ 0x10000 + (r.frame 16 recs).length = s.me.leesSp ∧
    s.me.winHas 0x10000 (r.frame 16 recs) := by
  have h1 : ∀ (r : RvForm) (b : Nat), r.rt = .fixed b → 1 < 2 ^ b → ∀ v ∈ List.replicate 16 (some 1), r.recOk v := by
    intro r b h hb v hv
    rw [List.eq_of_mem_replicate hv]
    simpa only [RvForm.recOk, h] using hb
  have h2 : ∀ (r : RvForm) (w : Nat), r.rt = .relu w → 1 < 2 ^ w → ∀ v ∈ some 1 :: List.replicate 15 none, r.recOk v := by
    intro r w h hw v hv
    simp only [List.mem_cons] at hv
    obtain rfl | hv := hv
    · simpa only [RvForm.recOk, h] using hw
    · rw [List.eq_of_mem_replicate hv]; simp only [RvForm.recOk, h]
  simp only [rvForms, List.forall_mem_cons]
  refine ⟨?_, ?_, ?_, ?_, ?_, ?_, ?_, ?_, ?_, ?_, ?_, ?_, ?_, ?_, ?_⟩
  all_goals first
    | exact ⟨_, rfl, some 1 :: List.replicate 15 none, ⟨by decide, by decide, by decide, by decide, by decide⟩, by decide, rfl, by decide,
        by decide, h2 _ _ rfl (by decide), by decide, by decide, by unfold Hart.winHas; decide⟩
    | exact ⟨_, rfl, List.replicate 16 (some 1), ⟨by decide, by decide, by decide, by decide, by decide⟩, by decide, rfl, by decide,
        by decide, h1 _ _ rfl (by decide), by decide, by decide, by unfold Hart.winHas; decide⟩
    | (intro x hx; cases hx)

/-- A control frame. -/
def controlFrame (op : Nat) (v : Word) : List Byte :=
  let word := toBytes 8 (frameWord op 0 0 0 1 1 (leesCheck op 0 0 0 0 0))
  word ++ toBytes 8 v.toNat ++ List.replicate 40 0 ++ word

/-- A push's frame, a mark's that is hit, and one that is not; an empty stack; one with no room. -/
theorem witness_lees : (∀ op ∈ [0x840, 0x842], ∀ v ∈ [(5 : Word), 6],
      let s := sysAt (leesWith (controlFrame op v)); let h := s.me
      let foot := frameWord op 0 0 0 1 1 (leesCheck op 0 0 0 0 0)
      foot < 2 ^ 64 ∧ 0x10000 + 64 * lenOf foot = h.leesSp ∧ h.leesBase ≤ 0x10000 ∧ 0 < lenOf foot ∧ foot % 4096 = op ∧
      h.winHas (h.leesSp - 8) (toBytes 8 foot) ∧ h.winHas (0x10000 + 8) (toBytes 8 v.toNat) ∧
      (h.heldBlock ((0x10000 - h.leesBase) / 2048)).isSome = true) ∧
    LeesRoom (sysAt leesAt).me 64 ∧ (sysAt leesAt).me.leesSp = (sysAt leesAt).me.leesBase ∧
    base.me.leesLim < base.me.leesSp + 64 := by
  refine ⟨?_, ⟨by decide, by decide, by decide, by decide, by decide⟩, by decide, by decide⟩
  intro op hop v hv
  simp only [List.mem_cons, List.not_mem_nil, or_false] at hop hv
  obtain rfl | rfl := hop <;> obtain rfl | rfl := hv <;>
    exact ⟨by decide, by decide, by decide, by decide, by decide, ⟨by decide, by decide⟩, ⟨by decide, by decide⟩, by decide⟩

/-- One block that memory does not hold. -/
theorem witness_lspill : let s := sysAt (leesWith (controlFrame 0x840 5)); let h := s.me
    let l : Nat → List Piece := fun _ => (List.range 32).map fun i => .ok (0x10000 + 64 * i) 64 (bareEntry (0x10000 + 64 * i))
    s.memOk ∧ h.ptbase.getLsbD 0 = false ∧ (h.lees.held.filter fun x => !x.clean).map LeesBlock.blk = [0] ∧
    checkRun s s.ctx false (BitVec.ofNat 64 (h.blockVa 0)) 2048 = (s, l 0) ∧ s.held false (l 0) = false ∧
    physOf (l 0) = (List.range 2048).map (0x10000 + ·) ∧ (physOf (l 0)).Nodup ∧
    ∀ p ∈ l 0, ∃ pa n e, p = .ok pa n e ∧ leafRdup e.leaf = false ∧ s.meetsHeld s.cur pa n = false ∧ (h.ptbase.getLsbD 0 = false ∨ leafD e.leaf = true) := by
  have hp : physOf ((List.range 32).map fun i => Piece.ok (0x10000 + 64 * i) 64 (bareEntry (0x10000 + 64 * i))) =
      (List.range 2048).map (0x10000 + ·) := by decide +kernel
  refine ⟨by unfold State.memOk; decide, by decide, by decide, rfl, by decide +kernel, hp, ?_, ?_⟩
  · rw [hp]
    exact List.pairwise_map.mpr (List.nodup_range.imp fun h => by omega)
  · intro p h
    simp only [List.mem_map] at h
    obtain ⟨i, -, rfl⟩ := h
    obtain ⟨pa, n, e, h1, -, -, h4⟩ := rowPieces_mem (s := base) (load := false) (va := 0x10000) (n := i + 1)
      (p := .ok (.ok (0x10000 + 64 * i) 64 (bareEntry (0x10000 + 64 * i))))
      (List.mem_map.mpr ⟨i, by simp, rfl⟩) (by decide) (by decide) (by decide) (by decide)
    cases h1
    exact ⟨_, _, _, rfl, (h4 rfl).1, rfl, .inl (by decide)⟩

/-! ### Class 0xE -/

/-- A graph of one task node, whose header is at 0x3000 and whose cell is at 0x5000. -/
def graphBytes : List Byte := [1, 0x5000, 0, 0, 0, 0, 0, 0, 0, 0x3000, 0, 0, 0, 0, 0, 0].flatMap (toBytes 8)

def graphNode (p : NodePhase) : GNode := ⟨false, 0x3000, 0, 0, p, none⟩

def allUsed (x : State) : State := x.modDie 0 fun d => { d with graphs := Vector.replicate 16 { Graph.reset with used := true } }

theorem witness_gload : let s := (base.setBytes 0x4000 graphBytes).modMe fun h => h.ws 1 0x4000;
    s.me.status.sys = true ∧ s.cur.die = 0 ∧ (s.graph 0 0).used = false ∧ (∀ k : Fin 16, k < 0 → (s.graph 0 k).used = true) ∧
    (s.rs 1).toNat % 64 = 0 ∧ readGraph s s.ctx (some s.cur) (s.rs 1) = (s, .ok ([graphNode .waiting], 0x5000)) ∧
    readGraph s (taskCtx (ptbaseBits (s.die 0).gsptbase) (s.die 0).gsasid 0) none 0x4000 = (s, .ok ([graphNode .waiting], 0x5000)) ∧
    (∀ k, ((allUsed s).graph 0 k).used = true) ∧ ((sysAt (regs3 0x20 0 0)).rs 1).toNat % 64 ≠ 0 := by
  refine ⟨by decide, by decide, by decide, by decide, by decide, rfl, rfl, by decide, by decide⟩

/-- Graph 3 of die 0 with the node in a phase. -/
def graphAt (p : NodePhase) (cell : Word) (g : CalUnit → CalUnit) : State :=
  (calAt 64 [] g).modGraph 0 3 fun _ => ⟨true, cell, [graphNode p], none, 0, 0, 0⟩

theorem single_index {α : Type} {x y : α} {j : Nat} (h : [x][j]? = some y) : j = 0 := by
  cases j with
  | zero => rfl
  | succ j => simp at h

theorem witness_graphNode : ∃ l : List Byte, ∀ p ∈ [NodePhase.waiting, .pending], let s := graphAt p 0x5000 id;
    (s.graph 0 3).nodes[0]? = some (graphNode p) ∧ (graphNode p).slot = none ∧ (graphNode p).desc.toNat % 256 = 0 ∧
    calRead s (taskCtx 0 0 0) 0x3000 256 = (s, some l) ∧ homeOfMask (wordIn l 0x20 + wordIn l 0x28 * 2 ^ 64) = some 0 ∧
    (s.graph 0 3).due 0 = (p == .waiting) ∧ (s.graph 0 3).used = true ∧
    (∀ j m, (s.graph 0 3).nodes[j]? = some m → m.phase = .pending → j = 0) ∧ (s.die 0).cal.queueFull = false ∧ (s.die 0).cal.nextNum = some 1 ∧
    ((graphAt p 0x5000 fun u => { u with fifo := u.fifo.set 0 (List.range 256) }).die 0).cal.queueFull = true := by
  refine ⟨headerBytes 2 ++ List.replicate 200 0, ?_⟩
  intro p hp
  simp only [List.mem_cons, List.not_mem_nil, or_false] at hp
  obtain rfl | rfl := hp <;>
    exact ⟨rfl, rfl, by decide, rfl, by decide +kernel, by decide, by decide, fun _ _ h _ => single_index h, by decide, by decide,
      by decide⟩

theorem witness_graphComplete : ((graphAt .ended 0 id).graph 0 3).finished = true ∧ ((graphAt .ended 0 id).graph 0 3).cell = 0 ∧
    ∃ (s : State) (pa : Nat) (e : TlbEntry), (s.graph 0 3).finished = true ∧ (s.graph 0 3).cell = 0x4008 ∧
      checkAccess s (taskCtx (s.graph 0 3).ptbase (s.graph 0 3).asid 0) .store 0x4008 = (s, .ok pa e) ∧
      leafPres e.leaf = true ∧ leafWonce e.leaf = false ∧ spaceOf pa = .hbm ∧ s.full pa = false :=
  ⟨by decide, by decide, (paged (leafWith 52) id).modGraph 0 3 fun _ => ⟨true, 0x4008, [graphNode .ended], none, 1, 0, 0⟩, _, _,
    by decide, by decide, rfl, by decide, by decide, by decide, by decide⟩

/-- The sum of one 32-bit element over clusters 0 and 1. -/
def collDesc (r : Nat) : CollDesc :=
  ⟨0, 0, 5, true, 2, r, 0x80000000, 0x80010000, 1, 4096, 16, 1, 0, 0x4080, [(0, 0), (0, 1)]⟩

def collBytes : List Byte := [0x6A0, 0x80000000, 0x80010000, 1 + 2 ^ 44, 16 + 2 ^ 16, 0x4080].flatMap (toBytes 8)

theorem witness_gbind : let s := ((base.setBytes 0x4000 collBytes).setBytes 0x4080 [0, 0, 0, 0, 1]).modMe fun h => h.ws 1 0x4000;
    s.me.status.sys = true ∧ readColl s s.ctx (some s.cur) (some 0) (s.rs 1) = (s, .ok (0, collDesc 0)) ∧
    (s.coll 0 0).st = .unbound ∧
    ∀ k : Fin 8, ((s.modCluster 0 fun c => { c with coll := Vector.replicate 8 { CollSlot.reset with st := .bound } }).coll 0 k).st ≠
      .unbound := by
  refine ⟨by decide, rfl, by decide, by decide⟩

/-- Slot 7 of cluster 0 and slot 0 of cluster 1, each rank of one collective in a state. -/
def collAt (g : CollSlot → CollSlot) (g' : CollSlot → CollSlot) : State :=
  ((sysAt (regs3 7 0xFFFFFFFF 8)).modColl 0 7 fun _ => g { CollSlot.reset with st := .running, desc := some (collDesc 0), owner := 0 }).modColl 1 0
    fun _ => g' { CollSlot.reset with st := .running, desc := some (collDesc 1), owner := 4 }

theorem witness_collInstruction : (∀ st ∈ [CollState.unbound, .bound, .running, .waiting, .done, .aborted],
      ((collAt (fun x => { x with st := st }) id).coll 0 7).st = st ∧ ((collAt id id).rs 1).toNat = (7 : Fin 8).val) ∧
    ((collAt id id).coll 0 7).step < 2 ^ 24 ∧ ((collAt id id).rs 2).toNat < 2 ^ 32 ∧ 8 ≤ ((collAt id id).rs 3).toNat ∧
    (collDesc 0).rank < (collDesc 0).ranks ∧
    (collDesc 0).peers[(collDesc 0).rank]? = some ((collAt id id).dev.pkgNum.toNat, (0 : ClusterId).val) ∧
    (collAt id id).ownerHere ((collAt id id).coll 0 7) = true := by decide

theorem witness_collStep : let s := collAt id id; let e := collDesc 0
    (s.coll 0 7).desc = some e ∧ s.rankSlots 0 7 e = [((0, 7), true), ((1, 0), true)] ∧ e.ranks = 2 ∧ e.nstep = 1 ∧
    (∀ y ∈ [((0 : ClusterId), (7 : Fin 8)), (1, 0)], (s.coll y.1 y.2).st.runs = true ∧ (s.coll y.1 y.2).step = 0 ∧
      s.rankAbsent (s.coll y.1 y.2) = false) ∧
    locator 0 0x80010000 = ((0 : ClusterId), 0x10000) ∧ locator 1 0x80010000 = ((1 : ClusterId), 0x10000) ∧
    (stepWrites e 0 [[1, 0, 0, 0], [2, 0, 0, 0]] 0).1 = [(0, [3, 0, 0, 0])] := by
  decide +kernel

/-- A rank with another GRACE, and a rank within an occurrence of its gang's claimed gateway port that no swap has begun. -/
theorem witness_collDisagrees :
    (let s := collAt id fun x => { x with desc := some { collDesc 1 with grace := 17 } };
      (∃ y ∈ s.rankSlots 0 7 (collDesc 0), y.2 = false) ∧ (s.rankSlots 0 7 (collDesc 0)).length = 2) ∧
    (let t : Task := { newTask 1 with st := .running, claims := [⟨4, 0, 0, 8, 0, 0, 0, 0, 0, 0, []⟩], bookStart := 0 }
     let s := (collAt id fun x => { x with gang := some (0, 1) }).modCal 0 fun u => { u with tasks := [t] }
     (∀ y ∈ s.rankSlots 0 7 (collDesc 0), y.2 = true) ∧ (s.coll 1 0).swapped = false ∧
      s.occurrence 1 (s.coll 1 0) s.slot false = true) := by decide +kernel

/-- A hart that waits past the check of CFLAGRD. -/
theorem witness_cflagrd : (sysAt fun h => { h with inWait := true }).me.inWait = true ∧ base.me.inWait = false := by decide

/-- Cluster 1's rank in a gang that is suspended, and the other waiting for it from slot 0 to slot 16; a rank whose last
step is finished. -/
theorem witness_collWait : let t : Task := { newTask 1 with st := .suspended }
    let s := ({ (collAt (fun x => { x with st := .waiting, waitFrom := some 0 }) fun x => { x with gang := some (0, 1) }) with
      cycle := 256 } : State).modCal 0 fun u => { u with tasks := [t] }
    (∃ y ∈ (s.rankSlots 0 7 (collDesc 0)).map (·.1), s.rankAbsent (s.coll y.1 y.2) = true) ∧ (s.coll 0 7).st.runs = true ∧
    (s.coll 0 7).waitFrom = some 0 ∧ 0 + (collDesc 0).grace ≤ s.slot ∧
    (collDesc 0).nstep ≤ ((collAt (fun x => { x with step := 1 }) id).coll 0 7).step ∧ (s.coll 0 7).node = none := by
  decide +kernel

/-- A free tag and a busy one, and lengths at both ends. -/
theorem witness_post : base.me.tags.busy.getLsbD 63 = false ∧ (64 : Word).toNat % 64 = 0 ∧ (0x1000000 : Word).toNat % 64 = 0 ∧
    (0x1000000 : Word).toNat ≤ 16777216 ∧ LocatorOk 0x80FFFFC0 64 ∧
    (sysAt fun h => { h with tags := { h.tags with busy := 1 } }).me.tags.busy.getLsbD 0 = true := by
  unfold LocatorOk; decide

/-- Two sides of a message from cluster 0 to cluster 1, posted by harts 0 and 4. -/
def sideA (n : Nat) (m : Option (HartId × Nat)) : Msg := ⟨true, 0, 1, 0, 5, 0, 3, 0x80000000, n, m, false⟩
def sideB (m : Option (HartId × Nat)) : Msg := ⟨false, 0, 1, 0, 5, 4, 63, 0x80FFFFC0, 64, m, false⟩

theorem witness_messages : (∀ n ∈ [64, 128], ∀ b ∈ [true, false],
      let x := sideA n (if b then some (4, 63) else none); let y := sideB (if b then some (0, 3) else none)
      let s := (base.modCluster 0 fun c => { c with msgs := [x] }).modCluster 1 fun c => { c with msgs := [y] }
      (s.cluster 0).msgs = [] ++ x :: [] ∧ (s.cluster 1).msgs = [] ++ y :: [] ∧
      x.of true 0 1 5 s.dev.pkgNum.toNat = true ∧ y.of false 0 1 5 s.dev.pkgNum.toNat = true ∧
      x.hart.cluster = 0 ∧ y.hart.cluster = 1) ∧
    (let p := locator (0 : ClusterId) 0x80000000; let q := locator (1 : ClusterId) 0x80FFFFC0
     p.1 ≠ q.1 ∧ p.2 + 64 ≤ 2 ^ 24 ∧ q.2 + 64 ≤ 2 ^ 24) := by decide

/-! ### Class 0xF -/

theorem witness_privilege : (sysAt fun h => { h with status := { h.status with sys := false } }).me.status.sys = false ∧
    ({ Fields.zero with imm := 0x0EB } : Fields).imm.toNat = 0x0EB ∧ ({ Fields.zero with imm := 0x018 } : Fields).imm.toNat = 0x018 ∧
    ({ Fields.zero with imm := 0x037 } : Fields).imm.toNat = 0x037 := by decide

/-- Event bits that fit the mask and ones that do not, with and without NOWAIT. -/
theorem witness_events : (let s := sysAt fun h => { h.ws 1 1 with evpend := 3 };
      s.me.evpend &&& s.rs 1 ≠ 0 ∧ s.me.evpend &&& s.rs 2 = 0) ∧
    ({ Fields.zero with mod := 4 }).modBit 42 = true ∧ Fields.zero.modBit 42 = false ∧
    (let s := sysAt (regs3 511 0x803F 0x10000);
      (s.rs 1).toNat = (511 : HartId).val ∧ (s.rs 2).extractLsb' 7 57 = 0x100 ∧ (s.rs 3).extractLsb' 16 48 ≠ 0 ∧
      s.storesDone s.cur 3 (s.copySeq + 1) = true) := by decide

/-- A calendar without tasks and holds books nothing. -/
theorem bookedAhead_of_empty {s : State} {r : Resource} (h : ∀ d, (s.die d).cal.tasks = [] ∧ (s.die d).cal.holds = []) :
    s.bookedAhead r = false := by
  simp [State.bookedAhead, State.heldBy, State.bookedOn, State.bookings, h]

/-- The hart itself, a running one, one booked within the horizon, and stopped ones with and without a busy tag. -/
theorem witness_hartControl : (1 : Word).toNat = (1 : Fin 4).val ∧ hartOf base.cur.cluster 0 = base.cur ∧ hartOf base.cur.cluster 1 = 1 ∧
    ((base.modHart 1 fun h => { h with run := .running }).hart 1).run ≠ .stopped ∧ (base.hart 1).run = .stopped ∧
    base.bookedAhead (100, 1) = false ∧ (base.modHart 1 fun h => { h with tags := { h.tags with busy := 1 } }).bookedAhead (100, 1) = false ∧
    (base.hart 1).tags.busy = 0 ∧ (base.hart 1).gang = none ∧
    ((base.modHart 1 fun h => { h with gang := some (0, 1) }).hart 1).gang.isSome = true ∧ (0x1008 : Word).toNat % 16 ≠ 0 ∧
    (∀ l ∈ [[], [(⟨1, [(0x2000, [1])], 0xFF, [], 0, 0, false⟩ : HeldStore)]], ∀ x ∈ neededFor 1 l, x.hart = 1) :=
  ⟨by decide, by decide, by decide, by decide, by decide, bookedAhead_of_empty (by decide), bookedAhead_of_empty (by decide),
    by decide, by decide, by decide, by decide, by decide⟩

theorem witness_hartBooked : let t : Task := { readyTask 1 with st := .booked, bookStart := 4, bookEnd := 8, span := 1, tail := 2 }
    let s : State := { calAt 0 [t] id with cur := 1 }
    hartOf s.cur.cluster 0 ≠ s.cur ∧ ({ s with harts := State.reset.harts } : State).bookedAhead (100, 0) = true :=
  ⟨by decide, List.any_eq_true.mpr ⟨4, List.mem_range.mpr (by decide), by decide +kernel⟩⟩

/-- The three functions of CRW, VHIGH at its bound, the semaphore free and held, and numbers at the ends of the gaps. -/
theorem witness_controlRegister : base.me.status.sys = true ∧ ({ Fields.zero with mod := 0 }).modField 43 42 = 0 ∧
    ({ Fields.zero with mod := 8 }).modField 43 42 = 2 ∧ (2048 : Word).toNat % 4096 ≤ 2048 ∧ 2048 < (2049 : Word).toNat % 4096 ∧
    (0x037 : BitVec 32) = BitVec.ofNat 32 (0x018 + (31 : Fin 32).val) ∧ base.dev.hsem.owner = 0 ∧
    base.storesDone base.cur 4 (base.copySeq + 1) = true ∧
    ∀ n ∈ [0x00A, 0x017, 0x038, 0x03F, 0x046, 0x04F, 0x054, 0x0A3, 0x0DF, 0x0EC, 0xFFF], n < 4096 ∧ n ≠ 0x010 ∧
      ¬ (0x018 ≤ n ∧ n ≤ 0x037) ∧ ¬ (0x040 ≤ n ∧ n ≤ 0x045) ∧ ¬ (0x050 ≤ n ∧ n ≤ 0x053) ∧ ¬ (0x080 ≤ n ∧ n ≤ 0x085) ∧
      ¬ (0x0A0 ≤ n ∧ n ≤ 0x0A2) ∧ ¬ (0x0E0 ≤ n ∧ n ≤ 0x0E3) ∧ ¬ (0x0E8 ≤ n ∧ n ≤ 0x0EB) := by decide

/-- For each register whose value is checked a value at its bound and one beyond it: VTYPE, the lengths, the sweep, the lees
registers and the window, KMODE and KLIMIT, and a weight slot with and without the dense mode. -/
theorem witness_checkedRegister : let h := (sysAt leesAt).me;
    (vtypeOk 0x402 = true ∧ vtypeOk 0xFFFF = false) ∧
    (∀ x ∈ [(h.rowcap, h.rowcap + 1), (h.colcap, h.colcap + 1)], x.1 % 2 ^ 14 ≤ x.1 ∧ x.1 < x.2 % 2 ^ 14) ∧
    ((8192 : Word).toNat % 2 ^ 14 ≤ 8192 ∧ 8192 < (8193 : Word).toNat % 2 ^ 14 ∧ 1 ≤ (8192 : Word).toNat % 2 ^ 14 ∧
      ¬ 1 ≤ (0x4000 : Word).toNat % 2 ^ 14) ∧
    ((1048576 : Word).toNat % 2 ^ 21 ≤ 1048576 ∧ 1048576 < (1048577 : Word).toNat % 2 ^ 21 ∧ (16777216 : Word).toNat % 2 ^ 25 ≤ 16777216 ∧
      16777216 < (16777217 : Word).toNat % 2 ^ 25) ∧
    (let sp (w : Word) : Nat := (w &&& 0xFFFFFFFFFFFFC0).toNat;
      h.lees.win = 0 ∧ (h.lees.base.toNat ≤ sp 0x20000 ∧ sp 0x20000 ≤ h.lees.lim.toNat) ∧ h.lees.lim.toNat < sp 0x20040) ∧
    ((0 : Word).toNat % 32 = 0 ∧ (1 : Word).toNat % 32 ≠ 0 ∧ (2 : Word).toNat % 4 ≠ 3 ∧ (3 : Word).toNat % 4 = 3) ∧
    (∀ (n : Fin 2), let x (w : Word) : WSlot := { h.wslot[n] with
        valid := w.getLsbD 0, type := w.extractLsb' 1 4, int := w.getLsbD 5, sp24 := w.getLsbD 6, u := w.getLsbD 7
        k := w.extractLsb' 8 9, n := w.extractLsb' 17 9, pitch := w.extractLsb' 32 32, image := none }
      (x 0x4000201027).legal = true ∧ (x 0x27).legal = false ∧ h.dense = false ∧ ({ h with mxcfg := 0x100100 } : Hart).dense = true) := by
  refine ⟨⟨by decide, by decide⟩, by decide, ⟨by decide, by decide, by decide, by decide⟩, ⟨by decide, by decide, by decide, by decide⟩,
    by decide, ⟨by decide, by decide, by decide, by decide⟩, ?_⟩
  intro n x
  refine ⟨?_, ?_, ?_, ?_⟩ <;> revert n <;> decide

/-- Bindings that are invalid, free of the others, of a group that another binding holds, and of no element type. -/
theorem witness_bindRegister : let h := ({ Hart.reset with vbind := Hart.reset.vbind.set 1 ⟨true, false, false, 16, 0, 1, 5⟩ } : Hart);
    let free (b : VBind) : Prop := b.group.toNat % 2 ^ b.lg.toNat = 0 ∧ ∀ i : Fin 4, i ≠ 2 → (h.vbind[i]).v = true →
      overlaps (h.vbind[i]).group.toNat (h.vbind[i]).size b.group.toNat b.size = false ∧ (h.vbind[i]).handle ≠ b.handle;
    (free ⟨true, false, false, 8, 0, 2, 5⟩ ∧ (h.bindType 5).isSome = true) ∧ ¬ free ⟨true, false, false, 16, 0, 2, 5⟩ ∧
      ¬ free ⟨true, false, false, 9, 1, 2, 5⟩ ∧ h.bindType 14 = none := by decide

/-- The save area at 0x100000, with a list of two elements saved for m0 and a bitmap for MF; v0, m0 and MF selected. -/
def saveState : State := (((base.setBytes 0x112480 [16]).setBytes 0x112400 [1, 0, 2]).setBytes 0x110000 [0, 0, 0xFF, 0x1F]).modMe
  fun h => { h.ws 1 0x10100000001 with vc := { h.vc with vsaveptr := 0x100000, vdirty := BitVec.allOnes 41, vhigh := h.vc.vhigh.set 0 16 } }

def onePiece (va n : Nat) : List MPiece := [.ok (.ok va n (bareEntry va))]

theorem witness_vsave : ∃ ps, let s := saveState; let h := s.me; let a := s.rs 1
    let sel := a.setWidth 41 &&& h.vc.vdirty &&& h.vc.vvalid
    let runs := (h.saveRuns sel.toNat).filter fun r => !r.2.isEmpty
    s.me.status.sys = true ∧ a.extractLsb' 41 23 = 0 ∧
    RowsReady s false (runs.map fun r => (h.vc.vsaveptr + BitVec.ofNat 64 r.1, r.2.length)) ps := by
  refine ⟨[rowPieces 0x100000 1, onePiece 0x112480 8, rowPieces 0x110000 16, onePiece 0x112400 8, rowPieces 0x112000 16,
    onePiece 0x112440 8], by decide, by decide, rfl, ?_⟩
  intro p hp
  simp only [List.flatten_cons, List.flatten_nil, List.mem_append, List.not_mem_nil, or_false] at hp
  obtain hp | hp | hp | hp | hp | hp := hp
  · exact rowPieces_mem hp rfl rfl rfl (by decide)
  · simp only [onePiece, List.mem_singleton] at hp; subst hp
    exact ⟨_, _, _, rfl, (fun h => nomatch h), by decide, fun _ => ⟨by decide, by decide, .inl (by decide)⟩⟩
  · exact rowPieces_mem hp rfl rfl rfl (by decide)
  · simp only [onePiece, List.mem_singleton] at hp; subst hp
    exact ⟨_, _, _, rfl, (fun h => nomatch h), by decide, fun _ => ⟨by decide, by decide, .inl (by decide)⟩⟩
  · exact rowPieces_mem hp rfl rfl rfl (by decide)
  · simp only [onePiece, List.mem_singleton] at hp; subst hp
    exact ⟨_, _, _, rfl, (fun h => nomatch h), by decide, fun _ => ⟨by decide, by decide, .inl (by decide)⟩⟩

def saved1 : List (List MPiece) := [onePiece 0x112480 8, onePiece 0x112400 8, onePiece 0x112440 8]
def saved2 : List (List MPiece) := [rowPieces 0x100000 1, onePiece 0x110000 4, rowPieces 0x112000 16]

theorem witness_vrestHeads : let s := saveState; let a := s.rs 1
    (List.range 32).filter a.getLsbD = [0] ∧ (List.range 9).filter (fun k => a.getLsbD (32 + k)) = [0, 8] ∧
    s.rowOf (saved1.getD 0 []) = 16 ∧ s.rowOf (saved1.getD 1 []) = 0x20001 ∧ s.rowOf (saved1.getD 2 []) = 0 ∧
    s.rowOf (saved2.getD 1 []) = 0x1FFF0000 ∧ ([0, 8191] : List Nat).Pairwise (· < ·) := by decide +kernel

theorem witness_vrestRows : RowsReady saveState true [(0x112480, 8), (0x112400, 8), (0x112440, 8)] saved1 ∧
    RowsReady saveState true [(0x100000, 64), (0x110000, 4), (0x112000, 1024)] saved2 := by
  refine ⟨⟨rfl, ?_⟩, rfl, ?_⟩ <;> intro p hp <;>
    simp only [saved1, saved2, List.flatten_cons, List.flatten_nil, List.mem_append, List.not_mem_nil, or_false] at hp <;>
    obtain hp | hp | hp := hp
  · simp only [onePiece, List.mem_singleton] at hp; subst hp
    exact ⟨_, _, _, rfl, fun _ => by decide, by decide, fun h => by cases h⟩
  · simp only [onePiece, List.mem_singleton] at hp; subst hp
    exact ⟨_, _, _, rfl, fun _ => by decide, by decide, fun h => by cases h⟩
  · simp only [onePiece, List.mem_singleton] at hp; subst hp
    exact ⟨_, _, _, rfl, fun _ => by decide, by decide, fun h => by cases h⟩
  · exact rowPieces_mem hp rfl rfl rfl (by decide)
  · simp only [onePiece, List.mem_singleton] at hp; subst hp
    exact ⟨_, _, _, rfl, fun _ => by decide, by decide, fun h => by cases h⟩
  · exact rowPieces_mem hp rfl rfl rfl (by decide)

/-- Stores held by harts of die 0 and of die 3, for a hart of die 1. -/
theorem witness_tlbinv : let s : State := { base with cur := 128, storeBuf := [⟨0, [(0x2000, [1])], 0xFF, [], 0, 0, false⟩, ⟨511, [(0x2040, [2])], 0xFF, [], 0, 0, false⟩] }
    (∀ x ∈ s.storeBuf, Fields.zero.modBit 44 = false ∧ x.hart.die ≠ s.cur.die) ∧
    (∃ x ∈ ({ s with cur := 0 } : State).storeBuf, x.hart.die = ({ s with cur := 0 } : State).cur.die) ∧
    ({ Fields.zero with mod := 0x10 }).modBit 44 = true := by decide

theorem witness_cflush : ((sysAt (regs3 0 0x40000000 0x40000001)).rs 2).toNat ≤ 2 ^ 30 ∧
    2 ^ 30 < ((sysAt (regs3 0 0x40000000 0x40000001)).rs 3).toNat := by decide

/-! ### Asynchronous causes -/

/-- A pending fault, a request outside and inside a gang, a host interrupt, an event, and a future whose word is polled. -/
theorem witness_asynchronous : let s (g : Hart → Hart) : State := (calAt 64 [runningTask [0, 4]] id).modMe g
    let req : Hart → Hart := fun h => { h with preempt := ⟨true, 9, 0⟩ }
    (s id).me.run = .running ∧ (s id).me.status.sys = true ∧
    ((s fun h => { h with status := { h.status with ie := true } }).me.status.ie = true) ∧
    firstPending (s fun h => { h with pend := [⟨0x10, 0, 0⟩, ⟨0x17, 1, 2⟩] }).me.pend = some ⟨0x17, 1, 2⟩ ∧
    (s req).me.pend = [] ∧ (s req).me.preempt.pend = true ∧ (s req).me.gang = none ∧ (s id).me.preempt.pend = false ∧
    (s fun h => req { h with gang := some (0, 1) }).me.gang = some (0, 1) ∧ (s req).ownsRun 0 = false ∧
    (s req).task 0 1 = some (runningTask [0, 4]) ∧ (runningTask [0, 4]).st = .running ∧
    (s fun h => { h with hipend := 1 }).me.hipend ≠ 0 ∧
    (s fun h => { h with evpend := 1, status := { h.status with eve := true } }).me.status.eve = true ∧
    (s fun h => { h with run := .waiting (.future 0x4008 false) }).me.run = .waiting (.future 0x4008 false) := by
  decide +kernel

theorem witness_hintAudit : ∃ s : State, let x := s.hart 0
    x.run = .running ∧ x.status.sys = true ∧ x.status.ie = true ∧ x.status.audit = true ∧ s.nextAsync 0 = none ∧
    fetch s 0 = (s, .word 0x10A) :=
  ⟨(base.setBytes 0x1000 [0x0A, 1]).modMe fun h => { h with status := { h.status with ie := true, audit := true } }, by decide,
    by decide, by decide, by decide, by decide, by rfl⟩

/-! ### The device and its hosts -/

theorem witness_flit : let f : Flit := ⟨0xFFFFFFFF20, List.replicate 224 1, true, true⟩
    f.data ≠ [] ∧ f.data.length ≤ 224 ∧ f.pa + f.data.length ≤ cellarBase ∧ SMap.wf false base.poison = true := by decide

theorem witness_hosts : let s (g : Device → Device) : State := { base with dev := g base.dev };
    let sem (o : Byte) (l : BitVec 32) : State := s fun d => { d with hsem := { d.hsem with owner := o, lease := l } };
    (s fun d => { d with syncm := true }).dev.syncm = true ∧ base.slot % 256 = 0 ∧ base.dev.syncm = false ∧
    base.dev.hsem.owner = 0 ∧ (sem 3 2).dev.hsem.owner = 3 ∧ (sem 3 2).dev.hsem.owner ≠ 0 ∧ 2 ≤ (sem 3 2).dev.hsem.lease.toNat ∧
    (sem 3 1).dev.hsem.lease = 1 ∧ (sem 3 0).dev.hsem.lease = 0 ∧ (1 : Word).getLsbD 0 = true ∧ (1 : Word).getLsbD 1 = false := by
  decide

theorem witness_reset : base.memOk ∧ base.dev.ran = false ∧ base.dev.tripped = false ∧
    ({ base with dev := { base.dev with ran := true } } : State).dev.ran = true ∧
    ({ base with dev := { base.dev with tripped := true } } : State).dev.tripped = true :=
  ⟨by unfold State.memOk; decide, by decide, by decide, rfl, rfl⟩

end Sys2Proof.Tests
end

section
/-!
What a write of memory leaves (01 R2, 14 R367): read after write, and the poison of the lines written.
-/

namespace Sys2Proof.Machine

/-! ## Setting a list of keys to one value -/

section
variable {α : Type} [DecidableEq α] {d : α} {m : SMap α}

theorem SMap.get_foldl_set (h : SMap.wf d m = true) (l : List Nat) (v : α) (j : Nat) :
    SMap.get d (l.foldl (fun m k => SMap.set d m k v) m) j = if j ∈ l then v else SMap.get d m j := by
  induction l generalizing m with
  | nil => simp
  | cons k l ih =>
    rw [List.foldl_cons, ih (SMap.wf_set h k v), SMap.get_set h]
    by_cases hj : j ∈ l
    · simp [hj]
    · simp [hj, eq_comm]

end

/-! ## The two laws -/

theorem State.byte_setBytes {s : State} (hs : s.memOk) (pa : Nat) (l : List Byte) (a : Nat) :
    (s.setBytes pa l).byte a = if pa ≤ a ∧ a < pa + l.length then l.getD (a - pa) 0 else s.byte a :=
  SMap.get_setMany hs pa l a

/-- Of the lines that a write of `n` bytes at `pa` touches, numbered from `pa / 64` on, those written whole. -/
theorem mem_wholeLines {pa n k : Nat} :
    k ∈ ((List.range ((pa + n) / 64 + 1 - pa / 64)).map (· + pa / 64)).filter
        (fun k => pa ≤ k * 64 && k * 64 + 64 ≤ pa + n) ↔ pa ≤ k * 64 ∧ k * 64 + 64 ≤ pa + n := by
  simp only [List.mem_filter, List.mem_map, List.mem_range, Bool.and_eq_true, decide_eq_true_eq, and_iff_right_iff_imp]
  intro ⟨hlo, hhi⟩
  exact ⟨k - pa / 64, by omega, by omega⟩

theorem State.poisoned_setBytes {s : State} (hp : SMap.wf false s.poison = true) (pa : Nat) (l : List Byte) (a : Nat) :
    (s.setBytes pa l).poisoned a =
      (s.poisoned a && !(decide (pa ≤ a / 64 * 64) && decide (a / 64 * 64 + 64 ≤ pa + l.length))) := by
  unfold State.poisoned State.setBytes
  rw [SMap.get_foldl_set hp]
  simp only [mem_wholeLines]
  by_cases hw : pa ≤ a / 64 * 64 ∧ a / 64 * 64 + 64 ≤ pa + l.length
  · simp [hw]
  · rw [if_neg hw, ← Bool.decide_and, decide_eq_false hw, Bool.not_false, Bool.and_true]

/-- Settles O10, by read after write of a sparse map, and by the lines that a write covers whole. -/
theorem memoryWriteLaws : Obligations.MemoryWriteLaws :=
  ⟨fun _ pa l a hs => State.byte_setBytes hs pa l a, fun _ pa l a hp => State.poisoned_setBytes hp pa l a⟩

end Sys2Proof.Machine
end

section
/-!
The canonical form of memory is an invariant of the machine (01 R2, 06 R140, 14 R368).

The model writes memory in three places only: `State.setBytes`, `State.setLeaf`, and the filter of a warm reset
(`execDevctlWarm`). Each keeps the form. Every other function that answers a state builds it from those, so each has one lemma
here, in the order of the model's files, and its proof names the lemmas of the functions it calls. A meaning that calls others
in a row has the composition of their lemmas as its proof; where a meaning has branches, `grind` goes through them and closes
each by the lemmas named; loops go through `memOk_foldl` and its kin, recursions by induction.
-/

namespace Sys2Proof.Machine

/-! ## What an answer carries -/

/-- The state in which an instruction ends is canonical. -/
def Eff.memOk : Eff → Prop
  | .done s => s.memOk
  | .jump s _ => s.memOk
  | .trap s _ => s.memOk
  | .wait s _ => s.memOk
  | .fault _ => True
  | .refuse _ => True

/-- The state after a step that goes on is canonical. -/
def Out.memOk : Out → Prop
  | .next s => s.memOk
  | .fault _ => True
  | .refused _ => True

/-- The state after a move of blocks of the lees stack is canonical. -/
def LGot.memOk {α : Type} : LGot α → Prop
  | .ok s _ => s.memOk
  | .bad s _ _ => s.memOk
  | .hold => True
  | .nowhere _ => True

/-- The state after a line of a copy is canonical. -/
def LineOut.memOk : LineOut → Prop
  | .done s _ => s.memOk
  | .stop s _ => s.memOk
  | .hold s => s.memOk

/-- The state after a stamp is canonical. -/
def Stamp.memOk : Stamp → Prop
  | .go s _ => s.memOk
  | .drop s => s.memOk
  | .held => True

/-! ## Loops -/

section
variable {α β : Type}

theorem memOk_foldl {f : State → α → State} {s : State} {l : List α} (hf : ∀ t x, t.memOk → (f t x).memOk)
    (hs : s.memOk) : (l.foldl f s).memOk :=
  List.foldlRecOn l f hs fun t ht x _ => hf t x ht

theorem memOk_foldl_fst {f : State × β → α → State × β} {a : State × β} {l : List α}
    (hf : ∀ a x, a.1.memOk → (f a x).1.memOk) (ha : a.1.memOk) : (l.foldl f a).1.memOk :=
  List.foldlRecOn l f ha fun b hb x _ => hf b x hb

theorem memOk_foldl_krun {f : KRun → α → KRun} {k : KRun} {l : List α}
    (hf : ∀ k x, k.s.memOk → (f k x).s.memOk) (hk : k.s.memOk) : (l.foldl f k).s.memOk :=
  List.foldlRecOn l f hk fun b hb x _ => hf b x hb

theorem memOk_foldl_krun_fst {f : KRun × β → α → KRun × β} {k : KRun × β} {l : List α}
    (hf : ∀ k x, k.1.s.memOk → (f k x).1.s.memOk) (hk : k.1.s.memOk) : (l.foldl f k).1.s.memOk :=
  List.foldlRecOn l f hk fun b hb x _ => hf b x hb

theorem memOk_foldl_lgot {f : LGot β → α → LGot β} {a : LGot β} {l : List α}
    (hf : ∀ a x, a.memOk → (f a x).memOk) (ha : a.memOk) : (l.foldl f a).memOk :=
  List.foldlRecOn l f ha fun b hb x _ => hf b x hb

theorem memOk_getD {o : Option State} {s : State} (ho : ∀ t, o = some t → t.memOk) (hs : s.memOk) :
    (o.getD s).memOk := by
  cases o with
  | none => exact hs
  | some t => exact ho t rfl

theorem memOk_reset : State.reset.memOk := rfl

end

/-! ## Registers, memory, translation and traps -/

section
variable {s : State} {h : HartId} {x : MemCtx} {f : Hart → Hart} {c : ClusterId} {d : DieId} {n : BitVec 5}
    {v low w va resume eidx eaddr : Word} {pa cause : Nat} {l : List Byte} {m : Byte} {b : Bool} {e : TlbEntry}
    {acc : Access}

theorem memOk_setHart {x : Hart} (hs : s.memOk) : (s.setHart h x).memOk := hs
theorem memOk_modHart (hs : s.memOk) : (s.modHart h f).memOk := memOk_setHart hs
theorem memOk_setCluster {x : Cluster} (hs : s.memOk) : (s.setCluster c x).memOk := hs
theorem memOk_modCluster {f : Cluster → Cluster} (hs : s.memOk) : (s.modCluster c f).memOk := memOk_setCluster hs
theorem memOk_setDie {x : Die} (hs : s.memOk) : (s.setDie d x).memOk := hs
theorem memOk_modDie {f : Die → Die} (hs : s.memOk) : (s.modDie d f).memOk := memOk_setDie hs
theorem memOk_modMe (hs : s.memOk) : (s.modMe f).memOk := memOk_modHart hs
theorem memOk_ws (hs : s.memOk) : (s.ws n v).memOk := memOk_modMe hs
theorem memOk_illegal (hs : s.memOk) : (illegal s low).memOk := hs
theorem memOk_setBytes (hs : s.memOk) : (s.setBytes pa l).memOk := SMap.wf_setMany hs pa l
theorem memOk_setMasked (hs : s.memOk) : (s.setMasked m pa l).memOk := memOk_setBytes hs

theorem memOk_setRuns {l : List (Nat × List Byte)} (hs : s.memOk) : (s.setRuns m l).memOk :=
  memOk_foldl (fun _ _ => memOk_setMasked) hs

theorem memOk_poisonLines {l : List Nat} (hs : s.memOk) : (s.poisonLines l).memOk := hs
theorem memOk_setNum {n : Nat} {v : Nat} (hs : s.memOk) : (s.setNum pa n v).memOk := memOk_setBytes hs
theorem memOk_setFull (hs : s.memOk) : (s.setFull pa b).memOk := hs
theorem memOk_setLeaf (hs : s.memOk) : (s.setLeaf e w).memOk := SMap.wf_setMany hs _ _

theorem memOk_translate (hs : s.memOk) : (translate s x acc va).1.memOk := by
  unfold translate
  grind [memOk_setLeaf, memOk_modDie]

theorem memOk_markDirty (hs : s.memOk) : (s.markDirty x e).memOk := by
  unfold State.markDirty
  grind [memOk_setLeaf]

theorem memOk_checkAccess (hs : s.memOk) : (checkAccess s x acc va).1.memOk := by
  unfold checkAccess
  grind [memOk_translate]

theorem memOk_releaseMarks (hs : s.memOk) : (s.releaseMarks h).memOk := memOk_modHart hs

theorem memOk_drainStores (hs : s.memOk) : (s.drainStores h).memOk :=
  memOk_modHart (memOk_foldl (fun _ _ => memOk_releaseMarks) (memOk_foldl (fun _ _ => memOk_setRuns) hs))

theorem memOk_drainTiles (hs : s.memOk) : (s.drainTiles h).memOk := memOk_modCluster hs

theorem memOk_takeTrap (hs : s.memOk) : (takeTrap s h cause resume eidx eaddr).memOk :=
  memOk_modHart (memOk_drainTiles (memOk_drainStores hs))

end

/-! ## Regions of the fabric -/

section
variable {s : State} {c sl : ClusterId} {f : Fabric → Fabric} {k off : Nat} {area : List Byte} {v : Saved}
    {owner : HartId} {g : DieId × Nat}

theorem memOk_modFabric (hs : s.memOk) : (s.modFabric c f).memOk := memOk_modCluster hs
theorem memOk_modRun {f : Run → Run} (hs : s.memOk) : (s.modRun c f).memOk := memOk_modFabric hs
theorem memOk_modHandle {f : Handle → Handle} (hs : s.memOk) : (s.modHandle c k f).memOk := memOk_modFabric hs

theorem memOk_saveRegion (hs : s.memOk) : (s.saveRegion c sl off).memOk := by
  unfold State.saveRegion
  grind [State.memOk, memOk_setBytes]

theorem memOk_loadRegion (hs : s.memOk) : (s.loadRegion c area v owner).memOk := memOk_modFabric hs

theorem memOk_freeze (hs : s.memOk) : (s.freeze c).memOk := by
  unfold State.freeze
  grind [memOk_modFabric, memOk_modRun, memOk_saveRegion]

theorem memOk_thaw (hs : s.memOk) : (s.thaw c g).memOk := by
  unfold State.thaw
  grind [memOk_loadRegion, memOk_modHandle, memOk_modFabric, memOk_foldl]

end

/-! ## Gangs, and how an instruction ends -/

section
variable {s : State} {d : DieId} {f : CalUnit → CalUnit} {n cause : Nat} {h : HartId} {t : Task}
    {keep trapping : List HartId} {resume eidx eaddr : Word} {suspend : Bool} {e : Eff}

theorem memOk_modCal (hs : s.memOk) : (s.modCal d f).memOk := memOk_modDie hs
theorem memOk_modTask {f : Task → Task} (hs : s.memOk) : (s.modTask d n f).memOk := memOk_modCal hs
theorem memOk_withdraw (hs : s.memOk) : (s.withdraw h).memOk := memOk_modCluster hs

theorem memOk_stopGang (hs : s.memOk) : (s.stopGang t keep).memOk := by
  unfold State.stopGang
  grind [memOk_modHart, memOk_withdraw, memOk_freeze, memOk_foldl]

theorem memOk_suspendGang (hs : s.memOk) : (s.suspendGang d n trapping).memOk := by
  unfold State.suspendGang
  grind [memOk_stopGang, memOk_modTask, memOk_modCal]

theorem memOk_overrunGang (hs : s.memOk) : (s.overrunGang d n).memOk := by
  unfold State.overrunGang
  grind [memOk_stopGang, memOk_modTask, memOk_modHart]

theorem memOk_charge (hs : s.memOk) : (s.charge h n).memOk := by
  unfold State.charge
  grind [memOk_overrunGang, memOk_modTask, memOk_modHart]

theorem memOk_lose (hs : s.memOk) : (s.lose h).memOk := by
  unfold State.lose
  grind [memOk_modHart, memOk_charge]

theorem memOk_stall (hs : s.memOk) : (s.stall h).memOk := by
  unfold State.stall
  grind [memOk_lose, memOk_modHart]

theorem memOk_gangEret (hs : s.memOk) : (s.gangEret h).memOk := by
  unfold State.gangEret
  grind [memOk_modTask, memOk_modHart, memOk_modCal]

theorem memOk_raise (hs : s.memOk) : (raise s h cause resume eidx eaddr suspend).memOk := by
  unfold raise
  grind [memOk_suspendGang, memOk_takeTrap]

theorem memOk_commit {e : Eff} (he : e.memOk) : (commit e).memOk := by
  cases e with
  | done s => exact memOk_modMe he
  | jump s t => exact memOk_modMe he
  | trap s t => exact memOk_raise he
  | wait s w => exact memOk_modMe he
  | fault x => trivial
  | refuse x => trivial

end

/-! ## Control space -/

section
variable {s : State} {who : Byte} {h : HartId} {v : Word} {off w : Nat} {e : Event}

theorem memOk_hsemAcq (hs : s.memOk) : (s.hsemAcq who).1.memOk := by
  unfold State.hsemAcq
  grind [State.memOk]

theorem memOk_hsemRel (hs : s.memOk) : (s.hsemRel who).memOk := by
  unfold State.hsemRel
  grind [State.memOk]

theorem memOk_hsemRenew (hs : s.memOk) : (s.hsemRenew who).memOk := by
  unfold State.hsemRenew
  grind [State.memOk]

theorem memOk_preq (hs : s.memOk) : (s.preq h who).memOk := memOk_modHart hs
theorem memOk_evset (hs : s.memOk) : (s.evset h v).memOk := memOk_modHart hs
theorem memOk_hiset (hs : s.memOk) : (s.hiset h v).memOk := memOk_modHart hs

theorem memOk_writeOnly {t : State} {v : Word} (hs : s.memOk) (e : writeOnly s = some (t, v)) : t.memOk := by
  cases e
  exact hs

theorem memOk_ctlRead {t : State} {v : Word} (hs : s.memOk) (e : ctlRead s who off = some (t, v)) : t.memOk := by
  unfold ctlRead at e
  grind [memOk_writeOnly, memOk_hsemAcq]

theorem memOk_soon (hs : s.memOk) : (s.soon e).memOk := hs

theorem memOk_ctlWrite {t : State} (hs : s.memOk) (e : ctlWrite s who off v = some t) : t.memOk := by
  unfold ctlWrite at e
  grind [State.memOk, memOk_preq, memOk_evset, memOk_hiset, memOk_modCluster, memOk_modDie, memOk_soon,
    memOk_hsemRel, memOk_hsemRenew]

theorem memOk_ctlLoad {t : State} {w v : Nat} (hs : s.memOk) (e : ctlLoad s who off w = some (t, v)) : t.memOk := by
  obtain ⟨⟨u, x⟩, hu, ⟨rfl, -⟩⟩ := Option.map_eq_some_iff.mp e
  exact memOk_ctlRead hs hu

theorem memOk_ctlStore {t : State} {w v : Nat} (hs : s.memOk) (e : ctlStore s who off w v = some t) : t.memOk :=
  memOk_ctlWrite hs e

end

/-! ## Scalar accesses -/

section
variable {s : State} {pa al w v : Nat} {rdup : Bool} {m : Byte} {l : List Byte} {e : TlbEntry} {va : Word}
    {k : State → Nat → Eff} {up : Nat → Option Nat}

theorem memOk_park (hs : s.memOk) : (s.park pa).memOk := by
  unfold State.park
  grind [Eff.memOk, memOk_modDie]

theorem memOk_wakeAll (hs : s.memOk) : (s.wakeAll pa).memOk :=
  memOk_foldl (fun _ _ => memOk_modHart) (memOk_modDie hs)

theorem memOk_storeRuns {l : List (Nat × List Byte)} (hs : s.memOk) : (s.storeRuns rdup m l).memOk := by
  unfold State.storeRuns
  grind [State.memOk, memOk_setRuns]

theorem memOk_storeBytes (hs : s.memOk) : (s.storeBytes e pa l).memOk := memOk_storeRuns hs

theorem memOk_withAccess {m : Mode} {k : State → Nat → TlbEntry → Eff} (hs : s.memOk)
    (hk : ∀ t x y, t.memOk → (k t x y).memOk) : (withAccess s m al w va k).memOk := by
  unfold withAccess
  grind [Eff.memOk, memOk_checkAccess]

theorem memOk_readData (hs : s.memOk) (hk : ∀ t x, t.memOk → (k t x).memOk) : (readData s pa w va k).memOk := by
  unfold readData
  grind [Eff.memOk]

theorem memOk_scalarLoad {k : State → Nat → Eff} (hs : s.memOk) (hk : ∀ t v, t.memOk → (k t v).memOk) :
    (scalarLoad s w va k).memOk := by
  refine memOk_withAccess hs fun t pa e ht => ?_
  split
  · exact hk _ _ (memOk_modMe ht)
  split
  · split
    next u v hu => exact hk u v (memOk_ctlLoad ht hu)
    next => trivial
  split
  · exact memOk_park ht
  · exact memOk_readData ht hk

theorem memOk_fill (hs : s.memOk) : (s.fill pa l).memOk := memOk_wakeAll (memOk_setFull (memOk_setBytes hs))

theorem memOk_scalarStore {v : Nat} {k : State → Eff} (hs : s.memOk) (hk : ∀ t, t.memOk → (k t).memOk) :
    (scalarStore s w va v k).memOk := by
  refine memOk_withAccess hs fun t pa e ht => ?_
  have hd : (t.markDirty t.ctx e).memOk := memOk_markDirty ht
  split
  · split
    · exact ht
    · split
      next u hu => exact hk u (memOk_ctlStore hd hu)
      next => trivial
  split
  · exact ht
  split
  · exact ht
  split
  · exact ht
  dsimp only
  split
  · exact hk _ (memOk_fill hd)
  split
  · exact hk _ (memOk_setFull (memOk_setBytes hd))
  · exact hk _ (memOk_storeBytes hd)

theorem memOk_readModify {k : State → Nat → Nat → Eff} (hs : s.memOk) (hk : ∀ t x y, t.memOk → (k t x y).memOk) :
    (readModify s al w va up k).memOk := by
  unfold readModify
  grind [Eff.memOk, memOk_withAccess, memOk_readData, memOk_setBytes, memOk_markDirty]

end

/-! ## Control transfer -/

section
variable {s s' : State} {t : Word} {c : Bool} {f : Fields} {l : List Nat} {k : Eff}

theorem memOk_transfer (hs : s.memOk) (hs' : s'.memOk) : (transfer s s' t).memOk := by
  unfold transfer
  grind [Eff.memOk]

theorem memOk_branch (hs : s.memOk) : (branch s c t).memOk := by
  unfold branch
  grind [Eff.memOk, memOk_transfer]

theorem memOk_link (hs : s.memOk) : (s.link f).memOk := memOk_modMe hs
theorem memOk_execBr (hs : s.memOk) : Out.memOk (execBr f s) := memOk_commit (memOk_branch hs)
theorem memOk_execBz (hs : s.memOk) : Out.memOk (execBz f s) := memOk_commit (memOk_branch hs)
theorem memOk_execBnz (hs : s.memOk) : Out.memOk (execBnz f s) := memOk_commit (memOk_branch hs)
theorem memOk_execJmp (hs : s.memOk) : Out.memOk (execJmp f s) := memOk_commit (memOk_transfer hs hs)
theorem memOk_execJmpr (hs : s.memOk) : Out.memOk (execJmpr f s) := memOk_commit (memOk_transfer hs hs)
theorem memOk_execCall (hs : s.memOk) : Out.memOk (execCall f s) := memOk_commit (memOk_transfer hs (memOk_link hs))
theorem memOk_execCallr (hs : s.memOk) : Out.memOk (execCallr f s) := memOk_commit (memOk_transfer hs (memOk_link hs))
theorem memOk_execRet (hs : s.memOk) : Out.memOk (execRet f s) := memOk_commit (memOk_transfer hs (memOk_modMe hs))

theorem memOk_execLoop (hs : s.memOk) : Out.memOk (execLoop f s) := by
  unfold execLoop
  grind [Eff.memOk, memOk_commit, memOk_ws, memOk_transfer]

theorem memOk_withRegs (hs : s.memOk) (hk : k.memOk) : (withRegs s l k).memOk := by
  unfold withRegs
  grind [Eff.memOk]

theorem memOk_execBmask (hs : s.memOk) : Out.memOk (execBmask f s) :=
  memOk_commit (memOk_withRegs hs (memOk_branch hs))

theorem memOk_execNop (f : Fields) (hs : s.memOk) : Out.memOk (execNop f s) := memOk_commit hs

theorem memOk_withSys (hs : s.memOk) (hk : k.memOk) : (withSys s k).memOk := by
  unfold withSys
  grind [Eff.memOk]

end

/-! ## Hart ports -/

section
variable {s : State} {k : Nat} {x : Handle}

theorem memOk_setMyHandle (hs : s.memOk) : (s.setMyHandle k x).memOk := memOk_modMe (memOk_modHandle hs)
theorem memOk_laneFault (hs : s.memOk) : (laneFault s).memOk := hs

end

/-! ## Scalar arithmetic -/

section
variable {s : State} {opc : BitVec 12} {f : Fields} {g : Word → Word → Word}

theorem memOk_illegalWord (hs : s.memOk) : (illegalWord s opc f).memOk := memOk_illegal hs
theorem memOk_alu (hs : s.memOk) : (alu f s g).memOk := memOk_ws hs
theorem memOk_alu1 {g : Word → Word} (hs : s.memOk) : (alu1 f s g).memOk := memOk_ws hs
theorem memOk_execAdd (hs : s.memOk) : Out.memOk (execAdd f s) := memOk_commit (memOk_alu hs)
theorem memOk_execSub (hs : s.memOk) : Out.memOk (execSub f s) := memOk_commit (memOk_alu hs)
theorem memOk_execMul (hs : s.memOk) : Out.memOk (execMul f s) := memOk_commit (memOk_alu hs)
theorem memOk_execMulh (hs : s.memOk) : Out.memOk (execMulh f s) := memOk_commit (memOk_alu hs)
theorem memOk_execDiv (hs : s.memOk) : Out.memOk (execDiv f s) := memOk_commit (memOk_alu hs)
theorem memOk_execRem (hs : s.memOk) : Out.memOk (execRem f s) := memOk_commit (memOk_alu hs)
theorem memOk_execAnd (hs : s.memOk) : Out.memOk (execAnd f s) := memOk_commit (memOk_alu hs)
theorem memOk_execOr (hs : s.memOk) : Out.memOk (execOr f s) := memOk_commit (memOk_alu hs)
theorem memOk_execXor (hs : s.memOk) : Out.memOk (execXor f s) := memOk_commit (memOk_alu hs)
theorem memOk_execAndn (hs : s.memOk) : Out.memOk (execAndn f s) := memOk_commit (memOk_alu hs)
theorem memOk_execShl (hs : s.memOk) : Out.memOk (execShl f s) := memOk_commit (memOk_alu hs)
theorem memOk_execShr (hs : s.memOk) : Out.memOk (execShr f s) := memOk_commit (memOk_alu hs)
theorem memOk_execRot (hs : s.memOk) : Out.memOk (execRot f s) := memOk_commit (memOk_alu hs)
theorem memOk_execMin (hs : s.memOk) : Out.memOk (execMin f s) := memOk_commit (memOk_alu hs)
theorem memOk_execMax (hs : s.memOk) : Out.memOk (execMax f s) := memOk_commit (memOk_alu hs)
theorem memOk_execCmp (hs : s.memOk) : Out.memOk (execCmp f s) := memOk_commit (memOk_alu hs)
theorem memOk_execSel (hs : s.memOk) : Out.memOk (execSel f s) := memOk_commit (memOk_alu hs)
theorem memOk_execMuladd (hs : s.memOk) : Out.memOk (execMuladd f s) := memOk_commit (memOk_alu hs)
theorem memOk_execClamp (hs : s.memOk) : Out.memOk (execClamp f s) := memOk_commit (memOk_alu hs)
theorem memOk_execClz (hs : s.memOk) : Out.memOk (execClz f s) := memOk_commit (memOk_alu1 hs)
theorem memOk_execCtz (hs : s.memOk) : Out.memOk (execCtz f s) := memOk_commit (memOk_alu1 hs)
theorem memOk_execPopc (hs : s.memOk) : Out.memOk (execPopc f s) := memOk_commit (memOk_alu1 hs)
theorem memOk_execBfx (hs : s.memOk) : Out.memOk (execBfx f s) := memOk_commit (memOk_alu1 hs)
theorem memOk_execBfi (hs : s.memOk) : Out.memOk (execBfi f s) := memOk_commit (memOk_alu1 hs)
theorem memOk_execBrev (hs : s.memOk) : Out.memOk (execBrev f s) := memOk_commit (memOk_alu1 hs)
theorem memOk_execExt (hs : s.memOk) : Out.memOk (execExt f s) := memOk_commit (memOk_alu1 hs)
theorem memOk_execLi (hs : s.memOk) : Out.memOk (execLi f s) := memOk_commit (memOk_ws hs)
theorem memOk_execLea (hs : s.memOk) : Out.memOk (execLea f s) := memOk_commit (memOk_ws hs)
theorem memOk_execLeaPc (hs : s.memOk) : Out.memOk (execLeaPc f s) := memOk_commit (memOk_ws hs)

theorem memOk_modular {g : Nat → Nat → Nat → Nat} (hs : s.memOk) : (modular opc f s g).memOk := by
  unfold modular
  grind [Eff.memOk, memOk_illegalWord, memOk_ws]

theorem memOk_execModmul (hs : s.memOk) : Out.memOk (execModmul f s) := memOk_commit (memOk_modular hs)
theorem memOk_execModadd (hs : s.memOk) : Out.memOk (execModadd f s) := memOk_commit (memOk_modular hs)
theorem memOk_execLd (hs : s.memOk) : Out.memOk (execLd f s) := memOk_commit (memOk_scalarLoad hs fun _ _ => memOk_ws)
theorem memOk_execSt (hs : s.memOk) : Out.memOk (execSt f s) := memOk_commit (memOk_scalarStore hs fun _ ht => ht)

end

/-! ## Vector operands and bindings -/

section
variable {s : State} {i : Fin 4} {outs ins : List (Fin 4)} {dsts pulls srcs : List Opnd} {e : Eff} {k : State → Eff}
    {h : Hart} {idx : Nat} {fl : FFlags} {opc : BitVec 12} {f : Fields} {d : Dst} {masks : List Nat} {rm : Option RMode}
    {body : Hart → Hart → Nat → Hart × FFlags} {ok : Bool}

theorem memOk_pullOne (hs : s.memOk) : (pullOne s i).memOk := by
  unfold pullOne
  grind [Eff.memOk, memOk_laneFault, memOk_modMe, memOk_setMyHandle]

theorem memOk_pullAll {l : List (Fin 4)} (hs : s.memOk) : (pullAll s l).memOk := by
  induction l generalizing s with
  | nil => exact hs
  | cons i r ih =>
    have hp : (pullOne s i).memOk := memOk_pullOne hs
    unfold pullAll
    split
    next t ht =>
      rw [ht] at hp
      split
      · exact hs
      · exact ih hp
    next => exact hp

theorem memOk_pushOne (hs : s.memOk) : (pushOne s i).memOk := by
  unfold pushOne
  grind [memOk_setMyHandle]

theorem memOk_pushBound (hs : s.memOk) : (pushBound s outs).memOk := by
  unfold pushBound
  grind [memOk_pushOne, memOk_foldl]

theorem memOk_pushAll (hs : s.memOk) : (pushAll s dsts).memOk := memOk_pushBound hs

theorem memOk_afterPull (hs : s.memOk) (he : e.memOk) : (afterPull s e).memOk := by
  unfold afterPull
  grind [Eff.memOk]

theorem memOk_withBindings (hs : s.memOk) (hk : ∀ t, t.memOk → (k t).memOk) : (withBindings s outs ins k).memOk := by
  unfold withBindings
  grind [Eff.memOk, memOk_laneFault, memOk_pullAll, memOk_afterPull]

theorem memOk_withStreams (hs : s.memOk) (hk : ∀ t, t.memOk → (k t).memOk) : (withStreams s dsts pulls k).memOk :=
  memOk_withBindings hs hk

theorem memOk_fpTrap {k : Nat} (hs : s.memOk) : (fpTrap s h k idx fl).memOk := memOk_modMe hs

theorem memOk_resumable (hs : s.memOk) : (resumable s opc f d srcs masks rm body).memOk := by
  unfold resumable
  grind [Eff.memOk, memOk_illegalWord, memOk_withRegs, memOk_withStreams, memOk_fpTrap, memOk_modMe, memOk_pushAll]

theorem memOk_nonResumable (hs : s.memOk) (hk : ∀ t, t.memOk → (k t).memOk) :
    (nonResumable s opc f d srcs masks ok k).memOk := by
  unfold nonResumable
  grind [memOk_illegalWord, memOk_withRegs, memOk_withStreams]

end

/-! ## Vector floating point -/

section
variable {opc : BitVec 12} {f : Fields} {s : State} {rounds : Bool} {g : Fmt → FEnv → Nat → Nat → Nat → Nat × FFlags}

theorem memOk_vfbin (hs : s.memOk) : (vfbin opc f s rounds g).memOk := by
  unfold vfbin
  grind [memOk_illegalWord, memOk_resumable]

theorem memOk_vfun {g : Fmt → FEnv → Nat → Nat → Nat × FFlags} (hs : s.memOk) : (vfun opc f s g).memOk := by
  unfold vfun
  grind [memOk_illegalWord, memOk_resumable]

theorem memOk_execVfadd (hs : s.memOk) : Out.memOk (execVfadd f s) := memOk_commit (memOk_vfbin hs)
theorem memOk_execVfsub (hs : s.memOk) : Out.memOk (execVfsub f s) := memOk_commit (memOk_vfbin hs)
theorem memOk_execVfmul (hs : s.memOk) : Out.memOk (execVfmul f s) := memOk_commit (memOk_vfbin hs)
theorem memOk_execVfdiv (hs : s.memOk) : Out.memOk (execVfdiv f s) := memOk_commit (memOk_vfbin hs)

theorem memOk_execVfma (hs : s.memOk) : Out.memOk (execVfma f s) := by
  unfold execVfma
  grind [memOk_commit, memOk_illegalWord, memOk_resumable]

theorem memOk_execVfwma (hs : s.memOk) : Out.memOk (execVfwma f s) := by
  unfold execVfwma
  grind [memOk_commit, memOk_illegalWord, memOk_resumable]

theorem memOk_execVfmin (hs : s.memOk) : Out.memOk (execVfmin f s) := memOk_commit (memOk_vfbin hs)
theorem memOk_execVfmax (hs : s.memOk) : Out.memOk (execVfmax f s) := memOk_commit (memOk_vfbin hs)
theorem memOk_execVfsqrt (hs : s.memOk) : Out.memOk (execVfsqrt f s) := memOk_commit (memOk_vfun hs)
theorem memOk_execVfrsq (hs : s.memOk) : Out.memOk (execVfrsq f s) := memOk_commit (memOk_vfun hs)
theorem memOk_execVfrcp (hs : s.memOk) : Out.memOk (execVfrcp f s) := memOk_commit (memOk_vfun hs)
theorem memOk_execVfexp (hs : s.memOk) : Out.memOk (execVfexp f s) := memOk_commit (memOk_vfun hs)
theorem memOk_execVfsgn (hs : s.memOk) : Out.memOk (execVfsgn f s) := memOk_commit (memOk_vfbin hs)

theorem memOk_execVfclass (hs : s.memOk) : Out.memOk (execVfclass f s) := by
  unfold execVfclass
  grind [memOk_commit, memOk_illegalWord, memOk_resumable]

theorem memOk_execVfscale (hs : s.memOk) : Out.memOk (execVfscale f s) := by
  unfold execVfscale
  grind [memOk_commit, memOk_illegalWord, memOk_resumable]

theorem memOk_execVfrnd (hs : s.memOk) : Out.memOk (execVfrnd f s) := memOk_commit (memOk_vfun hs)

theorem memOk_vfcvt (hs : s.memOk) : (vfcvt f s).memOk := by
  unfold vfcvt
  grind [memOk_illegalWord, memOk_resumable]

theorem memOk_execVfcvt (hs : s.memOk) : Out.memOk (execVfcvt f s) := memOk_commit (memOk_vfcvt hs)

theorem memOk_execVfnf (hs : s.memOk) : Out.memOk (execVfnf f s) := by
  unfold execVfnf
  grind [memOk_commit, memOk_illegalWord, memOk_resumable]

end

/-! ## Vector integers -/

section
variable {opc : BitVec 12} {f : Fields} {s : State} {g : Nat → Nat → Nat → Nat}

theorem memOk_vbin (hs : s.memOk) : (vbin opc f s g).memOk := by
  unfold vbin
  grind [memOk_illegalWord, memOk_resumable]

theorem memOk_vun {g : Nat → Nat → Nat} (hs : s.memOk) : (vun opc f s g).memOk := by
  unfold vun
  grind [memOk_illegalWord, memOk_resumable]

theorem memOk_vwiden {g : Nat → Nat → Nat → Int} (hs : s.memOk) : (vwiden opc f s g).memOk := by
  unfold vwiden
  grind [memOk_illegalWord, memOk_resumable]

theorem memOk_execVadd (hs : s.memOk) : Out.memOk (execVadd f s) := memOk_commit (memOk_vbin hs)
theorem memOk_execVsub (hs : s.memOk) : Out.memOk (execVsub f s) := memOk_commit (memOk_vbin hs)
theorem memOk_execVrsub (hs : s.memOk) : Out.memOk (execVrsub f s) := memOk_commit (memOk_vbin hs)
theorem memOk_execVmul (hs : s.memOk) : Out.memOk (execVmul f s) := memOk_commit (memOk_vbin hs)
theorem memOk_execVmulh (hs : s.memOk) : Out.memOk (execVmulh f s) := memOk_commit (memOk_vbin hs)
theorem memOk_execVdiv (hs : s.memOk) : Out.memOk (execVdiv f s) := memOk_commit (memOk_vbin hs)
theorem memOk_execVrem (hs : s.memOk) : Out.memOk (execVrem f s) := memOk_commit (memOk_vbin hs)
theorem memOk_execVmin (hs : s.memOk) : Out.memOk (execVmin f s) := memOk_commit (memOk_vbin hs)
theorem memOk_execVmax (hs : s.memOk) : Out.memOk (execVmax f s) := memOk_commit (memOk_vbin hs)
theorem memOk_execVand (hs : s.memOk) : Out.memOk (execVand f s) := memOk_commit (memOk_vbin hs)
theorem memOk_execVor (hs : s.memOk) : Out.memOk (execVor f s) := memOk_commit (memOk_vbin hs)
theorem memOk_execVxor (hs : s.memOk) : Out.memOk (execVxor f s) := memOk_commit (memOk_vbin hs)
theorem memOk_execVshl (hs : s.memOk) : Out.memOk (execVshl f s) := memOk_commit (memOk_vbin hs)
theorem memOk_execVshr (hs : s.memOk) : Out.memOk (execVshr f s) := memOk_commit (memOk_vbin hs)
theorem memOk_execVsadd (hs : s.memOk) : Out.memOk (execVsadd f s) := memOk_commit (memOk_vbin hs)
theorem memOk_execVssub (hs : s.memOk) : Out.memOk (execVssub f s) := memOk_commit (memOk_vbin hs)
theorem memOk_execVavg (hs : s.memOk) : Out.memOk (execVavg f s) := memOk_commit (memOk_vbin hs)
theorem memOk_execVabsd (hs : s.memOk) : Out.memOk (execVabsd f s) := memOk_commit (memOk_vbin hs)
theorem memOk_execVwadd (hs : s.memOk) : Out.memOk (execVwadd f s) := memOk_commit (memOk_vwiden hs)
theorem memOk_execVwmul (hs : s.memOk) : Out.memOk (execVwmul f s) := memOk_commit (memOk_vwiden hs)

theorem memOk_execVnshr (hs : s.memOk) : Out.memOk (execVnshr f s) := by
  unfold execVnshr
  grind [memOk_commit, memOk_illegalWord, memOk_resumable]

theorem memOk_vmodular (hs : s.memOk) : (vmodular opc f s g).memOk := by
  unfold vmodular
  grind [memOk_illegalWord, memOk_vbin]

theorem memOk_execVmodadd (hs : s.memOk) : Out.memOk (execVmodadd f s) := memOk_commit (memOk_vmodular hs)
theorem memOk_execVmodsub (hs : s.memOk) : Out.memOk (execVmodsub f s) := memOk_commit (memOk_vmodular hs)
theorem memOk_execVmodmul (hs : s.memOk) : Out.memOk (execVmodmul f s) := memOk_commit (memOk_vmodular hs)
theorem memOk_execVclz (hs : s.memOk) : Out.memOk (execVclz f s) := memOk_commit (memOk_vun hs)
theorem memOk_execVpopc (hs : s.memOk) : Out.memOk (execVpopc f s) := memOk_commit (memOk_vun hs)

end

/-! ## Vector shapes, masks, reductions and scans -/

section
variable {f : Fields} {s : State} {t : BitVec 16} {rows cols w : Nat} {starved progress max : Bool} {va : Word}
    {d : Opnd} {g : Hart → Nat → Option Nat} {opc : BitVec 12} {rm : Option RMode}
    {red : Hart → Nat → Nat → List (Option Node) → Node} {op : Nat → Nat → Nat → Nat} {srcs : List Opnd} {seed : Hart → Nat}

theorem memOk_vsetlEnd (hs : s.memOk) : (vsetlEnd f s t rows cols starved).memOk := memOk_ws (memOk_modMe hs)

theorem memOk_parkVa (hs : s.memOk) : (parkVa s va).memOk := by
  unfold parkVa
  grind [Eff.memOk, memOk_checkAccess, memOk_park]

theorem memOk_vsetl (hs : s.memOk) : (vsetl f s progress).memOk := by
  unfold vsetl
  grind [Eff.memOk, memOk_illegalWord, memOk_scalarLoad, memOk_parkVa, memOk_vsetlEnd]

theorem memOk_execVsetl (hs : s.memOk) : Out.memOk (execVsetl f s) := memOk_commit (memOk_vsetl hs)
theorem memOk_execVsetlProgress (hs : s.memOk) : Out.memOk (execVsetlProgress f s) := memOk_commit (memOk_vsetl hs)

theorem memOk_execVsetdim (hs : s.memOk) : Out.memOk (execVsetdim f s) := by
  unfold execVsetdim
  grind [Eff.memOk, memOk_commit, memOk_illegalWord, memOk_modMe]

theorem memOk_execVcmp (hs : s.memOk) : Out.memOk (execVcmp f s) := by
  unfold execVcmp
  grind [memOk_commit, memOk_illegalWord, memOk_resumable]

theorem memOk_execVfcmp (hs : s.memOk) : Out.memOk (execVfcmp f s) := by
  unfold execVfcmp
  grind [memOk_commit, memOk_illegalWord, memOk_resumable]

theorem memOk_execMlogic (hs : s.memOk) : Out.memOk (execMlogic f s) :=
  memOk_commit (memOk_nonResumable hs fun _ => memOk_modMe)

theorem memOk_execMpopc (hs : s.memOk) : Out.memOk (execMpopc f s) :=
  memOk_commit (memOk_nonResumable hs fun _ => memOk_ws)

theorem memOk_execMffs (hs : s.memOk) : Out.memOk (execMffs f s) :=
  memOk_commit (memOk_nonResumable hs fun _ => memOk_ws)

theorem memOk_execMset (hs : s.memOk) : Out.memOk (execMset f s) :=
  memOk_commit (memOk_nonResumable hs fun _ => memOk_modMe)

theorem memOk_execMtolist (hs : s.memOk) : Out.memOk (execMtolist f s) := by
  unfold execMtolist
  grind [Eff.memOk, memOk_commit, memOk_nonResumable, memOk_ws, memOk_modMe]

theorem memOk_execMtobits (hs : s.memOk) : Out.memOk (execMtobits f s) :=
  memOk_commit (memOk_nonResumable hs fun _ => memOk_modMe)

theorem memOk_execViota (hs : s.memOk) : Out.memOk (execViota f s) := by
  unfold execViota
  grind [memOk_commit, memOk_illegalWord, memOk_resumable]

theorem memOk_execVid (hs : s.memOk) : Out.memOk (execVid f s) := by
  unfold execVid
  grind [memOk_commit, memOk_illegalWord, memOk_resumable]

theorem memOk_putAll (hs : s.memOk) : (putAll s d g).memOk := by
  unfold putAll
  grind [Eff.memOk, memOk_pushAll, memOk_modMe]

theorem memOk_execVcompress (hs : s.memOk) : Out.memOk (execVcompress f s) := by
  unfold execVcompress
  grind [memOk_commit, memOk_illegalWord, memOk_nonResumable, memOk_putAll]

theorem memOk_execVexpand (hs : s.memOk) : Out.memOk (execVexpand f s) := by
  unfold execVexpand
  grind [memOk_commit, memOk_illegalWord, memOk_nonResumable, memOk_putAll]

theorem memOk_execVperm (hs : s.memOk) : Out.memOk (execVperm f s) := by
  unfold execVperm
  grind [memOk_commit, memOk_illegalWord, memOk_nonResumable, memOk_putAll]

theorem memOk_execVslide (hs : s.memOk) : Out.memOk (execVslide f s) := by
  unfold execVslide
  grind [memOk_commit, memOk_illegalWord, memOk_nonResumable, memOk_putAll]

theorem memOk_vsplat (hs : s.memOk) : (vsplat f s).memOk := by
  unfold vsplat
  grind [memOk_resumable, memOk_illegalWord]

theorem memOk_execVsplat (hs : s.memOk) : Out.memOk (execVsplat f s) := memOk_commit (memOk_vsplat hs)

theorem memOk_execVmerge (hs : s.memOk) : Out.memOk (execVmerge f s) := by
  unfold execVmerge
  grind [memOk_commit, memOk_illegalWord, memOk_resumable]

theorem memOk_execVmv (hs : s.memOk) : Out.memOk (execVmv f s) := by
  unfold execVmv
  grind [memOk_commit, memOk_illegalWord, memOk_resumable]

theorem memOk_execVmvWhole (hs : s.memOk) : Out.memOk (execVmvWhole f s) := by
  unfold execVmvWhole
  grind [Eff.memOk, memOk_commit, memOk_illegalWord, memOk_withRegs, memOk_withStreams, memOk_pushAll, memOk_modMe]

theorem memOk_execVmvsx (hs : s.memOk) : Out.memOk (execVmvsx f s) := by
  unfold execVmvsx
  grind [Eff.memOk, memOk_commit, memOk_illegalWord, memOk_withRegs, memOk_withStreams, memOk_pushAll, memOk_modMe]

theorem memOk_execVmvxs (hs : s.memOk) : Out.memOk (execVmvxs f s) := by
  unfold execVmvxs
  grind [Eff.memOk, memOk_commit, memOk_illegalWord, memOk_withRegs, memOk_ws]

theorem memOk_reduction (hs : s.memOk) : (reduction s opc f w rm red).memOk := by
  unfold reduction
  grind [Eff.memOk, memOk_nonResumable, memOk_fpTrap, memOk_pushAll, memOk_modMe]

theorem memOk_intReduction (hs : s.memOk) : (intReduction s opc f op).memOk := by
  unfold intReduction
  grind [memOk_illegalWord, memOk_reduction]

theorem memOk_fltSum (hs : s.memOk) : (fltSum s f).memOk := by
  unfold fltSum
  grind [memOk_illegalWord, memOk_reduction]

theorem memOk_execVredsum (hs : s.memOk) : Out.memOk (execVredsum f s) := by
  unfold execVredsum
  grind [memOk_commit, memOk_fltSum, memOk_intReduction]

theorem memOk_minMaxReduction (hs : s.memOk) : (minMaxReduction s opc f max).memOk := by
  unfold minMaxReduction
  grind [memOk_illegalWord, memOk_reduction, memOk_intReduction]

theorem memOk_execVredmax (hs : s.memOk) : Out.memOk (execVredmax f s) := memOk_commit (memOk_minMaxReduction hs)
theorem memOk_execVredmin (hs : s.memOk) : Out.memOk (execVredmin f s) := memOk_commit (memOk_minMaxReduction hs)
theorem memOk_execVredlog (hs : s.memOk) : Out.memOk (execVredlog f s) := memOk_commit (memOk_intReduction hs)

theorem memOk_scanLoop {g : Hart → Nat → Nat → Nat × FFlags} (hs : s.memOk) : (scanLoop s opc f w srcs rm seed g).memOk :=
  memOk_resumable hs

theorem memOk_vscan (hs : s.memOk) : (vscan f s).memOk := by
  unfold vscan
  grind [memOk_illegalWord, memOk_scanLoop]

theorem memOk_execVscan (hs : s.memOk) : Out.memOk (execVscan f s) := memOk_commit (memOk_vscan hs)

theorem memOk_vchain (hs : s.memOk) : (vchain f s).memOk := by
  unfold vchain
  grind [memOk_illegalWord, memOk_scanLoop]

theorem memOk_execVchain (hs : s.memOk) : Out.memOk (execVchain f s) := memOk_commit (memOk_vchain hs)

theorem memOk_execVtrans8 (hs : s.memOk) : Out.memOk (execVtrans8 f s) :=
  memOk_commit (memOk_nonResumable hs fun _ ht => memOk_pushAll (memOk_modMe ht))

end

/-! ## Vector memory -/

section
variable {s : State} {x : MemCtx} {load : Bool} {va : Word} {n k0 e nf epgW : Nat} {l : List Piece} {m : MemOp}
    {b : List Byte} {h : Hart} {f : Fields} {done : List (Nat × Nat × Nat)} {a : Access1} {good : List Access1}
    {opc : BitVec 12} {outs : List (Fin 4)} {accept extra : MTy → Bool} {regs : List Nat} {eidx : Nat → Nat}
    {cell : MTy → Word → Hart → Nat → Word × Nat} {idx : MTy → List (Nat × Nat)}

theorem memOk_checkPiece (hs : s.memOk) : (checkPiece s x load va n).1.memOk := by
  unfold checkPiece
  grind [memOk_translate]

theorem memOk_checkRun (hs : s.memOk) : (checkRun s x load va n).1.memOk :=
  memOk_foldl_fst (fun _ _ => memOk_checkPiece) hs

theorem memOk_readRun (hs : s.memOk) : (s.readRun l).1.memOk := by
  unfold State.readRun
  grind [memOk_modMe, memOk_foldl_fst]

theorem memOk_writeMasked {m : Byte} (hs : s.memOk) : (s.writeMasked m l b).memOk := by
  unfold State.writeMasked
  grind [memOk_storeRuns, memOk_markDirty, memOk_foldl]

theorem memOk_writeRun (hs : s.memOk) : (s.writeRun l b).memOk := memOk_writeMasked hs

theorem MemOp.memOk_translateAll (hs : s.memOk) : (m.translateAll s h f).1.memOk :=
  memOk_foldl_fst (fun _ _ => memOk_checkRun) hs

theorem MemOp.memOk_perform (hs : s.memOk) : (m.perform h done s a).memOk := by
  unfold MemOp.perform
  grind [memOk_readRun, memOk_modMe, memOk_writeMasked, memOk_writeRun]

theorem MemOp.memOk_inactive (hs : s.memOk) : (m.inactive h f s k0).memOk := by
  unfold MemOp.inactive
  grind [memOk_modMe]

theorem MemOp.memOk_accessRange {a : Nat} (hs : s.memOk) : (m.accessRange h f good s a e).memOk := by
  unfold MemOp.accessRange
  grind [MemOp.memOk_perform, MemOp.memOk_inactive, memOk_foldl]

theorem MemOp.memOk_batch {l : List Faulted} (hs : s.memOk) : (m.batch opc s h l).memOk := by
  unfold MemOp.batch
  grind [Eff.memOk, memOk_modMe]

theorem MemOp.memOk_run (hs : s.memOk) : (m.run opc f outs s).memOk := by
  unfold MemOp.run
  grind [Eff.memOk, memOk_pushBound, memOk_modMe, MemOp.memOk_translateAll, MemOp.memOk_accessRange,
    MemOp.memOk_batch]

theorem memOk_memForm (hs : s.memOk) : (memForm opc f s load accept nf epgW extra regs eidx cell idx).memOk := by
  unfold memForm
  grind [memOk_illegalWord, memOk_withRegs, memOk_withBindings, MemOp.memOk_run]

theorem memOk_execVld (hs : s.memOk) : Out.memOk (execVld f s) := memOk_commit (memOk_memForm hs)
theorem memOk_execVst (hs : s.memOk) : Out.memOk (execVst f s) := memOk_commit (memOk_memForm hs)
theorem memOk_execVlds (hs : s.memOk) : Out.memOk (execVlds f s) := memOk_commit (memOk_memForm hs)
theorem memOk_execVsts (hs : s.memOk) : Out.memOk (execVsts f s) := memOk_commit (memOk_memForm hs)

theorem memOk_indexed (hs : s.memOk) : (indexed opc f s load).memOk := by
  unfold indexed
  grind [memOk_memForm]

theorem memOk_execVldx (hs : s.memOk) : Out.memOk (execVldx f s) := memOk_commit (memOk_indexed hs)
theorem memOk_execVstx (hs : s.memOk) : Out.memOk (execVstx f s) := memOk_commit (memOk_indexed hs)

theorem memOk_vldff (hs : s.memOk) : (vldff f s).memOk := by
  unfold vldff
  dsimp only
  split
  · exact memOk_illegalWord hs
  split
  · exact memOk_illegalWord hs
  refine memOk_withRegs hs (memOk_withStreams hs fun t ht => ?_)
  split
  · exact memOk_ws ht
  split
  · exact ht
  generalize hr : List.foldl _ (t, []) _ = r
  have hu : r.1.memOk := hr ▸ memOk_foldl_fst (fun a k ha => memOk_checkRun ha) ht
  split
  · exact memOk_pushAll (memOk_ws (memOk_modMe hu))
  split
  · trivial
  · exact memOk_modMe hu
  split
  · exact hu
  refine memOk_pushAll (memOk_ws (memOk_modMe (memOk_foldl (fun t k ht => ?_) hu)))
  split
  · exact MemOp.memOk_perform ht
  split
  · exact memOk_modMe ht
  · exact ht

theorem memOk_execVldff (hs : s.memOk) : Out.memOk (execVldff f s) := memOk_commit (memOk_vldff hs)
theorem memOk_execVldseg (hs : s.memOk) : Out.memOk (execVldseg f s) := memOk_commit (memOk_memForm hs)
theorem memOk_execVstseg (hs : s.memOk) : Out.memOk (execVstseg f s) := memOk_commit (memOk_memForm hs)

theorem memOk_sweepForm (hs : s.memOk) : (sweepForm opc f s load).memOk := by
  unfold sweepForm
  grind [memOk_memForm]

theorem memOk_execVldmd (hs : s.memOk) : Out.memOk (execVldmd f s) := memOk_commit (memOk_sweepForm hs)
theorem memOk_execVstmd (hs : s.memOk) : Out.memOk (execVstmd f s) := memOk_commit (memOk_sweepForm hs)

theorem memOk_wholeForm (hs : s.memOk) : (wholeForm opc f s load).memOk := by
  unfold wholeForm
  grind [memOk_illegalWord, memOk_withRegs, memOk_withBindings, MemOp.memOk_run]

theorem memOk_execVldr (hs : s.memOk) : Out.memOk (execVldr f s) := memOk_commit (memOk_wholeForm hs)
theorem memOk_execVstr (hs : s.memOk) : Out.memOk (execVstr f s) := memOk_commit (memOk_wholeForm hs)
theorem memOk_execVldbc (hs : s.memOk) : Out.memOk (execVldbc f s) := memOk_commit (memOk_memForm hs)

theorem memOk_execVpref (hs : s.memOk) : Out.memOk (execVpref f s) := by
  unfold execVpref
  grind [Eff.memOk, memOk_commit, memOk_illegalWord]

theorem memOk_vbind (hs : s.memOk) : (vbind f s).memOk := by
  unfold vbind
  grind [Eff.memOk, memOk_illegalWord, memOk_withRegs, memOk_modMe]

theorem memOk_execVbind (hs : s.memOk) : Out.memOk (execVbind f s) := memOk_commit (memOk_vbind hs)

theorem memOk_execVunbind (hs : s.memOk) : Out.memOk (execVunbind f s) := by
  unfold execVunbind
  grind [Eff.memOk, memOk_commit, memOk_illegalWord, memOk_modMe]

end

/-! ## The Racker and its copies -/

section
variable {s : State} {c : Copy} {a src dst va m : Word} {pa cause : Nat} {f : Fields} {ch : Fin 4} {x : Option Copy}
    {ok on any : Bool} {al runs : List (Word × Nat)} {form : CopyForm} {after : Hart → Hart}
    {k : State → Copy → LineOut} {l : List Byte} {h : HartId}

theorem memOk_claimDst (hs : s.memOk) : (s.claimDst c).memOk := by
  unfold State.claimDst
  grind [State.memOk, memOk_foldl]

theorem memOk_releaseLine (hs : s.memOk) : (s.releaseLine c a pa).memOk := hs
theorem memOk_releaseCopy (hs : s.memOk) : (s.releaseCopy c).memOk := hs
theorem memOk_reclaim (hs : s.memOk) : (s.reclaim c).memOk := memOk_claimDst (memOk_releaseCopy hs)

theorem memOk_modRacker {c : ClusterId} {f : Racker → Racker} (hs : s.memOk) : (s.modRacker c f).memOk :=
  memOk_modCluster hs

theorem memOk_setHead {c : ClusterId} (hs : s.memOk) : (s.setHead c ch x).memOk := memOk_modRacker hs
theorem memOk_copyDone (hs : s.memOk) : (s.copyDone c).memOk := memOk_modHart (memOk_releaseCopy hs)

theorem memOk_issueCopy (hs : s.memOk) : (issueCopy f s ok al src dst form after).memOk := by
  unfold issueCopy
  grind [State.memOk, Eff.memOk, memOk_modMe, memOk_claimDst, memOk_modRacker]

theorem memOk_execRkcopy (hs : s.memOk) : Out.memOk (execRkcopy f s) := memOk_commit (memOk_issueCopy hs)
theorem memOk_execRkxpose (hs : s.memOk) : Out.memOk (execRkxpose f s) := memOk_commit (memOk_issueCopy hs)
theorem memOk_execRkconv (hs : s.memOk) : Out.memOk (execRkconv f s) := memOk_commit (memOk_issueCopy hs)
theorem memOk_execRkfill (hs : s.memOk) : Out.memOk (execRkfill f s) := memOk_commit (memOk_issueCopy hs)
theorem memOk_execRkgather (hs : s.memOk) : Out.memOk (execRkgather f s) := memOk_commit (memOk_issueCopy hs)
theorem memOk_execRkred (hs : s.memOk) : Out.memOk (execRkred f s) := memOk_commit (memOk_issueCopy hs)

theorem memOk_execCopyStart {c : ClusterId} (hs : s.memOk) : Out.memOk (execCopyStart c ch s) := by
  unfold execCopyStart
  grind [Out.memOk, memOk_reclaim, memOk_setHead]

theorem memOk_copyRead (hs : s.memOk) (hk : ∀ t x, t.memOk → (k t x).memOk) : (copyRead s c runs k).memOk := by
  unfold copyRead
  grind [LineOut.memOk, memOk_checkPiece, memOk_modHart, memOk_foldl_fst]

theorem memOk_stampAt (hs : s.memOk) : (stampAt s c pa).memOk := by
  unfold stampAt
  grind [Stamp.memOk, memOk_modRacker]

theorem memOk_markHeld (hs : s.memOk) : (s.markHeld c pa on).memOk := by
  unfold State.markHeld
  grind [memOk_modRacker]

theorem memOk_copyWrite (hs : s.memOk) : (s.copyWrite c pa l).memOk := by
  unfold State.copyWrite
  grind [memOk_setBytes, memOk_foldl_fst]

theorem memOk_copyLine {c : Copy} (hs : s.memOk) : (copyLine s c).memOk := by
  unfold copyLine
  dsimp only
  split
  · exact hs
  refine memOk_copyRead hs fun s c hs => memOk_copyRead hs fun s c hs => ?_
  grind [LineOut.memOk, Stamp.memOk, memOk_checkPiece, memOk_stampAt, memOk_markHeld, memOk_markDirty, memOk_copyWrite,
    memOk_releaseLine, memOk_foldl]

theorem memOk_copyFault {c : ClusterId} {x : Copy} (hs : s.memOk) : (s.copyFault c x cause va).memOk := by
  unfold State.copyFault
  grind [memOk_setHead, memOk_suspendGang, memOk_modRacker, memOk_modHart]

theorem memOk_execCopyLineWrite {c : ClusterId} (hs : s.memOk) : (execCopyLineWrite c ch s).memOk := by
  have hl (x : Copy) : (copyLine s x).memOk := memOk_copyLine hs
  unfold execCopyLineWrite
  grind [Out.memOk, LineOut.memOk, memOk_setHead, memOk_copyFault]

theorem memOk_execCopyComplete {c : ClusterId} (hs : s.memOk) : Out.memOk (execCopyComplete c ch s) := by
  unfold execCopyComplete
  grind [Out.memOk, memOk_copyDone, memOk_setHead]

theorem memOk_restartTags (hs : s.memOk) : (s.restartTags m).memOk :=
  memOk_modMe (memOk_modCluster (memOk_modRacker hs))

theorem memOk_tagWait (hs : s.memOk) : (tagWait f s any).memOk := by
  unfold tagWait
  grind [Eff.memOk, memOk_restartTags, memOk_ws]

theorem memOk_execTwaitany (hs : s.memOk) : Out.memOk (execTwaitany f s) := memOk_commit (memOk_tagWait hs)
theorem memOk_execTwaitall (hs : s.memOk) : Out.memOk (execTwaitall f s) := memOk_commit (memOk_tagWait hs)

theorem memOk_execTfirst (hs : s.memOk) : Out.memOk (execTfirst f s) := by
  unfold execTfirst
  grind [Eff.memOk, memOk_commit, memOk_ws]

theorem memOk_execTclr (hs : s.memOk) : Out.memOk (execTclr f s) := by
  unfold execTclr
  grind [Eff.memOk, memOk_commit, memOk_ws, memOk_modMe]

theorem memOk_cancelTags (hs : s.memOk) : (s.cancelTags h m).memOk := by
  unfold State.cancelTags
  grind [State.memOk, memOk_releaseCopy, memOk_modRacker, memOk_modHart, memOk_foldl]

theorem memOk_execTclrCancel (hs : s.memOk) : Out.memOk (execTclrCancel f s) := by
  unfold execTclrCancel
  grind [Eff.memOk, memOk_cancelTags, memOk_commit, memOk_ws, memOk_modMe]

end

/-! ## Atomics, futures and queues -/

section
variable {s : State} {scope n : Nat} {k : Eff} {f : Fields} {up : Nat → Option Nat} {h : HartId}
    {observer : Option HartId} {q : BitVec 5} {x : Queue} {push : Bool}

theorem memOk_withRelease (hs : s.memOk) (hk : k.memOk) : (withRelease s scope k).memOk := by
  unfold withRelease
  grind [Eff.memOk]

theorem memOk_execLda (hs : s.memOk) : Out.memOk (execLda f s) :=
  memOk_commit (memOk_scalarLoad hs fun _ _ => memOk_ws)

theorem memOk_execStrel (hs : s.memOk) : Out.memOk (execStrel f s) :=
  memOk_commit (memOk_withRelease hs (memOk_scalarStore hs fun _ ht => ht))

theorem memOk_execFence (hs : s.memOk) : Out.memOk (execFence f s) := by
  unfold execFence
  grind [Eff.memOk, memOk_commit]

theorem memOk_execMbar (hs : s.memOk) : Out.memOk (execMbar f s) := by
  unfold execMbar
  grind [Eff.memOk, memOk_commit]

theorem memOk_atomic (hs : s.memOk) : (atomic f s up).memOk := by
  unfold atomic
  grind [Eff.memOk, memOk_readModify, memOk_ws, memOk_withRelease]

theorem memOk_execAmo (hs : s.memOk) : Out.memOk (execAmo f s) := memOk_commit (memOk_atomic hs)
theorem memOk_execCas (hs : s.memOk) : Out.memOk (execCas f s) := memOk_commit (memOk_atomic hs)

theorem memOk_execFutrd (hs : s.memOk) : Out.memOk (execFutrd f s) := by
  unfold execFutrd
  grind [Eff.memOk, memOk_commit, memOk_withAccess, memOk_readData, memOk_ws, memOk_park]

theorem memOk_execFutwr (hs : s.memOk) : Out.memOk (execFutwr f s) := by
  unfold execFutwr
  grind [Eff.memOk, memOk_commit, memOk_withRelease, memOk_withAccess, memOk_fill, memOk_markDirty]

theorem memOk_execFutclr (hs : s.memOk) : Out.memOk (execFutclr f s) := by
  unfold execFutclr
  grind [Eff.memOk, memOk_commit, memOk_withAccess, memOk_setFull, memOk_setNum, memOk_markDirty]

theorem memOk_execFuturePoll (hs : s.memOk) : Out.memOk (execFuturePoll h s) := memOk_modHart hs

theorem memOk_execRdupInvalidationAck (hs : s.memOk) : Out.memOk (execRdupInvalidationAck h n observer s) := by
  unfold execRdupInvalidationAck
  grind [State.memOk, Out.memOk, memOk_releaseMarks, memOk_setRuns]

theorem memOk_setMyQueue (hs : s.memOk) : (s.setMyQueue q x).memOk := memOk_modMe (memOk_modCluster hs)

theorem memOk_withQueue {k : Queue → Eff} (hs : s.memOk) (hk : ∀ x, (k x).memOk) : (withQueue s q k).memOk := by
  unfold withQueue
  grind [Eff.memOk]

theorem memOk_waitQueue (hs : s.memOk) : (waitQueue s q x push).memOk := memOk_setMyQueue hs

theorem memOk_execQpush (hs : s.memOk) : Out.memOk (execQpush f s) := by
  unfold execQpush
  grind [Eff.memOk, memOk_commit, memOk_withQueue, memOk_withRelease, memOk_setMyQueue, memOk_waitQueue]

theorem memOk_execQpop (hs : s.memOk) : Out.memOk (execQpop f s) := by
  unfold execQpop
  grind [Eff.memOk, memOk_commit, memOk_withQueue, memOk_ws, memOk_setMyQueue, memOk_waitQueue]

theorem memOk_execQtry (hs : s.memOk) : Out.memOk (execQtry f s) := by
  unfold execQtry
  grind [Eff.memOk, memOk_commit, memOk_withQueue, memOk_ws, memOk_setMyQueue]

theorem memOk_execQtryPush (hs : s.memOk) : Out.memOk (execQtryPush f s) := by
  unfold execQtryPush
  grind [Eff.memOk, memOk_commit, memOk_withQueue, memOk_withRelease, memOk_ws, memOk_setMyQueue]

theorem memOk_execQfence (f : Fields) (hs : s.memOk) : Out.memOk (execQfence f s) := memOk_commit hs

theorem memOk_execPubhw (hs : s.memOk) : Out.memOk (execPubhw f s) :=
  memOk_commit (memOk_withRelease hs (memOk_readModify hs fun _ _ _ ht => memOk_ws (memOk_wakeAll ht)))

theorem memOk_execReadhw (hs : s.memOk) : Out.memOk (execReadhw f s) :=
  memOk_commit (memOk_withAccess hs fun _ _ _ ht => memOk_readData ht fun _ _ => memOk_ws)

end

/-! ## Stream generators -/

section
variable {s : State} {c sl : ClusterId} {ns : NodeState} {cfg : Machine.Config} {n k sub e o err : Nat}
    {f diag cplx : Bool} {g : Port → Port} {l : List Byte} {owner : HartId} {fx : Fx} {va : Word} {r : Run}
    {x : MemCtx} {d : StreamDesc} {t : Tok}

theorem memOk_putNode (hs : s.memOk) : (s.putNode c ns).memOk := memOk_modRun hs
theorem memOk_feed (hs : s.memOk) : (s.feed c cfg n f g).memOk := memOk_modRun hs

theorem memOk_emit {l : List Item} (hs : s.memOk) : (s.emit c cfg n f l).memOk := by
  unfold State.emit
  grind [memOk_feed]

theorem memOk_close (hs : s.memOk) : (s.close c cfg n).memOk := memOk_modRun (memOk_foldl (fun _ _ => memOk_feed) hs)

theorem memOk_note (hs : s.memOk) : (s.note c owner fx).memOk := by
  unfold State.note
  grind [memOk_modHart, memOk_modRun]

theorem memOk_errTok (hs : s.memOk) : (s.errTok owner).memOk := memOk_modHart hs

theorem memOk_holdGen (hs : s.memOk) : (s.holdGen c owner k sub e va).memOk := by
  unfold State.holdGen
  grind [memOk_modHandle, memOk_modFabric, memOk_modHart, memOk_suspendGang]

theorem memOk_writeSlice (hs : s.memOk) : (s.writeSlice sl diag o l).memOk := by
  unfold State.writeSlice
  grind [memOk_setBytes, memOk_foldl]

theorem memOk_readVirtual (hs : s.memOk) : (s.readVirtual r va n).1.memOk := by
  unfold State.readVirtual
  grind [memOk_checkRun, memOk_modHart]

theorem memOk_writeVirtual (hs : s.memOk) : (s.writeVirtual x va l).1.memOk := by
  unfold State.writeVirtual
  grind [memOk_checkRun, memOk_setBytes, memOk_markDirty, memOk_foldl_fst]

theorem memOk_readAffine (hs : s.memOk) : (s.readAffine c r d e).1.memOk := by
  unfold State.readAffine
  grind [memOk_readVirtual]

theorem memOk_readIndex {n j : Nat} (hs : s.memOk) : (State.readIndex c r n j s).1.memOk := by
  induction n generalizing j s with
  | zero => exact hs
  | succ n ih =>
    unfold State.readIndex
    dsimp only
    split
    · exact hs
    split
    · exact hs
    split
    · exact hs
    split
    · grind
    · grind [memOk_readAffine]

theorem memOk_advance (hs : s.memOk) : (s.advance c k).memOk := memOk_modHandle hs

theorem memOk_nextTok (hs : s.memOk) : (s.nextTok c r k).1.memOk := by
  unfold State.nextTok
  dsimp only
  split
  · exact hs
  split
  · exact hs
  · exact hs
  · exact hs
  split
  · exact hs
  split
  · grind [memOk_readIndex]
  · grind [memOk_readAffine]

theorem memOk_writeElem (hs : s.memOk) : (s.writeElem c x d e l).1.memOk := by
  unfold State.writeElem
  grind [memOk_writeVirtual, memOk_writeSlice]

theorem memOk_modCheck (hs : s.memOk) : (s.modCheck c r cplx e t).memOk := by
  unfold State.modCheck
  grind [memOk_modHart, memOk_modRun]

theorem memOk_checkToks {l : List Tok} (hs : s.memOk) : (s.checkToks c r d e l).memOk := by
  unfold State.checkToks
  grind [memOk_modCheck, memOk_foldl]

theorem memOk_passToks (hs : s.memOk) : (s.passToks c r k n err).memOk := by
  unfold State.passToks
  grind [memOk_modHandle, memOk_errTok]

theorem memOk_writeToks {l : List OutWrite} (hs : s.memOk) : (State.writeToks c r k d l s).1.memOk := by
  induction l generalizing s with
  | nil => exact hs
  | cons w rest ih => grind [State.writeToks, memOk_passToks, memOk_writeElem, memOk_checkToks, memOk_modRun]

end

/-! ## Running programs -/

section
variable {s : State} {c : ClusterId} {cfg : Machine.Config} {r : Run} {sub n rounds e k kind base len : Nat}
    {va : Word} {l m : List Item} {ns : NodeState} {h : Handle} {d : StreamDesc} {sc : Scale}
    {go : Machine.Config → Run → Option State}

theorem memOk_leesFault (hs : s.memOk) : (s.leesFault c cfg r sub va).memOk := by
  unfold State.leesFault
  grind [memOk_holdGen]

theorem memOk_nodeFault (hs : s.memOk) : (s.nodeFault c cfg r n sub va).memOk := by
  unfold State.nodeFault
  grind [memOk_holdGen]

theorem memOk_scratch (hs : s.memOk) : (s.scratch c cfg r n l).memOk := by
  unfold State.scratch
  grind [memOk_writeSlice, memOk_foldl]

theorem memOk_fireOn {t : State} (hs : s.memOk) (e : s.fireOn c cfg r n ns l m = some t) : t.memOk := by
  unfold State.fireOn at e
  grind [memOk_nodeFault, memOk_leesFault, memOk_scratch, memOk_putNode, memOk_note, memOk_emit]

theorem memOk_fireUnit {t : State} (hs : s.memOk) (e : s.fireUnit c cfg r n = some t) : t.memOk := by
  unfold State.fireUnit at e
  grind [memOk_fireOn]

theorem memOk_firePair {t : State} (hs : s.memOk) (e : s.firePair c cfg r n = some t) : t.memOk := by
  unfold State.firePair at e
  grind [memOk_fireOn, memOk_putNode, memOk_emit]

theorem memOk_fireSteer {t : State} (hs : s.memOk) (e : s.fireSteer c cfg r n = some t) : t.memOk := by
  unfold State.fireSteer at e
  grind [memOk_putNode, memOk_emit]

theorem memOk_fireMerge {t : State} (hs : s.memOk) (e : s.fireMerge c cfg r n = some t) : t.memOk := by
  unfold State.fireMerge at e
  grind [memOk_putNode, memOk_emit]

theorem memOk_fireCarry {t : State} (hs : s.memOk) (e : s.fireCarry c cfg r n = some t) : t.memOk := by
  unfold State.fireCarry at e
  grind [memOk_putNode, memOk_emit]

theorem memOk_fireInv {t : State} (hs : s.memOk) (e : s.fireInv c cfg r n = some t) : t.memOk := by
  unfold State.fireInv at e
  grind [memOk_putNode, memOk_emit]

theorem memOk_xchgSend {t : State} (hs : s.memOk) (e : s.xchgSend c cfg r n l ns = some t) : t.memOk := by
  unfold State.xchgSend at e
  grind [memOk_putNode, memOk_modRun, memOk_foldl]

theorem memOk_xchgEmit {t : State} (hs : s.memOk) (e : s.xchgEmit c cfg r n rounds = some t) : t.memOk := by
  unfold State.xchgEmit at e
  grind [memOk_leesFault, memOk_putNode, memOk_note, memOk_emit]

theorem memOk_fireXchg {t : State} (hs : s.memOk) (e : s.fireXchg c cfg r n = some t) : t.memOk := by
  unfold State.fireXchg at e
  grind [memOk_xchgSend, memOk_xchgEmit]

theorem memOk_fireIn {t : State} (hs : s.memOk) (e : s.fireIn c cfg r n = some t) : t.memOk := by
  unfold State.fireIn at e
  grind [memOk_nextTok, memOk_advance, memOk_putNode, memOk_note, memOk_emit, memOk_foldl]

theorem memOk_writeScale (hs : s.memOk) : (s.writeScale c r h d e sc).memOk := by
  unfold State.writeScale
  grind [memOk_note, memOk_setBytes]

theorem memOk_outPort {l : List Tok} (hs : s.memOk) : (s.outPort c r k d l).memOk :=
  memOk_modRun (memOk_passToks (memOk_checkToks (memOk_modHandle hs)))

theorem memOk_outMove (hs : s.memOk) : (s.outMove c cfg r n l ns).1.memOk := by
  unfold State.outMove
  grind [memOk_writeScale, memOk_note, memOk_putNode, memOk_outPort, memOk_writeToks]

theorem memOk_fireOut {t : State} (hs : s.memOk) (e : s.fireOut c cfg r n = some t) : t.memOk := by
  unfold State.fireOut at e
  grind [memOk_outMove]

theorem memOk_nodeStep (hs : s.memOk) (hgo : ∀ x y t, go x y = some t → t.memOk) :
    Out.memOk (s.nodeStep c n kind go) := by
  unfold State.nodeStep
  grind [Out.memOk, memOk_getD]

theorem memOk_execNodeIn (hs : s.memOk) : Out.memOk (execNodeIn c n s) := by
  unfold execNodeIn
  grind [memOk_nodeStep, memOk_fireIn]

theorem memOk_execNodeOut (hs : s.memOk) : Out.memOk (execNodeOut c n s) := by
  unfold execNodeOut
  grind [memOk_nodeStep, memOk_fireOut]

theorem memOk_execNodeStage (hs : s.memOk) : Out.memOk (execNodeStage c n s) := by
  unfold execNodeStage
  grind [memOk_nodeStep, memOk_fireUnit]

theorem memOk_execNodePerm (hs : s.memOk) : Out.memOk (execNodePerm c n s) := by
  unfold execNodePerm
  grind [memOk_nodeStep, memOk_fireUnit]

theorem memOk_execNodeXperm (hs : s.memOk) : Out.memOk (execNodeXperm c n s) := by
  unfold execNodeXperm
  grind [memOk_nodeStep, memOk_fireUnit]

theorem memOk_execNodePoint (hs : s.memOk) : Out.memOk (execNodePoint c n s) := by
  unfold execNodePoint
  grind [memOk_nodeStep, memOk_firePair, memOk_fireUnit]

theorem memOk_execNodeSteer (hs : s.memOk) : Out.memOk (execNodeSteer c n s) := by
  unfold execNodeSteer
  grind [memOk_nodeStep, memOk_fireSteer]

theorem memOk_execNodeMerge (hs : s.memOk) : Out.memOk (execNodeMerge c n s) := by
  unfold execNodeMerge
  grind [memOk_nodeStep, memOk_fireMerge]

theorem memOk_execNodeCarry (hs : s.memOk) : Out.memOk (execNodeCarry c n s) := by
  unfold execNodeCarry
  grind [memOk_nodeStep, memOk_fireCarry]

theorem memOk_execNodeInv (hs : s.memOk) : Out.memOk (execNodeInv c n s) := by
  unfold execNodeInv
  grind [memOk_nodeStep, memOk_fireInv]

theorem memOk_execNodeXchg (hs : s.memOk) : Out.memOk (execNodeXchg c n s) := by
  unfold execNodeXchg
  grind [memOk_nodeStep, memOk_fireXchg]

theorem memOk_endUnit {t : State} (hs : s.memOk) (e : s.endUnit c cfg r n = some t) : t.memOk := by
  unfold State.endUnit at e
  dsimp only at e
  split at e
  · cases e
  split at e
  · grind [memOk_close]
  · obtain ⟨u, hu, rfl⟩ := Option.map_eq_some_iff.mp e
    grind [memOk_close, memOk_fireOn]

theorem memOk_endNode {t : State} (hs : s.memOk) (e : s.endNode c cfg r n = some t) : t.memOk := by
  unfold State.endNode at e
  grind [memOk_nextTok, memOk_close, memOk_modHandle, memOk_outMove, memOk_putNode, memOk_xchgSend, memOk_xchgEmit,
    memOk_endUnit]

theorem memOk_execEndOfStream (hs : s.memOk) : Out.memOk (execEndOfStream c n s) := by
  unfold execEndOfStream
  grind [Out.memOk, memOk_endNode, memOk_getD]

theorem memOk_genFault {t : State} {a b : Nat} {w : Word} (hs : s.memOk)
    (e : s.genFault c cfg r k = some (t, a, b, w)) : t.memOk := by
  obtain ⟨n, -, h⟩ := List.exists_of_findSome?_eq_some e
  grind [memOk_nextTok, memOk_outMove]

theorem memOk_execStreamGeneratorHold {k : Fin 32} (hs : s.memOk) : Out.memOk (execStreamGeneratorHold c k s) := by
  unfold execStreamGeneratorHold
  grind [Out.memOk, memOk_genFault, memOk_holdGen]

theorem memOk_writeRecs {base len n : Nat} {l : List LeesRec} (hs : s.memOk) :
    (State.writeRecs base len l n s).1.memOk := by
  induction l generalizing n s with
  | nil => exact hs
  | cons x r ih => grind [State.writeRecs, memOk_setBytes]

theorem memOk_flushLees (hs : s.memOk) : (s.flushLees c cfg r).memOk := by
  unfold State.flushLees
  grind [memOk_setNum, memOk_writeRecs, memOk_modHandle, memOk_modRun, memOk_leesFault]

theorem memOk_execProgramEnd (hs : s.memOk) : Out.memOk (execProgramEnd c s) := by
  unfold execProgramEnd
  grind [Out.memOk, memOk_flushLees, memOk_modRun]

theorem memOk_execDrainPoint (hs : s.memOk) : Out.memOk (execDrainPoint c s) := by
  unfold execDrainPoint
  grind [Out.memOk, memOk_modHart, memOk_freeze]

theorem memOk_execPreemptMarker (hs : s.memOk) : Out.memOk (execPreemptMarker c n s) := by
  unfold execPreemptMarker
  grind [Out.memOk, memOk_putNode, memOk_feed]

end

/-! ## Fetch and issue -/

section
variable {s s0 : State} {h : HartId} {cause : Nat} {eidx eaddr : Word} {suspend : Bool} {p : Pending} {i : Instr}
    {n : Hints}

theorem memOk_takeAsync (hs : s.memOk) : (s.takeAsync h cause eidx eaddr suspend).memOk :=
  memOk_raise (memOk_withdraw hs)

theorem memOk_takePending (hs : s.memOk) : (s.takePending h p).memOk := memOk_takeAsync (memOk_modHart hs)

theorem memOk_fetch (hs : s.memOk) : (fetch s h).1.memOk := by
  unfold fetch
  grind [memOk_checkAccess]

theorem memOk_prepare (hs : s.memOk) : (s.prepare h i).memOk := memOk_modHart hs

theorem memOk_auditTrap (hs : s.memOk) : (s.auditTrap h n).memOk := by
  unfold State.auditTrap
  grind [State.memOk, memOk_takeAsync]

theorem memOk_addEntry {s0 : State} (hs : s.memOk) : (s0.addEntry s h n).memOk := by
  unfold State.addEntry
  grind [State.memOk, memOk_modHart]

end

/-! ## Stream configuration -/

section
variable {s : State} {opc : BitVec 12} {f : Fields} {al n : Nat} {v : Word} {k : Eff} {l : List (Nat × Nat)}
    {cfg : Machine.Config} {c : ClusterId} {h : HartId} {g : Fin 16}

theorem memOk_withLocator {k : ClusterId × Nat → Eff} (hs : s.memOk) (hk : ∀ x, (k x).memOk) :
    (withLocator s opc f al v k).memOk := by
  unfold withLocator
  grind [Eff.memOk, memOk_illegalWord]

theorem memOk_badAt (hs : s.memOk) : (badAt s n).memOk := hs

theorem memOk_withRuns (hs : s.memOk) (hk : k.memOk) : (withRuns s l k).memOk := by
  unfold withRuns
  grind [Eff.memOk]

theorem memOk_withImage {l : ClusterId × Nat} {k : Nat → Eff} (hs : s.memOk) (hk : ∀ x, (k x).memOk) :
    (withImage s opc f l k).memOk := by
  unfold withImage
  grind [memOk_withRuns, memOk_illegalWord]

theorem memOk_withTables (hs : s.memOk) (hk : k.memOk) : (withTables s cfg k).memOk := memOk_withRuns hs hk

theorem memOk_execSprog (hs : s.memOk) : Out.memOk (execSprog f s) := by
  unfold execSprog
  grind [Eff.memOk, memOk_commit, memOk_withLocator, memOk_withImage, memOk_badAt, memOk_withTables, memOk_modFabric]

theorem memOk_execSswap (hs : s.memOk) : Out.memOk (execSswap f s) := by
  unfold execSswap
  grind [Eff.memOk, memOk_commit, memOk_withLocator, memOk_badAt, memOk_withTables, memOk_modFabric, memOk_withImage]

theorem memOk_execSpref (hs : s.memOk) : Out.memOk (execSpref f s) := by
  unfold execSpref
  grind [Eff.memOk, memOk_commit, memOk_withLocator, memOk_withRuns, memOk_illegalWord, memOk_modFabric]

theorem memOk_execPrefetchLoadComplete (hs : s.memOk) : Out.memOk (execPrefetchLoadComplete c s) := by
  unfold execPrefetchLoadComplete
  grind [Out.memOk, memOk_modFabric]

theorem memOk_readDesc {n : Nat} {va : Word} {k : State → Nat → Eff} (hs : s.memOk)
    (hk : ∀ t v, t.memOk → (k t v).memOk) : (readDesc n va s k).memOk := by
  induction n generalizing va s k with
  | zero => exact hk s 0 hs
  | succ n ih => exact memOk_scalarLoad hs fun t v ht => ih ht fun u r hu => hk _ _ hu

theorem memOk_execSbind (hs : s.memOk) : Out.memOk (execSbind f s) := by
  unfold execSbind
  grind [Eff.memOk, memOk_commit, memOk_illegalWord, memOk_readDesc, memOk_badAt, memOk_setMyHandle]

theorem memOk_execSunbind (hs : s.memOk) : Out.memOk (execSunbind f s) := by
  unfold execSunbind
  grind [Eff.memOk, memOk_commit, memOk_illegalWord, memOk_setMyHandle]

theorem memOk_startHandles (hs : s.memOk) : (s.startHandles c cfg).memOk :=
  memOk_foldl (fun _ _ => memOk_modHandle) hs

theorem memOk_execSrun (hs : s.memOk) : Out.memOk (execSrun f s) := by
  unfold execSrun
  grind [Eff.memOk, memOk_commit, memOk_illegalWord, memOk_badAt, memOk_ws, memOk_withRuns, memOk_startHandles,
    memOk_drainStores, memOk_modFabric]

theorem memOk_execSdrain (hs : s.memOk) : Out.memOk (execSdrain f s) := by
  unfold execSdrain
  grind [Eff.memOk, memOk_commit, memOk_illegalWord, memOk_modMe, memOk_modFabric]

theorem memOk_execSstat (hs : s.memOk) : Out.memOk (execSstat f s) := by
  unfold execSstat
  grind [Eff.memOk, memOk_commit, memOk_ws]

theorem memOk_execSstatCfg (hs : s.memOk) : Out.memOk (execSstatCfg f s) := by
  unfold execSstatCfg
  grind [Eff.memOk, memOk_commit, memOk_ws]

theorem memOk_execStwid (hs : s.memOk) : Out.memOk (execStwid f s) := by
  unfold execStwid
  grind [Eff.memOk, memOk_commit, memOk_illegalWord, memOk_withRuns, memOk_modFabric]

theorem memOk_execSpatch (hs : s.memOk) : Out.memOk (execSpatch f s) := by
  unfold execSpatch
  grind [Eff.memOk, memOk_commit, memOk_illegalWord, memOk_modFabric]

theorem memOk_execSmod (hs : s.memOk) : Out.memOk (execSmod f s) := by
  unfold execSmod
  grind [Eff.memOk, memOk_commit, memOk_illegalWord, memOk_modMe]

theorem memOk_execSscale (hs : s.memOk) : Out.memOk (execSscale f s) := by
  unfold execSscale
  grind [Eff.memOk, memOk_commit, memOk_setMyHandle, memOk_illegalWord]

theorem memOk_execSinj (hs : s.memOk) : Out.memOk (execSinj f s) := by
  unfold execSinj
  grind [Eff.memOk, memOk_commit, memOk_laneFault, memOk_setMyHandle]

theorem memOk_execSext (hs : s.memOk) : Out.memOk (execSext f s) := by
  unfold execSext
  grind [Eff.memOk, memOk_commit, memOk_laneFault, memOk_ws, memOk_setMyHandle]

theorem memOk_execSeos (hs : s.memOk) : Out.memOk (execSeos f s) := by
  unfold execSeos
  grind [Eff.memOk, memOk_commit, memOk_laneFault, memOk_setMyHandle]

theorem memOk_execSmark (hs : s.memOk) : Out.memOk (execSmark f s) := by
  unfold execSmark
  grind [Eff.memOk, memOk_commit, memOk_withSys, memOk_withLocator, memOk_illegalWord, memOk_modRun, memOk_saveRegion]

theorem memOk_execSresumeImg (hs : s.memOk) : Out.memOk (execSresumeImg f s) := by
  unfold execSresumeImg
  grind [Eff.memOk, memOk_commit, memOk_withSys, memOk_withLocator, memOk_illegalWord, memOk_withRuns,
    memOk_loadRegion]

theorem memOk_execSresume (hs : s.memOk) : Out.memOk (execSresume f s) := by
  unfold execSresume
  grind [Eff.memOk, memOk_commit, memOk_modFabric, memOk_modHandle]

theorem memOk_execStreamFault (hs : s.memOk) : Out.memOk (execStreamFault h s) := by
  unfold execStreamFault
  grind [Out.memOk, memOk_takePending]

theorem memOk_execBookedOccurrenceConflict (hs : s.memOk) : Out.memOk (execBookedOccurrenceConflict c g s) := by
  unfold execBookedOccurrenceConflict
  grind [Out.memOk, memOk_overrunGang, memOk_modTask, memOk_charge]

end

/-! ## Tasks and the dispatcher -/

section
variable {s : State} {x : MemCtx} {va cell header ptbase tvec v : Word} {n level code : Nat} {c : Claim} {h : Header}
    {queue : Option DieId} {d : DieId} {asid : BitVec 16} {node : Option (DieId × Fin 16 × Nat)}
    {g : Option (DieId × Nat)} {t : Task} {failed refused cancel : Bool}

theorem memOk_calRead (hs : s.memOk) : (calRead s x va n).1.memOk := by
  unfold calRead
  grind [memOk_checkAccess, memOk_foldl_fst]

theorem memOk_pageGroups (hs : s.memOk) : (pageGroups s x va).1.memOk := by
  unfold pageGroups
  grind [memOk_translate]

theorem Claim.memOk_resolve (hs : s.memOk) : (Claim.resolve s x c).1.memOk := by
  unfold Claim.resolve
  grind [memOk_pageGroups, memOk_foldl_fst]

theorem memOk_cellCheck (hs : s.memOk) : (cellCheck s x cell).1.memOk := by
  unfold cellCheck
  grind [memOk_translate]

theorem memOk_readStreams (hs : s.memOk) : (readStreams s x h).1.memOk := by
  unfold readStreams
  grind [memOk_calRead]

theorem memOk_readClaims (hs : s.memOk) : (readClaims s x h).1.memOk := by
  unfold readClaims
  grind [memOk_calRead, Claim.memOk_resolve, memOk_foldl_fst]

theorem memOk_dispatch (hs : s.memOk) : (dispatch s x va queue).1.memOk := by
  unfold dispatch
  grind [memOk_calRead, memOk_cellCheck, memOk_readStreams, memOk_readClaims]

theorem memOk_enqueue (hs : s.memOk) : (s.enqueue d header level ptbase asid tvec node).1.memOk := by
  unfold State.enqueue
  grind [memOk_modCal]

theorem memOk_bindQueues (hs : s.memOk) : (s.bindQueues h g).memOk := memOk_foldl (fun _ _ => memOk_modCluster) hs

theorem memOk_startGang (hs : s.memOk) : (s.startGang d t h).memOk := by
  unfold State.startGang
  grind [memOk_modTask, memOk_modHart, memOk_reclaim, memOk_modRacker, memOk_thaw, memOk_modFabric, memOk_bindQueues,
    memOk_foldl]

theorem memOk_leaveGang {h : HartId} (hs : s.memOk) : (s.leaveGang h).memOk := memOk_modHart (memOk_withdraw hs)
theorem memOk_nodeEnds {g : DieId × Fin 16 × Nat} (hs : s.memOk) : (s.nodeEnds g failed).memOk := memOk_modDie hs

theorem memOk_writeCell (hs : s.memOk) : (s.writeCell x cell v).1.memOk := by
  unfold State.writeCell
  grind [memOk_checkAccess, memOk_fill, memOk_markDirty]

theorem memOk_endTask (hs : s.memOk) : (s.endTask d n code refused cancel cell).memOk := by
  unfold State.endTask
  split
  · exact hs
  dsimp only
  grind [State.memOk, memOk_cancelTags, memOk_leaveGang, memOk_modFabric, memOk_bindQueues, memOk_writeCell,
    memOk_modCal, memOk_nodeEnds, memOk_foldl]

theorem memOk_cellOf (hs : s.memOk) : (s.cellOf d t).1.memOk := by
  unfold State.cellOf
  grind [memOk_calRead]

end

/-! ## The calendar -/

section
variable {d home remote on : DieId} {task : Nat} {s s0 : State} {pass : List Nat} {commit num : Bool} {k : Compaction}
    {va tmin status : Word} {f : Fields} {t : Task}

theorem memOk_execDispatchCheck (hs : s.memOk) : Out.memOk (execDispatchCheck d task s) := by
  unfold execDispatchCheck
  grind [Out.memOk, memOk_dispatch, memOk_endTask, memOk_modTask]

theorem memOk_execReadySetEntry (hs : s.memOk) : Out.memOk (execReadySetEntry d task s) := by
  unfold execReadySetEntry
  grind [Out.memOk, memOk_modCal]

theorem memOk_execQueueAgePromotion (hs : s.memOk) : Out.memOk (execQueueAgePromotion d task s) := by
  unfold execQueueAgePromotion
  grind [Out.memOk, memOk_modCal]

theorem memOk_endSearch (hs : s.memOk) : (s.endSearch d).memOk := by
  unfold State.endSearch
  grind [memOk_modCal]

theorem memOk_beginSearch (hs : s.memOk) : (s.beginSearch d pass).memOk := by
  unfold State.beginSearch
  grind [memOk_modCal, memOk_modTask]

theorem memOk_execCalendarPass (hs : s.memOk) : Out.memOk (execCalendarPass d s) := by
  unfold execCalendarPass
  grind [Out.memOk, memOk_modCal, memOk_endSearch, memOk_beginSearch]

theorem memOk_execRollingOccurrenceReserve (d : DieId) (hs : s.memOk) :
    Out.memOk (execRollingOccurrenceReserve d s) := hs

theorem memOk_execXdiePrepare (hs : s.memOk) : Out.memOk (execXdiePrepare home task remote s) := by
  unfold execXdiePrepare
  grind [Out.memOk, memOk_modCal]

theorem memOk_dropHold (hs : s.memOk) : (s.dropHold on home task).memOk := memOk_modCal hs

theorem memOk_execXdieReply (hs : s.memOk) : Out.memOk (execXdieReply home task remote s) := by
  unfold execXdieReply
  grind [Out.memOk, memOk_modCal, memOk_dropHold, memOk_modTask]

theorem memOk_endRound (hs : s.memOk) : (s.endRound home task remote commit).memOk := by
  unfold State.endRound
  grind [memOk_modCal, memOk_dropHold]

theorem memOk_execXdieCommit (hs : s.memOk) : Out.memOk (execXdieCommit home task remote s) := memOk_endRound hs
theorem memOk_execXdieAbort (hs : s.memOk) : Out.memOk (execXdieAbort home task remote s) := memOk_endRound hs

theorem memOk_execGangStart (hs : s.memOk) : Out.memOk (execGangStart d task s) := by
  unfold execGangStart
  grind [Out.memOk, memOk_startGang]

theorem memOk_execOverrun (hs : s.memOk) : Out.memOk (execOverrun d task s) := by
  unfold execOverrun
  grind [Out.memOk, memOk_overrunGang]

theorem memOk_compactNext (hs : s.memOk) : (s.compactNext d k).memOk := by
  unfold State.compactNext
  grind [memOk_modCal]

theorem memOk_execCompaction (hs : s.memOk) : Out.memOk (execCompaction d s) := by
  unfold execCompaction
  grind [Out.memOk, memOk_modCal, memOk_endSearch, memOk_compactNext]

theorem memOk_withHeader {k : Eff} (hs : s.memOk) (hk : k.memOk) : (withHeader s va k).memOk := by
  unfold withHeader
  grind [Eff.memOk]

theorem memOk_execLaunch (hs : s.memOk) : Out.memOk (execLaunch f s) :=
  memOk_commit (memOk_withHeader hs (memOk_scalarLoad hs fun _ _ ht => memOk_scalarLoad ht fun _ _ hu =>
    memOk_scalarLoad hu fun _ _ hw => memOk_ws (memOk_enqueue hw)))

theorem memOk_bookFind (hs : s.memOk) : (s.bookFind home t).1.memOk := by
  unfold State.bookFind
  grind [memOk_modCal]

theorem memOk_withBooking {k : State → DieId → BookFound → Eff} (hs0 : s0.memOk)
    (hk : ∀ t x y, t.memOk → (k t x y).memOk) : (withBooking s0 va tmin num k).memOk := by
  unfold withBooking
  grind [Eff.memOk, memOk_calRead, memOk_modCal, memOk_dispatch, memOk_bookFind]

theorem memOk_withHeaderPage {k : State → Eff} (hs : s.memOk) (hk : ∀ t, t.memOk → (k t).memOk) :
    (withHeaderPage s va k).memOk := by
  unfold withHeaderPage
  grind [Eff.memOk, memOk_withHeader, memOk_checkAccess]

theorem memOk_execBook (hs : s.memOk) : Out.memOk (execBook f s) := by
  unfold execBook
  grind [Eff.memOk, memOk_commit, memOk_withHeaderPage, memOk_withBooking, memOk_ws, memOk_modCal]

theorem memOk_execBookq (hs : s.memOk) : Out.memOk (execBookq f s) := by
  unfold execBookq
  grind [Eff.memOk, memOk_commit, memOk_withHeaderPage, memOk_withBooking, memOk_ws]

theorem memOk_execUnbook (hs : s.memOk) : Out.memOk (execUnbook f s) := by
  unfold execUnbook
  grind [Eff.memOk, memOk_commit, memOk_ws, memOk_cellOf, memOk_endTask]

theorem memOk_execCompact (hs : s.memOk) : Out.memOk (execCompact f s) := by
  unfold execCompact
  grind [Eff.memOk, memOk_commit, memOk_ws, memOk_modCal]

theorem memOk_execGbar (hs : s.memOk) : Out.memOk (execGbar f s) := by
  unfold execGbar
  grind [Eff.memOk, memOk_commit, memOk_illegalWord, memOk_modMe]

theorem memOk_taskLeft (hs : s.memOk) : (s.taskLeft d t).memOk := by
  unfold State.taskLeft
  grind [memOk_endTask, memOk_modTask, memOk_leaveGang, memOk_modCal]

theorem memOk_taskDone (hs : s.memOk) : (s.taskDone d t status).memOk := by
  unfold State.taskDone
  grind [memOk_modTask, memOk_taskLeft]

theorem memOk_execTdone (hs : s.memOk) : Out.memOk (execTdone f s) := by
  unfold execTdone
  grind [Eff.memOk, memOk_commit, memOk_taskDone, memOk_illegalWord]

theorem memOk_execHalt (f : Fields) (hs : s.memOk) : Out.memOk (execHalt f s) := by
  unfold execHalt
  grind [Eff.memOk, memOk_drainStores, memOk_commit, memOk_withSys, memOk_modMe, memOk_taskLeft, memOk_modTask]

theorem memOk_execSlackrd (hs : s.memOk) : Out.memOk (execSlackrd f s) := memOk_commit (memOk_ws hs)
theorem memOk_execCalrdSlot (hs : s.memOk) : Out.memOk (execCalrdSlot f s) := memOk_commit (memOk_ws hs)

theorem memOk_execCalrdOcc (hs : s.memOk) : Out.memOk (execCalrdOcc f s) := by
  unfold execCalrdOcc
  grind [Eff.memOk, memOk_commit, memOk_illegalWord, memOk_ws]

theorem memOk_execCalrdTask (hs : s.memOk) : Out.memOk (execCalrdTask f s) := by
  unfold execCalrdTask
  grind [State.memOk, Eff.memOk, memOk_commit, memOk_ws]

theorem memOk_execYieldt (hs : s.memOk) : Out.memOk (execYieldt f s) := by
  unfold execYieldt
  grind [Eff.memOk, memOk_commit, memOk_illegalWord, memOk_modTask]

end

/-! ## Graphs, collectives and messages -/

section
variable {e : XErr} {s : State} {opc : BitVec 12} {f : Fields} {x : MemCtx} {h : Option HartId} {va tvec : Word}
    {n i node step len : Nat} {c src dst : ClusterId} {k slot : Fin 8} {d : DieId} {g graph : Fin 16}
    {abort bad send : Bool} {a b : ClusterId × Nat} {l : List (ClusterId × Fin 8)} {m : Msg} {mtag : BitVec 16}

theorem XErr.memOk_eff (hs : s.memOk) : (e.eff s opc f).memOk := by
  unfold XErr.eff
  grind [Eff.memOk, memOk_ws]

theorem memOk_descRead (hs : s.memOk) : (descRead s x h va n).1.memOk := by
  unfold descRead
  grind [memOk_checkRun, memOk_modHart]

theorem memOk_modColl {f : CollSlot → CollSlot} (hs : s.memOk) : (s.modColl c k f).memOk := memOk_modCluster hs

theorem memOk_readColl {c : Option ClusterId} (hs : s.memOk) : (readColl s x h c va).1.memOk := by
  unfold readColl
  grind [memOk_descRead]

theorem memOk_readGraph (hs : s.memOk) : (readGraph s x h va).1.memOk := by
  unfold readGraph
  grind [memOk_descRead]

theorem memOk_chooseSlots {l : List GNode} {taken : List (ClusterId × Fin 8)} (hs : s.memOk) :
    (chooseSlots x h l s taken).1.memOk := by
  induction l generalizing s taken with
  | nil => exact hs
  | cons g rest ih => grind [chooseSlots, memOk_readColl]

theorem memOk_modGraph {f : Machine.Graph → Machine.Graph} (hs : s.memOk) : (s.modGraph d g f).memOk :=
  memOk_modDie hs

theorem memOk_startNode (hs : s.memOk) : (s.startNode d g i c k).memOk := by
  unfold State.startNode
  grind [memOk_modGraph, memOk_modColl, memOk_nodeEnds]

theorem memOk_launchNode (hs : s.memOk) : (s.launchNode d g i).memOk := by
  unfold State.launchNode
  grind [memOk_startNode, memOk_nodeEnds, memOk_calRead, memOk_enqueue, memOk_modGraph]

theorem memOk_loadGraph {h : Option HartId} (hs : s.memOk) : (s.loadGraph d x h tvec va).1.memOk := by
  unfold State.loadGraph
  split
  · exact hs
  split
  · exact hs
  grind [memOk_readGraph, memOk_chooseSlots, memOk_foldl, memOk_modColl, memOk_modGraph, memOk_launchNode]

theorem memOk_execGload (hs : s.memOk) : Out.memOk (execGload f s) := by
  unfold execGload
  grind [Eff.memOk, memOk_commit, memOk_withSys, memOk_loadGraph, memOk_ws, XErr.memOk_eff]

theorem memOk_execGsaddrWrite (hs : s.memOk) : Out.memOk (execGsaddrWrite d va s) := by
  unfold execGsaddrWrite
  grind [Out.memOk, memOk_loadGraph, memOk_modDie]

theorem memOk_execGraphNodeLaunch (hs : s.memOk) : Out.memOk (execGraphNodeLaunch d graph node s) := by
  unfold execGraphNodeLaunch
  grind [Out.memOk, memOk_launchNode]

theorem memOk_execGraphPendingRetry (hs : s.memOk) : Out.memOk (execGraphPendingRetry d graph s) := by
  unfold execGraphPendingRetry
  grind [Out.memOk, memOk_launchNode, memOk_foldl]

theorem memOk_execGraphComplete (hs : s.memOk) : Out.memOk (execGraphComplete d graph s) := by
  unfold execGraphComplete
  grind [Out.memOk, memOk_writeCell, memOk_modGraph]

theorem memOk_abortRank (hs : s.memOk) : (s.abortRank c k step abort).memOk := by
  unfold State.abortRank
  grind [memOk_modHart, memOk_nodeEnds, memOk_modColl]

theorem memOk_abortColl (hs : s.memOk) : (s.abortColl c k abort).memOk := by
  unfold State.abortColl
  grind [memOk_abortRank, memOk_foldl]

theorem memOk_sliceWrite {l : List Byte} (hs : s.memOk) : (s.sliceWrite a l bad).memOk := by
  unfold State.sliceWrite
  grind [memOk_setBytes, memOk_poisonLines]

theorem memOk_collStep {d : CollDesc} (hs : s.memOk) : (s.collStep l d n).memOk :=
  memOk_foldl (fun _ _ => memOk_modColl) (memOk_foldl (fun _ _ ht => memOk_foldl (fun _ _ => memOk_sliceWrite) ht) hs)

theorem memOk_collWait (hs : s.memOk) : (s.collWait l).memOk := by
  unfold State.collWait
  grind [memOk_modColl, memOk_foldl]

theorem memOk_execCollectiveStep (hs : s.memOk) : Out.memOk (execCollectiveStep c slot s) := by
  unfold execCollectiveStep
  grind [Out.memOk, memOk_abortColl, memOk_collWait, memOk_collStep]

theorem memOk_execCollectiveComplete (hs : s.memOk) : Out.memOk (execCollectiveComplete c slot s) := by
  unfold execCollectiveComplete
  grind [Out.memOk, memOk_modHart, memOk_nodeEnds, memOk_modColl]

theorem memOk_execCollectiveGraceExpiry (hs : s.memOk) : Out.memOk (execCollectiveGraceExpiry c slot s) := by
  unfold execCollectiveGraceExpiry
  grind [Out.memOk, memOk_abortColl]

theorem memOk_execContextSequencerSwap (hs : s.memOk) : Out.memOk (execContextSequencerSwap c slot s) := by
  unfold execContextSequencerSwap
  grind [Out.memOk, memOk_modColl]

theorem memOk_withCollSlot {k : Fin 8 → CollSlot → Eff} (hs : s.memOk) (hk : ∀ x y, (k x y).memOk) :
    (withCollSlot opc f s k).memOk := by
  unfold withCollSlot
  grind [memOk_illegalWord]

theorem memOk_execGbind (hs : s.memOk) : Out.memOk (execGbind f s) := by
  unfold execGbind
  grind [Eff.memOk, memOk_commit, memOk_withSys, memOk_readColl, XErr.memOk_eff, memOk_ws, memOk_modColl]

theorem memOk_execGbindFree (hs : s.memOk) : Out.memOk (execGbindFree f s) := by
  unfold execGbindFree
  grind [Eff.memOk, memOk_commit, memOk_withSys, memOk_withCollSlot, memOk_illegalWord, memOk_modColl]

theorem memOk_execCstart (hs : s.memOk) : Out.memOk (execCstart f s) := by
  unfold execCstart
  grind [Eff.memOk, memOk_commit, memOk_withCollSlot, memOk_illegalWord, memOk_modColl]

theorem memOk_execCpoll (hs : s.memOk) : Out.memOk (execCpoll f s) :=
  memOk_commit (memOk_withCollSlot hs fun _ _ => memOk_ws hs)

theorem memOk_execCflagrd (hs : s.memOk) : Out.memOk (execCflagrd f s) := by
  unfold execCflagrd
  grind [Eff.memOk, memOk_commit, memOk_withCollSlot, memOk_ws, memOk_illegalWord]

theorem memOk_execCflagset (hs : s.memOk) : Out.memOk (execCflagset f s) := by
  unfold execCflagset
  grind [Eff.memOk, memOk_commit, memOk_withCollSlot, memOk_illegalWord, memOk_modColl]

theorem memOk_execCabort (hs : s.memOk) : Out.memOk (execCabort f s) := by
  unfold execCabort
  grind [Eff.memOk, memOk_commit, memOk_withCollSlot, memOk_illegalWord, memOk_abortColl]

theorem memOk_postMessage (hs : s.memOk) : (postMessage opc f s send).memOk := by
  unfold postMessage
  grind [Eff.memOk, memOk_illegalWord, memOk_modMe, memOk_modCluster]

theorem memOk_execXsend (hs : s.memOk) : Out.memOk (execXsend f s) := memOk_commit (memOk_postMessage hs)
theorem memOk_execXrecv (hs : s.memOk) : Out.memOk (execXrecv f s) := memOk_commit (memOk_postMessage hs)
theorem memOk_faultMsg (hs : s.memOk) : (s.faultMsg m).memOk := memOk_modHart (memOk_modCluster hs)

theorem memOk_execMessageMatch (hs : s.memOk) : Out.memOk (execMessageMatch src dst mtag s) := by
  unfold execMessageMatch
  grind [Out.memOk, memOk_faultMsg, memOk_modCluster]

theorem memOk_moveData (hs : s.memOk) : (s.moveData a b len).memOk := memOk_foldl (fun _ _ => memOk_sliceWrite) hs
theorem memOk_msgDone (hs : s.memOk) : (s.msgDone m).memOk := memOk_modHart (memOk_modCluster hs)

theorem memOk_execMessageTransferComplete (hs : s.memOk) : Out.memOk (execMessageTransferComplete src dst mtag s) := by
  unfold execMessageTransferComplete
  grind [Out.memOk, memOk_msgDone, memOk_moveData]

end

/-! ## Matrix tiles -/

section
variable {s : State} {t m n i : Nat} {v : Machine.SMap Word} {opc : BitVec 12} {f : Fields} {ts : List (BitVec 5)}
    {k : Eff} {fl : FFlags} {load : Bool} {va pitch : Word} {rows : List (Word × Nat)} {p : Option Word} {w : WSlot}
    {a : Nat → Nat → FVal} {c : Option (Nat → FVal)} {shape : ATy → WSlot → Bool} {groups : ATy → List Opnd}
    {go : State → WSlot → ATy → Eff} {ps : List (List MPiece)} {b : List Byte}

theorem memOk_updateTile (hs : s.memOk) : (s.updateTile t v).memOk := memOk_modMe (memOk_modCluster hs)
theorem memOk_drainTile (hs : s.memOk) : (s.drainTile t).memOk := memOk_modCluster hs

theorem memOk_withTiles (hs : s.memOk) (hk : k.memOk) : (withTiles s opc f ts k).memOk := by
  unfold withTiles
  grind [memOk_illegalWord]

theorem memOk_rounded {m : RMode} (hs : s.memOk) : (s.rounded fl m).memOk := memOk_modMe hs

theorem memOk_checkMat (hs : s.memOk) : (checkMat s load va n).1.memOk :=
  memOk_foldl_fst (fun _ _ => memOk_checkPiece) hs

theorem memOk_checkRows (hs : s.memOk) : (checkRows s load rows).1.memOk :=
  memOk_foldl_fst (fun _ _ => memOk_checkMat) hs

theorem memOk_withRows {k : State → List (List MPiece) → Eff} (hs : s.memOk) (hk : ∀ t x, t.memOk → (k t x).memOk) :
    (withRows s opc load rows k).memOk := by
  unfold withRows
  grind [Eff.memOk, memOk_checkRows, memOk_modMe]

theorem memOk_afterPoison (hs : s.memOk) : (s.afterPoison p).memOk := by
  unfold State.afterPoison
  grind [memOk_modMe]

theorem memOk_setSlot (hs : s.memOk) : (s.setSlot i w).memOk := memOk_modMe hs

theorem memOk_loadSlot {k : State → Eff} (hs : s.memOk) (hk : ∀ t, t.memOk → (k t).memOk) :
    (loadSlot s opc i w pitch k).memOk := by
  unfold loadSlot
  grind [Eff.memOk, memOk_withRows, memOk_setSlot]

theorem memOk_withSlot {k : State → WSlot → Eff} (hs : s.memOk) (hk : ∀ t x, t.memOk → (k t x).memOk) :
    (withSlot s opc f k).memOk := by
  unfold withSlot
  grind [memOk_loadSlot]

theorem memOk_execMwload (hs : s.memOk) : Out.memOk (execMwload f s) := by
  unfold execMwload
  grind [Eff.memOk, memOk_commit, memOk_illegalWord, memOk_loadSlot]

theorem memOk_product {k : Nat} (hs : s.memOk) : (product s f w m k a c).memOk := memOk_rounded (memOk_updateTile hs)

theorem memOk_withProduct {k : WSlot → Nat} (hs : s.memOk) (hgo : ∀ t x y, t.memOk → (go t x y).memOk) :
    (withProduct s opc f m k shape groups go).memOk := by
  unfold withProduct
  grind [Eff.memOk, memOk_withTiles, memOk_illegalWord, memOk_withRegs, memOk_withSlot, memOk_rounded]

theorem memOk_execMma (hs : s.memOk) : Out.memOk (execMma f s) :=
  memOk_commit (memOk_withProduct hs fun _ _ _ => memOk_product)

theorem memOk_execMmas (hs : s.memOk) : Out.memOk (execMmas f s) :=
  memOk_commit (memOk_withProduct hs fun _ _ _ => memOk_product)

theorem memOk_execMmax (hs : s.memOk) : Out.memOk (execMmax f s) :=
  memOk_commit (memOk_withProduct hs fun _ _ _ ht => memOk_withRows ht fun _ _ hu =>
    memOk_afterPoison (memOk_product hu))

theorem memOk_execMzero (hs : s.memOk) : Out.memOk (execMzero f s) :=
  memOk_commit (memOk_withTiles hs (memOk_updateTile hs))

theorem memOk_execMcvt (hs : s.memOk) : Out.memOk (execMcvt f s) :=
  memOk_commit (memOk_withTiles hs (memOk_rounded (memOk_updateTile (memOk_drainTile hs))))

theorem memOk_execMldacc (hs : s.memOk) : Out.memOk (execMldacc f s) := by
  unfold execMldacc
  grind [Eff.memOk, memOk_commit, memOk_withTiles, memOk_illegalWord, memOk_rounded, memOk_withRows,
    memOk_afterPoison, memOk_updateTile]

theorem memOk_writeMat (hs : s.memOk) : (s.writeMat ps b).memOk := memOk_writeRun hs

theorem memOk_execMstacc (hs : s.memOk) : Out.memOk (execMstacc f s) := by
  unfold execMstacc
  grind [Eff.memOk, memOk_commit, memOk_withTiles, memOk_illegalWord, memOk_rounded, memOk_withRows, memOk_writeMat,
    memOk_drainTile]

theorem memOk_execMsavea (hs : s.memOk) : Out.memOk (execMsavea f s) := by
  unfold execMsavea
  grind [Eff.memOk, memOk_commit, memOk_withTiles, memOk_withRows, memOk_writeMat, memOk_drainTile]

theorem memOk_execMresta (hs : s.memOk) : Out.memOk (execMresta f s) := by
  unfold execMresta
  grind [Eff.memOk, memOk_commit, memOk_withTiles, memOk_withRows, memOk_afterPoison, memOk_updateTile]

theorem memOk_moveForm {go : State → State × (Nat → Nat → Nat)} (hs : s.memOk) (hgo : ∀ t, t.memOk → (go t).1.memOk) :
    (moveForm s opc f go).memOk := by
  unfold moveForm
  grind [Eff.memOk, memOk_illegalWord, memOk_nonResumable, memOk_rounded, memOk_pushAll, memOk_modMe]

theorem memOk_execMmv (hs : s.memOk) : Out.memOk (execMmv f s) :=
  memOk_commit (memOk_moveForm hs fun _ => memOk_drainTile)

theorem memOk_execMpeek (hs : s.memOk) : Out.memOk (execMpeek f s) := memOk_commit (memOk_moveForm hs fun _ ht => ht)

theorem memOk_execMmvToacc (hs : s.memOk) : Out.memOk (execMmvToacc f s) := by
  unfold execMmvToacc
  grind [Eff.memOk, memOk_commit, memOk_withTiles, memOk_illegalWord, memOk_nonResumable, memOk_rounded,
    memOk_updateTile]

theorem memOk_execMcfg (hs : s.memOk) : Out.memOk (execMcfg f s) := by
  unfold execMcfg
  grind [Eff.memOk, memOk_commit, memOk_illegalWord, memOk_ws, memOk_drainTile, memOk_modMe, memOk_foldl]

theorem memOk_execMcfgRd (hs : s.memOk) : Out.memOk (execMcfgRd f s) := by
  unfold execMcfgRd
  grind [Eff.memOk, memOk_commit, memOk_illegalWord, memOk_ws]

end

/-! ## The key-index directory -/

section
variable {s s0 : State} {d : DieId} {n r va l base size sg t wbase : Nat} {x h : KHead} {k : KRun}
    {go : State → Option Word → Eff} {opc : BitVec 12} {f : Fields} {reg : BitVec 5} {e : Bucket}
    {a : KRun × List Nat × Bool}

theorem memOk_setKHead (hs : s.memOk) : (s.setKHead d n x).memOk := memOk_modDie hs
theorem KRun.memOk_start (hs : s.memOk) : (KRun.start s).s.memOk := hs

theorem KRun.memOk_read (hk : k.s.memOk) : (k.read x r va n).1.s.memOk := by
  unfold KRun.read
  grind

theorem KRun.memOk_write1 {l : List Byte} (hk : k.s.memOk) : (k.write1 x r va l).s.memOk := by
  unfold KRun.write1
  grind [memOk_setBytes]

theorem KRun.memOk_write {l : List Byte} (hk : k.s.memOk) : (k.write x r va l).s.memOk := by
  unfold KRun.write
  grind [KRun.memOk_write1, memOk_foldl_krun]

theorem KRun.memOk_finish (hk : k.s.memOk) (hs0 : s0.memOk) (hgo : ∀ t x, t.memOk → (go t x).memOk) :
    (k.finish s0 go).memOk := by
  unfold KRun.finish
  grind [Eff.memOk]

theorem memOk_withHead {k : Nat → KHead → Eff} (hs : s.memOk) (hk : ∀ x y, (k x y).memOk) :
    (withHead s opc f reg k).memOk := by
  unfold withHead
  grind [memOk_illegalWord]

theorem memOk_onUnit {k : State → Eff} (hs : s.memOk) (hk : ∀ t, t.memOk → (k t).memOk) : Out.memOk (onUnit s k) := by
  unfold onUnit
  grind [Eff.memOk, memOk_commit, memOk_modCluster]

theorem memOk_checkRegion (hs : s.memOk) : (checkRegion s base size).1.memOk := by
  unfold checkRegion
  grind [memOk_translate, memOk_markDirty]

theorem memOk_execKprojDesc (hs : s.memOk) : Out.memOk (execKprojDesc f s) := by
  unfold execKprojDesc
  refine memOk_onUnit hs fun t ht => ?_
  dsimp only
  split
  · exact memOk_illegalWord ht
  split
  · exact ht
  have hr : (checkRun t t.ctx true (s.rs f.b) 128).1.memOk := memOk_checkRun ht
  generalize checkRun t t.ctx true (s.rs f.b) 128 = r at hr ⊢
  split
  · exact hr
  split
  · trivial
  split
  · exact ht
  have hg : (r.1.readRun r.2).1.memOk := memOk_readRun hr
  generalize r.1.readRun r.2 = g at hg ⊢
  split
  · exact memOk_illegalWord hg
  next x _ _ =>
    generalize hc : List.foldl _ (g.1, []) x.regions = c
    have hc : c.1.memOk := hc ▸ memOk_foldl_fst (fun a q ha => memOk_checkRegion ha) hg
    split
    · exact memOk_illegalWord hg
    split
    next e he =>
      obtain ⟨y, -, hy⟩ := List.exists_of_findSome?_eq_some he
      grind [Eff.memOk]
    · exact memOk_setKHead hc

theorem memOk_execKproj (hs : s.memOk) : Out.memOk (execKproj f s) := by
  unfold execKproj
  grind [Eff.memOk, memOk_onUnit, memOk_withHead, memOk_illegalWord, memOk_checkRun, memOk_readRun, memOk_modDie,
    memOk_setKHead]

theorem KRun.memOk_entry (hk : k.s.memOk) : (k.entry h l sg).1.s.memOk := by
  unfold KRun.entry
  grind [KRun.memOk_read]

theorem KRun.memOk_putEntry (hk : k.s.memOk) : (k.putEntry h l sg e).s.memOk := KRun.memOk_write1 hk
theorem KRun.memOk_block (hk : k.s.memOk) : (k.block h n).1.s.memOk := KRun.memOk_read hk

theorem memOk_checkTables {h : KHead} {k : Eff} (hs : s.memOk) (hk : k.memOk) : (checkTables s h k).memOk := by
  unfold checkTables
  split
  next e he =>
    obtain ⟨l, -, h⟩ := List.exists_of_findSome?_eq_some he
    grind [Eff.memOk, KRun.memOk_read, KRun.memOk_start, KRun.memOk_finish]
  next => exact hk

theorem KRun.memOk_allocate (hk : k.s.memOk) : (k.allocate h).1.s.memOk := by
  unfold KRun.allocate
  grind [KRun.memOk_block]

theorem KRun.memOk_link (hk : k.s.memOk) : (k.link h l sg t).1.s.memOk := by
  unfold KRun.link
  grind [KRun.memOk_entry, KRun.memOk_allocate, KRun.memOk_putEntry, KRun.memOk_write, KRun.memOk_block,
    KRun.memOk_write1]

theorem memOk_execKstore (hs : s.memOk) : Out.memOk (execKstore f s) := by
  unfold execKstore
  grind [Eff.memOk, memOk_onUnit, memOk_withHead, memOk_illegalWord, memOk_withRegs, memOk_checkTables, memOk_ws,
    memOk_withRelease, KRun.memOk_write, KRun.memOk_start, KRun.memOk_link, KRun.memOk_finish, memOk_afterPoison,
    memOk_setKHead, memOk_foldl_krun, memOk_foldl_krun_fst]

theorem KRun.memOk_walkChain {m b : Nat} {acc : List Nat} (hk : k.s.memOk) :
    (KRun.walkChain h m k b acc).1.s.memOk := by
  induction m generalizing k b acc with
  | zero => grind [KRun.walkChain]
  | succ m ih => grind [KRun.walkChain, KRun.memOk_block]

theorem KRun.memOk_probe (ha : a.1.s.memOk) : (KRun.probe h a l sg).1.s.memOk := by
  unfold KRun.probe
  grind [KRun.memOk_entry, KRun.memOk_walkChain]

theorem memOk_execKquery (hs : s.memOk) : Out.memOk (execKquery f s) := by
  unfold execKquery
  grind [Eff.memOk, memOk_onUnit, memOk_withHead, memOk_illegalWord, memOk_withRegs, memOk_withStreams,
    memOk_checkTables, memOk_ws, KRun.memOk_start, KRun.memOk_probe, KRun.memOk_finish, memOk_modMe, memOk_pushAll,
    memOk_afterPoison, memOk_foldl_krun_fst]

theorem memOk_execKcount (hs : s.memOk) : Out.memOk (execKcount f s) := by
  unfold execKcount
  grind [Eff.memOk, memOk_onUnit, memOk_withHead, memOk_illegalWord, memOk_withRegs, memOk_checkTables, memOk_ws,
    KRun.memOk_start, KRun.memOk_entry, KRun.memOk_finish, memOk_afterPoison, memOk_foldl_krun_fst]

theorem memOk_execKsig (hs : s.memOk) : Out.memOk (execKsig f s) := by
  unfold execKsig
  grind [Eff.memOk, memOk_onUnit, memOk_withHead, memOk_illegalWord, memOk_withRegs, memOk_withStreams, memOk_pushAll,
    memOk_modMe]

theorem memOk_execKmode (hs : s.memOk) : Out.memOk (execKmode f s) := by
  unfold execKmode
  grind [Eff.memOk, memOk_onUnit, memOk_illegalWord, memOk_modMe]

theorem memOk_execKmodeDense (hs : s.memOk) : Out.memOk (execKmodeDense f s) := by
  unfold execKmodeDense
  grind [Eff.memOk, memOk_onUnit, memOk_withHead, memOk_illegalWord, memOk_setKHead]

theorem KRun.memOk_resetTable (hk : k.s.memOk) : (k.resetTable h l).1.s.memOk := by
  unfold KRun.resetTable
  grind [KRun.memOk_write, KRun.memOk_write1]

theorem memOk_execKreset (hs : s.memOk) : Out.memOk (execKreset f s) := by
  unfold execKreset
  grind [Eff.memOk, memOk_onUnit, memOk_withHead, memOk_withRelease, KRun.memOk_resetTable, KRun.memOk_start,
    KRun.memOk_finish, memOk_setKHead, memOk_foldl_krun_fst]

theorem KRun.memOk_trimChain {m wbase b : Nat} {t : Trim} (hk : k.s.memOk) :
    (KRun.trimChain h wbase m k b t).1.s.memOk := by
  induction m generalizing k b t with
  | zero => grind [KRun.trimChain]
  | succ m ih => grind [KRun.trimChain, KRun.memOk_block]

theorem KRun.memOk_trimBucket {a : KRun × KHead × Nat} (ha : a.1.s.memOk) : (KRun.trimBucket a l sg).1.s.memOk := by
  unfold KRun.trimBucket
  grind [KRun.memOk_read, KRun.memOk_trimChain, KRun.memOk_write1, KRun.memOk_putEntry, memOk_foldl_krun_fst]

theorem memOk_execKtrim (hs : s.memOk) : Out.memOk (execKtrim f s) := by
  unfold execKtrim
  grind [Eff.memOk, memOk_onUnit, memOk_withHead, memOk_illegalWord, memOk_withRelease, KRun.memOk_trimBucket,
    KRun.memOk_start, KRun.memOk_finish, memOk_afterPoison, memOk_ws, memOk_setKHead, memOk_foldl_krun_fst]

end

/-! ## Control registers -/

section
variable {opc : BitVec 12} {f : Fields} {s : State} {write : Bool} {k : CReg → Eff}

theorem memOk_withCReg (hs : s.memOk) (hk : ∀ x, (k x).memOk) : (withCReg opc f s write k).memOk := by
  unfold withCReg
  grind [Eff.memOk, memOk_illegalWord]

theorem memOk_execCrr (hs : s.memOk) : Out.memOk (execCrr f s) := by
  unfold execCrr
  grind [Eff.memOk, memOk_commit, memOk_withCReg, memOk_hsemAcq, memOk_ws]

theorem memOk_execCrw (hs : s.memOk) : Out.memOk (execCrw f s) := by
  unfold execCrw
  grind [Eff.memOk, memOk_commit, memOk_withCReg, memOk_illegalWord, memOk_withRelease, memOk_ws, memOk_hsemRel,
    memOk_modMe]

end

/-! ## Hosts, links and reset -/

section
variable {s : State} {permanent : Bool} {f : Flit} {e : ErrorKind} {d : DieId} {count v : Word} {pa offset : Nat}
    {data : Option (List Byte)} {id : BitVec 8} {power thermal : BitVec 4}

theorem memOk_countError (hs : s.memOk) : (s.countError permanent).memOk := hs

theorem memOk_execFlitReceive (hs : s.memOk) : Out.memOk (execFlitReceive f s) := by
  unfold execFlitReceive
  grind [Out.memOk, memOk_countError, memOk_poisonLines, memOk_setBytes]

theorem memOk_meetError (hs : s.memOk) : (s.meetError e).memOk := by
  unfold State.meetError
  grind [memOk_countError, memOk_poisonLines]

theorem memOk_execSlotSyncSend (d : DieId) (hs : s.memOk) : Out.memOk (execSlotSyncSend d s) := by
  unfold execSlotSyncSend
  grind [State.memOk, Out.memOk]

theorem memOk_execSlotSyncReceive (hs : s.memOk) : Out.memOk (execSlotSyncReceive d count s) := memOk_modDie hs

theorem memOk_execHostHdmAccess (port : Fin 2) (hs : s.memOk) : Out.memOk (execHostHdmAccess port pa data s) := by
  unfold execHostHdmAccess
  grind [Out.memOk, memOk_setBytes]

theorem memOk_execHsemAcquire (hs : s.memOk) : Out.memOk (execHsemAcquire id s) := memOk_hsemAcq hs
theorem memOk_execHsemRelease (hs : s.memOk) : Out.memOk (execHsemRelease id s) := memOk_hsemRel hs
theorem memOk_execHsemRenew (hs : s.memOk) : Out.memOk (execHsemRenew id s) := memOk_hsemRenew hs
theorem memOk_execHsemLeaseExpiry (hs : s.memOk) : Out.memOk (execHsemLeaseExpiry s) := hs

theorem memOk_execRegisterWrite (hs : s.memOk) : Out.memOk (execRegisterWrite offset v s) := by
  unfold execRegisterWrite
  grind [Out.memOk, memOk_ctlWrite]

theorem memOk_execPowerOnReset : Out.memOk (execPowerOnReset s) := memOk_reset
theorem memOk_execDevctlWarm (hs : s.memOk) : (execDevctlWarm s).memOk := SMap.wf_filter hs _

theorem memOk_execDevctlRun (hs : s.memOk) : Out.memOk (execDevctlRun s) := by
  unfold execDevctlRun
  grind [State.memOk, Out.memOk]

theorem memOk_execStretchLevelChange (hs : s.memOk) : Out.memOk (execStretchLevelChange power thermal s) := hs
theorem memOk_execThermalTrip (hs : s.memOk) : Out.memOk (execThermalTrip s) := hs

end

/-! ## The lees stack and reversible forms -/

section
variable {s s0 : State} {load fresh undo hit : Bool} {b va n sp f0 vl len op reg check w foot : Nat} {x : LeesBlock}
    {l chunk : List Byte} {α : Type} {r : RvForm} {k : State → Nat → Eff} {p : Fwd} {opc : BitVec 12} {f : Fields}

theorem memOk_checkBlock (hs : s.memOk) : (checkBlock s load b).memOk := by
  unfold checkBlock
  grind [LGot.memOk, memOk_checkRun]

theorem memOk_readBlock (hs : s.memOk) : (readBlock s b).memOk := by
  unfold readBlock
  grind [LGot.memOk, memOk_checkBlock, memOk_readRun]

theorem memOk_writeBlock (hs : s.memOk) : (writeBlock s x).memOk := by
  unfold writeBlock
  grind [State.memOk, LGot.memOk, memOk_checkBlock, memOk_writeRun]

theorem memOk_needBlock (hs : s.memOk) : (needBlock s b).memOk := by
  unfold needBlock
  grind [LGot.memOk, memOk_modMe, memOk_writeBlock, memOk_readBlock]

theorem memOk_checkSpan (hs : s.memOk) : (checkSpan s va n b).memOk := by
  unfold checkSpan
  grind [LGot.memOk, memOk_checkRun]

theorem memOk_leesPut (hs : s.memOk) : (leesPut s va l).memOk := by
  unfold leesPut
  grind [LGot.memOk, memOk_checkSpan, memOk_writeRun, memOk_needBlock, memOk_modMe, memOk_foldl_lgot]

theorem memOk_leesGet (hs : s.memOk) : (leesGet s va n).memOk := by
  unfold leesGet
  grind [LGot.memOk, memOk_readBlock, memOk_foldl_lgot]

theorem memOk_leesPop (hs : s.memOk) : (leesPop s sp).memOk := by
  unfold leesPop
  grind [LGot.memOk, memOk_modMe, memOk_readBlock]

theorem LGot.memOk_run {r : LGot α} {k : State → α → Eff} (hr : r.memOk) (hs0 : s0.memOk)
    (hk : ∀ t x, t.memOk → (k t x).memOk) : (r.run s0 k).memOk := by
  unfold LGot.run
  grind [Eff.memOk, LGot.memOk]

theorem RvForm.memOk_seal {k : Nat} (hs : s.memOk) : (r.seal s f0 vl k len chunk).memOk := by
  unfold RvForm.seal
  grind [LGot.memOk, memOk_leesPut, memOk_modMe]

theorem RvForm.memOk_groups {n : Nat} {stop : Option Nat} (hs : s.memOk) (hp : p.s.memOk) :
    (r.groups f0 vl fresh n stop s p).memOk := by
  induction n generalizing stop p with
  | zero => exact hp
  | succ n ih =>
    unfold RvForm.groups
    grind [Eff.memOk, LGot.memOk, memOk_fpTrap, RvForm.memOk_seal, memOk_modMe]

theorem RvForm.memOk_finish (hs : s.memOk) : (r.finish s).memOk := memOk_pushAll (memOk_modMe hs)

theorem RvForm.memOk_forwardFrom (hs0 : s0.memOk) (hp : p.s.memOk) : (r.forwardFrom s0 f0 fresh p).memOk := by
  unfold RvForm.forwardFrom
  grind [Eff.memOk, RvForm.memOk_groups, RvForm.memOk_finish]

theorem RvForm.memOk_forward (hs : s.memOk) : (r.forward s opc f).memOk := by
  unfold RvForm.forward
  grind [State.memOk, Eff.memOk, memOk_illegalWord, memOk_withRegs, memOk_withStreams, LGot.memOk_run, memOk_leesPut,
    RvForm.memOk_seal, RvForm.memOk_forwardFrom, memOk_leesGet, RvForm.memOk_finish]

theorem RvForm.memOk_undo (hs : s.memOk) : (r.undo s opc f).memOk := by
  unfold RvForm.undo
  grind [Eff.memOk, memOk_illegalWord, memOk_withRegs, memOk_withStreams, LGot.memOk_run, memOk_leesGet,
    memOk_leesPop, memOk_pushAll, memOk_modMe]

theorem memOk_rvRun {r : Option RvForm} (hs : s.memOk) : (rvRun r opc undo f s).memOk := by
  unfold rvRun
  grind [memOk_illegalWord, RvForm.memOk_undo, RvForm.memOk_forward]

theorem memOk_execRvadd (hs : s.memOk) : Out.memOk (execRvadd f s) := memOk_commit (memOk_rvRun hs)
theorem memOk_execRvsub (hs : s.memOk) : Out.memOk (execRvsub f s) := memOk_commit (memOk_rvRun hs)
theorem memOk_execRvmul (hs : s.memOk) : Out.memOk (execRvmul f s) := memOk_commit (memOk_rvRun hs)
theorem memOk_execRvfma (hs : s.memOk) : Out.memOk (execRvfma f s) := memOk_commit (memOk_rvRun hs)
theorem memOk_execRvnarrow (hs : s.memOk) : Out.memOk (execRvnarrow f s) := memOk_commit (memOk_rvRun hs)
theorem memOk_execRvshr (hs : s.memOk) : Out.memOk (execRvshr f s) := memOk_commit (memOk_rvRun hs)
theorem memOk_execRvrelu (hs : s.memOk) : Out.memOk (execRvrelu f s) := memOk_commit (memOk_rvRun hs)
theorem memOk_execRvscale (hs : s.memOk) : Out.memOk (execRvscale f s) := memOk_commit (memOk_rvRun hs)
theorem memOk_execRvcvt (hs : s.memOk) : Out.memOk (execRvcvt f s) := memOk_commit (memOk_rvRun hs)
theorem memOk_execUnadd (hs : s.memOk) : Out.memOk (execUnadd f s) := memOk_commit (memOk_rvRun hs)
theorem memOk_execUnsub (hs : s.memOk) : Out.memOk (execUnsub f s) := memOk_commit (memOk_rvRun hs)
theorem memOk_execUnmul (hs : s.memOk) : Out.memOk (execUnmul f s) := memOk_commit (memOk_rvRun hs)
theorem memOk_execUnfma (hs : s.memOk) : Out.memOk (execUnfma f s) := memOk_commit (memOk_rvRun hs)
theorem memOk_execUnnarrow (hs : s.memOk) : Out.memOk (execUnnarrow f s) := memOk_commit (memOk_rvRun hs)
theorem memOk_execUnshr (hs : s.memOk) : Out.memOk (execUnshr f s) := memOk_commit (memOk_rvRun hs)
theorem memOk_execUnrelu (hs : s.memOk) : Out.memOk (execUnrelu f s) := memOk_commit (memOk_rvRun hs)
theorem memOk_execUnscale (hs : s.memOk) : Out.memOk (execUnscale f s) := memOk_commit (memOk_rvRun hs)
theorem memOk_execUncvt (hs : s.memOk) : Out.memOk (execUncvt f s) := memOk_commit (memOk_rvRun hs)

theorem memOk_leesPush (hs : s.memOk) : (leesPush s op reg check w).memOk := by
  unfold leesPush
  grind [Eff.memOk, LGot.memOk_run, memOk_leesPut, memOk_modMe]

theorem memOk_execLpush (hs : s.memOk) : Out.memOk (execLpush f s) := memOk_commit (memOk_leesPush hs)
theorem memOk_execLmark (hs : s.memOk) : Out.memOk (execLmark f s) := memOk_commit (memOk_leesPush hs)

theorem memOk_leesTop (hs : s.memOk) (hk : ∀ t x, t.memOk → (k t x).memOk) : (leesTop s k).memOk :=
  LGot.memOk_run (memOk_leesGet hs) hs hk

theorem memOk_leesWord1 (hs : s.memOk) (hk : ∀ t x, t.memOk → (k t x).memOk) : (leesWord1 s foot k).memOk := by
  unfold leesWord1
  grind [LGot.memOk_run, memOk_leesGet]

theorem memOk_popTop {k : State → Eff} (hs : s.memOk) (hk : ∀ t, t.memOk → (k t).memOk) : (popTop s foot k).memOk := by
  unfold popTop
  grind [Eff.memOk, LGot.memOk_run, memOk_leesPop]

theorem memOk_execLpop (hs : s.memOk) : Out.memOk (execLpop f s) := by
  unfold execLpop
  grind [Eff.memOk, memOk_commit, memOk_leesTop, memOk_leesWord1, memOk_popTop, memOk_ws]

theorem memOk_lchkEnd (hs : s.memOk) : (lchkEnd s f foot hit).memOk := by
  unfold lchkEnd
  grind [Eff.memOk, memOk_ws, memOk_popTop]

theorem memOk_execLchk (hs : s.memOk) : Out.memOk (execLchk f s) := by
  unfold execLchk
  grind [Eff.memOk, memOk_commit, memOk_ws, memOk_leesTop, memOk_lchkEnd, memOk_leesWord1]

theorem memOk_leesSpill (hs : s.memOk) : (leesSpill s).memOk := by
  unfold leesSpill
  refine LGot.memOk_run (memOk_foldl_lgot (fun a x ha => ?_) hs) hs fun t _ ht =>
    LGot.memOk_run (memOk_foldl_lgot (fun a x ha => ?_) ht) hs fun u _ hu => memOk_modMe hu
  · have hb (s) (hs : s.memOk) : (checkBlock s false x.blk).memOk := memOk_checkBlock hs
    grind [LGot.memOk]
  · grind [LGot.memOk, memOk_writeBlock]

theorem memOk_execLspill (f : Fields) (hs : s.memOk) : Out.memOk (execLspill f s) := memOk_commit (memOk_leesSpill hs)

end

/-! ## System control -/

section
variable {f : Fields} {s : State} {opc : BitVec 12} {k : HartId → Eff} {t h : HartId} {load : Bool}
    {runs : List (Nat × Nat)} {ps : List (List Piece)} {id : BitVec 8} {v : Word} {r : AuditRecord}

theorem memOk_execTrap (hs : s.memOk) : Out.memOk (execTrap f s) := memOk_commit hs
theorem memOk_execBrk (hs : s.memOk) : Out.memOk (execBrk f s) := memOk_commit hs

theorem memOk_execEret (f : Fields) (hs : s.memOk) : Out.memOk (execEret f s) :=
  memOk_commit (memOk_withSys hs (memOk_gangEret (memOk_modMe hs)))

theorem memOk_execWaitev (hs : s.memOk) : Out.memOk (execWaitev f s) := by
  unfold execWaitev
  grind [Eff.memOk, memOk_commit, memOk_ws, memOk_modMe]

theorem memOk_execSigev (hs : s.memOk) : Out.memOk (execSigev f s) := by
  unfold execSigev
  grind [State.memOk, Eff.memOk, memOk_commit, memOk_withSys, memOk_illegalWord, memOk_withRelease, memOk_evset]

theorem memOk_withHart (hs : s.memOk) (hk : ∀ x, (k x).memOk) : (withHart opc f s k).memOk := by
  unfold withHart
  grind [memOk_illegalWord]

theorem memOk_execHspawn (hs : s.memOk) : Out.memOk (execHspawn f s) := by
  unfold execHspawn
  grind [Eff.memOk, memOk_commit, memOk_withSys, memOk_withHart, memOk_ws, memOk_modHart]

theorem memOk_execHspawnKeep (hs : s.memOk) : Out.memOk (execHspawnKeep f s) := by
  unfold execHspawnKeep
  grind [Eff.memOk, memOk_commit, memOk_withSys, memOk_withHart, memOk_ws, memOk_modHart]

theorem memOk_stopHart (hs : s.memOk) : (s.stopHart t).memOk := by
  unfold State.stopHart
  grind [memOk_modHart, memOk_drainStores, memOk_withdraw]

theorem memOk_execHstop (hs : s.memOk) : Out.memOk (execHstop f s) := by
  unfold execHstop
  grind [Eff.memOk, memOk_commit, memOk_withSys, memOk_withHart, memOk_ws, memOk_stopHart]

theorem memOk_withSaveArea {k : State → List (List Piece) → Eff} (hs : s.memOk)
    (hk : ∀ t x, t.memOk → (k t x).memOk) : (withSaveArea s opc load runs k).memOk := by
  unfold withSaveArea
  grind [Eff.memOk, memOk_withRows, memOk_modMe]

theorem memOk_execVsave (hs : s.memOk) : Out.memOk (execVsave f s) := by
  unfold execVsave
  grind [Eff.memOk, memOk_commit, memOk_withSys, memOk_illegalWord, memOk_withSaveArea, memOk_writeRun, memOk_ws,
    memOk_foldl]

theorem memOk_readSave (hs : s.memOk) : (s.readSave ps).1.memOk := memOk_foldl_fst (fun _ _ => memOk_readRun) hs

theorem memOk_execVrest (hs : s.memOk) : Out.memOk (execVrest f s) := by
  unfold execVrest
  grind [Eff.memOk, memOk_commit, memOk_withSys, memOk_illegalWord, memOk_withSaveArea, memOk_readSave, memOk_ws,
    memOk_modMe]

theorem memOk_execTlbinv (hs : s.memOk) : Out.memOk (execTlbinv f s) := by
  unfold execTlbinv
  grind [State.memOk, Eff.memOk, memOk_commit, memOk_withSys, memOk_modDie]

theorem memOk_execCflush (hs : s.memOk) : Out.memOk (execCflush f s) := by
  unfold execCflush
  grind [Eff.memOk, memOk_commit, memOk_withSys, memOk_illegalWord]

theorem memOk_execPreqWrite (hs : s.memOk) : Out.memOk (execPreqWrite h id s) := memOk_preq hs
theorem memOk_execEvsetWrite (hs : s.memOk) : Out.memOk (execEvsetWrite h v s) := memOk_evset hs
theorem memOk_execHisetWrite (hs : s.memOk) : Out.memOk (execHisetWrite h v s) := memOk_hiset hs

theorem memOk_execPreemptGrant (hs : s.memOk) : Out.memOk (execPreemptGrant h s) := by
  unfold execPreemptGrant
  grind [Out.memOk, memOk_takeAsync, memOk_modHart]

theorem memOk_execHostInterrupt (hs : s.memOk) : Out.memOk (execHostInterrupt h s) := by
  unfold execHostInterrupt
  grind [Out.memOk, memOk_takeAsync, memOk_modHart]

theorem memOk_execEvent (hs : s.memOk) : Out.memOk (execEvent h s) := by
  unfold execEvent
  grind [Out.memOk, memOk_takeAsync]

theorem memOk_execHintAudit (hs : s.memOk) : Out.memOk (execHintAudit h r s) := by
  unfold execHintAudit
  grind [Out.memOk, memOk_fetch, memOk_takeAsync]

end

/-! ## The dispatch -/

/-- Every instruction keeps memory canonical, and so does every step of another agent: an arm names the shared operation
that its meaning is made of, or the lemma about that meaning. -/
theorem memOk_exec {s : State} (i : Instr) (hs : s.memOk) : Out.memOk (exec i s) :=
  match i with
  | .add _ => memOk_execAdd hs
  | .sub _ => memOk_execSub hs
  | .mul _ => memOk_execMul hs
  | .mulh _ => memOk_execMulh hs
  | .div _ => memOk_execDiv hs
  | .rem _ => memOk_execRem hs
  | .and _ => memOk_execAnd hs
  | .or _ => memOk_execOr hs
  | .xor _ => memOk_execXor hs
  | .andn _ => memOk_execAndn hs
  | .shl _ => memOk_execShl hs
  | .shr _ => memOk_execShr hs
  | .rot _ => memOk_execRot hs
  | .min _ => memOk_execMin hs
  | .max _ => memOk_execMax hs
  | .cmp _ => memOk_execCmp hs
  | .sel _ => memOk_execSel hs
  | .clz _ => memOk_execClz hs
  | .ctz _ => memOk_execCtz hs
  | .popc _ => memOk_execPopc hs
  | .bfx _ => memOk_execBfx hs
  | .bfi _ => memOk_execBfi hs
  | .li _ => memOk_execLi hs
  | .lea _ => memOk_execLea hs
  | .leaPc _ => memOk_execLeaPc hs
  | .ld _ => memOk_execLd hs
  | .st _ => memOk_execSt hs
  | .ext _ => memOk_execExt hs
  | .muladd _ => memOk_execMuladd hs
  | .clamp _ => memOk_execClamp hs
  | .brev _ => memOk_execBrev hs
  | .modmul _ => memOk_execModmul hs
  | .modadd _ => memOk_execModadd hs
  | .br _ => memOk_execBr hs
  | .bz _ => memOk_execBz hs
  | .bnz _ => memOk_execBnz hs
  | .jmp _ => memOk_execJmp hs
  | .jmpr _ => memOk_execJmpr hs
  | .call _ => memOk_execCall hs
  | .callr _ => memOk_execCallr hs
  | .ret _ => memOk_execRet hs
  | .loop _ => memOk_execLoop hs
  | .bmask _ => memOk_execBmask hs
  | .nop f => memOk_execNop f hs
  | .halt f => memOk_execHalt f hs
  | .vadd _ => memOk_execVadd hs
  | .vsub _ => memOk_execVsub hs
  | .vrsub _ => memOk_execVrsub hs
  | .vmul _ => memOk_execVmul hs
  | .vmulh _ => memOk_execVmulh hs
  | .vdiv _ => memOk_execVdiv hs
  | .vrem _ => memOk_execVrem hs
  | .vmin _ => memOk_execVmin hs
  | .vmax _ => memOk_execVmax hs
  | .vand _ => memOk_execVand hs
  | .vor _ => memOk_execVor hs
  | .vxor _ => memOk_execVxor hs
  | .vshl _ => memOk_execVshl hs
  | .vshr _ => memOk_execVshr hs
  | .vsadd _ => memOk_execVsadd hs
  | .vssub _ => memOk_execVssub hs
  | .vavg _ => memOk_execVavg hs
  | .vabsd _ => memOk_execVabsd hs
  | .vwadd _ => memOk_execVwadd hs
  | .vwmul _ => memOk_execVwmul hs
  | .vnshr _ => memOk_execVnshr hs
  | .vmodadd _ => memOk_execVmodadd hs
  | .vmodsub _ => memOk_execVmodsub hs
  | .vmodmul _ => memOk_execVmodmul hs
  | .vclz _ => memOk_execVclz hs
  | .vpopc _ => memOk_execVpopc hs
  | .vfadd _ => memOk_execVfadd hs
  | .vfsub _ => memOk_execVfsub hs
  | .vfmul _ => memOk_execVfmul hs
  | .vfdiv _ => memOk_execVfdiv hs
  | .vfma _ => memOk_execVfma hs
  | .vfwma _ => memOk_execVfwma hs
  | .vfmin _ => memOk_execVfmin hs
  | .vfmax _ => memOk_execVfmax hs
  | .vfsqrt _ => memOk_execVfsqrt hs
  | .vfrsq _ => memOk_execVfrsq hs
  | .vfrcp _ => memOk_execVfrcp hs
  | .vfexp _ => memOk_execVfexp hs
  | .vfsgn _ => memOk_execVfsgn hs
  | .vfclass _ => memOk_execVfclass hs
  | .vfcvt _ => memOk_execVfcvt hs
  | .vfscale _ => memOk_execVfscale hs
  | .vfrnd _ => memOk_execVfrnd hs
  | .vfnf _ => memOk_execVfnf hs
  | .vsetl _ => memOk_execVsetl hs
  | .vsetlProgress _ => memOk_execVsetlProgress hs
  | .vsetdim _ => memOk_execVsetdim hs
  | .vcmp _ => memOk_execVcmp hs
  | .vfcmp _ => memOk_execVfcmp hs
  | .mlogic _ => memOk_execMlogic hs
  | .mpopc _ => memOk_execMpopc hs
  | .mffs _ => memOk_execMffs hs
  | .mset _ => memOk_execMset hs
  | .mtolist _ => memOk_execMtolist hs
  | .mtobits _ => memOk_execMtobits hs
  | .viota _ => memOk_execViota hs
  | .vid _ => memOk_execVid hs
  | .vcompress _ => memOk_execVcompress hs
  | .vexpand _ => memOk_execVexpand hs
  | .vperm _ => memOk_execVperm hs
  | .vslide _ => memOk_execVslide hs
  | .vsplat _ => memOk_execVsplat hs
  | .vmvsx _ => memOk_execVmvsx hs
  | .vmvxs _ => memOk_execVmvxs hs
  | .vredsum _ => memOk_execVredsum hs
  | .vredmax _ => memOk_execVredmax hs
  | .vredmin _ => memOk_execVredmin hs
  | .vredlog _ => memOk_execVredlog hs
  | .vscan _ => memOk_execVscan hs
  | .vchain _ => memOk_execVchain hs
  | .vtrans8 _ => memOk_execVtrans8 hs
  | .vmerge _ => memOk_execVmerge hs
  | .vmv _ => memOk_execVmv hs
  | .vmvWhole _ => memOk_execVmvWhole hs
  | .vld _ => memOk_execVld hs
  | .vst _ => memOk_execVst hs
  | .vlds _ => memOk_execVlds hs
  | .vsts _ => memOk_execVsts hs
  | .vldx _ => memOk_execVldx hs
  | .vstx _ => memOk_execVstx hs
  | .vldff _ => memOk_execVldff hs
  | .vldseg _ => memOk_execVldseg hs
  | .vstseg _ => memOk_execVstseg hs
  | .vldmd _ => memOk_execVldmd hs
  | .vstmd _ => memOk_execVstmd hs
  | .vldr _ => memOk_execVldr hs
  | .vstr _ => memOk_execVstr hs
  | .vldbc _ => memOk_execVldbc hs
  | .vpref _ => memOk_execVpref hs
  | .vbind _ => memOk_execVbind hs
  | .vunbind _ => memOk_execVunbind hs
  | .sprog _ => memOk_execSprog hs
  | .sswap _ => memOk_execSswap hs
  | .spref _ => memOk_execSpref hs
  | .sbind _ => memOk_execSbind hs
  | .sunbind _ => memOk_execSunbind hs
  | .srun _ => memOk_execSrun hs
  | .sdrain _ => memOk_execSdrain hs
  | .sstat _ => memOk_execSstat hs
  | .sstatCfg _ => memOk_execSstatCfg hs
  | .stwid _ => memOk_execStwid hs
  | .smod _ => memOk_execSmod hs
  | .sscale _ => memOk_execSscale hs
  | .spatch _ => memOk_execSpatch hs
  | .sinj _ => memOk_execSinj hs
  | .sext _ => memOk_execSext hs
  | .seos _ => memOk_execSeos hs
  | .smark _ => memOk_execSmark hs
  | .sresume _ => memOk_execSresume hs
  | .sresumeImg _ => memOk_execSresumeImg hs
  | .mma _ => memOk_execMma hs
  | .mmax _ => memOk_execMmax hs
  | .mmas _ => memOk_execMmas hs
  | .mzero _ => memOk_execMzero hs
  | .mldacc _ => memOk_execMldacc hs
  | .mstacc _ => memOk_execMstacc hs
  | .msavea _ => memOk_execMsavea hs
  | .mresta _ => memOk_execMresta hs
  | .mmv _ => memOk_execMmv hs
  | .mmvToacc _ => memOk_execMmvToacc hs
  | .mpeek _ => memOk_execMpeek hs
  | .mcvt _ => memOk_execMcvt hs
  | .mwload _ => memOk_execMwload hs
  | .mcfg _ => memOk_execMcfg hs
  | .mcfgRd _ => memOk_execMcfgRd hs
  | .rvadd _ => memOk_execRvadd hs
  | .rvsub _ => memOk_execRvsub hs
  | .rvmul _ => memOk_execRvmul hs
  | .rvfma _ => memOk_execRvfma hs
  | .rvnarrow _ => memOk_execRvnarrow hs
  | .rvshr _ => memOk_execRvshr hs
  | .rvrelu _ => memOk_execRvrelu hs
  | .rvscale _ => memOk_execRvscale hs
  | .rvcvt _ => memOk_execRvcvt hs
  | .lpush _ => memOk_execLpush hs
  | .lpop _ => memOk_execLpop hs
  | .lmark _ => memOk_execLmark hs
  | .lchk _ => memOk_execLchk hs
  | .lspill f => memOk_execLspill f hs
  | .unadd _ => memOk_execUnadd hs
  | .unsub _ => memOk_execUnsub hs
  | .unmul _ => memOk_execUnmul hs
  | .unfma _ => memOk_execUnfma hs
  | .unnarrow _ => memOk_execUnnarrow hs
  | .unshr _ => memOk_execUnshr hs
  | .unrelu _ => memOk_execUnrelu hs
  | .unscale _ => memOk_execUnscale hs
  | .uncvt _ => memOk_execUncvt hs
  | .kproj _ => memOk_execKproj hs
  | .kprojDesc _ => memOk_execKprojDesc hs
  | .kstore _ => memOk_execKstore hs
  | .ksig _ => memOk_execKsig hs
  | .kquery _ => memOk_execKquery hs
  | .kcount _ => memOk_execKcount hs
  | .kreset _ => memOk_execKreset hs
  | .kmode _ => memOk_execKmode hs
  | .kmodeDense _ => memOk_execKmodeDense hs
  | .ktrim _ => memOk_execKtrim hs
  | .book _ => memOk_execBook hs
  | .bookq _ => memOk_execBookq hs
  | .unbook _ => memOk_execUnbook hs
  | .compact _ => memOk_execCompact hs
  | .launch _ => memOk_execLaunch hs
  | .gbar _ => memOk_execGbar hs
  | .tdone _ => memOk_execTdone hs
  | .slackrd _ => memOk_execSlackrd hs
  | .calrdSlot _ => memOk_execCalrdSlot hs
  | .calrdOcc _ => memOk_execCalrdOcc hs
  | .calrdTask _ => memOk_execCalrdTask hs
  | .yieldt _ => memOk_execYieldt hs
  | .rkcopy _ => memOk_execRkcopy hs
  | .rkxpose _ => memOk_execRkxpose hs
  | .rkconv _ => memOk_execRkconv hs
  | .rkfill _ => memOk_execRkfill hs
  | .rkgather _ => memOk_execRkgather hs
  | .rkred _ => memOk_execRkred hs
  | .twaitany _ => memOk_execTwaitany hs
  | .twaitall _ => memOk_execTwaitall hs
  | .tfirst _ => memOk_execTfirst hs
  | .tclr _ => memOk_execTclr hs
  | .tclrCancel _ => memOk_execTclrCancel hs
  | .lda _ => memOk_execLda hs
  | .strel _ => memOk_execStrel hs
  | .fence _ => memOk_execFence hs
  | .amo _ => memOk_execAmo hs
  | .cas _ => memOk_execCas hs
  | .futrd _ => memOk_execFutrd hs
  | .futwr _ => memOk_execFutwr hs
  | .futclr _ => memOk_execFutclr hs
  | .qpush _ => memOk_execQpush hs
  | .qpop _ => memOk_execQpop hs
  | .qtry _ => memOk_execQtry hs
  | .qtryPush _ => memOk_execQtryPush hs
  | .qfence f => memOk_execQfence f hs
  | .pubhw _ => memOk_execPubhw hs
  | .readhw _ => memOk_execReadhw hs
  | .mbar _ => memOk_execMbar hs
  | .gload _ => memOk_execGload hs
  | .gbind _ => memOk_execGbind hs
  | .gbindFree _ => memOk_execGbindFree hs
  | .cstart _ => memOk_execCstart hs
  | .cpoll _ => memOk_execCpoll hs
  | .cflagrd _ => memOk_execCflagrd hs
  | .cflagset _ => memOk_execCflagset hs
  | .cabort _ => memOk_execCabort hs
  | .xsend _ => memOk_execXsend hs
  | .xrecv _ => memOk_execXrecv hs
  | .trap _ => memOk_execTrap hs
  | .eret f => memOk_execEret f hs
  | .crr _ => memOk_execCrr hs
  | .crw _ => memOk_execCrw hs
  | .waitev _ => memOk_execWaitev hs
  | .sigev _ => memOk_execSigev hs
  | .hspawn _ => memOk_execHspawn hs
  | .hspawnKeep _ => memOk_execHspawnKeep hs
  | .hstop _ => memOk_execHstop hs
  | .vsave _ => memOk_execVsave hs
  | .vrest _ => memOk_execVrest hs
  | .tlbinv _ => memOk_execTlbinv hs
  | .cflush _ => memOk_execCflush hs
  | .brk _ => memOk_execBrk hs
  | .hintAudit _ _ => memOk_execHintAudit hs
  | .futurePoll _ => memOk_execFuturePoll hs
  | .rdupInvalidationAck _ _ _ => memOk_execRdupInvalidationAck hs
  | .copyStart _ _ => memOk_execCopyStart hs
  | .copyComplete _ _ => memOk_execCopyComplete hs
  | .dispatchCheck _ _ => memOk_execDispatchCheck hs
  | .readySetEntry _ _ => memOk_execReadySetEntry hs
  | .queueAgePromotion _ _ => memOk_execQueueAgePromotion hs
  | .calendarPass _ => memOk_execCalendarPass hs
  | .rollingOccurrenceReserve d => memOk_execRollingOccurrenceReserve d hs
  | .xdiePrepare _ _ _ => memOk_execXdiePrepare hs
  | .xdieReply _ _ _ => memOk_execXdieReply hs
  | .xdieCommit _ _ _ => memOk_execXdieCommit hs
  | .xdieAbort _ _ _ => memOk_execXdieAbort hs
  | .gangStart _ _ => memOk_execGangStart hs
  | .bookedOccurrenceConflict _ _ => memOk_execBookedOccurrenceConflict hs
  | .overrun _ _ => memOk_execOverrun hs
  | .compaction _ => memOk_execCompaction hs
  | .prefetchLoadComplete _ => memOk_execPrefetchLoadComplete hs
  | .nodeIn _ _ => memOk_execNodeIn hs
  | .nodeOut _ _ => memOk_execNodeOut hs
  | .nodeStage _ _ => memOk_execNodeStage hs
  | .nodePerm _ _ => memOk_execNodePerm hs
  | .nodeXperm _ _ => memOk_execNodeXperm hs
  | .nodePoint _ _ => memOk_execNodePoint hs
  | .nodeSteer _ _ => memOk_execNodeSteer hs
  | .nodeMerge _ _ => memOk_execNodeMerge hs
  | .nodeCarry _ _ => memOk_execNodeCarry hs
  | .nodeInv _ _ => memOk_execNodeInv hs
  | .nodeXchg _ _ => memOk_execNodeXchg hs
  | .endOfStream _ _ => memOk_execEndOfStream hs
  | .preemptMarker _ _ => memOk_execPreemptMarker hs
  | .streamGeneratorHold _ _ => memOk_execStreamGeneratorHold hs
  | .streamFault _ => memOk_execStreamFault hs
  | .programEnd _ => memOk_execProgramEnd hs
  | .drainPoint _ => memOk_execDrainPoint hs
  | .contextSequencerSwap _ _ => memOk_execContextSequencerSwap hs
  | .collectiveStep _ _ => memOk_execCollectiveStep hs
  | .collectiveComplete _ _ => memOk_execCollectiveComplete hs
  | .collectiveGraceExpiry _ _ => memOk_execCollectiveGraceExpiry hs
  | .messageMatch _ _ _ => memOk_execMessageMatch hs
  | .messageTransferComplete _ _ _ => memOk_execMessageTransferComplete hs
  | .graphNodeLaunch _ _ _ => memOk_execGraphNodeLaunch hs
  | .graphPendingRetry _ _ => memOk_execGraphPendingRetry hs
  | .graphComplete _ _ => memOk_execGraphComplete hs
  | .flitReceive _ => memOk_execFlitReceive hs
  | .slotSyncSend d => memOk_execSlotSyncSend d hs
  | .slotSyncReceive _ _ => memOk_execSlotSyncReceive hs
  | .hostHdmAccess port _ _ => memOk_execHostHdmAccess port hs
  | .gsaddrWrite _ _ => memOk_execGsaddrWrite hs
  | .hsemAcquire _ => memOk_execHsemAcquire hs
  | .hsemRelease _ => memOk_execHsemRelease hs
  | .hsemRenew _ => memOk_execHsemRenew hs
  | .hsemLeaseExpiry => memOk_execHsemLeaseExpiry hs
  | .preqWrite _ _ => memOk_execPreqWrite hs
  | .evsetWrite _ _ => memOk_execEvsetWrite hs
  | .hisetWrite _ _ => memOk_execHisetWrite hs
  | .preemptGrant _ => memOk_execPreemptGrant hs
  | .hostInterrupt _ => memOk_execHostInterrupt hs
  | .event _ => memOk_execEvent hs
  | .registerWrite _ _ => memOk_execRegisterWrite hs
  | .powerOnReset => memOk_execPowerOnReset
  | .devctlRun => memOk_execDevctlRun hs
  | .devctlWarm => memOk_execDevctlWarm hs
  | .stretchLevelChange _ _ => memOk_execStretchLevelChange hs
  | .thermalTrip => memOk_execThermalTrip hs
  | .copyLineWrite _ _ => memOk_execCopyLineWrite hs

/-! ## The clock -/

section
variable {s : State} {h : HartId} {ready : Bool} {r : Option (Nat × Nat)} {path : Option (ClusterId × ClusterId)}

theorem memOk_unswap (hs : s.memOk) : (s.unswap).memOk := by
  unfold State.unswap
  grind [State.memOk]

theorem memOk_thawDue (hs : s.memOk) : (s.thawDue).memOk := by
  unfold State.thawDue
  grind [memOk_thaw, memOk_foldl]

theorem memOk_newSlot (hs : s.memOk) : (s.newSlot).memOk := by
  unfold State.newSlot
  grind [State.memOk, memOk_unswap, memOk_thawDue]

theorem memOk_miss (hs : s.memOk) : (s.miss h ready).memOk := memOk_modHart hs

theorem memOk_chargeCycle (hs : s.memOk) : (s.chargeCycle).memOk := by
  unfold State.chargeCycle
  grind [State.memOk, memOk_lose, memOk_miss, memOk_stall, memOk_foldl]

theorem memOk_tick (hs : s.memOk) : (tick s).memOk := by
  unfold tick
  grind [State.memOk, memOk_chargeCycle, memOk_newSlot]

theorem memOk_interlock (hs : s.memOk) : (interlock s h).memOk := by
  unfold interlock
  grind [memOk_miss, memOk_stall]

theorem memOk_slipTurn (hs : s.memOk) : (slipTurn s h r path).memOk := by
  unfold slipTurn
  grind [memOk_lose]

end

/-! ## One step -/

section
variable {s : State} {h : HartId} {i : Instr} {n : Nat} {req : BitVec 8} {t : Turn}

theorem memOk_issueInstr (hs : s.memOk) : Out.memOk (issueInstr s h i) := by
  have he : Out.memOk (exec i (s.prepare h i)) := memOk_exec i (memOk_prepare hs)
  unfold issueInstr
  split
  next t ht =>
    rw [ht] at he
    exact memOk_addEntry he
  next => trivial
  next => trivial

theorem memOk_issueNext (hs : s.memOk) : Out.memOk (issueNext s h) := by
  unfold issueNext
  grind [Out.memOk, memOk_fetch, memOk_modHart, memOk_raise, memOk_withdraw, memOk_issueInstr, memOk_auditTrap]

theorem memOk_hartStep (hs : s.memOk) : Out.memOk (hartStep s h) := by
  unfold hartStep
  grind [Out.memOk, memOk_issueNext, memOk_takePending, memOk_exec]

theorem memOk_cutStep (hs : s.memOk) : Out.memOk (cutStep s h n req) := by
  have hc : Out.memOk (hartStep { s with stopAfter := some n } h) := memOk_hartStep hs
  unfold cutStep
  split
  next t ht =>
    rw [ht] at hc
    exact memOk_preq hc
  next => trivial
  next => trivial

theorem memOk_turnStep (hs : s.memOk) : Out.memOk (turnStep s t) := by
  cases t with
  | hart h => exact memOk_hartStep hs
  | cut h n req => exact memOk_cutStep hs
  | event e => exact memOk_exec e.instr hs
  | tick => exact memOk_tick hs
  | interlock h => exact memOk_interlock hs
  | slip h r path => exact memOk_slipTurn hs
  | error e => exact memOk_meetError hs
  | evict d n => exact memOk_modDie hs

theorem memOk_step (hs : s.memOk) : Out.memOk (step s) := by
  unfold step
  split
  · exact memOk_hartStep hs
  · exact memOk_turnStep hs

end

/-- Settles O9: what a step answers is canonical, by the dispatch and the lemma of each mover. -/
theorem everyStepKeepsMemoryCanonical : Obligations.EveryStepKeepsMemoryCanonical := by
  intro s t hs e
  have h := memOk_step hs
  rw [e] at h
  exact h

end Sys2Proof.Machine
end

section
/-!
What reset leaves (14 R352, R362, R368; 12 R326): every hart and every die starts as the one reset record of its kind.
-/

namespace Sys2Proof.Machine

@[simp] theorem State.hart_reset (h : HartId) : State.reset.hart h = Hart.reset := by
  simp [State.hart, State.reset]

@[simp] theorem State.die_reset (d : DieId) : State.reset.die d = Die.reset := by
  simp [State.die, State.reset]

/-- Settles O11, by the reset record that all harts share and the one that all dies share. -/
theorem resetState : Obligations.ResetState := by
  refine ⟨fun h => ?hart, fun d => ?die, rfl, rfl, rfl⟩
  case hart =>
    rw [State.hart_reset]
    simp [Hart.reset, Status.reset]
  case die =>
    rw [State.die_reset]
    simp [Die.reset]

end Sys2Proof.Machine
end
